-- ==== Sys2Proof/Word.lean ====
section
/-! DEFINITION. The word types of the machine, and the eight bytes of the fetch window.

Bytes, halves and words are bit vectors because the spec slices, concatenates and wraps them
(spec/00_scope.md R11, R12). A memory cell's key is a plain natural number. -/

namespace Sys2Proof

/-- One byte: the unit of memory (spec/20_memory.md R60). -/
abbrev Byte := BitVec 8

/-- A 16-bit value: a general register or F (spec/10_state.md R21, R30). -/
abbrev Half := BitVec 16

/-- A 32-bit value: an address, a pointer register, a register pair (spec/10_state.md R23, R26). -/
abbrev Word := BitVec 32

/-- The eight bytes `WIN[0..7]` of the fetch window (spec/10_state.md R38, spec/20_memory.md R90). -/
structure Window where
  b0 : Byte
  b1 : Byte
  b2 : Byte
  b3 : Byte
  b4 : Byte
  b5 : Byte
  b6 : Byte
  b7 : Byte
  deriving DecidableEq, Repr

end Sys2Proof
end

