-- ==== Sys2Proof/Config.lean ====
section
/-! DEFINITION. What an implementation fixes (spec/00_scope.md R6, R7; spec/93_implementation_defined.md
U9, U10): the document's numeric literals, the types of the platform's open parameters with the values
State.reset takes for them, and the free values of devices, which have no body. -/

namespace Sys2Proof

/-- The two kinds of memory controller (spec/20_memory.md R63): an array of bytes, or anything else. -/
inductive CtrlKind where
  | ram
  | device
  deriving DecidableEq, Repr

/-- One segment: a range of addresses bound to one controller, the controller's two constant privilege
attributes, and the cacheability flag (spec/20_memory.md R61, R62). -/
structure Segment where
  start : Nat
  size : Nat
  kind : CtrlKind
  readNeedsPriv : Bool
  writeNeedsPriv : Bool
  cacheable : Bool
  deriving DecidableEq, Repr

/-- The open parameters of the platform (spec/00_scope.md R6, spec/92_eei_decisions.md section 1): SEGMENTS,
CACHE_ENABLED, NLINES given as its logarithm, since NLINES is a power of two (spec/20_memory.md R75), and
RESET_IP (spec/70_reset_and_hazards.md R431). -/
structure Platform where
  segments : List Segment
  cacheEnabled : Bool
  lineBits : Nat
  resetIp : Word
  deriving DecidableEq, Repr

/-- One call of a device controller: the start of its segment, the segment-local offset, and the byte
answered or written (spec/20_memory.md R62, R63). -/
inductive DeviceCall where
  | read (segStart offset : Nat) (answer : Byte)
  | write (segStart offset : Nat) (value : Byte)
  deriving DecidableEq, Repr

/-- What a device may do to the core while it is called (spec/20_memory.md R63). -/
inductive DeviceEvent where
  | fireMaskable (v : BitVec 8)
  | fireNonMaskable (v : BitVec 8)
  | setHalted
  deriving DecidableEq, Repr

namespace Config

/-- Vector of MemoryFault (spec/60_exceptions.md R381). -/
abbrev vecMemory : BitVec 8 := 0x08#8
/-- Vector of DivisionFault (spec/60_exceptions.md R381). -/
abbrev vecDivision : BitVec 8 := 0x0D#8
/-- Vector of DecodingFault (spec/60_exceptions.md R381). -/
abbrev vecDecoding : BitVec 8 := 0x0F#8
/-- Vector of GeneralProtectionFault (spec/60_exceptions.md R381). -/
abbrev vecGeneralProtection : BitVec 8 := 0x10#8
/-- Vector of UnprivilegedAccessFault (spec/60_exceptions.md R381). -/
abbrev vecUnprivilegedAccess : BitVec 8 := 0x11#8
/-- The one vector unprivileged code may raise (spec/60_exceptions.md R393, spec/47_system.md R372). -/
abbrev vecSyscall : BitVec 8 := 0x20#8

/-- Bytes in the fetch window (spec/00_scope.md R6 WINDOW). -/
abbrev windowBytes : Nat := 8
/-- Bytes in the longest instruction (spec/00_scope.md R6 MAX_ILEN). -/
abbrev maxInstrBytes : Nat := 8
/-- How far IP may have moved, either way, for the window to keep bytes: the shift range -7 to +7
(spec/00_scope.md R7, spec/20_memory.md R92). -/
abbrev maxShift : Int := 7
/-- Bytes in a cache line (spec/00_scope.md R6 LINE). -/
abbrev lineBytes : Nat := 32
/-- Bytes per access of a line's flush or load (spec/20_memory.md R78). -/
abbrev lineChunk : Nat := 4
/-- How many vectors there are (spec/00_scope.md R6 VECTORS): as many as a vector's 8 bits number. -/
abbrev vectors : Nat := 256
/-- Where the vector table begins (spec/00_scope.md R6, spec/60_exceptions.md R393). -/
abbrev vectorBase : Nat := 0
/-- Bytes per vector-table entry (spec/60_exceptions.md R393). -/
abbrev vectorStride : Nat := 4
/-- Bytes in an interrupt frame (spec/60_exceptions.md R389). -/
abbrev frameBytes : Nat := 16
/-- How far below the active stack pointer the frame's saved IP stands (spec/60_exceptions.md R389). -/
abbrev frameIp : Nat := 4
/-- How far below the active stack pointer the frame's saved BP stands (spec/60_exceptions.md R389). -/
abbrev frameBp : Nat := 8
/-- How far below the active stack pointer the frame's saved SP stands (spec/60_exceptions.md R389). -/
abbrev frameSp : Nat := 12
/-- How far below the active stack pointer the frame's flags word stands (spec/60_exceptions.md R389). -/
abbrev frameFlags : Nat := 16
/-- The widest read a controller serves (spec/20_memory.md R68): fetch runs are split at it (R93). -/
abbrev maxAccess : Nat := 4

/-- The spec's default of RESET_IP, 0x00000400: the first address after the vector table
(spec/70_reset_and_hazards.md R431). Log 8. -/
abbrev defaultResetIp : Word := BitVec.ofNat 32 (vectorBase + vectors * vectorStride)

/-- What a RAM byte that nothing has written reads as. DESIGN CHOICE, unsafe: the spec leaves RAM at
power-up to the host (spec/92_eei_decisions.md section 3). Log 1. -/
abbrev unlistedByte : Byte := 0x00#8

/-- The platform State.reset takes: the one RAM segment of the spec's test programs
(spec/95_test_vectors.md), cacheable, with the cache off, and NLINES and RESET_IP at their defaults. DESIGN
CHOICE, logs 2 and 8: the parameters are open and every statement quantifies over them. -/
def defaultPlatform : Platform :=
  { segments := [{ start := 0, size := 0x10000, kind := .ram, readNeedsPriv := false,
                   writeNeedsPriv := false, cacheable := true }]
    cacheEnabled := false
    lineBits := 8
    resetIp := defaultResetIp }

/-- FREE VALUE: the byte a device answers to a `readByte` call, for the call's number and its place
(spec/93_implementation_defined.md U3). No body: nothing can be proved of it. Log 5. -/
opaque deviceByte (call segStart offset : Nat) : Byte

/-- FREE VALUE: what a device does to the core during a call, for the call's number and the call
(spec/93_implementation_defined.md U3). No body: nothing can be proved of it. Log 5. -/
opaque deviceEvents (call : Nat) (c : DeviceCall) : List DeviceEvent

end Config
end Sys2Proof
end

