-- ==== Sys2Proof/Syntax.lean ====
section
/-! DEFINITION. The instructions as syntax: operand forms with the encoding's choices resolved into
constructors (spec/30_encoding.md R120 to R146), and `Instr`, one constructor per row of
spec/opcode_table.json. Register fields are numbers below the count of registers of their width, so a
32-bit field of 6 or 7 (R128) is no term at all. -/

namespace Sys2Proof

/-- Operand widths (spec/00_scope.md R6): 8, 16 and 32 bits. -/
inductive Width where
  | b8
  | b16
  | b32
  deriving DecidableEq, Repr

/-- Bits of an operand of the width. -/
abbrev Width.bits : Width → Nat
  | .b8 => 8
  | .b16 => 16
  | .b32 => 32

/-- Bytes of an operand of the width. -/
abbrev Width.bytes : Width → Nat
  | .b8 => 1
  | .b16 => 2
  | .b32 => 4

/-- How many registers a 3-bit field may name at the width (spec/30_encoding.md R128). -/
abbrev Width.regs : Width → Nat
  | .b8 => 8
  | .b16 => 8
  | .b32 => 6

/-- Lane widths of packed operations (spec/30_encoding.md R127): `s = 0` bytes, `s = 1` nibbles. -/
inductive Lane where
  | byte
  | nibble
  deriving DecidableEq, Repr

/-- The base field of a BIO byte (spec/30_encoding.md R140). -/
inductive Base where
  | da
  | bc
  | ji
  | lk
  | bp
  | sp
  | ip
  | zero
  deriving DecidableEq, Repr

/-- The scale of an index (spec/30_encoding.md R142). -/
inductive Scale where
  | x1
  | x2
  | x4
  deriving DecidableEq, Repr

/-- A scaled index: the number of a 16-bit register and its scale (spec/30_encoding.md R142). -/
structure Index where
  reg : Fin 8
  scale : Scale
  deriving DecidableEq, Repr

/-- A memory operand as encoded: shape 1, shape 2, and shape 3 with each offset width
(spec/30_encoding.md R131, R132, R143). With an index the offset of shape 3 is always 4 bytes. -/
inductive MemOp where
  | abs (addr : Word)
  | plain (base : Base)
  | indexed (base : Base) (ix : Index)
  | off8 (base : Base) (off : BitVec 8)
  | off16 (base : Base) (off : BitVec 16)
  | off32 (base : Base) (off : BitVec 32)
  | indexedOff (base : Base) (ix : Index) (off : BitVec 32)
  deriving DecidableEq, Repr

/-- The two-operand form `RIM2` (spec/30_encoding.md R129): register and register, register and
immediate, register and memory, memory and register. The destination is always the first. -/
inductive Rim2 (wd ws : Width) where
  | rr (dst : Fin wd.regs) (src : Fin ws.regs)
  | ri (dst : Fin wd.regs) (imm : BitVec ws.bits)
  | rm (dst : Fin wd.regs) (m : MemOp)
  | mr (m : MemOp) (src : Fin ws.regs)
  deriving DecidableEq, Repr

/-- The source-only form `RIMSRC` (spec/30_encoding.md R134). -/
inductive RimSrc (w : Width) where
  | reg (x : Fin w.regs)
  | imm (v : BitVec w.bits)
  | mem (m : MemOp)
  deriving DecidableEq, Repr

/-- The destination-only form `RIMDST` (spec/30_encoding.md R135). -/
inductive RimDst (w : Width) where
  | reg (x : Fin w.regs)
  | mem (m : MemOp)
  deriving DecidableEq, Repr

/-- `RIM2` with width kind SZ (spec/30_encoding.md R127): `s = 0` 16 bits, `s = 1` 8 bits. -/
inductive Rim2Sz where
  | w16 (o : Rim2 .b16 .b16)
  | w8 (o : Rim2 .b8 .b8)
  deriving DecidableEq, Repr

/-- `RIM2` with width kind PROM (spec/30_encoding.md R127): the destination is twice the source. -/
inductive Rim2Prom where
  | w16 (o : Rim2 .b32 .b16)
  | w8 (o : Rim2 .b16 .b8)
  deriving DecidableEq, Repr

/-- `RIMSRC` with width kind SZ. -/
inductive RimSrcSz where
  | w16 (o : RimSrc .b16)
  | w8 (o : RimSrc .b8)
  deriving DecidableEq, Repr

/-- `RIMDST` with width kind SZ. -/
inductive RimDstSz where
  | w16 (o : RimDst .b16)
  | w8 (o : RimDst .b8)
  deriving DecidableEq, Repr

/-- The instructions: one constructor per row of the opcode table (spec/30_encoding.md R160), in its
order. A condition byte is kept as the byte it is; `WellFormed` says which are conditions. -/
inductive Instr where
  /-- 0x00 NOP -/
  | nop
  /-- 0x01 HLT -/
  | hlt
  /-- 0x02 RET -/
  | ret
  /-- 0x03 IRET -/
  | iret
  /-- 0x04 INT imm8 -/
  | int (v : BitVec 8)
  /-- 0x08 MOV ISP, src -/
  | movToIsp (o : RimSrc .b32)
  /-- 0x09 MOV dst, ISP -/
  | movFromIsp (o : RimDst .b32)
  /-- 0x0A MOV PF, src -/
  | movToPf (o : RimSrc .b16)
  /-- 0x0B MOV dst, PF -/
  | movFromPf (o : RimDst .b16)
  /-- 0x0C PUSH PF -/
  | pushPf
  /-- 0x0D POP PF -/
  | popPf
  /-- 0x10 MOV A, imm16 -/
  | movImmA (imm : BitVec 16)
  /-- 0x11 MOV B, imm16 -/
  | movImmB (imm : BitVec 16)
  /-- 0x12 MOV C, imm16 -/
  | movImmC (imm : BitVec 16)
  /-- 0x13 MOV D, imm16 -/
  | movImmD (imm : BitVec 16)
  /-- 0x14 MOV I, imm16 -/
  | movImmI (imm : BitVec 16)
  /-- 0x15 MOV J, imm16 -/
  | movImmJ (imm : BitVec 16)
  /-- 0x16 MOV K, imm16 -/
  | movImmK (imm : BitVec 16)
  /-- 0x17 MOV L, imm16 -/
  | movImmL (imm : BitVec 16)
  /-- 0x18 MOV dst, src -/
  | mov (o : Rim2Sz)
  /-- 0x19 MOVW dst, src -/
  | movw (o : Rim2 .b32 .b32)
  /-- 0x1A MOVS dst, src -/
  | movs (o : Rim2Prom)
  /-- 0x1B MOVZ dst, src -/
  | movz (o : Rim2Prom)
  /-- 0x1C CMOV dst, src, cc -/
  | cmov (o : Rim2Sz) (cc : BitVec 8)
  /-- 0x1D PCMOV dst, src, cc -/
  | pcmov (l : Lane) (o : Rim2 .b16 .b16) (cc : BitVec 8)
  /-- 0x20 PUSH A -/
  | pushA
  /-- 0x21 PUSH B -/
  | pushB
  /-- 0x22 PUSH C -/
  | pushC
  /-- 0x23 PUSH D -/
  | pushD
  /-- 0x24 PUSH I -/
  | pushI
  /-- 0x25 PUSH J -/
  | pushJ
  /-- 0x26 PUSH K -/
  | pushK
  /-- 0x27 PUSH L -/
  | pushL
  /-- 0x28 POP A -/
  | popA
  /-- 0x29 POP B -/
  | popB
  /-- 0x2A POP C -/
  | popC
  /-- 0x2B POP D -/
  | popD
  /-- 0x2C POP I -/
  | popI
  /-- 0x2D POP J -/
  | popJ
  /-- 0x2E POP K -/
  | popK
  /-- 0x2F POP L -/
  | popL
  /-- 0x30 PUSH BP -/
  | pushBp
  /-- 0x31 PUSH SP -/
  | pushSp
  /-- 0x32 POP BP -/
  | popBp
  /-- 0x33 POP SP -/
  | popSp
  /-- 0x34 PUSH src -/
  | push (o : RimSrcSz)
  /-- 0x35 POP dst -/
  | pop (o : RimDstSz)
  /-- 0x36 PUSHW src -/
  | pushw (o : RimSrc .b32)
  /-- 0x37 POPW dst -/
  | popw (o : RimDst .b32)
  /-- 0x40 ADD dst, src -/
  | add (o : Rim2Sz)
  /-- 0x41 ADC dst, src -/
  | adc (o : Rim2Sz)
  /-- 0x42 SUB dst, src -/
  | sub (o : Rim2Sz)
  /-- 0x43 SBB dst, src -/
  | sbb (o : Rim2Sz)
  /-- 0x44 CMP dst, src -/
  | cmp (o : Rim2Sz)
  /-- 0x45 CMPI dst, imm8 -/
  | cmpi (o : RimDstSz) (imm : BitVec 8)
  /-- 0x48 ADDW dst, src -/
  | addw (o : Rim2 .b32 .b32)
  /-- 0x49 ADCW dst, src -/
  | adcw (o : Rim2 .b32 .b32)
  /-- 0x4A SUBW dst, src -/
  | subw (o : Rim2 .b32 .b32)
  /-- 0x4B SBBW dst, src -/
  | sbbw (o : Rim2 .b32 .b32)
  /-- 0x4C CMPW dst, src -/
  | cmpw (o : Rim2 .b32 .b32)
  /-- 0x50 PADD dst, src -/
  | padd (l : Lane) (o : Rim2 .b16 .b16)
  /-- 0x51 PADC dst, src -/
  | padc (l : Lane) (o : Rim2 .b16 .b16)
  /-- 0x52 PSUB dst, src -/
  | psub (l : Lane) (o : Rim2 .b16 .b16)
  /-- 0x53 PSBB dst, src -/
  | psbb (l : Lane) (o : Rim2 .b16 .b16)
  /-- 0x54 PCMP dst, src -/
  | pcmp (l : Lane) (o : Rim2 .b16 .b16)
  /-- 0x60 MUL dst, src -/
  | mul (o : Rim2Sz)
  /-- 0x61 MULH dst, src -/
  | mulh (o : Rim2Prom)
  /-- 0x62 MULSH dst, src -/
  | mulsh (o : Rim2Prom)
  /-- 0x63 DIV dst, src -/
  | div (o : Rim2Sz)
  /-- 0x64 DIVS dst, src -/
  | divs (o : Rim2Sz)
  /-- 0x65 DIVM dst, src -/
  | divm (o : Rim2Prom)
  /-- 0x66 DIVMS dst, src -/
  | divms (o : Rim2Prom)
  /-- 0x68 PMUL dst, src -/
  | pmul (l : Lane) (o : Rim2 .b16 .b16)
  /-- 0x69 PMULH dst, src -/
  | pmulh (l : Lane) (o : Rim2 .b32 .b16)
  /-- 0x6A PMULSH dst, src -/
  | pmulsh (l : Lane) (o : Rim2 .b32 .b16)
  /-- 0x6B PDIV dst, src -/
  | pdiv (l : Lane) (o : Rim2 .b16 .b16)
  /-- 0x6C PDIVS dst, src -/
  | pdivs (l : Lane) (o : Rim2 .b16 .b16)
  /-- 0x6D PDIVM dst, src -/
  | pdivm (l : Lane) (o : Rim2 .b32 .b16)
  /-- 0x6E PDIVMS dst, src -/
  | pdivms (l : Lane) (o : Rim2 .b32 .b16)
  /-- 0x70 AND dst, src -/
  | and (o : Rim2Sz)
  /-- 0x71 OR dst, src -/
  | or (o : Rim2Sz)
  /-- 0x72 XOR dst, src -/
  | xor (o : Rim2Sz)
  /-- 0x73 NOT dst -/
  | not (o : RimDstSz)
  /-- 0x80 SHL dst, cnt -/
  | shl (o : Rim2Sz)
  /-- 0x81 SHR dst, cnt -/
  | shr (o : Rim2Sz)
  /-- 0x82 SAR dst, cnt -/
  | sar (o : Rim2Sz)
  /-- 0x83 ROL dst, cnt -/
  | rol (o : Rim2Sz)
  /-- 0x84 ROR dst, cnt -/
  | ror (o : Rim2Sz)
  /-- 0x85 RCL dst, cnt -/
  | rcl (o : Rim2Sz)
  /-- 0x86 RCR dst, cnt -/
  | rcr (o : Rim2Sz)
  /-- 0x88 SHL1 dst -/
  | shl1 (o : RimDstSz)
  /-- 0x89 SHR1 dst -/
  | shr1 (o : RimDstSz)
  /-- 0x8A SAR1 dst -/
  | sar1 (o : RimDstSz)
  /-- 0x8B ROL1 dst -/
  | rol1 (o : RimDstSz)
  /-- 0x8C ROR1 dst -/
  | ror1 (o : RimDstSz)
  /-- 0x8D RCL1 dst -/
  | rcl1 (o : RimDstSz)
  /-- 0x8E RCR1 dst -/
  | rcr1 (o : RimDstSz)
  /-- 0x90 JMP rel8 -/
  | jmpRel8 (d : BitVec 8)
  /-- 0x91 JMP rel16 -/
  | jmpRel16 (d : BitVec 16)
  /-- 0x92 JMP rel32 -/
  | jmpRel32 (d : BitVec 32)
  /-- 0x93 JMPA src -/
  | jmpa (o : RimSrc .b32)
  /-- 0x94 CALL rel16 -/
  | callRel16 (d : BitVec 16)
  /-- 0x95 CALL rel32 -/
  | callRel32 (d : BitVec 32)
  /-- 0x96 CALLA src -/
  | calla (o : RimSrc .b32)
  /-- 0x98 JCC cc, rel8 -/
  | jccRel8 (cc : BitVec 8) (d : BitVec 8)
  /-- 0x99 JCC cc, rel16 -/
  | jccRel16 (cc : BitVec 8) (d : BitVec 16)
  deriving DecidableEq, Repr

end Sys2Proof
end

