-- ==== Sys2Proof/WellFormed.lean ====
section
/-! DEFINITION. Which terms of `Instr` an encoding stands for. Register numbers, immediates and
addressing shapes are right by their types; what is left is the condition byte
(spec/30_encoding.md R157, spec/40_alu.md R210). -/

namespace Sys2Proof

/-- R210, R157: bit 7 of a condition byte is 0. -/
def condReservedBitClear (cc : BitVec 8) : Bool := !cc.getLsbD 7

/-- R211, R157: the base condition is one of the fourteen, 0 to 13. -/
def condBaseDefined (cc : BitVec 8) : Bool := decide (cc.toNat % 16 < 14)

/-- R210, R157: the lane mode is 0, 1 or 2. -/
def condLaneModeDefined (cc : BitVec 8) : Bool := decide (cc.toNat / 16 % 4 ≠ 3)

/-- R157: with lane mode 0 the combine bit is 0. -/
def condCombineNeedsLanes (cc : BitVec 8) : Bool := decide (cc.toNat / 16 % 4 = 0 → cc.toNat / 64 % 2 = 0)

/-- R157: the bytes that are conditions of JCC and CMOV. -/
def condWellFormed (cc : BitVec 8) : Bool :=
  condReservedBitClear cc && condBaseDefined cc && condLaneModeDefined cc && condCombineNeedsLanes cc

/-- R157: PCMOV takes a condition with no lane mode and no combine bit. -/
def laneCondWellFormed (cc : BitVec 8) : Bool :=
  condWellFormed cc && decide (cc.toNat / 16 % 8 = 0)

/-- The terms that some byte string encodes: every one but those with an undefined condition byte. -/
def wellFormed : Instr → Bool
  | .cmov _ cc => condWellFormed cc
  | .pcmov _ _ cc => laneCondWellFormed cc
  | .jccRel8 cc _ => condWellFormed cc
  | .jccRel16 cc _ => condWellFormed cc
  | _ => true

end Sys2Proof
end

