-- ==== Sys2Proof/Decode.lean ====
section
/-! DEFINITION. The decode engine's reading of an instruction's bytes (spec/30_encoding.md R120 to R163):
the opcode table, one decode routine per decoding family, the named causes of a DecodingFault, and after
them the encoder, written from the same tables. Decoding reads the eight window bytes and nothing else
(spec/20_memory.md R99). -/

namespace Sys2Proof

/-- The causes of a DecodingFault, in the order of spec/30_encoding.md R163. -/
inductive DecodeReject where
  /-- 1: the opcode byte is reserved (R161). -/
  | reservedOpcode
  /-- 2: `s = 1` in a W16 or W32 opcode (R127). -/
  | sizeBitSet
  /-- 3: a field of 6 or 7 in a 32-bit register position (R128). -/
  | wideRegister
  /-- 4: an immediate as the destination of a RIM2 form (R129). -/
  | immediateDestination
  /-- 5: `r` not 0 in a RIMSRC or RIMDST form (R134, R135). -/
  | registerFieldNonzero
  /-- 6: a direction or shape that a RIMSRC or RIMDST form does not have (R134, R135). -/
  | oneSidedShape
  /-- 7: an offset-width code that a BIO byte without index may not have (R143). -/
  | bioCode
  /-- 8: an undefined condition byte (R157). -/
  | conditionByte
  deriving DecidableEq, Repr

/-! ### Window bytes and little-endian fields (spec/30_encoding.md R123, spec/20_memory.md R66) -/

/-- The window's bytes in address order. -/
def Window.toList (w : Window) : List Byte := [w.b0, w.b1, w.b2, w.b3, w.b4, w.b5, w.b6, w.b7]

/-- The window whose bytes are the first eight of a list; a missing byte is 0 (no caller has one). -/
def Window.ofList (l : List Byte) : Window :=
  { b0 := l.getD 0 0, b1 := l.getD 1 0, b2 := l.getD 2 0, b3 := l.getD 3 0
    b4 := l.getD 4 0, b5 := l.getD 5 0, b6 := l.getD 6 0, b7 := l.getD 7 0 }

/-- `WIN[i]`. -/
def Window.byte (w : Window) : Nat → Byte
  | 0 => w.b0
  | 1 => w.b1
  | 2 => w.b2
  | 3 => w.b3
  | 4 => w.b4
  | 5 => w.b5
  | 6 => w.b6
  | 7 => w.b7
  | _ => 0

/-- `LE(i, k)` for a field of the width (spec/30_encoding.md R123). -/
def Window.field (w : Window) (width : Width) (i : Nat) : BitVec width.bits :=
  match width with
  | .b8 => w.byte i
  | .b16 => w.byte (i + 1) ++ w.byte i
  | .b32 => w.byte (i + 3) ++ w.byte (i + 2) ++ w.byte (i + 1) ++ w.byte i

/-- The bytes of a field of the width, lowest first. -/
def leField (width : Width) (v : BitVec width.bits) : List Byte :=
  match width with
  | .b8 => [v]
  | .b16 => [v.extractLsb' 0 8, v.extractLsb' 8 8]
  | .b32 => [v.extractLsb' 0 8, v.extractLsb' 8 8, v.extractLsb' 16 8, v.extractLsb' 24 8]

/-! ### Fields of the RIM byte (spec/30_encoding.md R125) -/

/-- `s`, bit 7. -/
def rimS (b : Byte) : Bool := b.getLsbD 7
/-- `m`, bit 6. -/
def rimM (b : Byte) : Bool := b.getLsbD 6
/-- `r`, bits 5:3. -/
def rimR (b : Byte) : BitVec 3 := b.extractLsb' 3 3
/-- `x`, bits 2:0. -/
def rimX (b : Byte) : BitVec 3 := b.extractLsb' 0 3
/-- The direction `x[2]` (R129). -/
def rimDir (b : Byte) : Bool := b.getLsbD 2
/-- The shape `x[1:0]` (R129). -/
def rimShape (b : Byte) : BitVec 2 := b.extractLsb' 0 2

/-- A register field at a width: R128 refuses 6 and 7 where the operand is 32 bits wide. -/
def decodeReg (w : Width) (field : BitVec 3) : Except DecodeReject (Fin w.regs) :=
  if h : field.toNat < w.regs then .ok ⟨field.toNat, h⟩ else .error .wideRegister

/-! ### The BIO byte and the memory shapes (spec/30_encoding.md R131, R132, R140 to R146) -/

/-- The base field `bbb` (R140). -/
def decodeBase (b : BitVec 3) : Base :=
  match b.toNat with
  | 0 => .da
  | 1 => .bc
  | 2 => .ji
  | 3 => .lk
  | 4 => .bp
  | 5 => .sp
  | 6 => .ip
  | _ => .zero

/-- The scale field `ss` (R142): none for 0. -/
def decodeScale (ss : BitVec 2) : Option Scale :=
  match ss.toNat with
  | 0 => none
  | 1 => some .x1
  | 2 => some .x2
  | _ => some .x4

/-- A memory operand of shape 1, 2 or 3 whose bytes start at window byte 2, right after the RIM byte.
Shape 0 is no memory operand: its callers have split it off. -/
def decodeMem (w : Window) (shape : BitVec 2) : Except DecodeReject MemOp :=
  let bio := w.byte 2
  let base := decodeBase (bio.extractLsb' 3 3)
  let xxx := bio.extractLsb' 0 3
  if shape.toNat ≤ 1 then .ok (.abs (w.field .b32 2))
  else if shape.toNat = 2 then
    match decodeScale (bio.extractLsb' 6 2) with
    | some sc => .ok (.indexed base ⟨xxx.toFin, sc⟩)
    | none => if xxx.toNat = 0 then .ok (.plain base) else .error .bioCode
  else
    match decodeScale (bio.extractLsb' 6 2) with
    | some sc => .ok (.indexedOff base ⟨xxx.toFin, sc⟩ (w.field .b32 3))
    | none =>
      if xxx.toNat = 0 then .ok (.off8 base (w.field .b8 3))
      else if xxx.toNat = 1 then .ok (.off16 base (w.field .b16 3))
      else if xxx.toNat = 3 then .ok (.off32 base (w.field .b32 3))
      else .error .bioCode

/-! ### The RIM forms (spec/30_encoding.md R129, R134, R135) -/

/-- The form RIM2 at destination width `wd` and source width `ws` (R129). -/
def decodeRim2 (w : Window) (wd ws : Width) : Except DecodeReject (Rim2 wd ws) :=
  let rim := w.byte 1
  if rimM rim then
    if rimDir rim then
      if (rimShape rim).toNat = 0 then .error .immediateDestination
      else do
        let src ← decodeReg ws (rimR rim)
        let m ← decodeMem w (rimShape rim)
        .ok (.mr m src)
    else do
      let dst ← decodeReg wd (rimR rim)
      if (rimShape rim).toNat = 0 then .ok (.ri dst (w.field ws 2))
      else do
        let m ← decodeMem w (rimShape rim)
        .ok (.rm dst m)
  else do
    let dst ← decodeReg wd (rimR rim)
    let src ← decodeReg ws (rimX rim)
    .ok (.rr dst src)

/-- The form RIMSRC (R134). -/
def decodeRimSrc (w : Window) (ws : Width) : Except DecodeReject (RimSrc ws) :=
  let rim := w.byte 1
  if (rimR rim).toNat ≠ 0 then .error .registerFieldNonzero
  else if rimM rim then
    if rimDir rim then .error .oneSidedShape
    else if (rimShape rim).toNat = 0 then .ok (.imm (w.field ws 2))
    else do
      let m ← decodeMem w (rimShape rim)
      .ok (.mem m)
  else do
    let x ← decodeReg ws (rimX rim)
    .ok (.reg x)

/-- The form RIMDST (R135). -/
def decodeRimDst (w : Window) (wd : Width) : Except DecodeReject (RimDst wd) :=
  let rim := w.byte 1
  if (rimR rim).toNat ≠ 0 then .error .registerFieldNonzero
  else if rimM rim then
    if rimDir rim = false ∨ (rimShape rim).toNat = 0 then .error .oneSidedShape
    else do
      let m ← decodeMem w (rimShape rim)
      .ok (.mem m)
  else do
    let x ← decodeReg wd (rimX rim)
    .ok (.reg x)

/-! ### Lengths (spec/30_encoding.md R126) -/

/-- Bytes of a memory operand after the RIM byte. -/
def MemOp.tail : MemOp → Nat
  | .abs _ => 4
  | .plain _ => 1
  | .indexed _ _ => 1
  | .off8 _ _ => 2
  | .off16 _ _ => 3
  | .off32 _ _ => 5
  | .indexedOff _ _ _ => 5

/-- Bytes of a RIM2 form after the RIM byte. -/
def Rim2.tail {wd ws : Width} : Rim2 wd ws → Nat
  | .rr _ _ => 0
  | .ri _ _ => ws.bytes
  | .rm _ m => m.tail
  | .mr m _ => m.tail

/-- Bytes of a RIMSRC form after the RIM byte. -/
def RimSrc.tail {w : Width} : RimSrc w → Nat
  | .reg _ => 0
  | .imm _ => w.bytes
  | .mem m => m.tail

/-- Bytes of a RIMDST form after the RIM byte. -/
def RimDst.tail {w : Width} : RimDst w → Nat
  | .reg _ => 0
  | .mem m => m.tail

/-- Bytes of a RIM2 form of width kind SZ after the RIM byte. -/
def Rim2Sz.tail : Rim2Sz → Nat
  | .w16 o => o.tail
  | .w8 o => o.tail

/-- Bytes of a RIM2 form of width kind PROM after the RIM byte. -/
def Rim2Prom.tail : Rim2Prom → Nat
  | .w16 o => o.tail
  | .w8 o => o.tail

/-- Bytes of a RIMSRC form of width kind SZ after the RIM byte. -/
def RimSrcSz.tail : RimSrcSz → Nat
  | .w16 o => o.tail
  | .w8 o => o.tail

/-- Bytes of a RIMDST form of width kind SZ after the RIM byte. -/
def RimDstSz.tail : RimDstSz → Nat
  | .w16 o => o.tail
  | .w8 o => o.tail

/-! ### Width kinds (spec/30_encoding.md R127) -/

/-- SZ: `s = 0` 16 bits, `s = 1` 8 bits. -/
def decodeRim2Sz (w : Window) : Except DecodeReject Rim2Sz :=
  if rimS (w.byte 1) then do let o ← decodeRim2 w .b8 .b8; .ok (.w8 o)
  else do let o ← decodeRim2 w .b16 .b16; .ok (.w16 o)

/-- PROM: the destination is twice as wide as the source. -/
def decodeRim2Prom (w : Window) : Except DecodeReject Rim2Prom :=
  if rimS (w.byte 1) then do let o ← decodeRim2 w .b16 .b8; .ok (.w8 o)
  else do let o ← decodeRim2 w .b32 .b16; .ok (.w16 o)

/-- SZ for a source. -/
def decodeRimSrcSz (w : Window) : Except DecodeReject RimSrcSz :=
  if rimS (w.byte 1) then do let o ← decodeRimSrc w .b8; .ok (.w8 o)
  else do let o ← decodeRimSrc w .b16; .ok (.w16 o)

/-- SZ for a destination. -/
def decodeRimDstSz (w : Window) : Except DecodeReject RimDstSz :=
  if rimS (w.byte 1) then do let o ← decodeRimDst w .b8; .ok (.w8 o)
  else do let o ← decodeRimDst w .b16; .ok (.w16 o)

/-- PK, PKPROM: `s` picks the lanes. -/
def decodeLane (w : Window) : Lane := if rimS (w.byte 1) then .nibble else .byte

/-- W16, W32: `s` must be 0. -/
def needSizeClear {α : Type} (w : Window) (k : Except DecodeReject α) : Except DecodeReject α :=
  if rimS (w.byte 1) then .error .sizeBitSet else k

/-! ### Condition bytes (spec/30_encoding.md R157) -/

/-- Whether decode accepts a condition byte for JCC and CMOV. -/
def condAccepted (cc : BitVec 8) : Bool :=
  !cc.getLsbD 7 && decide ((cc.extractLsb' 0 4).toNat < 14) && decide ((cc.extractLsb' 4 2).toNat ≠ 3)
    && !(decide ((cc.extractLsb' 4 2).toNat = 0) && cc.getLsbD 6)

/-- Whether decode accepts a condition byte for PCMOV. -/
def laneCondAccepted (cc : BitVec 8) : Bool := condAccepted cc && decide ((cc.extractLsb' 4 3).toNat = 0)

/-- A condition byte, or the DecodingFault of R163's cause 8. -/
def needCond (ok : Bool) (i : Instr) : Except DecodeReject Instr :=
  if ok then .ok i else .error .conditionByte

/-! ### The opcode table (spec/30_encoding.md R151, R160) -/

/-- A row's decoding family, with the instruction it makes of the operands decoded. -/
inductive Entry where
  | none (i : Instr)
  | i8 (k : BitVec 8 → Instr)
  | i16 (k : BitVec 16 → Instr)
  | i32 (k : BitVec 32 → Instr)
  | ccI8 (k : BitVec 8 → BitVec 8 → Instr)
  | ccI16 (k : BitVec 8 → BitVec 16 → Instr)
  | rim2Sz (k : Rim2Sz → Instr)
  | rim2SzCc (k : Rim2Sz → BitVec 8 → Instr)
  | rim2W32 (k : Rim2 .b32 .b32 → Instr)
  | rim2Prom (k : Rim2Prom → Instr)
  | rim2Pk (k : Lane → Rim2 .b16 .b16 → Instr)
  | rim2PkCc (k : Lane → Rim2 .b16 .b16 → BitVec 8 → Instr)
  | rim2PkProm (k : Lane → Rim2 .b32 .b16 → Instr)
  | srcSz (k : RimSrcSz → Instr)
  | srcW32 (k : RimSrc .b32 → Instr)
  | srcW16 (k : RimSrc .b16 → Instr)
  | dstSz (k : RimDstSz → Instr)
  | dstSzImm (k : RimDstSz → BitVec 8 → Instr)
  | dstW32 (k : RimDst .b32 → Instr)
  | dstW16 (k : RimDst .b16 → Instr)

/-- R160, opcodes 0x00 to 0x0F: system instructions and protected moves. -/
def opTableSystem : List (Nat × Entry) :=
  [ (0x00, .none .nop),
    (0x01, .none .hlt),
    (0x02, .none .ret),
    (0x03, .none .iret),
    (0x04, .i8 .int),
    (0x08, .srcW32 .movToIsp),
    (0x09, .dstW32 .movFromIsp),
    (0x0A, .srcW16 .movToPf),
    (0x0B, .dstW16 .movFromPf),
    (0x0C, .none .pushPf),
    (0x0D, .none .popPf) ]

/-- R160, opcodes 0x10 to 0x1F: moves. -/
def opTableMove : List (Nat × Entry) :=
  [ (0x10, .i16 .movImmA),
    (0x11, .i16 .movImmB),
    (0x12, .i16 .movImmC),
    (0x13, .i16 .movImmD),
    (0x14, .i16 .movImmI),
    (0x15, .i16 .movImmJ),
    (0x16, .i16 .movImmK),
    (0x17, .i16 .movImmL),
    (0x18, .rim2Sz .mov),
    (0x19, .rim2W32 .movw),
    (0x1A, .rim2Prom .movs),
    (0x1B, .rim2Prom .movz),
    (0x1C, .rim2SzCc .cmov),
    (0x1D, .rim2PkCc .pcmov) ]

/-- R160, opcodes 0x20 to 0x3F: stack instructions. -/
def opTableStack : List (Nat × Entry) :=
  [ (0x20, .none .pushA),
    (0x21, .none .pushB),
    (0x22, .none .pushC),
    (0x23, .none .pushD),
    (0x24, .none .pushI),
    (0x25, .none .pushJ),
    (0x26, .none .pushK),
    (0x27, .none .pushL),
    (0x28, .none .popA),
    (0x29, .none .popB),
    (0x2A, .none .popC),
    (0x2B, .none .popD),
    (0x2C, .none .popI),
    (0x2D, .none .popJ),
    (0x2E, .none .popK),
    (0x2F, .none .popL),
    (0x30, .none .pushBp),
    (0x31, .none .pushSp),
    (0x32, .none .popBp),
    (0x33, .none .popSp),
    (0x34, .srcSz .push),
    (0x35, .dstSz .pop),
    (0x36, .srcW32 .pushw),
    (0x37, .dstW32 .popw) ]

/-- R160, opcodes 0x40 to 0x5F: arithmetic, scalar and packed. -/
def opTableArith : List (Nat × Entry) :=
  [ (0x40, .rim2Sz .add),
    (0x41, .rim2Sz .adc),
    (0x42, .rim2Sz .sub),
    (0x43, .rim2Sz .sbb),
    (0x44, .rim2Sz .cmp),
    (0x45, .dstSzImm .cmpi),
    (0x48, .rim2W32 .addw),
    (0x49, .rim2W32 .adcw),
    (0x4A, .rim2W32 .subw),
    (0x4B, .rim2W32 .sbbw),
    (0x4C, .rim2W32 .cmpw),
    (0x50, .rim2Pk .padd),
    (0x51, .rim2Pk .padc),
    (0x52, .rim2Pk .psub),
    (0x53, .rim2Pk .psbb),
    (0x54, .rim2Pk .pcmp) ]

/-- R160, opcodes 0x60 to 0x6F: multiply and divide. -/
def opTableMulDiv : List (Nat × Entry) :=
  [ (0x60, .rim2Sz .mul),
    (0x61, .rim2Prom .mulh),
    (0x62, .rim2Prom .mulsh),
    (0x63, .rim2Sz .div),
    (0x64, .rim2Sz .divs),
    (0x65, .rim2Prom .divm),
    (0x66, .rim2Prom .divms),
    (0x68, .rim2Pk .pmul),
    (0x69, .rim2PkProm .pmulh),
    (0x6A, .rim2PkProm .pmulsh),
    (0x6B, .rim2Pk .pdiv),
    (0x6C, .rim2Pk .pdivs),
    (0x6D, .rim2PkProm .pdivm),
    (0x6E, .rim2PkProm .pdivms) ]

/-- R160, opcodes 0x70 to 0x8F: logic, shifts and rotates. -/
def opTableLogic : List (Nat × Entry) :=
  [ (0x70, .rim2Sz .and),
    (0x71, .rim2Sz .or),
    (0x72, .rim2Sz .xor),
    (0x73, .dstSz .not),
    (0x80, .rim2Sz .shl),
    (0x81, .rim2Sz .shr),
    (0x82, .rim2Sz .sar),
    (0x83, .rim2Sz .rol),
    (0x84, .rim2Sz .ror),
    (0x85, .rim2Sz .rcl),
    (0x86, .rim2Sz .rcr),
    (0x88, .dstSz .shl1),
    (0x89, .dstSz .shr1),
    (0x8A, .dstSz .sar1),
    (0x8B, .dstSz .rol1),
    (0x8C, .dstSz .ror1),
    (0x8D, .dstSz .rcl1),
    (0x8E, .dstSz .rcr1) ]

/-- R160, opcodes 0x90 to 0xFF: control flow. -/
def opTableControl : List (Nat × Entry) :=
  [ (0x90, .i8 .jmpRel8),
    (0x91, .i16 .jmpRel16),
    (0x92, .i32 .jmpRel32),
    (0x93, .srcW32 .jmpa),
    (0x94, .i16 .callRel16),
    (0x95, .i32 .callRel32),
    (0x96, .srcW32 .calla),
    (0x98, .ccI8 .jccRel8),
    (0x99, .ccI16 .jccRel16) ]

/-- The opcode table (R160): 106 assigned bytes, every other one reserved (R161). -/
def opTable : List (Nat × Entry) :=
  opTableSystem ++ opTableMove ++ opTableStack ++ opTableArith ++ opTableMulDiv ++ opTableLogic ++ opTableControl

/-- The row of an opcode byte. -/
def findOp : List (Nat × Entry) → Nat → Option Entry
  | [], _ => .none
  | (n, e) :: rest, op => if op = n then some e else findOp rest op

/-- The decode routine of a decoding family (R152, R155, R156, R158). EI8 is the last byte (R136). -/
def decodeEntry (w : Window) : Entry → Except DecodeReject Instr
  | .none i => .ok i
  | .i8 k => .ok (k (w.field .b8 1))
  | .i16 k => .ok (k (w.field .b16 1))
  | .i32 k => .ok (k (w.field .b32 1))
  | .ccI8 k => needCond (condAccepted (w.byte 1)) (k (w.byte 1) (w.field .b8 2))
  | .ccI16 k => needCond (condAccepted (w.byte 1)) (k (w.byte 1) (w.field .b16 2))
  | .rim2Sz k => do let o ← decodeRim2Sz w; .ok (k o)
  | .rim2SzCc k => do
    let o ← decodeRim2Sz w
    needCond (condAccepted (w.byte (2 + o.tail))) (k o (w.byte (2 + o.tail)))
  | .rim2W32 k => needSizeClear w (do let o ← decodeRim2 w .b32 .b32; .ok (k o))
  | .rim2Prom k => do let o ← decodeRim2Prom w; .ok (k o)
  | .rim2Pk k => do let o ← decodeRim2 w .b16 .b16; .ok (k (decodeLane w) o)
  | .rim2PkCc k => do
    let o ← decodeRim2 w .b16 .b16
    needCond (laneCondAccepted (w.byte (2 + o.tail))) (k (decodeLane w) o (w.byte (2 + o.tail)))
  | .rim2PkProm k => do let o ← decodeRim2 w .b32 .b16; .ok (k (decodeLane w) o)
  | .srcSz k => do let o ← decodeRimSrcSz w; .ok (k o)
  | .srcW32 k => needSizeClear w (do let o ← decodeRimSrc w .b32; .ok (k o))
  | .srcW16 k => needSizeClear w (do let o ← decodeRimSrc w .b16; .ok (k o))
  | .dstSz k => do let o ← decodeRimDstSz w; .ok (k o)
  | .dstSzImm k => do let o ← decodeRimDstSz w; .ok (k o (w.byte (2 + o.tail)))
  | .dstW32 k => needSizeClear w (do let o ← decodeRimDst w .b32; .ok (k o))
  | .dstW16 k => needSizeClear w (do let o ← decodeRimDst w .b16; .ok (k o))

/-- Decode (R122): the instruction the window's bytes encode, or the cause of the DecodingFault. -/
def decode (w : Window) : Except DecodeReject Instr :=
  match findOp opTable (w.byte 0).toNat with
  | some e => decodeEntry w e
  | .none => .error .reservedOpcode

/-- The window whose first bytes are the bits of `v`, bit 0 the least significant of the first byte; the
bits from `nbits` up are 0. -/
def windowOfBits (nbits v : Nat) : Window :=
  Window.ofList ((List.range Config.maxInstrBytes).map fun i => BitVec.ofNat 8 ((v % 2 ^ nbits) / 2 ^ (8 * i)))

/-- The instruction the decoder reads from an instruction whose bits are `v`, numbered as
spec/opcode_table.json numbers them. -/
def decodeTableWord (nbits w : Nat) : Option Instr :=
  match decode (windowOfBits nbits w) with
  | .ok i => some i
  | .error _ => .none

/-! ### The encoder -/

/-- A register number as a field (R128). -/
def encodeReg {n : Nat} (r : Fin n) : BitVec 3 := BitVec.ofNat 3 r.val

/-- A RIM byte from its fields (R125). -/
def rimByte (s m : Bool) (r x : BitVec 3) : Byte := BitVec.ofBool s ++ BitVec.ofBool m ++ r ++ x

/-- The base field (R140). -/
def encodeBase : Base → BitVec 3
  | .da => 0
  | .bc => 1
  | .ji => 2
  | .lk => 3
  | .bp => 4
  | .sp => 5
  | .ip => 6
  | .zero => 7

/-- The scale field (R142). -/
def encodeScale : Scale → BitVec 2
  | .x1 => 1
  | .x2 => 2
  | .x4 => 3

/-- A BIO byte with an index (R140). -/
def bioIndexed (b : Base) (ix : Index) : Byte := encodeScale ix.scale ++ encodeBase b ++ encodeReg ix.reg

/-- A BIO byte without index: the code says the offset's width (R143). -/
def bioCoded (b : Base) (code : BitVec 3) : Byte := 0#2 ++ encodeBase b ++ code

/-- The shape of a memory operand (R129). -/
def MemOp.shape : MemOp → BitVec 2
  | .abs _ => 1
  | .plain _ => 2
  | .indexed _ _ => 2
  | .off8 _ _ => 3
  | .off16 _ _ => 3
  | .off32 _ _ => 3
  | .indexedOff _ _ _ => 3

/-- The bytes of a memory operand after the RIM byte (R131, R132, R143). -/
def encodeMem : MemOp → List Byte
  | .abs a => leField .b32 a
  | .plain b => [bioCoded b 0]
  | .indexed b ix => [bioIndexed b ix]
  | .off8 b v => bioCoded b 0 :: leField .b8 v
  | .off16 b v => bioCoded b 1 :: leField .b16 v
  | .off32 b v => bioCoded b 3 :: leField .b32 v
  | .indexedOff b ix v => bioIndexed b ix :: leField .b32 v

/-- The second field `x` for a memory operand: direction and shape (R129). -/
def memField (dir : Bool) (m : MemOp) : BitVec 3 := BitVec.ofBool dir ++ m.shape

/-- A RIM2 form from the RIM byte on (R129). -/
def encodeRim2 {wd ws : Width} (s : Bool) : Rim2 wd ws → List Byte
  | .rr d x => [rimByte s false (encodeReg d) (encodeReg x)]
  | .ri d v => rimByte s true (encodeReg d) 0 :: leField ws v
  | .rm d m => rimByte s true (encodeReg d) (memField false m) :: encodeMem m
  | .mr m x => rimByte s true (encodeReg x) (memField true m) :: encodeMem m

/-- A RIMSRC form from the RIM byte on (R134). -/
def encodeRimSrc {w : Width} (s : Bool) : RimSrc w → List Byte
  | .reg x => [rimByte s false 0 (encodeReg x)]
  | .imm v => rimByte s true 0 0 :: leField w v
  | .mem m => rimByte s true 0 (memField false m) :: encodeMem m

/-- A RIMDST form from the RIM byte on (R135). -/
def encodeRimDst {w : Width} (s : Bool) : RimDst w → List Byte
  | .reg x => [rimByte s false 0 (encodeReg x)]
  | .mem m => rimByte s true 0 (memField true m) :: encodeMem m

/-- A RIM2 form of width kind SZ (R127). -/
def encodeRim2Sz : Rim2Sz → List Byte
  | .w16 o => encodeRim2 false o
  | .w8 o => encodeRim2 true o

/-- A RIM2 form of width kind PROM (R127). -/
def encodeRim2Prom : Rim2Prom → List Byte
  | .w16 o => encodeRim2 false o
  | .w8 o => encodeRim2 true o

/-- A RIMSRC form of width kind SZ (R127). -/
def encodeRimSrcSz : RimSrcSz → List Byte
  | .w16 o => encodeRimSrc false o
  | .w8 o => encodeRimSrc true o

/-- A RIMDST form of width kind SZ (R127). -/
def encodeRimDstSz : RimDstSz → List Byte
  | .w16 o => encodeRimDst false o
  | .w8 o => encodeRimDst true o

/-- The size bit that picks the lanes (R127). -/
def Lane.sizeBit : Lane → Bool
  | .byte => false
  | .nibble => true

/-- The bytes of an instruction (R120, R160). -/
def encode : Instr → List Byte
  | .nop => [0x00#8]
  | .hlt => [0x01#8]
  | .ret => [0x02#8]
  | .iret => [0x03#8]
  | .int v => 0x04#8 :: leField .b8 v
  | .movToIsp o => 0x08#8 :: encodeRimSrc false o
  | .movFromIsp o => 0x09#8 :: encodeRimDst false o
  | .movToPf o => 0x0A#8 :: encodeRimSrc false o
  | .movFromPf o => 0x0B#8 :: encodeRimDst false o
  | .pushPf => [0x0C#8]
  | .popPf => [0x0D#8]
  | .movImmA imm => 0x10#8 :: leField .b16 imm
  | .movImmB imm => 0x11#8 :: leField .b16 imm
  | .movImmC imm => 0x12#8 :: leField .b16 imm
  | .movImmD imm => 0x13#8 :: leField .b16 imm
  | .movImmI imm => 0x14#8 :: leField .b16 imm
  | .movImmJ imm => 0x15#8 :: leField .b16 imm
  | .movImmK imm => 0x16#8 :: leField .b16 imm
  | .movImmL imm => 0x17#8 :: leField .b16 imm
  | .mov o => 0x18#8 :: encodeRim2Sz o
  | .movw o => 0x19#8 :: encodeRim2 false o
  | .movs o => 0x1A#8 :: encodeRim2Prom o
  | .movz o => 0x1B#8 :: encodeRim2Prom o
  | .cmov o cc => 0x1C#8 :: (encodeRim2Sz o ++ [cc])
  | .pcmov l o cc => 0x1D#8 :: (encodeRim2 l.sizeBit o ++ [cc])
  | .pushA => [0x20#8]
  | .pushB => [0x21#8]
  | .pushC => [0x22#8]
  | .pushD => [0x23#8]
  | .pushI => [0x24#8]
  | .pushJ => [0x25#8]
  | .pushK => [0x26#8]
  | .pushL => [0x27#8]
  | .popA => [0x28#8]
  | .popB => [0x29#8]
  | .popC => [0x2A#8]
  | .popD => [0x2B#8]
  | .popI => [0x2C#8]
  | .popJ => [0x2D#8]
  | .popK => [0x2E#8]
  | .popL => [0x2F#8]
  | .pushBp => [0x30#8]
  | .pushSp => [0x31#8]
  | .popBp => [0x32#8]
  | .popSp => [0x33#8]
  | .push o => 0x34#8 :: encodeRimSrcSz o
  | .pop o => 0x35#8 :: encodeRimDstSz o
  | .pushw o => 0x36#8 :: encodeRimSrc false o
  | .popw o => 0x37#8 :: encodeRimDst false o
  | .add o => 0x40#8 :: encodeRim2Sz o
  | .adc o => 0x41#8 :: encodeRim2Sz o
  | .sub o => 0x42#8 :: encodeRim2Sz o
  | .sbb o => 0x43#8 :: encodeRim2Sz o
  | .cmp o => 0x44#8 :: encodeRim2Sz o
  | .cmpi o imm => 0x45#8 :: (encodeRimDstSz o ++ [imm])
  | .addw o => 0x48#8 :: encodeRim2 false o
  | .adcw o => 0x49#8 :: encodeRim2 false o
  | .subw o => 0x4A#8 :: encodeRim2 false o
  | .sbbw o => 0x4B#8 :: encodeRim2 false o
  | .cmpw o => 0x4C#8 :: encodeRim2 false o
  | .padd l o => 0x50#8 :: encodeRim2 l.sizeBit o
  | .padc l o => 0x51#8 :: encodeRim2 l.sizeBit o
  | .psub l o => 0x52#8 :: encodeRim2 l.sizeBit o
  | .psbb l o => 0x53#8 :: encodeRim2 l.sizeBit o
  | .pcmp l o => 0x54#8 :: encodeRim2 l.sizeBit o
  | .mul o => 0x60#8 :: encodeRim2Sz o
  | .mulh o => 0x61#8 :: encodeRim2Prom o
  | .mulsh o => 0x62#8 :: encodeRim2Prom o
  | .div o => 0x63#8 :: encodeRim2Sz o
  | .divs o => 0x64#8 :: encodeRim2Sz o
  | .divm o => 0x65#8 :: encodeRim2Prom o
  | .divms o => 0x66#8 :: encodeRim2Prom o
  | .pmul l o => 0x68#8 :: encodeRim2 l.sizeBit o
  | .pmulh l o => 0x69#8 :: encodeRim2 l.sizeBit o
  | .pmulsh l o => 0x6A#8 :: encodeRim2 l.sizeBit o
  | .pdiv l o => 0x6B#8 :: encodeRim2 l.sizeBit o
  | .pdivs l o => 0x6C#8 :: encodeRim2 l.sizeBit o
  | .pdivm l o => 0x6D#8 :: encodeRim2 l.sizeBit o
  | .pdivms l o => 0x6E#8 :: encodeRim2 l.sizeBit o
  | .and o => 0x70#8 :: encodeRim2Sz o
  | .or o => 0x71#8 :: encodeRim2Sz o
  | .xor o => 0x72#8 :: encodeRim2Sz o
  | .not o => 0x73#8 :: encodeRimDstSz o
  | .shl o => 0x80#8 :: encodeRim2Sz o
  | .shr o => 0x81#8 :: encodeRim2Sz o
  | .sar o => 0x82#8 :: encodeRim2Sz o
  | .rol o => 0x83#8 :: encodeRim2Sz o
  | .ror o => 0x84#8 :: encodeRim2Sz o
  | .rcl o => 0x85#8 :: encodeRim2Sz o
  | .rcr o => 0x86#8 :: encodeRim2Sz o
  | .shl1 o => 0x88#8 :: encodeRimDstSz o
  | .shr1 o => 0x89#8 :: encodeRimDstSz o
  | .sar1 o => 0x8A#8 :: encodeRimDstSz o
  | .rol1 o => 0x8B#8 :: encodeRimDstSz o
  | .ror1 o => 0x8C#8 :: encodeRimDstSz o
  | .rcl1 o => 0x8D#8 :: encodeRimDstSz o
  | .rcr1 o => 0x8E#8 :: encodeRimDstSz o
  | .jmpRel8 d => 0x90#8 :: leField .b8 d
  | .jmpRel16 d => 0x91#8 :: leField .b16 d
  | .jmpRel32 d => 0x92#8 :: leField .b32 d
  | .jmpa o => 0x93#8 :: encodeRimSrc false o
  | .callRel16 d => 0x94#8 :: leField .b16 d
  | .callRel32 d => 0x95#8 :: leField .b32 d
  | .calla o => 0x96#8 :: encodeRimSrc false o
  | .jccRel8 cc d => 0x98#8 :: cc :: leField .b8 d
  | .jccRel16 cc d => 0x99#8 :: cc :: leField .b16 d

/-- The length of an instruction (R126): opcode, condition byte, RIM byte, tail, EI8. -/
def Instr.len : Instr → Nat
  | .nop => 1
  | .hlt => 1
  | .ret => 1
  | .iret => 1
  | .int _ => 2
  | .movToIsp o => 2 + o.tail
  | .movFromIsp o => 2 + o.tail
  | .movToPf o => 2 + o.tail
  | .movFromPf o => 2 + o.tail
  | .pushPf => 1
  | .popPf => 1
  | .movImmA _ => 3
  | .movImmB _ => 3
  | .movImmC _ => 3
  | .movImmD _ => 3
  | .movImmI _ => 3
  | .movImmJ _ => 3
  | .movImmK _ => 3
  | .movImmL _ => 3
  | .mov o => 2 + o.tail
  | .movw o => 2 + o.tail
  | .movs o => 2 + o.tail
  | .movz o => 2 + o.tail
  | .cmov o _ => 3 + o.tail
  | .pcmov _ o _ => 3 + o.tail
  | .pushA => 1
  | .pushB => 1
  | .pushC => 1
  | .pushD => 1
  | .pushI => 1
  | .pushJ => 1
  | .pushK => 1
  | .pushL => 1
  | .popA => 1
  | .popB => 1
  | .popC => 1
  | .popD => 1
  | .popI => 1
  | .popJ => 1
  | .popK => 1
  | .popL => 1
  | .pushBp => 1
  | .pushSp => 1
  | .popBp => 1
  | .popSp => 1
  | .push o => 2 + o.tail
  | .pop o => 2 + o.tail
  | .pushw o => 2 + o.tail
  | .popw o => 2 + o.tail
  | .add o => 2 + o.tail
  | .adc o => 2 + o.tail
  | .sub o => 2 + o.tail
  | .sbb o => 2 + o.tail
  | .cmp o => 2 + o.tail
  | .cmpi o _ => 3 + o.tail
  | .addw o => 2 + o.tail
  | .adcw o => 2 + o.tail
  | .subw o => 2 + o.tail
  | .sbbw o => 2 + o.tail
  | .cmpw o => 2 + o.tail
  | .padd _ o => 2 + o.tail
  | .padc _ o => 2 + o.tail
  | .psub _ o => 2 + o.tail
  | .psbb _ o => 2 + o.tail
  | .pcmp _ o => 2 + o.tail
  | .mul o => 2 + o.tail
  | .mulh o => 2 + o.tail
  | .mulsh o => 2 + o.tail
  | .div o => 2 + o.tail
  | .divs o => 2 + o.tail
  | .divm o => 2 + o.tail
  | .divms o => 2 + o.tail
  | .pmul _ o => 2 + o.tail
  | .pmulh _ o => 2 + o.tail
  | .pmulsh _ o => 2 + o.tail
  | .pdiv _ o => 2 + o.tail
  | .pdivs _ o => 2 + o.tail
  | .pdivm _ o => 2 + o.tail
  | .pdivms _ o => 2 + o.tail
  | .and o => 2 + o.tail
  | .or o => 2 + o.tail
  | .xor o => 2 + o.tail
  | .not o => 2 + o.tail
  | .shl o => 2 + o.tail
  | .shr o => 2 + o.tail
  | .sar o => 2 + o.tail
  | .rol o => 2 + o.tail
  | .ror o => 2 + o.tail
  | .rcl o => 2 + o.tail
  | .rcr o => 2 + o.tail
  | .shl1 o => 2 + o.tail
  | .shr1 o => 2 + o.tail
  | .sar1 o => 2 + o.tail
  | .rol1 o => 2 + o.tail
  | .ror1 o => 2 + o.tail
  | .rcl1 o => 2 + o.tail
  | .rcr1 o => 2 + o.tail
  | .jmpRel8 _ => 2
  | .jmpRel16 _ => 3
  | .jmpRel32 _ => 5
  | .jmpa o => 2 + o.tail
  | .callRel16 _ => 3
  | .callRel32 _ => 5
  | .calla o => 2 + o.tail
  | .jccRel8 _ _ => 3
  | .jccRel16 _ _ => 4

end Sys2Proof
end

