-- ==== Sys2Proof/Machine/Flags.lean ====
section
/-! DEFINITION. The ALU (spec/40_alu.md): flag groups, the one adder, multiply, divide, logic, shifts, lanes
and conditions, as functions of the operands, at any width (R180). Operands become integers, the result
is exact, and it is narrowed at the end. -/

namespace Sys2Proof.Machine

/-! ### Flag groups (R181, R182) -/

/-- `Group(C, S, O, Z)`: C in bit 3 (R181). -/
def flagGroup (c s o z : Bool) : BitVec 4 :=
  BitVec.ofBool c ++ BitVec.ofBool s ++ BitVec.ofBool o ++ BitVec.ofBool z

/-- C of a group. -/
def groupC (g : BitVec 4) : Bool := g.getLsbD 3
/-- S of a group. -/
def groupS (g : BitVec 4) : Bool := g.getLsbD 2
/-- O of a group. -/
def groupO (g : BitVec 4) : Bool := g.getLsbD 1
/-- Z of a group. -/
def groupZ (g : BitVec 4) : Bool := g.getLsbD 0

/-- `F.g[k]` (spec/10_state.md R30). -/
def flagsAt (f : Half) (k : Nat) : BitVec 4 := f.extractLsb' (4 * k) 4

/-- C of lane 0: the carry the scalar operations read (spec/10_state.md R33). -/
def carryFlag (f : Half) : Bool := groupC (flagsAt f 0)

/-- `F` after a scalar operation: the group in bits 3:0, the rest 0 (R182). -/
def scalarFlags (g : BitVec 4) : Half := g.setWidth 16

/-- A group with C and O given and S and Z read off the result (R181). -/
def groupOf {w : Nat} (c o : Bool) (r : BitVec w) : BitVec 4 := flagGroup c r.msb o (decide (r = 0))

/-! ### Addition and subtraction (R183 to R185) -/

/-- `AddCore`: the result, the carry out and the overflow (R183). -/
def addCore {w : Nat} (a b : BitVec w) (cin : Bool) : BitVec w × Bool × Bool :=
  let sum := a.toNat + b.toNat + cin.toNat
  let r := BitVec.ofNat w sum
  (r, decide (2 ^ w ≤ sum), a.msb == b.msb && r.msb != a.msb)

/-- `Add` with the carry-in `cin` (R184). -/
def aluAdd {w : Nat} (a b : BitVec w) (cin : Bool) : BitVec w × BitVec 4 :=
  let r := addCore a b cin
  (r.1, groupOf r.2.1 r.2.2 r.1)

/-- `Sub` with the borrow-in `bin`: the adder on the complement, carries inverted (R185). -/
def aluSub {w : Nat} (a b : BitVec w) (bin : Bool) : BitVec w × BitVec 4 :=
  let r := addCore a (~~~b) (!bin)
  (r.1, groupOf (!r.2.1) r.2.2 r.1)

/-! ### Multiplication (R191 to R193) -/

/-- `Mul`: the low half; C = O = the high half is not 0 (R191). -/
def aluMul {w : Nat} (a b : BitVec w) : BitVec w × BitVec 4 :=
  let p := a.toNat * b.toNat
  let r := BitVec.ofNat w p
  let big := decide (p / 2 ^ w ≠ 0)
  (r, groupOf big big r)

/-- `MulWideU`: the unsigned product at the double width `w2 = 2 * w` (R192). -/
def aluMulWideU {w : Nat} (w2 : Nat) (a b : BitVec w) : BitVec w2 × BitVec 4 :=
  let p := a.toNat * b.toNat
  let r := BitVec.ofNat w2 p
  let big := decide (p / 2 ^ w ≠ 0)
  (r, groupOf big big r)

/-- `MulWideS`: the signed product at the double width `w2 = 2 * w`; C = O = it does not fit in `w` signed
bits (R193). -/
def aluMulWideS {w : Nat} (w2 : Nat) (a b : BitVec w) : BitVec w2 × BitVec 4 :=
  let r := BitVec.ofInt w2 (a.toInt * b.toInt)
  let big := decide (r ≠ (r.setWidth w).signExtend w2)
  (r, groupOf big big r)

/-! ### Division (R194 to R197): none is DivisionFault -/

/-- `DivU` (R194). -/
def aluDivU {w : Nat} (a b : BitVec w) : Option (BitVec w × BitVec 4) :=
  if b = 0 then none
  else
    let q := BitVec.ofNat w (a.toNat / b.toNat)
    some (q, groupOf false false q)

/-- `DivS`: rounded toward zero; a quotient above the signed range is a fault (R195). -/
def aluDivS {w : Nat} (a b : BitVec w) : Option (BitVec w × BitVec 4) :=
  if b = 0 then none
  else
    let q := a.toInt.tdiv b.toInt
    if (2 : Int) ^ (w - 1) - 1 < q then none
    else
      let r := BitVec.ofInt w q
      some (r, groupOf false false r)

/-- `DivModU`: a dividend of the double width `w2 = 2 * w`, and remainder and quotient packed, the quotient
low; a quotient of more than `w` bits is a fault (R196). -/
def aluDivModU {w w2 : Nat} (n : BitVec w2) (b : BitVec w) : Option (BitVec w2 × BitVec 4) :=
  if b = 0 then none
  else
    let q := n.toNat / b.toNat
    let k := n.toNat % b.toNat
    if 2 ^ w ≤ q then none
    else some (BitVec.ofNat w2 (k * 2 ^ w + q), groupOf false false (BitVec.ofNat w q))

/-- `DivModS`: signed, rounded toward zero, the remainder with the dividend's sign; a quotient outside the
signed range of `w` bits is a fault (R197). -/
def aluDivModS {w w2 : Nat} (n : BitVec w2) (b : BitVec w) : Option (BitVec w2 × BitVec 4) :=
  if b = 0 then none
  else
    let q := n.toInt.tdiv b.toInt
    let k := n.toInt.tmod b.toInt
    if q < -((2 : Int) ^ (w - 1)) ∨ (2 : Int) ^ (w - 1) - 1 < q then none
    else
      let qw := BitVec.ofInt w q
      let kw := BitVec.ofInt w k
      some (BitVec.ofNat w2 (kw.toNat * 2 ^ w + qw.toNat), groupOf false false qw)

/-! ### Logic (R199) -/

/-- `Logic(w, r)`: C and O 0, S and Z of the result. -/
def logicGroup {w : Nat} (r : BitVec w) : BitVec 4 := groupOf false false r

/-! ### Shifts and rotates (R200 to R207) -/

/-- The seven one-bit steps. -/
inductive ShiftKind where
  | shl
  | shr
  | sar
  | rol
  | ror
  | rcl
  | rcr
  deriving DecidableEq, Repr

/-- A value shifted left by one, with a bit entering at bit 0. -/
def shiftInLow {w : Nat} (v : BitVec w) (b : Bool) : BitVec w := (v <<< 1) ||| (BitVec.ofBool b).setWidth w

/-- A value shifted right by one, with a bit entering at the top. -/
def shiftInHigh {w : Nat} (v : BitVec w) (b : Bool) : BitVec w :=
  (v >>> 1) ||| ((BitVec.ofBool b).setWidth w <<< (w - 1))

/-- One step on the pair of value and carry (R201 to R207). -/
def shiftStep {w : Nat} (k : ShiftKind) (v : BitVec w) (c : Bool) : BitVec w × Bool :=
  match k with
  | .shl => (shiftInLow v false, v.msb)
  | .shr => (shiftInHigh v false, v.getLsbD 0)
  | .sar => (shiftInHigh v v.msb, v.getLsbD 0)
  | .rol => (shiftInLow v v.msb, v.msb)
  | .ror => (shiftInHigh v (v.getLsbD 0), v.getLsbD 0)
  | .rcl => (shiftInLow v c, v.msb)
  | .rcr => (shiftInHigh v c, v.getLsbD 0)

/-- `n` steps (R200). -/
def shiftSteps {w : Nat} (k : ShiftKind) : Nat → BitVec w → Bool → BitVec w × Bool
  | 0, v, c => (v, c)
  | n + 1, v, c =>
    let r := shiftStep k v c
    shiftSteps k n r.1 r.2

/-- `Shift(kind, w, v0, n, c0)`: O is 0; with a count of 0 C keeps its value (R200). -/
def aluShift {w : Nat} (k : ShiftKind) (v : BitVec w) (n : Nat) (c : Bool) : BitVec w × BitVec 4 :=
  let r := shiftSteps k n v c
  (r.1, groupOf r.2 false r.1)

/-- The count `cnt[4:0]` (R200). -/
def shiftCount {w : Nat} (cnt : BitVec w) : Nat := cnt.toNat % 32

/-! ### Lanes (R187, R188) -/

/-- Bits of a lane (spec/30_encoding.md R127). -/
abbrev laneBits : Lane → Nat
  | .byte => 8
  | .nibble => 4

/-- Lanes of a 16-bit operand. -/
abbrev laneCount : Lane → Nat
  | .byte => 2
  | .nibble => 4

/-- `Lane(v, L, i)`. -/
def laneAt {n : Nat} (L : Nat) (v : BitVec n) (i : Nat) : BitVec L := v.extractLsb' (L * i) L

/-- The number whose digits of `L` bits are the list, the first the least significant. -/
def joinNat (L : Nat) : List Nat → Nat
  | [] => 0
  | x :: xs => x + 2 ^ L * joinNat L xs

/-- `Join(L, [x0, x1, ...])` as a value of `n` bits. -/
def joinLanes {L : Nat} (n : Nat) (xs : List (BitVec L)) : BitVec n := BitVec.ofNat n (joinNat L (xs.map BitVec.toNat))

/-- All the values, or none where one is missing (R198: the lanes' faults ORed together). -/
def allSome {α : Type} : List (Option α) → Option (List α)
  | [] => some []
  | none :: _ => none
  | some x :: xs => (allSome xs).map (x :: ·)

/-- What an operation on operands computes: the result to write, if it writes one, and the new F, if it
sets flags. -/
structure AluOut (w : Nat) where
  result : Option (BitVec w)
  flags : Option Half
  deriving DecidableEq, Repr

/-- A scalar result and its flag group (R182). -/
def AluOut.scalar {w : Nat} (r : BitVec w × BitVec 4) : AluOut w :=
  { result := some r.1, flags := some (scalarFlags r.2) }

/-- A compare: the flags without the result. -/
def AluOut.compare {w : Nat} (r : BitVec w × BitVec 4) : AluOut w :=
  { result := none, flags := some (scalarFlags r.2) }

/-- `Packed` (R188, R198): a lane function applied to every lane, results of `M` bits joined, flag groups
joined into F; a lane without result is a DivisionFault of the whole. -/
def packed {M : Nat} (n W : Nat) (lane : Nat → Option (BitVec M × BitVec 4)) : Option (AluOut W) :=
  (allSome ((List.range n).map lane)).map fun rs =>
    { result := some (joinLanes W (rs.map Prod.fst)), flags := some (joinLanes 16 (rs.map Prod.snd)) }

/-! ### Conditions (R210 to R212) -/

/-- `Base(bc, g)` (R211). Decode refuses 14 and 15; here they are false (log 17). -/
def baseCond (bc : BitVec 4) (g : BitVec 4) : Bool :=
  let c := groupC g
  let s := groupS g
  let o := groupO g
  let z := groupZ g
  match bc.toNat with
  | 0 => c
  | 1 => !c
  | 2 => s
  | 3 => !s
  | 4 => o
  | 5 => !o
  | 6 => z
  | 7 => !z
  | 8 => !c && !z
  | 9 => c || z
  | 10 => !z && s == o
  | 11 => s == o
  | 12 => s != o
  | 13 => z || s != o
  | _ => false

/-- `CondLane(cc, F, i)` (R212). -/
def condLane (cc : BitVec 8) (f : Half) (i : Nat) : Bool := baseCond (cc.extractLsb' 0 4) (flagsAt f i)

/-- `Cond(cc, F)` (R210). Decode refuses lane mode 3; here it reads as mode 2 (log 17). -/
def cond (cc : BitVec 8) (f : Half) : Bool :=
  let lm := (cc.extractLsb' 4 2).toNat
  if lm = 0 then condLane cc f 0
  else
    let n := if lm = 1 then 2 else 4
    if cc.getLsbD 6 then (List.range n).all (condLane cc f) else (List.range n).any (condLane cc f)

end Sys2Proof.Machine
end

