-- ==== Sys2Proof/Machine/State.lean ====
section
/-! DEFINITION. The state of the machine as plain data (spec/10_state.md R20), the five faults, the one
refusal, and the state after reset (spec/10_state.md R43). -/

namespace Sys2Proof.Machine

/-- The five synchronous faults (spec/60_exceptions.md R381). Each is TAKEN in the step that raises it, as the
entry sequence of its vector (R383): a step never ends a run with one. Safe: the machine goes on where
the spec says it does. Log 16. -/
inductive Fault where
  /-- MemoryFault: raised by any access outside every segment or past its segment's end; safe, taken as vector 0x08. -/
  | memory
  /-- DivisionFault: raised by the divide instructions; safe, taken as vector 0x0D. -/
  | division
  /-- DecodingFault: raised by `step` where the decoder refuses the bytes; safe, taken as vector 0x0F. -/
  | decoding
  /-- GeneralProtectionFault: raised by the privileged instructions and INT; safe, taken as vector 0x10. -/
  | generalProtection
  /-- UnprivilegedAccessFault: raised by a memory access that needs privilege; safe, taken as vector 0x11. -/
  | unprivilegedAccess
  deriving DecidableEq, Repr

/-- Why a step has no meaning. -/
inductive Refusal where
  /-- Raised by an arm of `exec` whose instruction has no meaning yet; safe, nothing can be proved of what
  it would do. No arm of this model answers with it. -/
  | notModelled (mnemonic : String)
  deriving DecidableEq, Repr

/-- A valid cache line (spec/20_memory.md R76). The 32 data bytes stand in address order; a line whose
valid bit is 0 has no value of this type (log 4). -/
structure CacheLine where
  tag : Nat
  dirty : Bool
  rpriv : Bool
  wpriv : Bool
  data : List Byte
  deriving DecidableEq, Repr

/-- Bytes of the RAM controllers by absolute address, addresses strictly rising, no byte equal to
`Config.unlistedByte` (spec/10_state.md R42; `Memory.wf`). -/
abbrev Memory := List Host.Cell

/-- The complete state (spec/10_state.md R20). -/
structure State where
  /-- General register A, R16[0] (R21). -/
  rA : Half
  /-- General register B, R16[1] (R21). -/
  rB : Half
  /-- General register C, R16[2] (R21). -/
  rC : Half
  /-- General register D, R16[3] (R21). -/
  rD : Half
  /-- General register I, R16[4] (R21). -/
  rI : Half
  /-- General register J, R16[5] (R21). -/
  rJ : Half
  /-- General register K, R16[6] (R21). -/
  rK : Half
  /-- General register L, R16[7] (R21). -/
  rL : Half
  /-- Instruction pointer (R26, R27). -/
  ip : Word
  /-- Stack pointer (R28). -/
  sp : Word
  /-- Base pointer (R28). -/
  bp : Word
  /-- Interrupt stack pointer (R29). -/
  isp : Word
  /-- Condition flags F, four groups of four bits (R30). -/
  f : Half
  /-- IE, interrupts enabled: bit 0 of PF (R34). -/
  ie : Bool
  /-- PV, privileged: bit 1 of PF (R34). -/
  pv : Bool
  /-- II, in interrupt: bit 2 of PF (R34). -/
  ii : Bool
  /-- HALTED (R36). -/
  halted : Bool
  /-- PEND: a request is latched (R37). -/
  pend : Bool
  /-- PENDVEC: the vector latched (R37). -/
  pendVec : BitVec 8
  /-- WIN[0..7]: the bytes of the fetch window (R38). -/
  win : Window
  /-- WINBASE: the address WIN[0] was read from (R38). -/
  winBase : Word
  /-- WINVALID (R38). -/
  winValid : Bool
  /-- The valid cache lines by rising line index (R39). -/
  cache : List (Nat × CacheLine)
  /-- The RAM controllers' bytes (R42). -/
  mem : Memory
  /-- The platform's open parameters; no step changes them (R41). -/
  plat : Platform
  /-- The device controller calls made, in order (spec/20_memory.md R63). -/
  devLog : List DeviceCall
  /-- The model's own counter that indexes the free device answers. Log 5. -/
  devCount : Nat
  deriving DecidableEq, Repr

/-- The state after reset (spec/10_state.md R43, spec/70_reset_and_hazards.md R430 to R432). `pendVec`, `win`
and `winBase` are unspecified there (log 3); `mem` lists nothing (log 1); `plat` is the host's, RESET_IP in it
(logs 2 and 8). -/
def State.reset : State :=
  { rA := 0, rB := 0, rC := 0, rD := 0, rI := 0, rJ := 0, rK := 0, rL := 0
    ip := Config.defaultPlatform.resetIp, sp := 0, bp := 0, isp := 0, f := 0
    ie := false, pv := true, ii := false
    halted := false, pend := false, pendVec := 0
    win := { b0 := 0, b1 := 0, b2 := 0, b3 := 0, b4 := 0, b5 := 0, b6 := 0, b7 := 0 }
    winBase := 0, winValid := false
    cache := [], mem := [], plat := Config.defaultPlatform, devLog := [], devCount := 0 }

end Sys2Proof.Machine
end

