-- ==== Sys2Proof/Machine/Latch.lean ====
section
/-! DEFINITION. The pending latch and the `fire` calls that set it (spec/60_exceptions.md R386 to R388), and
what a device may do to the core during a call (spec/20_memory.md R63). -/

namespace Sys2Proof.Machine

/-- `fireNonMaskableInterrupt(v)`: the latch is set whatever IE is, and an earlier request is lost
(spec/60_exceptions.md R387, R388). -/
def fireNonMaskable (v : BitVec 8) (s : State) : State := { s with pend := true, pendVec := v }

/-- `fireMaskableInterrupt(v)`: whether the request is accepted, and the state after it. With IE = 0 nothing
changes (spec/60_exceptions.md R386). -/
def fireMaskable (v : BitVec 8) (s : State) : Bool × State :=
  if s.ie then (true, { s with pend := true, pendVec := v }) else (false, s)

/-- One thing a device does to the core during a call (spec/20_memory.md R63). Log 6. -/
def applyEvent (s : State) : DeviceEvent → State
  | .fireMaskable v => (fireMaskable v s).2
  | .fireNonMaskable v => fireNonMaskable v s
  | .setHalted => { s with halted := true }

/-- A device controller call: it is recorded, counted, and followed by what the device does
(spec/20_memory.md R63, spec/93_implementation_defined.md U3). Logs 5 and 6. -/
def deviceCall (c : DeviceCall) (s : State) : State :=
  (Config.deviceEvents s.devCount c).foldl applyEvent
    { s with devLog := s.devLog ++ [c], devCount := s.devCount + 1 }

end Sys2Proof.Machine
end

