-- ==== Sys2Proof/Machine/Memory.lean ====
section
/-! DEFINITION. The memory system: the RAM cells, the address router (spec/20_memory.md R60 to R74), the
caching manager in front of it (R75 to R88), and the accesses of a width the core makes through them
(spec/00_scope.md R14). An access works on byte lists in ascending address order; little-endian values are
made of them in one place (R66). -/

namespace Sys2Proof.Machine

/-! ### Results -/

/-- What an action of the machine answers: a value and the state after it, or a fault and the state at the
moment it was raised (spec/00_scope.md R15). -/
inductive Res (α : Type) where
  | ok (v : α) (s : State)
  | raise (r : Fault) (s : State)
  deriving Repr

/-- Go on with the value and the state, or hand the fault on. -/
def Res.bind {α β : Type} : Res α → (α → State → Res β) → Res β
  | .ok v s, k => k v s
  | .raise r s, _ => .raise r s

/-- Change the value of a result. -/
def Res.map {α β : Type} (g : α → β) : Res α → Res β
  | .ok v s => .ok (g v) s
  | .raise r s => .raise r s

/-- The state a result leaves. -/
def Res.state {α : Type} : Res α → State
  | .ok _ s => s
  | .raise _ s => s

/-! ### RAM cells -/

/-- The byte at an address: the listed one, or what an unlisted byte reads as. -/
def memGet : Memory → Nat → Byte
  | [], _ => Config.unlistedByte
  | (a, b) :: m, x => if x = a then b else memGet m x

/-- A byte stored at an address, in canonical form: storing what an unlisted byte reads as unlists it. -/
def memPut : Memory → Nat → Byte → Memory
  | [], x, v => if v = Config.unlistedByte then [] else [(x, v)]
  | (a, b) :: m, x, v =>
    if x < a then
      if v = Config.unlistedByte then (a, b) :: m else (x, v) :: (a, b) :: m
    else if x = a then
      if v = Config.unlistedByte then m else (x, v) :: m
    else (a, b) :: memPut m x v

/-- The canonical form: addresses strictly rising, no byte equal to what an unlisted one reads as. -/
def Memory.wf : Memory → Bool
  | [] => true
  | (a, b) :: m => decide (b ≠ Config.unlistedByte) && m.all (fun c => decide (a < c.1)) && Memory.wf m

/-! ### Segments (spec/20_memory.md R61, R65) -/

/-- The address after the segment's last one. -/
def segLimit (g : Segment) : Nat := g.start + g.size

/-- Whether an address lies in the segment. -/
def segContains (g : Segment) (a : Nat) : Bool := decide (g.start ≤ a) && decide (a < segLimit g)

/-- The segment with the greatest start not above the address (R65, "floor-lookup on start addresses"). -/
def floorSegment : List Segment → Nat → Option Segment
  | [], _ => none
  | g :: gs, a =>
    match floorSegment gs a with
    | none => if g.start ≤ a then some g else none
    | some h => if g.start ≤ a ∧ h.start < g.start then some g else some h

/-- `Lookup(a)` (R65): the owning segment, or none where the spec raises MemoryFault. -/
def lookup (gs : List Segment) (a : Nat) : Option Segment :=
  match floorSegment gs a with
  | some g => if a < segLimit g then some g else none
  | none => none

/-- What one segment must satisfy (R61, R77): a size, an end inside the address space, and a cacheable one
aligned to lines. -/
def segmentOk (g : Segment) : Bool :=
  decide (1 ≤ g.size) && decide (segLimit g ≤ 2 ^ 32) &&
    (!g.cacheable || (decide (g.start % Config.lineBytes = 0) && decide (g.size % Config.lineBytes = 0)))

/-- Whether two segments share no address (R61). -/
def segmentsApart (g h : Segment) : Bool := decide (segLimit g ≤ h.start) || decide (segLimit h ≤ g.start)

/-- A segment table that registrations can make (R61, R64, R77): a precondition of the model
(spec/93_implementation_defined.md U13, log 10). -/
def segmentsValid : List Segment → Bool
  | [] => true
  | g :: gs => segmentOk g && gs.all (segmentsApart g) && segmentsValid gs

/-! ### Controllers (spec/20_memory.md R62, R63) -/

/-- `readByte`: a RAM byte, or a device's free answer, the call recorded. -/
def ctrlReadByte (g : Segment) (a : Nat) (s : State) : Byte × State :=
  match g.kind with
  | .ram => (memGet s.mem a, s)
  | .device =>
    let b := Config.deviceByte s.devCount g.start (a - g.start)
    (b, deviceCall (.read g.start (a - g.start) b) s)

/-- `writeByte`: a RAM byte stored, or a device called. -/
def ctrlWriteByte (g : Segment) (a : Nat) (b : Byte) (s : State) : State :=
  match g.kind with
  | .ram => { s with mem := memPut s.mem a b }
  | .device => deviceCall (.write g.start (a - g.start) b) s

/-- `n` single-byte reads in ascending order (R62). -/
def ctrlRead (g : Segment) (a : Nat) : Nat → State → List Byte × State
  | 0, s => ([], s)
  | n + 1, s =>
    let r := ctrlReadByte g a s
    let rest := ctrlRead g (a + 1) n r.2
    (r.1 :: rest.1, rest.2)

/-- Single-byte writes in ascending order (R62, R70). -/
def ctrlWrite (g : Segment) (a : Nat) : List Byte → State → State
  | [], s => s
  | b :: bs, s => ctrlWrite g (a + 1) bs (ctrlWriteByte g a b s)

/-! ### The router (spec/20_memory.md R69, R70) -/

/-- A routed read: lookup, containment of the whole access, privilege, and only then the controller. -/
def routerRead (a n : Nat) (p : Bool) (s : State) : Res (List Byte) :=
  match lookup s.plat.segments a with
  | none => .raise .memory s
  | some g =>
    if segLimit g < a + n then .raise .memory s
    else if g.readNeedsPriv && !p then .raise .unprivilegedAccess s
    else
      let r := ctrlRead g a n s
      .ok r.1 r.2

/-- A routed write: the same checks, all before any byte moves. -/
def routerWrite (a : Nat) (bs : List Byte) (p : Bool) (s : State) : Res Unit :=
  match lookup s.plat.segments a with
  | none => .raise .memory s
  | some g =>
    if segLimit g < a + bs.length then .raise .memory s
    else if g.writeNeedsPriv && !p then .raise .unprivilegedAccess s
    else .ok () (ctrlWrite g a bs s)

/-! ### The cache (spec/20_memory.md R75 to R83) -/

/-- `off(a)` (R75). -/
def lineOffset (a : Nat) : Nat := a % Config.lineBytes

/-- `base(a)` (R75). -/
def lineBase (a : Nat) : Nat := a - a % Config.lineBytes

/-- `idx(a)` (R75). -/
def lineIndex (pl : Platform) (a : Nat) : Nat := a / Config.lineBytes % 2 ^ pl.lineBits

/-- `tag(a)` (R75). -/
def lineTag (pl : Platform) (a : Nat) : Nat := a / Config.lineBytes / 2 ^ pl.lineBits

/-- `{tag, idx, 0b00000}`: the base address of the line with a tag at an index (R76). -/
def lineAddr (pl : Platform) (tag idx : Nat) : Nat := (tag * 2 ^ pl.lineBits + idx) * Config.lineBytes

/-- The valid line at an index, if there is one. -/
def lineGet : List (Nat × CacheLine) → Nat → Option CacheLine
  | [], _ => none
  | (i, ln) :: c, x => if x = i then some ln else lineGet c x

/-- A line put at an index, indices kept strictly rising. -/
def linePut : List (Nat × CacheLine) → Nat → CacheLine → List (Nat × CacheLine)
  | [], x, v => [(x, v)]
  | (i, ln) :: c, x, v =>
    if x < i then (x, v) :: (i, ln) :: c
    else if x = i then (x, v) :: c
    else (i, ln) :: linePut c x v

/-- A line set at an index of the state's cache. -/
def setLine (idx : Nat) (ln : CacheLine) (s : State) : State := { s with cache := linePut s.cache idx ln }

/-- A victim's bytes written back, `k` accesses of `lineChunk` bytes in ascending order, with the privileged right
(R78). -/
def flushChunks (a : Nat) (data : List Byte) : Nat → State → Res Unit
  | 0, s => .ok () s
  | k + 1, s =>
    (routerWrite a (data.take Config.lineChunk) true s).bind fun _ s1 =>
      flushChunks (a + Config.lineChunk) (data.drop Config.lineChunk) k s1

/-- A line's bytes read, `k` accesses of `lineChunk` bytes in ascending order, with the privileged right (R78). -/
def loadChunks (a : Nat) : Nat → State → Res (List Byte)
  | 0, s => .ok [] s
  | k + 1, s =>
    (routerRead a Config.lineChunk true s).bind fun bs s1 =>
      (loadChunks (a + Config.lineChunk) k s1).bind fun rest s2 => .ok (bs ++ rest) s2

/-- The eviction of a dirty line: flushed to its own address, then clean (R78). -/
def evictLine (idx : Nat) (ln : CacheLine) (s : State) : Res Unit :=
  if ln.dirty then
    (flushChunks (lineAddr s.plat ln.tag idx) ln.data (Config.lineBytes / Config.lineChunk) s).bind fun _ s1 =>
      .ok () (setLine idx { ln with dirty := false } s1)
  else .ok () s

/-- The load of the line of an address, with the owning controller's privilege attributes (R76, R78). -/
def loadLine (a : Nat) (s : State) : Res CacheLine :=
  match lookup s.plat.segments (lineBase a) with
  | none => .raise .memory s
  | some g =>
    (loadChunks (lineBase a) (Config.lineBytes / Config.lineChunk) s).bind fun data s1 =>
      let ln : CacheLine :=
        { tag := lineTag s.plat a, dirty := false, rpriv := g.readNeedsPriv, wpriv := g.writeNeedsPriv
          data := data }
      .ok ln (setLine (lineIndex s.plat a) ln s1)

/-- `EnsureLine(a)` (R78): the line on a hit; on a miss the victim's eviction and then the load. -/
def ensureLine (a : Nat) (s : State) : Res CacheLine :=
  match lineGet s.cache (lineIndex s.plat a) with
  | none => loadLine a s
  | some ln =>
    if ln.tag = lineTag s.plat a then .ok ln s
    else (evictLine (lineIndex s.plat a) ln s).bind fun _ s1 => loadLine a s1

/-- A line's bytes with some of them replaced from an offset on. -/
def overwrite (data : List Byte) (off : Nat) (bs : List Byte) : List Byte :=
  data.take off ++ bs ++ data.drop (off + bs.length)

/-- Whether accesses to the segment go through the cache (R80, R82). -/
def throughCache (pl : Platform) (g : Segment) : Bool := pl.cacheEnabled && g.cacheable

/-- A read that crosses no line boundary of a cached segment (R80): the routed read, or the line's bytes
after the privilege check on the line (R79). -/
def accessRead (a n : Nat) (p : Bool) (s : State) : Res (List Byte) :=
  match lookup s.plat.segments a with
  | none => .raise .memory s
  | some g =>
    if throughCache s.plat g then
      (ensureLine a s).bind fun ln s1 =>
        if ln.rpriv && !p then .raise .unprivilegedAccess s1
        else .ok ((ln.data.drop (lineOffset a)).take n) s1
    else routerRead a n p s

/-- A write that crosses no line boundary of a cached segment (R80, R83). -/
def accessWrite (a : Nat) (bs : List Byte) (p : Bool) (s : State) : Res Unit :=
  match lookup s.plat.segments a with
  | none => .raise .memory s
  | some g =>
    if throughCache s.plat g then
      (ensureLine a s).bind fun ln s1 =>
        if ln.wpriv && !p then .raise .unprivilegedAccess s1
        else .ok () (setLine (lineIndex s.plat a)
          { ln with dirty := true, data := overwrite ln.data (lineOffset a) bs } s1)
    else routerWrite a bs p s

/-- Single-byte reads in ascending order, each a complete access (R81). -/
def splitRead (a : Nat) : Nat → Bool → State → Res (List Byte)
  | 0, _, s => .ok [] s
  | n + 1, p, s =>
    (accessRead a 1 p s).bind fun b s1 =>
      (splitRead (a + 1) n p s1).bind fun rest s2 => .ok (b ++ rest) s2

/-- Single-byte writes in ascending order, each a complete access (R81). -/
def splitWrite (a : Nat) : List Byte → Bool → State → Res Unit
  | [], _, s => .ok () s
  | b :: bs, p, s => (accessWrite a [b] p s).bind fun _ s1 => splitWrite (a + 1) bs p s1

/-- Whether an access of `n` bytes at `a` is one the cache splits (R80, R81). -/
def splits (pl : Platform) (g : Segment) (a n : Nat) : Bool :=
  throughCache pl g && decide (Config.lineBytes < lineOffset a + n)

/-- `MemReadP(a, n, p)` as bytes (R70, R80). -/
def memReadP (a n : Nat) (p : Bool) (s : State) : Res (List Byte) :=
  match lookup s.plat.segments a with
  | none => .raise .memory s
  | some g => if splits s.plat g a n then splitRead a n p s else accessRead a n p s

/-- `MemWriteP(a, n, v, p)` on the bytes of `v` (R70, R80). -/
def memWriteP (a : Nat) (bs : List Byte) (p : Bool) (s : State) : Res Unit :=
  match lookup s.plat.segments a with
  | none => .raise .memory s
  | some g => if splits s.plat g a bs.length then splitWrite a bs p s else accessWrite a bs p s

/-! ### The memory view (spec/20_memory.md R84) -/

/-- The controller's byte at an address of its segment: a RAM byte; none for a device, whose answer is given
when it is called (R63). -/
def ctrlByte (g : Segment) (a : Nat) (s : State) : Option Byte :=
  match g.kind with
  | .ram => some (memGet s.mem a)
  | .device => none

/-- `View(a)`: the byte a core access at `a` would read, from the valid line that covers the address, be its
segment RAM or a device, or else the controller's byte; none where nothing is mapped, and none for a device's
byte that no line holds. -/
def view (s : State) (a : Nat) : Option Byte :=
  match lookup s.plat.segments a with
  | none => none
  | some g =>
    if throughCache s.plat g then
      match lineGet s.cache (lineIndex s.plat a) with
      | some ln => if ln.tag = lineTag s.plat a then some (ln.data.getD (lineOffset a) 0) else ctrlByte g a s
      | none => ctrlByte g a s
    else ctrlByte g a s

/-! ### Values of a width (spec/20_memory.md R66, spec/00_scope.md R14) -/

/-- The number whose little-endian bytes are the list. -/
def leNat : List Byte → Nat
  | [] => 0
  | b :: bs => b.toNat + 256 * leNat bs

/-- The `n` little-endian bytes of a number. -/
def leBytes : Nat → Nat → List Byte
  | 0, _ => []
  | n + 1, v => BitVec.ofNat 8 v :: leBytes n (v / 256)

/-- A value of a width read at an address with a privilege bit. -/
def memRead (w : Width) (a : Word) (p : Bool) (s : State) : Res (BitVec w.bits) :=
  (memReadP a.toNat w.bytes p s).map fun bs => BitVec.ofNat w.bits (leNat bs)

/-- A value of a width written at an address with a privilege bit. -/
def memWrite (w : Width) (a : Word) (v : BitVec w.bits) (p : Bool) (s : State) : Res Unit :=
  memWriteP a.toNat (leBytes w.bytes v.toNat) p s

end Sys2Proof.Machine
end

