-- ==== Sys2Proof/Machine/Ops.lean ====
section
/-! DEFINITION. The named operations on registers and the stack, and TAKING AN EXCEPTION: the entry sequence
`Dispatch` every fault, INT and external request goes through (spec/60_exceptions.md R389 to R395), and
beside it the return from one (spec/47_system.md R373). -/

namespace Sys2Proof.Machine

/-! ### General registers and their views (spec/10_state.md R21 to R25) -/

/-- `R16[n]` (R21). -/
def reg16 (n : Fin 8) (s : State) : Half :=
  match n with
  | 0 => s.rA
  | 1 => s.rB
  | 2 => s.rC
  | 3 => s.rD
  | 4 => s.rI
  | 5 => s.rJ
  | 6 => s.rK
  | 7 => s.rL

/-- `R16[n] <- v` (R21). -/
def setReg16 (n : Fin 8) (v : Half) (s : State) : State :=
  match n with
  | 0 => { s with rA := v }
  | 1 => { s with rB := v }
  | 2 => { s with rC := v }
  | 3 => { s with rD := v }
  | 4 => { s with rI := v }
  | 5 => { s with rJ := v }
  | 6 => { s with rK := v }
  | 7 => { s with rL := v }

/-- The low half of a 16-bit register. -/
def lowByte (v : Half) : Byte := v.extractLsb' 0 8

/-- The high half of a 16-bit register. -/
def highByte (v : Half) : Byte := v.extractLsb' 8 8

/-- `R8[n]`: AL BL CL DL AH BH CH DH (R22). -/
def reg8 (n : Fin 8) (s : State) : Byte :=
  match n with
  | 0 => lowByte s.rA
  | 1 => lowByte s.rB
  | 2 => lowByte s.rC
  | 3 => lowByte s.rD
  | 4 => highByte s.rA
  | 5 => highByte s.rB
  | 6 => highByte s.rC
  | 7 => highByte s.rD

/-- `R8[n] <- v`: the other half is unchanged (R22). -/
def setReg8 (n : Fin 8) (v : Byte) (s : State) : State :=
  match n with
  | 0 => { s with rA := highByte s.rA ++ v }
  | 1 => { s with rB := highByte s.rB ++ v }
  | 2 => { s with rC := highByte s.rC ++ v }
  | 3 => { s with rD := highByte s.rD ++ v }
  | 4 => { s with rA := v ++ lowByte s.rA }
  | 5 => { s with rB := v ++ lowByte s.rB }
  | 6 => { s with rC := v ++ lowByte s.rC }
  | 7 => { s with rD := v ++ lowByte s.rD }

/-- The low half of a 32-bit value. -/
def lowHalf (v : Word) : Half := v.extractLsb' 0 16

/-- The high half of a 32-bit value. -/
def highHalf (v : Word) : Half := v.extractLsb' 16 16

/-- `R32[n]`: D:A B:C J:I L:K BP SP, the first-named register of a pair high (R23, R24). -/
def reg32 (n : Fin 6) (s : State) : Word :=
  match n with
  | 0 => s.rD ++ s.rA
  | 1 => s.rB ++ s.rC
  | 2 => s.rJ ++ s.rI
  | 3 => s.rL ++ s.rK
  | 4 => s.bp
  | 5 => s.sp

/-- `R32[n] <- v` (R23, R24). -/
def setReg32 (n : Fin 6) (v : Word) (s : State) : State :=
  match n with
  | 0 => { s with rD := highHalf v, rA := lowHalf v }
  | 1 => { s with rB := highHalf v, rC := lowHalf v }
  | 2 => { s with rJ := highHalf v, rI := lowHalf v }
  | 3 => { s with rL := highHalf v, rK := lowHalf v }
  | 4 => { s with bp := v }
  | 5 => { s with sp := v }

/-- The register with a number at a width (spec/30_encoding.md R128). -/
def readReg (w : Width) (n : Fin w.regs) (s : State) : BitVec w.bits :=
  match w with
  | .b8 => reg8 n s
  | .b16 => reg16 n s
  | .b32 => reg32 n s

/-- The register with a number at a width, written (spec/30_encoding.md R124). -/
def writeReg (w : Width) (n : Fin w.regs) (v : BitVec w.bits) (s : State) : State :=
  match w with
  | .b8 => setReg8 n v s
  | .b16 => setReg16 n v s
  | .b32 => setReg32 n v s

/-! ### The privilege flags as a 16-bit image (spec/10_state.md R34) -/

/-- `zext_16({II, PV, IE})`. -/
def pfImage (s : State) : Half :=
  0#13 ++ BitVec.ofBool s.ii ++ BitVec.ofBool s.pv ++ BitVec.ofBool s.ie

/-- `IE <- v[0]; PV <- v[1]; II <- v[2]`; bits 15:3 are ignored. -/
def setPf (v : Half) (s : State) : State :=
  { s with ie := v.getLsbD 0, pv := v.getLsbD 1, ii := v.getLsbD 2 }

/-! ### The stack (spec/42_stack.md R250) -/

/-- `Push(k, v)`: the write first, SP moved only after it succeeded. -/
def push (w : Width) (v : BitVec w.bits) (s : State) : Res Unit :=
  let a := s.sp - BitVec.ofNat 32 w.bytes
  (memWrite w a v s.pv s).bind fun _ s1 => .ok () { s1 with sp := a }

/-- `Pop(k)`: the read first, SP moved only after it succeeded. -/
def pop (w : Width) (s : State) : Res (BitVec w.bits) :=
  (memRead w s.sp s.pv s).bind fun v s1 => .ok v { s1 with sp := s1.sp + BitVec.ofNat 32 w.bytes }

/-! ### Taking an exception (spec/60_exceptions.md R381 to R395) -/

/-- The vector of a fault (R381). -/
def faultVector : Fault → BitVec 8
  | .memory => Config.vecMemory
  | .division => Config.vecDivision
  | .decoding => Config.vecDecoding
  | .generalProtection => Config.vecGeneralProtection
  | .unprivilegedAccess => Config.vecUnprivilegedAccess

/-- The active stack pointer of an entry (R390). -/
def entryStack (s : State) : Word := if s.ii then s.sp else s.isp

/-- The frame's flags word: the PF image in bits 31:16, F in bits 15:0 (R389). -/
def flagsWord (s : State) : Word := pfImage s ++ s.f

/-- The address of a vector's handler pointer (R393). -/
def vectorAddr (v : BitVec 8) : Word := BitVec.ofNat 32 (Config.vectorBase + Config.vectorStride * v.toNat)

/-- The memory accesses of an entry, all with the privileged right (R391): the four frame words in the
order IP, BP, SP, flags word, then the vector's read (R389, R392). -/
def entryAccesses (v : BitVec 8) (ipSave : Word) (s : State) : Res Word :=
  let top := entryStack s
  (memWrite .b32 (top - BitVec.ofNat 32 Config.frameIp) ipSave true s).bind fun _ s1 =>
  (memWrite .b32 (top - BitVec.ofNat 32 Config.frameBp) s.bp true s1).bind fun _ s2 =>
  (memWrite .b32 (top - BitVec.ofNat 32 Config.frameSp) s.sp true s2).bind fun _ s3 =>
  (memWrite .b32 (top - BitVec.ofNat 32 Config.frameFlags) (flagsWord s) true s3).bind fun _ s4 =>
  memRead .b32 (vectorAddr v) true s4

/-- `Dispatch(v, ipSave)` (R392). A fault inside it is a double fault: HALTED is set and no other register
changes (R395). -/
def dispatch (v : BitVec 8) (ipSave : Word) (s : State) : State :=
  match entryAccesses v ipSave s with
  | .raise _ t => { t with halted := true }
  | .ok h t =>
    { t with
      sp := entryStack s - BitVec.ofNat 32 Config.frameBytes
      pv := true, ii := true, ie := false
      ip := h
      winValid := false }

/-- A fault taken: IP rolled back to the faulting instruction, then the entry of its vector (R383). -/
def takeFault (r : Fault) (ip0 : Word) (s : State) : State :=
  dispatch (faultVector r) ip0 { s with ip := ip0 }

/-- The return from an exception (spec/47_system.md R373), after its privilege check: four reads in
ascending order, then SP, BP, IP, PF and at last F. -/
def returnFromEntry (s : State) : Res Unit :=
  (memRead .b32 s.sp s.pv s).bind fun w s1 =>
  (memRead .b32 (s.sp + BitVec.ofNat 32 (Config.frameBytes - Config.frameSp)) s.pv s1).bind fun sp' s2 =>
  (memRead .b32 (s.sp + BitVec.ofNat 32 (Config.frameBytes - Config.frameBp)) s.pv s2).bind fun bp' s3 =>
  (memRead .b32 (s.sp + BitVec.ofNat 32 (Config.frameBytes - Config.frameIp)) s.pv s3).bind fun ip' s4 =>
  .ok () { setPf (highHalf w) { s4 with sp := sp', bp := bp', ip := ip' } with f := lowHalf w }

/-- A privileged instruction's check (spec/60_exceptions.md R401): GeneralProtectionFault when PV = 0. -/
def needPrivilege {α : Type} (s : State) (k : Res α) : Res α :=
  if s.pv then k else .raise .generalProtection s

end Sys2Proof.Machine
end

