-- ==== Sys2Proof/Machine/Operands.lean ====
section
/-! DEFINITION. Operand locations (spec/30_encoding.md R121, R124), effective addresses (R140 to R144), and the
shapes instructions have: decode's operand reads, the advance of IP, and what execute writes
(R122, R150). A meaning is one of these shapes with its own function. -/

namespace Sys2Proof.Machine

/-- The outcome type of a step. -/
abbrev Out := Host.Outcome State Fault Refusal

/-! ### Effective addresses (spec/30_encoding.md R140 to R144) -/

/-- The base value; `next` is `IP0 + len`, the IP base (R140, R144). -/
def baseValue (b : Base) (next : Word) (s : State) : Word :=
  match b with
  | .da => reg32 0 s
  | .bc => reg32 1 s
  | .ji => reg32 2 s
  | .lk => reg32 3 s
  | .bp => s.bp
  | .sp => s.sp
  | .ip => next
  | .zero => 0

/-- The scale as a number (R142). -/
def scaleFactor : Scale → Word
  | .x1 => 1
  | .x2 => 2
  | .x4 => 4

/-- The index, zero-extended and scaled (R142). -/
def indexValue (ix : Index) (s : State) : Word := (reg16 ix.reg s).setWidth 32 * scaleFactor ix.scale

/-- The effective address `base + index + offset` modulo `2^32` (R131, R141, R143). -/
def effectiveAddr (m : MemOp) (next : Word) (s : State) : Word :=
  match m with
  | .abs a => a
  | .plain b => baseValue b next s
  | .indexed b ix => baseValue b next s + indexValue ix s
  | .off8 b o => baseValue b next s + o.signExtend 32
  | .off16 b o => baseValue b next s + o.signExtend 32
  | .off32 b o => baseValue b next s + o
  | .indexedOff b ix o => baseValue b next s + indexValue ix s + o

/-! ### Locations (spec/30_encoding.md R121, R124) -/

/-- A resolved operand of a width: a register, an immediate, or memory at an absolute address. -/
inductive Loc (w : Width) where
  | reg (n : Fin w.regs)
  | imm (v : BitVec w.bits)
  | mem (a : Word)
  deriving DecidableEq, Repr

/-- `ReadLoc` (R124), with the current PV. -/
def readLoc {w : Width} (l : Loc w) (s : State) : Res (BitVec w.bits) :=
  match l with
  | .reg n => .ok (readReg w n s) s
  | .imm v => .ok v s
  | .mem a => memRead w a s.pv s

/-- `Write` (R124), with the current PV. No instruction has an immediate destination (R129). -/
def writeLoc {w : Width} (l : Loc w) (v : BitVec w.bits) (s : State) : Res Unit :=
  match l with
  | .reg n => .ok () (writeReg w n v s)
  | .imm _ => .ok () s
  | .mem a => memWrite w a v s.pv s

/-- The destination of a RIM2 form (R129). -/
def rim2Dst {wd ws : Width} (o : Rim2 wd ws) (next : Word) (s : State) : Loc wd :=
  match o with
  | .rr d _ => .reg d
  | .ri d _ => .reg d
  | .rm d _ => .reg d
  | .mr m _ => .mem (effectiveAddr m next s)

/-- The source of a RIM2 form (R129). -/
def rim2Src {wd ws : Width} (o : Rim2 wd ws) (next : Word) (s : State) : Loc ws :=
  match o with
  | .rr _ x => .reg x
  | .ri _ v => .imm v
  | .rm _ m => .mem (effectiveAddr m next s)
  | .mr _ x => .reg x

/-- The source of a RIMSRC form (R134). -/
def rimSrcLoc {w : Width} (o : RimSrc w) (next : Word) (s : State) : Loc w :=
  match o with
  | .reg x => .reg x
  | .imm v => .imm v
  | .mem m => .mem (effectiveAddr m next s)

/-- The destination of a RIMDST form (R135). -/
def rimDstLoc {w : Width} (o : RimDst w) (next : Word) (s : State) : Loc w :=
  match o with
  | .reg x => .reg x
  | .mem m => .mem (effectiveAddr m next s)

/-! ### The end of an instruction (spec/60_exceptions.md R380, R383) -/

/-- `IP0 + len` modulo `2^32` (spec/10_state.md R27). -/
def nextIp (s : State) (len : Nat) : Word := s.ip + BitVec.ofNat 32 len

/-- The outcome of an instruction that began in `s`: its end state, or the fault it raised, taken. -/
def complete (s : State) (r : Res Unit) : Out :=
  match r with
  | .ok _ t => .next t
  | .raise e t => .next (takeFault e s.ip t)

/-- Write what an operation computed: the destination first, the flags last
(spec/43_arith.md R296). -/
def commit {w : Width} (dst : Loc w) (out : AluOut w.bits) (s : State) : Res Unit :=
  (match out.result with
   | some v => writeLoc dst v s
   | none => .ok () s).bind fun _ t =>
  .ok () (match out.flags with
          | some f => { t with f := f }
          | none => t)

/-- Commit an operation's result, or raise DivisionFault with nothing written (spec/44_muldiv.md R314). -/
def commitOrFault {w : Width} (dst : Loc w) (out : Option (AluOut w.bits)) (s : State) : Res Unit :=
  match out with
  | some o => commit dst o s
  | none => .raise .division s

/-! ### Shapes of instructions (spec/30_encoding.md R122, R150) -/

/-- Form NONE and the immediate-only forms: IP advanced, then the instruction's own action. -/
def bare (len : Nat) (act : State → Res Unit) (s : State) : Out :=
  complete s (act { s with ip := nextIp s len })

/-- A RIM2 form that reads its destination: source read, destination read, IP advanced, and the result of
`op dstVal srcVal` committed. `extra` counts the EI8 byte. -/
def rim2Read {wd ws : Width} (extra : Nat) (o : Rim2 wd ws)
    (op : BitVec wd.bits → BitVec ws.bits → Option (AluOut wd.bits)) (s : State) : Out :=
  let next := nextIp s (2 + extra + o.tail)
  complete s <|
    (readLoc (rim2Src o next s) s).bind fun b s1 =>
    (readLoc (rim2Dst o next s) s1).bind fun a s2 =>
    commitOrFault (rim2Dst o next s) (op a b) { s2 with ip := next }

/-- A RIM2 form whose destination is write-only: source read, IP advanced, and the value of `op srcVal`
written where there is one. -/
def rim2Write {wd ws : Width} (extra : Nat) (o : Rim2 wd ws)
    (op : BitVec ws.bits → Option (BitVec wd.bits)) (s : State) : Out :=
  let next := nextIp s (2 + extra + o.tail)
  complete s <|
    (readLoc (rim2Src o next s) s).bind fun b s1 =>
    commit (rim2Dst o next s) { result := op b, flags := none } { s1 with ip := next }

/-- A RIMSRC form: source read, IP advanced, then the instruction's own action on the value. -/
def rimSrcThen {w : Width} (o : RimSrc w) (act : BitVec w.bits → State → Res Unit) (s : State) : Out :=
  let next := nextIp s (2 + o.tail)
  complete s <|
    (readLoc (rimSrcLoc o next s) s).bind fun v s1 => act v { s1 with ip := next }

/-- A RIMDST form whose destination is write-only: IP advanced, then the instruction's own action on the
location. -/
def rimDstThen {w : Width} (o : RimDst w) (act : Loc w → State → Res Unit) (s : State) : Out :=
  let next := nextIp s (2 + o.tail)
  complete s (act (rimDstLoc o next s) { s with ip := next })

/-- A RIMDST form that reads its destination: read, IP advanced, and the result of `op dstVal` committed.
`extra` counts the EI8 byte. -/
def rimDstRead {w : Width} (extra : Nat) (o : RimDst w) (op : BitVec w.bits → AluOut w.bits)
    (s : State) : Out :=
  let next := nextIp s (2 + extra + o.tail)
  complete s <|
    (readLoc (rimDstLoc o next s) s).bind fun a s1 =>
    commit (rimDstLoc o next s) (op a) { s1 with ip := next }

/-! ### The width kinds SZ and PROM over the shapes (spec/30_encoding.md R127) -/

/-- `rim2Read` at the width SZ picks. -/
def szRead (o : Rim2Sz) (op : (w : Nat) → BitVec w → BitVec w → Option (AluOut w)) (s : State) : Out :=
  match o with
  | .w16 o => rim2Read 0 o (op 16) s
  | .w8 o => rim2Read 0 o (op 8) s

/-- `rim2Write` at the width SZ picks. -/
def szWrite (extra : Nat) (o : Rim2Sz) (op : (w : Nat) → BitVec w → Option (BitVec w)) (s : State) : Out :=
  match o with
  | .w16 o => rim2Write extra o (op 16) s
  | .w8 o => rim2Write extra o (op 8) s

/-- `rimDstRead` at the width SZ picks. -/
def szDstRead (extra : Nat) (o : RimDstSz) (op : (w : Nat) → BitVec w → AluOut w) (s : State) : Out :=
  match o with
  | .w16 o => rimDstRead extra o (op 16) s
  | .w8 o => rimDstRead extra o (op 8) s

/-- `rim2Read` at the widths PROM picks: `op` takes the source width, the destination width, the
destination's old value and the source. -/
def promRead (o : Rim2Prom) (op : (w w2 : Nat) → BitVec w2 → BitVec w → Option (AluOut w2)) (s : State) : Out :=
  match o with
  | .w16 o => rim2Read 0 o (op 16 32) s
  | .w8 o => rim2Read 0 o (op 8 16) s

/-- `rim2Write` at the widths PROM picks. -/
def promWrite (o : Rim2Prom) (op : (w w2 : Nat) → BitVec w → BitVec w2) (s : State) : Out :=
  match o with
  | .w16 o => rim2Write 0 o (fun v => some (op 16 32 v)) s
  | .w8 o => rim2Write 0 o (fun v => some (op 8 16 v)) s

end Sys2Proof.Machine
end

