-- ==== Sys2Proof/Machine/Arith.lean ====
section
/-! DEFINITION. The arithmetic family (spec/43_arith.md R280 to R297): the result is `dst op src` (R297), written before F (R296). -/

namespace Sys2Proof.Machine

/-- ADD dst, src (spec/43_arith.md R280). -/
def execAdd (o : Rim2Sz) (s : State) : Out := szRead o (fun _ a b => some (.scalar (aluAdd a b false))) s

/-- ADC dst, src: with C of group 0 (spec/43_arith.md R281). -/
def execAdc (o : Rim2Sz) (s : State) : Out :=
  szRead o (fun _ a b => some (.scalar (aluAdd a b (carryFlag s.f)))) s

/-- SUB dst, src (spec/43_arith.md R282). -/
def execSub (o : Rim2Sz) (s : State) : Out := szRead o (fun _ a b => some (.scalar (aluSub a b false))) s

/-- SBB dst, src: with C of group 0 as the borrow (spec/43_arith.md R283). -/
def execSbb (o : Rim2Sz) (s : State) : Out :=
  szRead o (fun _ a b => some (.scalar (aluSub a b (carryFlag s.f)))) s

/-- CMP dst, src: SUB without the write (spec/43_arith.md R284). -/
def execCmp (o : Rim2Sz) (s : State) : Out :=
  szRead o (fun _ a b => some (.compare (aluSub a b false))) s

/-- CMPI dst, imm8: the immediate is sign-extended to the operand width (spec/43_arith.md R285). -/
def execCmpi (o : RimDstSz) (imm : BitVec 8) (s : State) : Out :=
  szDstRead 1 o (fun w a => .compare (aluSub a (imm.signExtend w) false)) s

/-- ADDW dst, src (spec/43_arith.md R286). -/
def execAddw (o : Rim2 .b32 .b32) (s : State) : Out :=
  rim2Read 0 o (fun a b => some (.scalar (aluAdd a b false))) s

/-- ADCW dst, src (spec/43_arith.md R287). -/
def execAdcw (o : Rim2 .b32 .b32) (s : State) : Out :=
  rim2Read 0 o (fun a b => some (.scalar (aluAdd a b (carryFlag s.f)))) s

/-- SUBW dst, src (spec/43_arith.md R288). -/
def execSubw (o : Rim2 .b32 .b32) (s : State) : Out :=
  rim2Read 0 o (fun a b => some (.scalar (aluSub a b false))) s

/-- SBBW dst, src (spec/43_arith.md R289). -/
def execSbbw (o : Rim2 .b32 .b32) (s : State) : Out :=
  rim2Read 0 o (fun a b => some (.scalar (aluSub a b (carryFlag s.f)))) s

/-- CMPW dst, src: SUBW without the write (spec/43_arith.md R290). -/
def execCmpw (o : Rim2 .b32 .b32) (s : State) : Out :=
  rim2Read 0 o (fun a b => some (.compare (aluSub a b false))) s

/-- A packed operation on 16-bit operands: `op` gets the lane number and the lanes of the destination's
old value and of the source (spec/40_alu.md R188). -/
def packedOp (l : Lane) (op : Nat → BitVec (laneBits l) → BitVec (laneBits l) →
    Option (BitVec (laneBits l) × BitVec 4)) (a b : Half) : Option (AluOut 16) :=
  packed (laneCount l) 16 fun i => op i (laneAt (laneBits l) a i) (laneAt (laneBits l) b i)

/-- The carry a lane takes in PADC and PSBB: C of its own group (spec/40_alu.md R189). -/
def laneCarry (f : Half) (i : Nat) : Bool := groupC (flagsAt f i)

/-- PADD dst, src (spec/43_arith.md R291). -/
def execPadd (l : Lane) (o : Rim2 .b16 .b16) (s : State) : Out :=
  rim2Read 0 o (packedOp l fun _ a b => some (aluAdd a b false)) s

/-- PADC dst, src: each lane with its own carry (spec/43_arith.md R292). -/
def execPadc (l : Lane) (o : Rim2 .b16 .b16) (s : State) : Out :=
  rim2Read 0 o (packedOp l fun i a b => some (aluAdd a b (laneCarry s.f i))) s

/-- PSUB dst, src (spec/43_arith.md R293). -/
def execPsub (l : Lane) (o : Rim2 .b16 .b16) (s : State) : Out :=
  rim2Read 0 o (packedOp l fun _ a b => some (aluSub a b false)) s

/-- PSBB dst, src: each lane with its own borrow (spec/43_arith.md R294). -/
def execPsbb (l : Lane) (o : Rim2 .b16 .b16) (s : State) : Out :=
  rim2Read 0 o (packedOp l fun i a b => some (aluSub a b (laneCarry s.f i))) s

/-- PCMP dst, src: PSUB without the write (spec/43_arith.md R295). -/
def execPcmp (l : Lane) (o : Rim2 .b16 .b16) (s : State) : Out :=
  rim2Read 0 o (fun a b =>
    (packedOp l (fun _ a b => some (aluSub a b false)) a b).map fun r => { r with result := none }) s

end Sys2Proof.Machine
end

