-- ==== Sys2Proof/Machine/Control.lean ====
section
/-! DEFINITION. The control-flow family (spec/46_control.md R350 to R361). None changes F (R360). -/

namespace Sys2Proof.Machine

/-- IP moved by a displacement from the advanced IP (spec/46_control.md R360). -/
def jumpBy (d : Word) (s : State) : Res Unit := .ok () { s with ip := s.ip + d }

/-- The advanced IP pushed, then IP moved to a target computed from it (spec/46_control.md R361). -/
def callTo (target : Word) (s : State) : Res Unit :=
  (push .b32 s.ip s).bind fun _ s1 => .ok () { s1 with ip := target }

/-- A conditional jump by a displacement (spec/46_control.md R358, R359). -/
def jumpIf (cc : BitVec 8) (d : Word) (s : State) : Res Unit :=
  if cond cc s.f then jumpBy d s else .ok () s

/-- JMP rel8 (spec/46_control.md R350). -/
def execJmpRel8 (d : BitVec 8) (s : State) : Out := bare 2 (jumpBy (d.signExtend 32)) s

/-- JMP rel16 (spec/46_control.md R351). -/
def execJmpRel16 (d : BitVec 16) (s : State) : Out := bare 3 (jumpBy (d.signExtend 32)) s

/-- JMP rel32 (spec/46_control.md R352). -/
def execJmpRel32 (d : BitVec 32) (s : State) : Out := bare 5 (jumpBy d) s

/-- JMPA src (spec/46_control.md R353). -/
def execJmpa (o : RimSrc .b32) (s : State) : Out := rimSrcThen o (fun v t => .ok () { t with ip := v }) s

/-- CALL rel16 (spec/46_control.md R354). -/
def execCallRel16 (d : BitVec 16) (s : State) : Out :=
  bare 3 (fun t => callTo (t.ip + d.signExtend 32) t) s

/-- CALL rel32 (spec/46_control.md R355). -/
def execCallRel32 (d : BitVec 32) (s : State) : Out := bare 5 (fun t => callTo (t.ip + d) t) s

/-- CALLA src: the source is read before the push (spec/46_control.md R356). -/
def execCalla (o : RimSrc .b32) (s : State) : Out := rimSrcThen o callTo s

/-- RET (spec/46_control.md R357). -/
def execRet (s : State) : Out :=
  bare 1 (fun t => (pop .b32 t).bind fun v t1 => .ok () { t1 with ip := v }) s

/-- JCC cc, rel8 (spec/46_control.md R358). -/
def execJccRel8 (cc : BitVec 8) (d : BitVec 8) (s : State) : Out :=
  bare 3 (jumpIf cc (d.signExtend 32)) s

/-- JCC cc, rel16 (spec/46_control.md R359). -/
def execJccRel16 (cc : BitVec 8) (d : BitVec 16) (s : State) : Out :=
  bare 4 (jumpIf cc (d.signExtend 32)) s

end Sys2Proof.Machine
end

