-- ==== Sys2Proof/Machine/Logic.lean ====
section
/-! DEFINITION. The logic, shift and rotate family (spec/45_logic_shift.md R320 to R344). -/

namespace Sys2Proof.Machine

/-- A bitwise result with its flags (spec/40_alu.md R199). -/
def logicOut {w : Nat} (r : BitVec w) : AluOut w := .scalar (r, logicGroup r)

/-- A shift of the destination by the count operand's low five bits (spec/45_logic_shift.md R344). -/
def shiftBy (k : ShiftKind) (o : Rim2Sz) (s : State) : Out :=
  szRead o (fun _ a b => some (.scalar (aluShift k a (shiftCount b) (carryFlag s.f)))) s

/-- A shift of the destination by one (spec/45_logic_shift.md R344, R337). -/
def shiftOne (k : ShiftKind) (o : RimDstSz) (s : State) : Out :=
  szDstRead 0 o (fun _ a => .scalar (aluShift k a 1 (carryFlag s.f))) s

/-- AND dst, src (spec/45_logic_shift.md R320). -/
def execAnd (o : Rim2Sz) (s : State) : Out := szRead o (fun _ a b => some (logicOut (a &&& b))) s

/-- OR dst, src (spec/45_logic_shift.md R321). -/
def execOr (o : Rim2Sz) (s : State) : Out := szRead o (fun _ a b => some (logicOut (a ||| b))) s

/-- XOR dst, src (spec/45_logic_shift.md R322). -/
def execXor (o : Rim2Sz) (s : State) : Out := szRead o (fun _ a b => some (logicOut (a ^^^ b))) s

/-- NOT dst (spec/45_logic_shift.md R323). -/
def execNot (o : RimDstSz) (s : State) : Out := szDstRead 0 o (fun _ a => logicOut (~~~a)) s

/-- SHL dst, cnt (spec/45_logic_shift.md R330). -/
def execShl (o : Rim2Sz) (s : State) : Out := shiftBy .shl o s

/-- SHR dst, cnt (spec/45_logic_shift.md R331). -/
def execShr (o : Rim2Sz) (s : State) : Out := shiftBy .shr o s

/-- SAR dst, cnt (spec/45_logic_shift.md R332). -/
def execSar (o : Rim2Sz) (s : State) : Out := shiftBy .sar o s

/-- ROL dst, cnt (spec/45_logic_shift.md R333). -/
def execRol (o : Rim2Sz) (s : State) : Out := shiftBy .rol o s

/-- ROR dst, cnt (spec/45_logic_shift.md R334). -/
def execRor (o : Rim2Sz) (s : State) : Out := shiftBy .ror o s

/-- RCL dst, cnt (spec/45_logic_shift.md R335). -/
def execRcl (o : Rim2Sz) (s : State) : Out := shiftBy .rcl o s

/-- RCR dst, cnt (spec/45_logic_shift.md R336). -/
def execRcr (o : Rim2Sz) (s : State) : Out := shiftBy .rcr o s

/-- SHL1 dst (spec/45_logic_shift.md R337). -/
def execShl1 (o : RimDstSz) (s : State) : Out := shiftOne .shl o s

/-- SHR1 dst (spec/45_logic_shift.md R338). -/
def execShr1 (o : RimDstSz) (s : State) : Out := shiftOne .shr o s

/-- SAR1 dst (spec/45_logic_shift.md R339). -/
def execSar1 (o : RimDstSz) (s : State) : Out := shiftOne .sar o s

/-- ROL1 dst (spec/45_logic_shift.md R340). -/
def execRol1 (o : RimDstSz) (s : State) : Out := shiftOne .rol o s

/-- ROR1 dst (spec/45_logic_shift.md R341). -/
def execRor1 (o : RimDstSz) (s : State) : Out := shiftOne .ror o s

/-- RCL1 dst (spec/45_logic_shift.md R342). -/
def execRcl1 (o : RimDstSz) (s : State) : Out := shiftOne .rcl o s

/-- RCR1 dst (spec/45_logic_shift.md R343). -/
def execRcr1 (o : RimDstSz) (s : State) : Out := shiftOne .rcr o s

end Sys2Proof.Machine
end

