-- ==== Sys2Proof/Machine/Move.lean ====
section
/-! DEFINITION. The move family (spec/41_move.md R220 to R239). No move changes F (R226). -/

namespace Sys2Proof.Machine

/-- The short form `MOV R16[n], imm16` (spec/41_move.md R221). -/
def movImm (n : Fin 8) (imm : BitVec 16) (s : State) : Out := bare 3 (fun t => .ok () (setReg16 n imm t)) s

/-- MOV A, imm16 (spec/41_move.md R221). -/
def execMovImmA (imm : BitVec 16) (s : State) : Out := movImm 0 imm s

/-- MOV B, imm16 (spec/41_move.md R221). -/
def execMovImmB (imm : BitVec 16) (s : State) : Out := movImm 1 imm s

/-- MOV C, imm16 (spec/41_move.md R221). -/
def execMovImmC (imm : BitVec 16) (s : State) : Out := movImm 2 imm s

/-- MOV D, imm16 (spec/41_move.md R221). -/
def execMovImmD (imm : BitVec 16) (s : State) : Out := movImm 3 imm s

/-- MOV I, imm16 (spec/41_move.md R221). -/
def execMovImmI (imm : BitVec 16) (s : State) : Out := movImm 4 imm s

/-- MOV J, imm16 (spec/41_move.md R221). -/
def execMovImmJ (imm : BitVec 16) (s : State) : Out := movImm 5 imm s

/-- MOV K, imm16 (spec/41_move.md R221). -/
def execMovImmK (imm : BitVec 16) (s : State) : Out := movImm 6 imm s

/-- MOV L, imm16 (spec/41_move.md R221). -/
def execMovImmL (imm : BitVec 16) (s : State) : Out := movImm 7 imm s

/-- MOV dst, src (spec/41_move.md R220). -/
def execMov (o : Rim2Sz) (s : State) : Out := szWrite 0 o (fun _ v => some v) s

/-- MOVW dst, src (spec/41_move.md R222). -/
def execMovw (o : Rim2 .b32 .b32) (s : State) : Out := rim2Write 0 o some s

/-- MOVS dst, src: sign-extending (spec/41_move.md R223). -/
def execMovs (o : Rim2Prom) (s : State) : Out := promWrite o (fun _ w2 v => v.signExtend w2) s

/-- MOVZ dst, src: zero-extending (spec/41_move.md R224). -/
def execMovz (o : Rim2Prom) (s : State) : Out := promWrite o (fun _ w2 v => v.setWidth w2) s

/-- CMOV dst, src, cc: with a false condition nothing is written (spec/41_move.md R230). -/
def execCmov (o : Rim2Sz) (cc : BitVec 8) (s : State) : Out :=
  szWrite 1 o (fun _ v => if cond cc s.f then some v else none) s

/-- The lanes PCMOV merges: the source's where the lane's own condition holds, else the destination's
(spec/41_move.md R231). -/
def mergeLanes (l : Lane) (cc : BitVec 8) (f a b : Half) : Half :=
  joinLanes 16 ((List.range (laneCount l)).map fun i =>
    if condLane cc f i then laneAt (laneBits l) b i else laneAt (laneBits l) a i)

/-- PCMOV dst, src, cc: the destination is read, merged and always written; F unchanged (spec/41_move.md R231). -/
def execPcmov (l : Lane) (o : Rim2 .b16 .b16) (cc : BitVec 8) (s : State) : Out :=
  rim2Read 1 o (fun a b => some { result := some (mergeLanes l cc s.f a b), flags := none }) s

/-- MOV ISP, src (spec/41_move.md R236): the source is read before the privilege check. -/
def execMovToIsp (o : RimSrc .b32) (s : State) : Out :=
  rimSrcThen o (fun v t => needPrivilege t (.ok () { t with isp := v })) s

/-- MOV dst, ISP (spec/41_move.md R237). -/
def execMovFromIsp (o : RimDst .b32) (s : State) : Out :=
  rimDstThen o (fun l t => needPrivilege t (writeLoc l t.isp t)) s

/-- MOV PF, src (spec/41_move.md R238): bits 15:3 of the source are ignored. -/
def execMovToPf (o : RimSrc .b16) (s : State) : Out :=
  rimSrcThen o (fun v t => needPrivilege t (.ok () (setPf v t))) s

/-- MOV dst, PF (spec/41_move.md R239). -/
def execMovFromPf (o : RimDst .b16) (s : State) : Out :=
  rimDstThen o (fun l t => needPrivilege t (writeLoc l (pfImage t) t)) s

end Sys2Proof.Machine
end

