-- ==== Sys2Proof/Machine/MulDiv.lean ====
section
/-! DEFINITION. The multiply and divide family (spec/44_muldiv.md R300 to R315). A DivisionFault writes nothing (R314), and one lane's is the whole's (spec/40_alu.md R198). -/

namespace Sys2Proof.Machine

/-- A packed promotion: `op` gets the double-width lane of the destination's old value and the lane of the
source, and answers a double-width lane (spec/44_muldiv.md R308, spec/40_alu.md R187). -/
def packedWide (l : Lane) (op : BitVec (2 * laneBits l) → BitVec (laneBits l) →
    Option (BitVec (2 * laneBits l) × BitVec 4)) (a : Word) (b : Half) : Option (AluOut 32) :=
  packed (laneCount l) 32 fun i => op (laneAt (2 * laneBits l) a i) (laneAt (laneBits l) b i)

/-- A packed operation on 16-bit operands that takes no lane number (spec/44_muldiv.md R307, R310). -/
def packedSame (l : Lane) (op : BitVec (laneBits l) → BitVec (laneBits l) →
    Option (BitVec (laneBits l) × BitVec 4)) (a b : Half) : Option (AluOut 16) :=
  packed (laneCount l) 16 fun i => op (laneAt (laneBits l) a i) (laneAt (laneBits l) b i)

/-- MUL dst, src (spec/44_muldiv.md R300). -/
def execMul (o : Rim2Sz) (s : State) : Out := szRead o (fun _ a b => some (.scalar (aluMul a b))) s

/-- MULH dst, src: the multiplicand is the low half of the destination (spec/44_muldiv.md R301). -/
def execMulh (o : Rim2Prom) (s : State) : Out :=
  promRead o (fun w w2 a b => some (.scalar (aluMulWideU w2 (a.setWidth w) b))) s

/-- MULSH dst, src: signed (spec/44_muldiv.md R302). -/
def execMulsh (o : Rim2Prom) (s : State) : Out :=
  promRead o (fun w w2 a b => some (.scalar (aluMulWideS w2 (a.setWidth w) b))) s

/-- DIV dst, src (spec/44_muldiv.md R303). -/
def execDiv (o : Rim2Sz) (s : State) : Out := szRead o (fun _ a b => (aluDivU a b).map .scalar) s

/-- DIVS dst, src (spec/44_muldiv.md R304). -/
def execDivs (o : Rim2Sz) (s : State) : Out := szRead o (fun _ a b => (aluDivS a b).map .scalar) s

/-- DIVM dst, src (spec/44_muldiv.md R305). -/
def execDivm (o : Rim2Prom) (s : State) : Out :=
  promRead o (fun _ _ a b => (aluDivModU a b).map .scalar) s

/-- DIVMS dst, src (spec/44_muldiv.md R306). -/
def execDivms (o : Rim2Prom) (s : State) : Out :=
  promRead o (fun _ _ a b => (aluDivModS a b).map .scalar) s

/-- PMUL dst, src (spec/44_muldiv.md R307). -/
def execPmul (l : Lane) (o : Rim2 .b16 .b16) (s : State) : Out :=
  rim2Read 0 o (packedSame l fun a b => some (aluMul a b)) s

/-- PMULH dst, src (spec/44_muldiv.md R308). -/
def execPmulh (l : Lane) (o : Rim2 .b32 .b16) (s : State) : Out :=
  rim2Read 0 o (packedWide l fun a b => some (aluMulWideU _ (a.setWidth _) b)) s

/-- PMULSH dst, src (spec/44_muldiv.md R309). -/
def execPmulsh (l : Lane) (o : Rim2 .b32 .b16) (s : State) : Out :=
  rim2Read 0 o (packedWide l fun a b => some (aluMulWideS _ (a.setWidth _) b)) s

/-- PDIV dst, src (spec/44_muldiv.md R310). -/
def execPdiv (l : Lane) (o : Rim2 .b16 .b16) (s : State) : Out := rim2Read 0 o (packedSame l aluDivU) s

/-- PDIVS dst, src (spec/44_muldiv.md R311). -/
def execPdivs (l : Lane) (o : Rim2 .b16 .b16) (s : State) : Out := rim2Read 0 o (packedSame l aluDivS) s

/-- PDIVM dst, src (spec/44_muldiv.md R312). -/
def execPdivm (l : Lane) (o : Rim2 .b32 .b16) (s : State) : Out :=
  rim2Read 0 o (packedWide l aluDivModU) s

/-- PDIVMS dst, src (spec/44_muldiv.md R313). -/
def execPdivms (l : Lane) (o : Rim2 .b32 .b16) (s : State) : Out :=
  rim2Read 0 o (packedWide l aluDivModS) s

end Sys2Proof.Machine
end

