-- ==== Sys2Proof/Machine/Stack.lean ====
section
/-! DEFINITION. The stack family (spec/42_stack.md R250 to R263). No stack instruction changes F (R251). -/

namespace Sys2Proof.Machine

/-- `PUSH R16[n]` (spec/42_stack.md R252). -/
def pushReg16 (n : Fin 8) (s : State) : Out := bare 1 (fun t => push .b16 (reg16 n t) t) s

/-- `POP R16[n]` (spec/42_stack.md R253). -/
def popReg16 (n : Fin 8) (s : State) : Out :=
  bare 1 (fun t => (pop .b16 t).bind fun v t1 => .ok () (setReg16 n v t1)) s

/-- PUSH A (spec/42_stack.md R252). -/
def execPushA (s : State) : Out := pushReg16 0 s

/-- PUSH B (spec/42_stack.md R252). -/
def execPushB (s : State) : Out := pushReg16 1 s

/-- PUSH C (spec/42_stack.md R252). -/
def execPushC (s : State) : Out := pushReg16 2 s

/-- PUSH D (spec/42_stack.md R252). -/
def execPushD (s : State) : Out := pushReg16 3 s

/-- PUSH I (spec/42_stack.md R252). -/
def execPushI (s : State) : Out := pushReg16 4 s

/-- PUSH J (spec/42_stack.md R252). -/
def execPushJ (s : State) : Out := pushReg16 5 s

/-- PUSH K (spec/42_stack.md R252). -/
def execPushK (s : State) : Out := pushReg16 6 s

/-- PUSH L (spec/42_stack.md R252). -/
def execPushL (s : State) : Out := pushReg16 7 s

/-- POP A (spec/42_stack.md R253). -/
def execPopA (s : State) : Out := popReg16 0 s

/-- POP B (spec/42_stack.md R253). -/
def execPopB (s : State) : Out := popReg16 1 s

/-- POP C (spec/42_stack.md R253). -/
def execPopC (s : State) : Out := popReg16 2 s

/-- POP D (spec/42_stack.md R253). -/
def execPopD (s : State) : Out := popReg16 3 s

/-- POP I (spec/42_stack.md R253). -/
def execPopI (s : State) : Out := popReg16 4 s

/-- POP J (spec/42_stack.md R253). -/
def execPopJ (s : State) : Out := popReg16 5 s

/-- POP K (spec/42_stack.md R253). -/
def execPopK (s : State) : Out := popReg16 6 s

/-- POP L (spec/42_stack.md R253). -/
def execPopL (s : State) : Out := popReg16 7 s

/-- PUSH BP (spec/42_stack.md R254). -/
def execPushBp (s : State) : Out := bare 1 (fun t => push .b32 t.bp t) s

/-- PUSH SP: the value stored is SP before the push (spec/42_stack.md R255). -/
def execPushSp (s : State) : Out := bare 1 (fun t => push .b32 t.sp t) s

/-- POP BP (spec/42_stack.md R256). -/
def execPopBp (s : State) : Out :=
  bare 1 (fun t => (pop .b32 t).bind fun v t1 => .ok () { t1 with bp := v }) s

/-- POP SP: the loaded value wins over the increment (spec/42_stack.md R257). -/
def execPopSp (s : State) : Out :=
  bare 1 (fun t => (pop .b32 t).bind fun v t1 => .ok () { t1 with sp := v }) s

/-- The generic pop (spec/42_stack.md R259): the stack read, the destination write, and SP last. -/
def popTo {w : Width} (l : Loc w) (s : State) : Res Unit :=
  (memRead w s.sp s.pv s).bind fun v s1 =>
  (writeLoc l v s1).bind fun _ s2 => .ok () { s2 with sp := s2.sp + BitVec.ofNat 32 w.bytes }

/-- PUSH src, 8 or 16 bits (spec/42_stack.md R258). -/
def execPush (o : RimSrcSz) (s : State) : Out :=
  match o with
  | .w16 o => rimSrcThen o (push .b16) s
  | .w8 o => rimSrcThen o (push .b8) s

/-- POP dst, 8 or 16 bits (spec/42_stack.md R259). -/
def execPop (o : RimDstSz) (s : State) : Out :=
  match o with
  | .w16 o => rimDstThen o popTo s
  | .w8 o => rimDstThen o popTo s

/-- PUSHW src (spec/42_stack.md R260). -/
def execPushw (o : RimSrc .b32) (s : State) : Out := rimSrcThen o (push .b32) s

/-- The 32-bit generic pop (spec/42_stack.md R261): into SP itself the loaded value wins. -/
def popWideTo (l : Loc .b32) (s : State) : Res Unit :=
  if l = .reg 5 then (memRead .b32 s.sp s.pv s).bind fun v s1 => .ok () { s1 with sp := v }
  else popTo l s

/-- POPW dst (spec/42_stack.md R261). -/
def execPopw (o : RimDst .b32) (s : State) : Out := rimDstThen o popWideTo s

/-- PUSH PF: privileged, checked before any memory access (spec/42_stack.md R262). -/
def execPushPf (s : State) : Out := bare 1 (fun t => needPrivilege t (push .b16 (pfImage t) t)) s

/-- POP PF: privileged, checked before any memory access (spec/42_stack.md R263). -/
def execPopPf (s : State) : Out :=
  bare 1 (fun t => needPrivilege t ((pop .b16 t).bind fun v t1 => .ok () (setPf v t1))) s

end Sys2Proof.Machine
end

