-- ==== Sys2Proof/Machine/System.lean ====
section
/-! DEFINITION. The system family (spec/47_system.md R370 to R373). -/

namespace Sys2Proof.Machine

/-- NOP (spec/47_system.md R370). -/
def execNop (s : State) : Out := bare 1 (.ok ()) s

/-- HLT: IP stays past it (spec/47_system.md R371). -/
def execHlt (s : State) : Out := bare 1 (fun t => .ok () { t with halted := true }) s

/-- INT imm8 (spec/47_system.md R372): unprivileged code may raise the syscall vector alone; the entry saves
the address after the INT. -/
def execInt (v : BitVec 8) (s : State) : Out :=
  bare 2 (fun t =>
    if !t.pv && decide (v ≠ Config.vecSyscall) then .raise .generalProtection t
    else .ok () (dispatch v t.ip t)) s

/-- IRET (spec/47_system.md R373). -/
def execIret (s : State) : Out := bare 1 (fun t => needPrivilege t (returnFromEntry t)) s

end Sys2Proof.Machine
end

