-- ==== Sys2Proof/Machine/Dispatch.lean ====
section
/-! DEFINITION. The meaning of every instruction: one arm per constructor of `Instr`. -/

namespace Sys2Proof.Machine

def exec (i : Instr) (s : State) : Host.Outcome State Fault Refusal :=
  match i with
  | .nop => Sys2Proof.Machine.execNop s
  | .hlt => Sys2Proof.Machine.execHlt s
  | .ret => Sys2Proof.Machine.execRet s
  | .iret => Sys2Proof.Machine.execIret s
  | .int v => Sys2Proof.Machine.execInt v s
  | .movToIsp o => Sys2Proof.Machine.execMovToIsp o s
  | .movFromIsp o => Sys2Proof.Machine.execMovFromIsp o s
  | .movToPf o => Sys2Proof.Machine.execMovToPf o s
  | .movFromPf o => Sys2Proof.Machine.execMovFromPf o s
  | .pushPf => Sys2Proof.Machine.execPushPf s
  | .popPf => Sys2Proof.Machine.execPopPf s
  | .movImmA imm => Sys2Proof.Machine.execMovImmA imm s
  | .movImmB imm => Sys2Proof.Machine.execMovImmB imm s
  | .movImmC imm => Sys2Proof.Machine.execMovImmC imm s
  | .movImmD imm => Sys2Proof.Machine.execMovImmD imm s
  | .movImmI imm => Sys2Proof.Machine.execMovImmI imm s
  | .movImmJ imm => Sys2Proof.Machine.execMovImmJ imm s
  | .movImmK imm => Sys2Proof.Machine.execMovImmK imm s
  | .movImmL imm => Sys2Proof.Machine.execMovImmL imm s
  | .mov o => Sys2Proof.Machine.execMov o s
  | .movw o => Sys2Proof.Machine.execMovw o s
  | .movs o => Sys2Proof.Machine.execMovs o s
  | .movz o => Sys2Proof.Machine.execMovz o s
  | .cmov o cc => Sys2Proof.Machine.execCmov o cc s
  | .pcmov l o cc => Sys2Proof.Machine.execPcmov l o cc s
  | .pushA => Sys2Proof.Machine.execPushA s
  | .pushB => Sys2Proof.Machine.execPushB s
  | .pushC => Sys2Proof.Machine.execPushC s
  | .pushD => Sys2Proof.Machine.execPushD s
  | .pushI => Sys2Proof.Machine.execPushI s
  | .pushJ => Sys2Proof.Machine.execPushJ s
  | .pushK => Sys2Proof.Machine.execPushK s
  | .pushL => Sys2Proof.Machine.execPushL s
  | .popA => Sys2Proof.Machine.execPopA s
  | .popB => Sys2Proof.Machine.execPopB s
  | .popC => Sys2Proof.Machine.execPopC s
  | .popD => Sys2Proof.Machine.execPopD s
  | .popI => Sys2Proof.Machine.execPopI s
  | .popJ => Sys2Proof.Machine.execPopJ s
  | .popK => Sys2Proof.Machine.execPopK s
  | .popL => Sys2Proof.Machine.execPopL s
  | .pushBp => Sys2Proof.Machine.execPushBp s
  | .pushSp => Sys2Proof.Machine.execPushSp s
  | .popBp => Sys2Proof.Machine.execPopBp s
  | .popSp => Sys2Proof.Machine.execPopSp s
  | .push o => Sys2Proof.Machine.execPush o s
  | .pop o => Sys2Proof.Machine.execPop o s
  | .pushw o => Sys2Proof.Machine.execPushw o s
  | .popw o => Sys2Proof.Machine.execPopw o s
  | .add o => Sys2Proof.Machine.execAdd o s
  | .adc o => Sys2Proof.Machine.execAdc o s
  | .sub o => Sys2Proof.Machine.execSub o s
  | .sbb o => Sys2Proof.Machine.execSbb o s
  | .cmp o => Sys2Proof.Machine.execCmp o s
  | .cmpi o imm => Sys2Proof.Machine.execCmpi o imm s
  | .addw o => Sys2Proof.Machine.execAddw o s
  | .adcw o => Sys2Proof.Machine.execAdcw o s
  | .subw o => Sys2Proof.Machine.execSubw o s
  | .sbbw o => Sys2Proof.Machine.execSbbw o s
  | .cmpw o => Sys2Proof.Machine.execCmpw o s
  | .padd l o => Sys2Proof.Machine.execPadd l o s
  | .padc l o => Sys2Proof.Machine.execPadc l o s
  | .psub l o => Sys2Proof.Machine.execPsub l o s
  | .psbb l o => Sys2Proof.Machine.execPsbb l o s
  | .pcmp l o => Sys2Proof.Machine.execPcmp l o s
  | .mul o => Sys2Proof.Machine.execMul o s
  | .mulh o => Sys2Proof.Machine.execMulh o s
  | .mulsh o => Sys2Proof.Machine.execMulsh o s
  | .div o => Sys2Proof.Machine.execDiv o s
  | .divs o => Sys2Proof.Machine.execDivs o s
  | .divm o => Sys2Proof.Machine.execDivm o s
  | .divms o => Sys2Proof.Machine.execDivms o s
  | .pmul l o => Sys2Proof.Machine.execPmul l o s
  | .pmulh l o => Sys2Proof.Machine.execPmulh l o s
  | .pmulsh l o => Sys2Proof.Machine.execPmulsh l o s
  | .pdiv l o => Sys2Proof.Machine.execPdiv l o s
  | .pdivs l o => Sys2Proof.Machine.execPdivs l o s
  | .pdivm l o => Sys2Proof.Machine.execPdivm l o s
  | .pdivms l o => Sys2Proof.Machine.execPdivms l o s
  | .and o => Sys2Proof.Machine.execAnd o s
  | .or o => Sys2Proof.Machine.execOr o s
  | .xor o => Sys2Proof.Machine.execXor o s
  | .not o => Sys2Proof.Machine.execNot o s
  | .shl o => Sys2Proof.Machine.execShl o s
  | .shr o => Sys2Proof.Machine.execShr o s
  | .sar o => Sys2Proof.Machine.execSar o s
  | .rol o => Sys2Proof.Machine.execRol o s
  | .ror o => Sys2Proof.Machine.execRor o s
  | .rcl o => Sys2Proof.Machine.execRcl o s
  | .rcr o => Sys2Proof.Machine.execRcr o s
  | .shl1 o => Sys2Proof.Machine.execShl1 o s
  | .shr1 o => Sys2Proof.Machine.execShr1 o s
  | .sar1 o => Sys2Proof.Machine.execSar1 o s
  | .rol1 o => Sys2Proof.Machine.execRol1 o s
  | .ror1 o => Sys2Proof.Machine.execRor1 o s
  | .rcl1 o => Sys2Proof.Machine.execRcl1 o s
  | .rcr1 o => Sys2Proof.Machine.execRcr1 o s
  | .jmpRel8 d => Sys2Proof.Machine.execJmpRel8 d s
  | .jmpRel16 d => Sys2Proof.Machine.execJmpRel16 d s
  | .jmpRel32 d => Sys2Proof.Machine.execJmpRel32 d s
  | .jmpa o => Sys2Proof.Machine.execJmpa o s
  | .callRel16 d => Sys2Proof.Machine.execCallRel16 d s
  | .callRel32 d => Sys2Proof.Machine.execCallRel32 d s
  | .calla o => Sys2Proof.Machine.execCalla o s
  | .jccRel8 cc d => Sys2Proof.Machine.execJccRel8 cc d s
  | .jccRel16 cc d => Sys2Proof.Machine.execJccRel16 cc d s

end Sys2Proof.Machine
end

