-- ==== Sys2Proof/Machine/Fetch.lean ====
section
/-! DEFINITION. The fetch unit (spec/20_memory.md R90 to R99): the refill of the eight-byte window by the
delta rule, and the placing of bytes where the next fetch reads them. -/

namespace Sys2Proof.Machine

/-- `FetchRead(a, n, p)` (R71). -/
def fetchRead (a : Word) (n : Nat) (p : Bool) (s : State) : Res (List Byte) := memReadP a.toNat n p s

/-- `FetchRun(a, k, W, p)` (R92, R93): one read of up to 4 bytes, or one of 4 and one of the rest. -/
def fetchRun (a : Word) (k : Nat) (p : Bool) (s : State) : Res (List Byte) :=
  if k ≤ Config.maxAccess then fetchRead a k p s
  else
    (fetchRead a Config.maxAccess p s).bind fun x s1 =>
      (fetchRead (a + BitVec.ofNat 32 Config.maxAccess) (k - Config.maxAccess) p s1).bind fun y s2 =>
        .ok (x ++ y) s2

/-- `FullRefill(a, p)`: two 4-byte reads (R92). -/
def fullRefill (a : Word) (p : Bool) (s : State) : Res (List Byte) := fetchRun a Config.windowBytes p s

/-- The eight bytes a refill at IP leaves in the window (R92): kept ones by the delta between IP and the
window's anchor, the others read with the current PV (R94). -/
def refillBytes (s : State) : Res (List Byte) :=
  if s.winValid then
    let d := (s.ip - s.winBase).toInt
    if d = 0 then .ok s.win.toList s
    else if 1 ≤ d ∧ d ≤ Config.maxShift then
      let k := d.toNat
      (fetchRun (s.ip + BitVec.ofNat 32 (Config.windowBytes - k)) k s.pv s).map fun new =>
        s.win.toList.drop k ++ new
    else if -Config.maxShift ≤ d ∧ d ≤ -1 then
      let k := (-d).toNat
      (fetchRun s.ip k s.pv s).map fun new => new ++ s.win.toList.take (Config.windowBytes - k)
    else fullRefill s.ip s.pv s
  else fullRefill s.ip s.pv s

/-- The refill at the start of an instruction step (R92). A fetch fault invalidates the window (R95); the
bytes it then holds are never read (log 7). -/
def refill (s : State) : Res Unit :=
  match refillBytes s with
  | .ok bs t => .ok () { t with win := Window.ofList bs, winBase := s.ip, winValid := true }
  | .raise r t => .raise r { t with winValid := false }

/-- A byte placed where a core access will read it: in the valid line that covers the address, or in the
RAM cells (spec/20_memory.md R84). -/
def placeByte (a : Nat) (b : Byte) (s : State) : State :=
  match lookup s.plat.segments a with
  | none => s
  | some g =>
    if throughCache s.plat g then
      match lineGet s.cache (lineIndex s.plat a) with
      | some ln =>
        if ln.tag = lineTag s.plat a then
          setLine (lineIndex s.plat a)
            { ln with dirty := true, data := overwrite ln.data (lineOffset a) [b] } s
        else { s with mem := memPut s.mem a b }
      | none => { s with mem := memPut s.mem a b }
    else { s with mem := memPut s.mem a b }

/-- Bytes placed at consecutive addresses, the addresses taken modulo `2^32` (R91). -/
def placeBytes (a : Word) : List Byte → State → State
  | [], s => s
  | b :: bs, s => placeBytes (a + 1) bs (placeByte a.toNat b s)

/-- A state whose next step fetches the window's bytes: the bytes placed from IP on, the fetch window
dropped so that they are read, no request pending and the core running. Log 13. -/
def placeProgram (w : Window) (s : State) : State :=
  placeBytes s.ip w.toList { s with winValid := false, pend := false, halted := false }

end Sys2Proof.Machine
end

