-- ==== Sys2Proof/Machine/Step.lean ====
section
/-! DEFINITION. One step of the core (spec/60_exceptions.md R380), and where its next instruction is
fetched. -/

namespace Sys2Proof.Machine

/-- `step()` (spec/60_exceptions.md R380): nothing when halted; a pending request dispatched, no instruction
executed; else refill, decode and execute, a fault of the first two taken here and one of the third by
the instruction's meaning. -/
def step (s : State) : Host.Outcome State Fault Refusal :=
  if s.halted then .next s
  else if s.pend then .next (dispatch s.pendVec s.ip { s with pend := false })
  else
    match refill s with
    | .raise r t => .next (takeFault r s.ip t)
    | .ok _ t =>
      match decode t.win with
      | .error _ => .next (takeFault .decoding s.ip t)
      | .ok i => exec i t

/-- The state with an instruction's bits stored where the next step fetches (log 13). -/
def State.withFetchWord (s : State) (nbits w : Nat) : State := placeProgram (windowOfBits nbits w) s

end Sys2Proof.Machine
end

