-- ==== Sys2Proof/Machine/HostOps.lean ====
section
/-! DEFINITION. What the host can do between steps (spec/00_scope.md R9, R10): the accessors and mutators
(spec/10_state.md R45), registration of segments (spec/20_memory.md R64), loading and reading memory
through the manager (spec/20_memory.md R85), and reset (spec/70_reset_and_hazards.md R430, R433). The `fire`
calls are in Machine/Latch.lean. None of them is part of a step. Log 12. -/

namespace Sys2Proof.Machine

/-- The registers the host's accessors and mutators reach (spec/10_state.md R45): the first ten rows of R20. -/
inductive HostReg where
  | gen (n : Fin 8)
  | half (n : Fin 8)
  | pair (n : Fin 6)
  | ip
  | isp
  | f
  | pf
  | halted
  deriving DecidableEq, Repr

/-- An accessor's answer, zero-extended to 32 bits. `pair` covers the four pairs, BP and SP. -/
def hostRead (r : HostReg) (s : State) : Word :=
  match r with
  | .gen n => (reg16 n s).setWidth 32
  | .half n => (reg8 n s).setWidth 32
  | .pair n => reg32 n s
  | .ip => s.ip
  | .isp => s.isp
  | .f => s.f.setWidth 32
  | .pf => (pfImage s).setWidth 32
  | .halted => (BitVec.ofBool s.halted).setWidth 32

/-- A mutator: the low bits of the value, as many as the register has. A write to IP does not touch the
fetch window (spec/10_state.md R45). -/
def hostWrite (r : HostReg) (v : Word) (s : State) : State :=
  match r with
  | .gen n => setReg16 n (v.setWidth 16) s
  | .half n => setReg8 n (v.setWidth 8) s
  | .pair n => setReg32 n v s
  | .ip => { s with ip := v }
  | .isp => { s with isp := v }
  | .f => { s with f := v.setWidth 16 }
  | .pf => setPf (v.setWidth 16) s
  | .halted => { s with halted := v.getLsbD 0 }

/-- `registerSegment` (spec/20_memory.md R64, R77): the table with the segment added, or none where it is
refused, and then nothing changes. It precedes the first step (R64): a precondition, log 10. -/
def registerSegment (g : Segment) (s : State) : Option State :=
  if segmentOk g && s.plat.segments.all (segmentsApart g) then
    some { s with plat := { s.plat with segments := g :: s.plat.segments } }
  else none

/-- Bytes read by the host through the manager (spec/20_memory.md R85). DESIGN CHOICE, log 19: no rule gives a
host access a privilege bit; it carries the privileged right, p = 1. DESIGN CHOICE, log 20: the manager takes 1
to 4 bytes (spec/20_memory.md R68); a run of any length is one access here, with one check of containment and
privilege. -/
def hostLoad (a n : Nat) (s : State) : Res (List Byte) := memReadP a n true s

/-- Bytes written by the host through the manager (spec/20_memory.md R85). DESIGN CHOICE, log 19: no rule gives
a host access a privilege bit; it carries the privileged right, p = 1. DESIGN CHOICE, log 20: a run of any
length is one access, with one check of containment and privilege. -/
def hostStore (a : Nat) (bs : List Byte) (s : State) : Res Unit := memWriteP a bs true s

/-- Reset of the core (spec/70_reset_and_hazards.md R430, R431, R433): the core's own state as State.reset has it,
IP at the platform's RESET_IP; controllers, segment table, cache and the log of device calls stay. -/
def resetCore (s : State) : State :=
  { State.reset with
    ip := s.plat.resetIp, cache := s.cache, mem := s.mem, plat := s.plat, devLog := s.devLog
    devCount := s.devCount }

/-- Reset of the whole machine (spec/70_reset_and_hazards.md R430, R433): also every cache line invalid, without
a flush. -/
def resetMachine (s : State) : State := { resetCore s with cache := [] }

end Sys2Proof.Machine
end

