-- ==== Sys2Proof/Safety.lean ====
section
/-! DEFINITION. The terms statements about the machine use: the invariant of a state, which accesses are
permitted, what a location holds, what an instruction that completes or faults leaves behind, and the
spec's own formulas for results and flags. None of it is used by `step`. -/

namespace Sys2Proof.Machine

/-! ### The invariant -/

/-- Indices strictly rising: the canonical form of the cache list. -/
def cacheRising : List (Nat × CacheLine) → Bool
  | [] => true
  | (i, _) :: c => c.all (fun e => decide (i < e.1)) && cacheRising c

/-- What a valid line of the cache is (spec/20_memory.md R76, R77, R78): 32 bytes of one cacheable segment,
whose privilege attributes it carries; a clean line of RAM holds the controller's bytes. -/
def lineOk (s : State) (i : Nat) (ln : CacheLine) : Bool :=
  decide (i < 2 ^ s.plat.lineBits) && decide (ln.data.length = Config.lineBytes) &&
    match lookup s.plat.segments (lineAddr s.plat ln.tag i) with
    | none => false
    | some g =>
      g.cacheable && (ln.rpriv == g.readNeedsPriv) && (ln.wpriv == g.writeNeedsPriv) &&
        (ln.dirty || decide (g.kind = .device) ||
          decide (ln.data = (List.range Config.lineBytes).map fun k =>
            memGet s.mem (lineAddr s.plat ln.tag i + k)))

/-- The invariant of the machine: a segment table registrations can make (R61, R64, R77), memory and cache
in canonical form, every line as R76 to R78 make it, and no line where there is no cache. -/
abbrev StateInv (s : State) : Prop :=
  segmentsValid s.plat.segments = true ∧ Memory.wf s.mem = true ∧ cacheRising s.cache = true ∧
    (s.cache.all fun e => lineOk s e.1 e.2) = true ∧ (s.plat.cacheEnabled = false → s.cache = [])

/-! ### What stays -/

/-- The registers of spec/10_state.md R20 that instructions read and write. -/
structure Regs where
  a : Half
  b : Half
  c : Half
  d : Half
  i : Half
  j : Half
  k : Half
  l : Half
  ip : Word
  sp : Word
  bp : Word
  isp : Word
  f : Half
  ie : Bool
  pv : Bool
  ii : Bool
  deriving DecidableEq, Repr

/-- The registers of a state. -/
def regsOf (s : State) : Regs :=
  { a := s.rA, b := s.rB, c := s.rC, d := s.rD, i := s.rI, j := s.rJ, k := s.rK, l := s.rL
    ip := s.ip, sp := s.sp, bp := s.bp, isp := s.isp, f := s.f, ie := s.ie, pv := s.pv, ii := s.ii }

/-- Between the two states nothing but device calls touched HALTED, the latch and the call log
(spec/20_memory.md R63): without a call they are as before. -/
def DeviceOnly (s t : State) : Prop :=
  ∃ calls, t.devLog = s.devLog ++ calls ∧
    (calls = [] → t.halted = s.halted ∧ t.pend = s.pend ∧ t.pendVec = s.pendVec ∧ t.devCount = s.devCount)

/-- Fetch window and platform are as before, and devices alone touched HALTED and the latch. -/
structure SameRest (s t : State) : Prop where
  win : t.win = s.win
  winBase : t.winBase = s.winBase
  winValid : t.winValid = s.winValid
  plat : t.plat = s.plat
  device : DeviceOnly s t

/-- `View` (spec/20_memory.md R84) of the RAM controllers' bytes: the byte a core access reads, none where no RAM
controller owns the address. -/
def ramView (s : State) (a : Nat) : Option Byte :=
  match lookup s.plat.segments a with
  | none => none
  | some g =>
    match g.kind with
    | .ram => view s a
    | .device => none

/-- A memory view with bytes stored from an address on: only bytes some RAM controller owns change. -/
def putBytes (v : Nat → Option Byte) (a : Nat) (bs : List Byte) (x : Nat) : Option Byte :=
  if a ≤ x ∧ x < a + bs.length then (v x).map fun _ => bs.getD (x - a) 0 else v x

/-! ### Where accesses reach -/

/-- Accesses, each an address and a number of bytes: where an instruction may read or write memory. -/
abbrev Reach := List (Nat × Nat)

/-- The address is one of an access of the list. -/
def Reaches (r : Reach) (x : Nat) : Prop := ∃ e ∈ r, x = e.1 ∨ (e.1 ≤ x ∧ x < e.1 + e.2)

/-- A line that holds a device's bytes at an index of the cache. -/
def DeviceLine (pl : Platform) (i : Nat) (ln : CacheLine) : Prop :=
  ∃ g, lookup pl.segments (lineAddr pl ln.tag i) = some g ∧ g.kind = .device

/-- An access at the address may call a device: a device owns it, or the line it could evict is a device's
(spec/20_memory.md R63, R78). -/
def NearDevice (s : State) (x : Nat) : Prop :=
  ∃ g, lookup s.plat.segments x = some g ∧
    (g.kind = .device ∨
      throughCache s.plat g = true ∧ ∃ ln, lineGet s.cache (lineIndex s.plat x) = some ln ∧
        DeviceLine s.plat (lineIndex s.plat x) ln)

/-- No access of the list may call a device. -/
def NoDevice (s : State) (r : Reach) : Prop := ∀ x, Reaches r x → ¬ NearDevice s x

/-- No device was called: its log, HALTED and the latch are as before, and so are the cache's lines of devices,
none gone and none come. -/
structure Silent (s t : State) : Prop where
  devLog : t.devLog = s.devLog
  devCount : t.devCount = s.devCount
  halted : t.halted = s.halted
  pend : t.pend = s.pend
  pendVec : t.pendVec = s.pendVec
  lines : ∀ i ln, DeviceLine s.plat i ln → (lineGet t.cache i = some ln ↔ lineGet s.cache i = some ln)

/-- All that an action may leave changed: the registers as given; in RAM the bytes stored from an address on;
in the cache whatever keeps the invariant; and, where an access of its reach may call a device, what devices
do. -/
structure Leaves (s : State) (r : Regs) (reach : Reach) (a : Nat) (bs : List Byte) (t : State) : Prop where
  inv : StateInv s → StateInv t
  regs : regsOf t = r
  rest : SameRest s t
  ram : ∀ x, ramView t x = putBytes (ramView s) a bs x
  silent : NoDevice s reach → Silent s t

/-! ### Which accesses are permitted (spec/20_memory.md R69, R79, R80, R81) -/

/-- Whether an access of the kind needs the privileged right in a segment. -/
def needsPriv (write : Bool) (g : Segment) : Bool := if write then g.writeNeedsPriv else g.readNeedsPriv

/-- The fault of a single-byte access, none where it is permitted. -/
def byteFault (write : Bool) (pl : Platform) (a : Nat) (p : Bool) : Option Fault :=
  match lookup pl.segments a with
  | none => some .memory
  | some g => if needsPriv write g && !p then some .unprivilegedAccess else none

/-- Single-byte accesses in ascending order: how many are made, and the fault of the next one, if any. -/
def runPlan (write : Bool) (pl : Platform) (p : Bool) : Nat → Nat → Nat × Option Fault
  | _, 0 => (0, none)
  | a, n + 1 =>
    match byteFault write pl a p with
    | some r => (0, some r)
    | none => ((runPlan write pl p (a + 1) n).1 + 1, (runPlan write pl p (a + 1) n).2)

/-- An access of `n` bytes at `a` with privilege bit `p`: how many bytes are moved, and its fault, if any. An
access that is not split is all or nothing (R69); a split one moves the bytes before the faulting one
(R81). -/
def accessPlan (write : Bool) (pl : Platform) (a n : Nat) (p : Bool) : Nat × Option Fault :=
  match lookup pl.segments a with
  | none => (0, some .memory)
  | some g =>
    if splits pl g a n then runPlan write pl p a n
    else if segLimit g < a + n then (0, some .memory)
    else if needsPriv write g && !p then (0, some .unprivilegedAccess)
    else (n, none)

/-- The access of a location with the current privilege: the bytes moved and the fault. A register and an
immediate have none. -/
def locPlan (write : Bool) (s : State) {w : Width} (l : Loc w) : Nat × Option Fault :=
  match l with
  | .mem a => accessPlan write s.plat a.toNat w.bytes s.pv
  | .reg _ => (0, none)
  | .imm _ => (0, none)

/-- The location can be read in the state. -/
def Readable (s : State) {w : Width} (l : Loc w) : Prop := (locPlan false s l).2 = none

/-- The location can be written in the state. -/
def Writable (s : State) {w : Width} (l : Loc w) : Prop := (locPlan true s l).2 = none

/-- A read of the location raises the fault. -/
def ReadFaults (s : State) {w : Width} (l : Loc w) (e : Fault) : Prop := (locPlan false s l).2 = some e

/-- A write of the location raises the fault. -/
def WriteFaults (s : State) {w : Width} (l : Loc w) (e : Fault) : Prop := (locPlan true s l).2 = some e

/-- Where an access of the location reaches. -/
def locReach {w : Width} (l : Loc w) : Reach :=
  match l with
  | .mem a => [(a.toNat, w.bytes)]
  | .reg _ => []
  | .imm _ => []

/-- The little-endian number in `n` bytes of a memory view (R66), where RAM controllers own them all. -/
def viewNum (v : Nat → Option Byte) (a : Nat) : Nat → Option Nat
  | 0 => some 0
  | n + 1 =>
    match v a, viewNum v (a + 1) n with
    | some b, some m => some (b.toNat + 256 * m)
    | _, _ => none

/-- The value is one that a read of the location may answer: the register, the immediate, the bytes of
RAM; anything where a device answers (spec/93_implementation_defined.md U3). -/
def ValueOf (s : State) {w : Width} (l : Loc w) (v : BitVec w.bits) : Prop :=
  match l with
  | .reg n => v = readReg w n s
  | .imm c => v = c
  | .mem a => ∀ m, viewNum (ramView s) a.toNat w.bytes = some m → v.toNat = m

/-! ### What an instruction leaves behind -/

/-- A result that is written and the scalar F of its group. -/
def outcome {w : Nat} (r : BitVec w) (g : Nat) : AluOut w := { result := some r, flags := some (BitVec.ofNat 16 g) }

/-- A group that is set, without a result (a compare). -/
def compared {w : Nat} (g : Nat) : AluOut w := { result := none, flags := some (BitVec.ofNat 16 g) }

/-- A result that is written, F unchanged (a move). -/
def moved {w : Nat} (r : BitVec w) : AluOut w := { result := some r, flags := none }

/-- The instruction completes: the registers after it, where its accesses reach, the bytes it stored and where,
and all else as before. -/
def Completes (i : Instr) (s : State) (r : Regs) (reach : Reach) (a : Nat) (bs : List Byte) : Prop :=
  ∃ t, exec i s = .next t ∧ Leaves s r reach a bs t

/-- The instruction raises a fault, having stored the bytes given and changed no register
(spec/60_exceptions.md R384), IP rolled back; what follows is the fault taken (R383). -/
def Traps (i : Instr) (s : State) (e : Fault) (reach : Reach) (a : Nat) (bs : List Byte) : Prop :=
  ∃ u, exec i s = .next (takeFault e s.ip u) ∧ Leaves s (regsOf s) reach a bs u

/-- The address after an instruction (spec/10_state.md R27). -/
def nextOf (i : Instr) (s : State) : Word := s.ip + BitVec.ofNat 32 i.len

/-- The registers after an operation's outcome at a location: a register destination written, F set where
the operation sets it, IP past the instruction. -/
def regsAfter {w : Width} (l : Loc w) (out : AluOut w.bits) (next : Word) (s : State) : Regs :=
  let s1 : State :=
    match l, out.result with
    | .reg n, some v => writeReg w n v s
    | _, _ => s
  { regsOf s1 with ip := next, f := out.flags.getD s.f }

/-- Where a location stands in memory (0 for one that does not). -/
def storeAddr {w : Width} (l : Loc w) : Nat :=
  match l with
  | .mem a => a.toNat
  | _ => 0

/-- The bytes an operation's outcome stores at a location. -/
def storeBytes {w : Width} (l : Loc w) (out : AluOut w.bits) : List Byte :=
  match l, out.result with
  | .mem _, some v => leBytes w.bytes v.toNat
  | _, _ => []

/-- The end of an instruction that has read its operands: with a result and a destination that refuses it, the
write's fault, after the bytes before the faulting one; otherwise the instruction completes. -/
def Commits (i : Instr) (s : State) (reads : Reach) {w : Width} (dst : Loc w) (out : AluOut w.bits) (r : Regs) :
    Prop :=
  (out.result.isSome = true → ∀ e, WriteFaults s dst e →
    Traps i s e (reads ++ locReach dst) (storeAddr dst) ((storeBytes dst out).take (locPlan true s dst).1)) ∧
  ((out.result.isSome = true → Writable s dst) →
    Completes i s r (reads ++ if out.result.isSome then locReach dst else []) (storeAddr dst) (storeBytes dst out))

/-- What a two-operand instruction does in a state: a source, and then a destination it reads, that cannot be
read raises its access's fault; with both readable it computes `rule` on the values; without an outcome it
raises DivisionFault; with one, it commits it at the destination. -/
def Rim2RuleAt (s : State) {wd ws : Width} (i : Instr) (o : Rim2 wd ws) (readsDst : Bool)
    (rule : BitVec wd.bits → BitVec ws.bits → Option (AluOut wd.bits)) : Prop :=
  let src := rim2Src o (nextOf i s) s
  let dst := rim2Dst o (nextOf i s) s
  let reads := locReach src ++ if readsDst then locReach dst else []
  StateInv s →
    (∀ e, ReadFaults s src e → Traps i s e (locReach src) 0 []) ∧
    (Readable s src → readsDst = true → ∀ e, ReadFaults s dst e → Traps i s e reads 0 []) ∧
    (Readable s src → (readsDst = true → Readable s dst) →
      ∃ a b, (readsDst = true → ValueOf s dst a) ∧ ValueOf s src b ∧
        match rule a b with
        | none => Traps i s .division reads 0 []
        | some out => Commits i s reads dst out (regsAfter dst out (nextOf i s) s))

/-- The same in every state and with every operand form. -/
def Rim2Rule {wd ws : Width} (i : Rim2 wd ws → Instr) (readsDst : Bool)
    (rule : State → BitVec wd.bits → BitVec ws.bits → Option (AluOut wd.bits)) : Prop :=
  ∀ o s, Rim2RuleAt s (i o) o readsDst (rule s)

/-- The same at both widths of the kind SZ (spec/30_encoding.md R127), the destination read. -/
def SzRule (i : Rim2Sz → Instr) (rule : (w : Nat) → State → BitVec w → BitVec w → Option (AluOut w)) : Prop :=
  Rim2Rule (fun o : Rim2 .b16 .b16 => i (.w16 o)) true (rule 16) ∧
    Rim2Rule (fun o : Rim2 .b8 .b8 => i (.w8 o)) true (rule 8)

/-- The same at both widths of the kind PROM (spec/30_encoding.md R127): `w2` is twice `w`. -/
def PromRule (i : Rim2Prom → Instr) (readsDst : Bool)
    (rule : (w w2 : Nat) → State → BitVec w2 → BitVec w → Option (AluOut w2)) : Prop :=
  Rim2Rule (fun o : Rim2 .b32 .b16 => i (.w16 o)) readsDst (rule 16 32) ∧
    Rim2Rule (fun o : Rim2 .b16 .b8 => i (.w8 o)) readsDst (rule 8 16)

/-- The same of a one-operand instruction that reads its destination. -/
def RimDstRule {w : Width} (i : RimDst w → Instr) (rule : State → BitVec w.bits → AluOut w.bits) : Prop :=
  ∀ o s,
    let dst := rimDstLoc o (nextOf (i o) s) s
    StateInv s →
      (∀ e, ReadFaults s dst e → Traps (i o) s e (locReach dst) 0 []) ∧
      (Readable s dst → ∃ a, ValueOf s dst a ∧
        Commits (i o) s (locReach dst) dst (rule s a) (regsAfter dst (rule s a) (nextOf (i o) s) s))

/-- The same at both widths of the kind SZ. -/
def SzDstRule (i : RimDstSz → Instr) (rule : (w : Nat) → State → BitVec w → AluOut w) : Prop :=
  RimDstRule (fun o : RimDst .b16 => i (.w16 o)) (rule 16) ∧
    RimDstRule (fun o : RimDst .b8 => i (.w8 o)) (rule 8)

/-- What a one-operand instruction does with its source: the fault of a read that is refused, before anything
else; otherwise what is claimed of the value, given where the read reaches. -/
def RimSrcRule {w : Width} (i : RimSrc w → Instr) (claim : Instr → State → Reach → BitVec w.bits → Prop) : Prop :=
  ∀ o s,
    let src := rimSrcLoc o (nextOf (i o) s) s
    StateInv s →
      (∀ e, ReadFaults s src e → Traps (i o) s e (locReach src) 0 []) ∧
      (Readable s src → ∃ v, ValueOf s src v ∧ claim (i o) s (locReach src) v)

/-- What a privileged instruction that writes a value to its destination, which it does not read, does. -/
def WritesTo {w : Width} (i : RimDst w → Instr) (value : State → BitVec w.bits) : Prop :=
  ∀ o s,
    let dst := rimDstLoc o (nextOf (i o) s) s
    StateInv s → s.pv = true →
      Commits (i o) s [] dst (moved (value s)) (regsAfter dst (moved (value s)) (nextOf (i o) s) s)

/-- `Push` as the end of an instruction (spec/42_stack.md R250): the value stored below SP, SP moved, IP as
given; or the store's fault, SP as it was. -/
def PushesTo {w : Width} (i : Instr) (s : State) (reads : Reach) (v : BitVec w.bits) (ip : Word) : Prop :=
  let a := s.sp - BitVec.ofNat 32 w.bytes
  (∀ e, WriteFaults s (Loc.mem a : Loc w) e →
    Traps i s e (reads ++ [(a.toNat, w.bytes)]) a.toNat
      ((leBytes w.bytes v.toNat).take (locPlan true s (Loc.mem a : Loc w)).1)) ∧
  (Writable s (Loc.mem a : Loc w) →
    Completes i s { regsOf s with sp := a, ip := ip } (reads ++ [(a.toNat, w.bytes)]) a.toNat
      (leBytes w.bytes v.toNat))

/-- What an instruction that reads the stack's top at the width does (spec/42_stack.md R250): the fault of a read
that is refused; otherwise what is claimed of the value, given where the read reaches. -/
def PopsTo (w : Width) (i : Instr) (s : State) (claim : Reach → BitVec w.bits → Prop) : Prop :=
  (∀ e, ReadFaults s (Loc.mem s.sp : Loc w) e → Traps i s e [(s.sp.toNat, w.bytes)] 0 []) ∧
  (Readable s (Loc.mem s.sp : Loc w) →
    ∃ v, ValueOf s (Loc.mem s.sp : Loc w) v ∧ claim [(s.sp.toNat, w.bytes)] v)

/-- The four reads of a return from an exception (spec/47_system.md R373). -/
def returnReads (s : State) : Reach := [0, 4, 8, 12].map fun k => ((s.sp + BitVec.ofNat 32 k).toNat, 4)

/-- The first fault of the reads of a return. -/
def returnFault (s : State) : Option Fault :=
  [0, 4, 8, 12].findSome? fun k => (locPlan false s (Loc.mem (s.sp + BitVec.ofNat 32 k) : Loc .b32)).2

/-- Two states differ in general registers alone. -/
def SameButGenerals (s t : State) : Prop :=
  { t with rA := s.rA, rB := s.rB, rC := s.rC, rD := s.rD, rI := s.rI, rJ := s.rJ, rK := s.rK, rL := s.rL } = s

/-! ### Entry (spec/60_exceptions.md R389 to R395) -/

/-- Every access of an entry is permitted: the four frame words and the vector, with the privileged right. -/
def EntryPermitted (v : BitVec 8) (s : State) : Prop :=
  (∀ k ∈ [4, 8, 12, 16], (accessPlan true s.plat (entryStack s - BitVec.ofNat 32 k).toNat 4 true).2 = none) ∧
    (accessPlan false s.plat (4 * v.toNat) 4 true).2 = none

/-- Where the accesses of an entry reach: the four frame words and the vector. -/
def entryReach (v : BitVec 8) (s : State) : Reach :=
  ([4, 8, 12, 16].map fun k => ((entryStack s - BitVec.ofNat 32 k).toNat, 4)) ++ [(4 * v.toNat, 4)]

/-- The four frame words with how far below the active stack pointer each stands, in the order written
(R389). -/
def frameWords (s : State) (ipSave : Word) : List (Nat × Word) :=
  [(4, ipSave), (8, s.bp), (12, s.sp), (16, flagsWord s)]

/-- Memory after frame words are written in order, up to the first write that is refused, whose bytes before the
faulting one stay (R395). -/
def frameView (s : State) (v : Nat → Option Byte) : List (Nat × Word) → Nat → Option Byte
  | [] => v
  | (k, w) :: ws =>
    let a := (entryStack s - BitVec.ofNat 32 k).toNat
    match (accessPlan true s.plat a 4 true).2 with
    | none => frameView s (putBytes v a (leBytes 4 w.toNat)) ws
    | some _ => putBytes v a ((leBytes 4 w.toNat).take (accessPlan true s.plat a 4 true).1)

/-- What an entry that failed leaves before HALTED is set: the registers as given, the frame words written before
the failing access, fetch window and platform as before, HALTED and the latch as devices left them. -/
structure EntryFails (v : BitVec 8) (ipSave : Word) (s : State) (r : Regs) (u : State) : Prop where
  inv : StateInv s → StateInv u
  regs : regsOf u = r
  rest : SameRest s u
  ram : ∀ x, ramView u x = frameView s (ramView s) (frameWords s ipSave) x
  silent : NoDevice s (entryReach v s) → Silent s u

/-- The state after an entry that failed (R395): HALTED is 1, and nothing else is changed beyond what the entry's
accesses left. -/
def DoubleFaulted (v : BitVec 8) (ipSave : Word) (s t : State) (r : Regs) : Prop :=
  ∃ u, t = { u with halted := true } ∧ EntryFails v ipSave s r u

/-- Memory after the four frame words are written (R389). -/
def viewWithFrame (s : State) (ipSave : Word) : Nat → Option Byte :=
  let top := entryStack s
  putBytes (putBytes (putBytes (putBytes (ramView s) (top - 4).toNat (leBytes 4 ipSave.toNat))
    (top - 8).toNat (leBytes 4 s.bp.toNat)) (top - 12).toNat (leBytes 4 s.sp.toNat))
    (top - 16).toNat (leBytes 4 (flagsWord s).toNat)

/-- The state after an entry that succeeded (R392), `before` being where the step reached before it: at the
handler, privileged, in interrupt, maskable requests refused, on the stack below the frame, the fetch window
dropped. -/
structure Entered (v : BitVec 8) (ipSave : Word) (before : Reach) (s t : State) : Prop where
  inv : StateInv s → StateInv t
  regs : ∃ h : Word, (∀ m, viewNum (ramView t) (4 * v.toNat) 4 = some m → h.toNat = m) ∧
    regsOf t = { regsOf s with sp := entryStack s - 16, pv := true, ii := true, ie := false, ip := h }
  winValid : t.winValid = false
  plat : t.plat = s.plat
  device : DeviceOnly s t
  ram : ∀ x, ramView t x = viewWithFrame s ipSave x
  silent : NoDevice s (before ++ entryReach v s) → Silent s t

/-- What a divide by zero does: with readable operands, and a source whose every possible value is a zero
divisor, the division handler is entered with the instruction's own address saved. -/
def DividesByZero {wd ws : Width} (i : Rim2 wd ws → Instr) (zero : BitVec ws.bits → Prop) : Prop :=
  ∀ o s,
    let src := rim2Src o (nextOf (i o) s) s
    let dst := rim2Dst o (nextOf (i o) s) s
    StateInv s → EntryPermitted 0x0D s → Readable s src → Readable s dst → (∀ b, ValueOf s src b → zero b) →
      ∃ t, exec (i o) s = .next t ∧ Entered 0x0D s.ip (locReach src ++ locReach dst) s t

/-! ### Device calls (spec/20_memory.md R62, R63) -/

/-- A device outside the cache serves the access: it owns every byte, and the privilege suffices. -/
def DeviceServes (write : Bool) (s : State) (g : Segment) (a n : Nat) : Prop :=
  lookup s.plat.segments a = some g ∧ g.kind = .device ∧ throughCache s.plat g = false ∧ a + n ≤ segLimit g ∧
    (needsPriv write g = true → s.pv = true)

/-- A device behind the cache owns the address, and the privilege suffices. -/
def CachedDevice (write : Bool) (s : State) (g : Segment) (a : Nat) : Prop :=
  lookup s.plat.segments a = some g ∧ g.kind = .device ∧ throughCache s.plat g = true ∧
    (needsPriv write g = true → s.pv = true)

/-- Reads of consecutive bytes in ascending order, with the bytes answered. -/
def deviceReads (g : Segment) : Nat → List Byte → List DeviceCall
  | _, [] => []
  | a, b :: bs => .read g.start (a - g.start) b :: deviceReads g (a + 1) bs

/-- Writes of consecutive bytes in ascending order. -/
def deviceWrites (g : Segment) : Nat → List Byte → List DeviceCall
  | _, [] => []
  | a, b :: bs => .write g.start (a - g.start) b :: deviceWrites g (a + 1) bs

/-- The calls of the eviction at an index (R78): a dirty line of a device is written back, any other line
calls none. -/
def evictCalls (s : State) (i : Nat) : List DeviceCall :=
  match lineGet s.cache i with
  | none => []
  | some ln =>
    match lookup s.plat.segments (lineAddr s.plat ln.tag i) with
    | none => []
    | some g => if ln.dirty && decide (g.kind = .device) then deviceWrites g (lineAddr s.plat ln.tag i) ln.data else []

/-- A load from a device calls it once a byte, in ascending order, and the register gets the little-endian
number of the answers. -/
def DeviceLoads {w : Width} (i : Fin w.regs → MemOp → Instr) : Prop :=
  ∀ x m s g a, a = (effectiveAddr m (nextOf (i x m) s) s).toNat → DeviceServes false s g a w.bytes →
    ∃ t bs, exec (i x m) s = .next t ∧ bs.length = w.bytes ∧ (readReg w x t).toNat = leNat bs ∧
      t.devLog = s.devLog ++ deviceReads g a bs

/-- A store of a value to a destination on a device: write calls alone, the low byte first, the destination
not read (spec/30_encoding.md R150). -/
def DeviceStores {w : Width} (i : Instr) (s : State) (m : MemOp) (v : BitVec w.bits) : Prop :=
  ∀ g a, a = (effectiveAddr m (nextOf i s) s).toNat → DeviceServes true s g a w.bytes →
    ∃ t, exec i s = .next t ∧ t.devLog = s.devLog ++ deviceWrites g a (leBytes w.bytes v.toNat) ∧ t.mem = s.mem ∧
      t.cache = s.cache

/-- A pop to a destination on a device, from a stack that calls none: write calls alone, of the value at SP. -/
def DevicePops {w : Width} (i : Instr) (s : State) (m : MemOp) : Prop :=
  ∀ g a, StateInv s → a = (effectiveAddr m (nextOf i s) s).toNat → DeviceServes true s g a w.bytes →
    Readable s (Loc.mem s.sp : Loc w) → NoDevice s [(s.sp.toNat, w.bytes)] →
    ∃ t v, exec i s = .next t ∧ ValueOf s (Loc.mem s.sp : Loc w) v ∧
      t.devLog = s.devLog ++ deviceWrites g a (leBytes w.bytes v.toNat)

/-- An operation on a destination on a device: read calls, then write calls, each in ascending order. -/
def DeviceUpdates {w : Width} (i : Instr) (s : State) (m : MemOp) (op : Nat → BitVec w.bits) : Prop :=
  ∀ g a, a = (effectiveAddr m (nextOf i s) s).toNat → DeviceServes false s g a w.bytes →
    DeviceServes true s g a w.bytes →
    ∃ t bs, exec i s = .next t ∧ bs.length = w.bytes ∧
      t.devLog = s.devLog ++ deviceReads g a bs ++ deviceWrites g a (leBytes w.bytes (op (leNat bs)).toNat)

/-! ### Fetch (spec/20_memory.md R92) -/

/-- A run of bytes as the reads that fetch it (R93). -/
def runReads (a : Word) (k : Nat) : List (Word × Nat) :=
  if k ≤ 4 then [(a, k)] else [(a, 4), (a + 4, k - 4)]

/-- The reads of a refill, in order (R92). -/
def refillReads (s : State) : List (Word × Nat) :=
  if s.winValid then
    let d := (s.ip - s.winBase).toInt
    if d = 0 then []
    else if 1 ≤ d ∧ d ≤ 7 then runReads (s.ip + BitVec.ofInt 32 (8 - d)) d.toNat
    else if -7 ≤ d ∧ d ≤ -1 then runReads s.ip (-d).toNat
    else runReads s.ip 8
  else runReads s.ip 8

/-- Where the reads of a refill reach. -/
def refillReach (s : State) : Reach := (refillReads s).map fun e => (e.1.toNat, e.2)

/-- Every read of a refill is permitted with the current privilege (R94). -/
def FetchPermitted (s : State) : Prop :=
  ∀ e ∈ refillReads s, (accessPlan false s.plat e.1.toNat e.2 s.pv).2 = none

/-- The byte the window already holds for an address, if it keeps one (R92, R97). -/
def keptByte (s : State) (x : Word) : Option Byte :=
  if s.winValid && decide (-7 ≤ (s.ip - s.winBase).toInt ∧ (s.ip - s.winBase).toInt ≤ 7) &&
      decide ((x - s.winBase).toNat < 8) then some (s.win.byte (x - s.winBase).toNat)
  else none

/-- The core runs instructions: not halted, and no request pending (spec/60_exceptions.md R380). -/
def Running (s : State) : Prop := s.halted = false ∧ s.pend = false

/-- The first fault of a refill's reads (spec/60_exceptions.md R385). -/
def fetchFault (s : State) : Option Fault :=
  (refillReads s).findSome? fun e => (accessPlan false s.plat e.1.toNat e.2 s.pv).2

/-! ### The spec's lists and numbers of registers and instructions -/

/-- The number of a base (spec/30_encoding.md R140, R144). -/
def baseNumber (b : Base) (next : Word) (s : State) : Nat :=
  match b with
  | .da => s.rD.toNat * 65536 + s.rA.toNat
  | .bc => s.rB.toNat * 65536 + s.rC.toNat
  | .ji => s.rJ.toNat * 65536 + s.rI.toNat
  | .lk => s.rL.toNat * 65536 + s.rK.toNat
  | .bp => s.bp.toNat
  | .sp => s.sp.toNat
  | .ip => next.toNat
  | .zero => 0

/-- The scale as a number (spec/30_encoding.md R142). -/
def scaleNumber : Scale → Nat
  | .x1 => 1
  | .x2 => 2
  | .x4 => 4

/-- The number of an index (spec/30_encoding.md R142). -/
def indexNumber (ix : Index) (s : State) : Nat := (reg16 ix.reg s).toNat * scaleNumber ix.scale

/-- High and low register of a pair (spec/10_state.md R23, R24). -/
def pairHigh : Fin 4 → Fin 8
  | 0 => 3
  | 1 => 1
  | 2 => 5
  | 3 => 7

/-- The low register of a pair. -/
def pairLow : Fin 4 → Fin 8
  | 0 => 0
  | 1 => 2
  | 2 => 4
  | 3 => 6

/-- Whether an opcode byte is reserved (spec/30_encoding.md R161). -/
def reservedByte (n : Nat) : Bool :=
  decide (5 ≤ n ∧ n ≤ 7 ∨ n = 0x0E ∨ n = 0x0F ∨ n = 0x1E ∨ n = 0x1F ∨ 0x38 ≤ n ∧ n ≤ 0x3F ∨ n = 0x46 ∨ n = 0x47 ∨
    0x4D ≤ n ∧ n ≤ 0x4F ∨ 0x55 ≤ n ∧ n ≤ 0x5F ∨ n = 0x67 ∨ n = 0x6F ∨ 0x74 ≤ n ∧ n ≤ 0x7F ∨ n = 0x87 ∨ n = 0x8F ∨
    n = 0x97 ∨ 0x9A ≤ n)

/-- Opcodes of width kind W16 or W32 (spec/30_encoding.md R151). -/
def wideOpcodes : List Nat :=
  [0x08, 0x09, 0x0A, 0x0B, 0x19, 0x36, 0x37, 0x48, 0x49, 0x4A, 0x4B, 0x4C, 0x93, 0x96]

/-- Opcodes of the form RIMSRC (spec/30_encoding.md R151). -/
def sourceOpcodes : List Nat := [0x08, 0x0A, 0x34, 0x36, 0x93, 0x96]

/-- Opcodes of the form RIMDST (spec/30_encoding.md R151). -/
def destinationOpcodes : List Nat :=
  [0x09, 0x0B, 0x35, 0x37, 0x45, 0x73, 0x88, 0x89, 0x8A, 0x8B, 0x8C, 0x8D, 0x8E]

/-- Opcodes of the form RIM2 (spec/30_encoding.md R151). -/
def twoOperandOpcodes : List Nat :=
  [0x18, 0x19, 0x1A, 0x1B, 0x1C, 0x1D, 0x40, 0x41, 0x42, 0x43, 0x44, 0x48, 0x49, 0x4A, 0x4B, 0x4C, 0x50, 0x51, 0x52,
   0x53, 0x54, 0x60, 0x61, 0x62, 0x63, 0x64, 0x65, 0x66, 0x68, 0x69, 0x6A, 0x6B, 0x6C, 0x6D, 0x6E, 0x70, 0x71, 0x72,
   0x80, 0x81, 0x82, 0x83, 0x84, 0x85, 0x86]

/-- The opcode byte of an instruction. -/
def opcodeOf (i : Instr) : Nat := ((encode i).getD 0 0).toNat

/-- Whether an instruction writes F as part of its own effect (spec/10_state.md R32): the arithmetic,
multiply, divide, logic and shift instructions, and IRET. -/
def writesF (i : Instr) : Bool := opcodeOf i == 3 || (decide (0x40 ≤ opcodeOf i) && decide (opcodeOf i ≤ 0x8E))

/-- `PUSH R16[n]` (spec/42_stack.md R252). -/
def pushOf : Fin 8 → Instr
  | 0 => .pushA
  | 1 => .pushB
  | 2 => .pushC
  | 3 => .pushD
  | 4 => .pushI
  | 5 => .pushJ
  | 6 => .pushK
  | 7 => .pushL

/-- `POP R16[n]` (spec/42_stack.md R253). -/
def popOf : Fin 8 → Instr
  | 0 => .popA
  | 1 => .popB
  | 2 => .popC
  | 3 => .popD
  | 4 => .popI
  | 5 => .popJ
  | 6 => .popK
  | 7 => .popL

/-- Instructions executed one after the other, as long as each answers a next state. -/
def runAll : List Instr → State → Option State
  | [], s => some s
  | i :: is, s =>
    match exec i s with
    | .next t => runAll is t
    | _ => none

/-! ### The spec's formulas for results and flags -/

/-- One flag group as a number (spec/40_alu.md R181). -/
def groupNat (c s o z : Bool) : Nat := 8 * c.toNat + 4 * s.toNat + 2 * o.toNat + z.toNat

/-- F after a scalar operation (R182). -/
def scalarF (c s o z : Bool) : Half := BitVec.ofNat 16 (groupNat c s o z)

/-- Whether an integer lies outside the signed range of `w` bits. -/
def overSigned (w : Nat) (x : Int) : Bool := decide (x < -(2 : Int) ^ (w - 1) ∨ (2 : Int) ^ (w - 1) ≤ x)

/-- The group of an addition with carry-in (R184, R186). -/
def addGroup {w : Nat} (a b : BitVec w) (cin : Bool) : Nat :=
  let r := a + b + BitVec.ofNat w cin.toNat
  groupNat (decide (2 ^ w ≤ a.toNat + b.toNat + cin.toNat)) r.msb
    (overSigned w (a.toInt + b.toInt + cin.toNat)) (decide (r = 0))

/-- The group of a subtraction with borrow-in (R185): C is the borrow. -/
def subGroup {w : Nat} (a b : BitVec w) (bin : Bool) : Nat :=
  let r := a - b - BitVec.ofNat w bin.toNat
  groupNat (decide (a.toNat < b.toNat + bin.toNat)) r.msb
    (overSigned w (a.toInt - b.toInt - bin.toNat)) (decide (r = 0))

/-- C of lane `i`'s group (spec/10_state.md R30, R31). -/
def laneC (f : Half) (i : Nat) : Bool := f.getLsbD (4 * i + 3)

/-- Lane `i` of a value (R187). -/
def laneOf {n : Nat} (L : Nat) (v : BitVec n) (i : Nat) : BitVec L := BitVec.ofNat L (v.toNat / 2 ^ (L * i))

/-- The value whose lanes of `L` bits are given (R187): the sum of the lanes at their weights. -/
def fromLanes (L n : Nat) (lane : Nat → Nat) : Nat := ((List.range n).map fun i => lane i * 2 ^ (L * i)).sum

/-- A packed outcome (R182, R188): results of `M` bits and groups of 4 bits, lane by lane. -/
def packedOut (W M n : Nat) (result group : Nat → Nat) : AluOut W :=
  { result := some (BitVec.ofNat W (fromLanes M n result)), flags := some (BitVec.ofNat 16 (fromLanes 4 n group)) }

/-- The group of a quotient or of a bitwise result: C and O are 0 (R194, R199). -/
def plainGroup {w : Nat} (r : BitVec w) : Nat := groupNat false r.msb false (decide (r = 0))

/-- A packed outcome whose lanes may have no result (R198): none where one lane has none. -/
def packedMaybe (W : Nat) {M : Nat} (n : Nat) (lane : Nat → Option (BitVec M × Nat)) : Option (AluOut W) :=
  if ∀ i < n, (lane i).isSome then
    some (packedOut W M n (fun i => (((lane i).map fun r => r.1.toNat).getD 0))
      (fun i => (((lane i).map fun r => r.2).getD 0)))
  else none

/-- The low half of a product (R191). -/
def lowProduct {w : Nat} (a b : BitVec w) : BitVec w × Nat :=
  let big := decide (2 ^ w ≤ a.toNat * b.toNat)
  (a * b, groupNat big (a * b).msb big (decide (a * b = 0)))

/-- The unsigned product at the double width (R192), as an outcome. -/
def wideProductU {w : Nat} (w2 : Nat) (a b : BitVec w) : BitVec w2 × Nat :=
  let r := a.setWidth w2 * b.setWidth w2
  let big := decide (2 ^ w ≤ a.toNat * b.toNat)
  (r, groupNat big r.msb big (decide (r = 0)))

/-- The signed product at the double width (R193), C and O where it does not fit in `w` signed bits. -/
def wideProductS {w : Nat} (w2 : Nat) (a b : BitVec w) : BitVec w2 × Nat :=
  let r := a.signExtend w2 * b.signExtend w2
  let big := overSigned w (a.toInt * b.toInt)
  (r, groupNat big r.msb big (decide (r = 0)))

/-- The unsigned quotient, and when there is none (R194). -/
def quotientU {w : Nat} (a b : BitVec w) : Option (BitVec w × Nat) :=
  if b = 0 then none else some (a / b, plainGroup (a / b))

/-- The signed quotient rounded toward zero, and when there is none (R195, R304). -/
def quotientS {w : Nat} (a b : BitVec w) : Option (BitVec w × Nat) :=
  if b = 0 ∨ (a = BitVec.intMin w ∧ b = BitVec.allOnes w) then none
  else some (a.sdiv b, plainGroup (a.sdiv b))

/-- Unsigned remainder and quotient packed, and when there are none (R196, R305): the dividend's high half
is not below the divisor. -/
def divModU {w w2 : Nat} (n : BitVec w2) (b : BitVec w) : Option (BitVec w2 × Nat) :=
  if b.toNat ≤ n.toNat / 2 ^ w then none
  else some (BitVec.ofNat w2 (n.toNat % b.toNat * 2 ^ w + n.toNat / b.toNat),
    plainGroup (BitVec.ofNat w (n.toNat / b.toNat)))

/-- Signed remainder and quotient packed, and when there are none (R197): `x = q * y + k` with `q` rounded
toward zero. -/
def divModS {w w2 : Nat} (n : BitVec w2) (b : BitVec w) : Option (BitVec w2 × Nat) :=
  let q := n.toInt.tdiv b.toInt
  let k := n.toInt - q * b.toInt
  if b = 0 ∨ overSigned w q = true then none
  else some (BitVec.ofNat w2 ((BitVec.ofInt w k).toNat * 2 ^ w + (BitVec.ofInt w q).toNat),
    plainGroup (BitVec.ofInt w q))

/-- A result with its group as the outcome of a scalar operation. -/
def outcomeOf {w : Nat} (r : BitVec w × Nat) : AluOut w := outcome r.1 r.2

/-- A shift or rotate of `n` places in closed form (R208): the value and the carry. -/
def shiftClosed {w : Nat} (k : ShiftKind) (v : BitVec w) (n : Nat) (c : Bool) : BitVec w × Bool :=
  if n = 0 then (v, c)
  else
    match k with
    | .shl => (v <<< n, decide (n ≤ w) && v.getLsbD (w - n))
    | .shr => (v >>> n, decide (n ≤ w) && v.getLsbD (n - 1))
    | .sar => (v.sshiftRight n, if n ≤ w then v.getLsbD (n - 1) else v.msb)
    | .rol => (v.rotateLeft (n % w), (v.rotateLeft (n % w)).getLsbD 0)
    | .ror => (v.rotateRight (n % w), (v.rotateRight (n % w)).msb)
    | .rcl =>
      let r := (BitVec.cons c v).rotateLeft (n % (w + 1))
      (r.setWidth w, r.msb)
    | .rcr =>
      let r := (BitVec.cons c v).rotateRight (n % (w + 1))
      (r.setWidth w, r.msb)

/-- The outcome of a shift or rotate (R200): O is 0, S and Z are the result's. -/
def shiftOut {w : Nat} (k : ShiftKind) (v : BitVec w) (n : Nat) (c : Bool) : AluOut w :=
  outcome (shiftClosed k v n c).1
    (groupNat (shiftClosed k v n c).2 (shiftClosed k v n c).1.msb false (decide ((shiftClosed k v n c).1 = 0)))

/-- What a condition says of one flag group, in the order and with the formulas of R211's table. -/
def groupHolds (bc : Nat) (f : Half) (i : Nat) : Prop :=
  let c := f.getLsbD (4 * i + 3) = true
  let s := f.getLsbD (4 * i + 2) = true
  let o := f.getLsbD (4 * i + 1) = true
  let z := f.getLsbD (4 * i) = true
  (bc = 0 ∧ c) ∨ (bc = 1 ∧ ¬c) ∨ (bc = 2 ∧ s) ∨ (bc = 3 ∧ ¬s) ∨ (bc = 4 ∧ o) ∨ (bc = 5 ∧ ¬o) ∨
    (bc = 6 ∧ z) ∨ (bc = 7 ∧ ¬z) ∨ (bc = 8 ∧ ¬c ∧ ¬z) ∨ (bc = 9 ∧ (c ∨ z)) ∨ (bc = 10 ∧ ¬z ∧ (s ↔ o)) ∨
    (bc = 11 ∧ (s ↔ o)) ∨ (bc = 12 ∧ ¬(s ↔ o)) ∨ (bc = 13 ∧ (z ∨ ¬(s ↔ o)))

/-- When a condition byte that decode accepts holds on F (R210). -/
def condHolds (cc : BitVec 8) (f : Half) : Prop :=
  let bc := cc.toNat % 16
  let lm := cc.toNat / 16 % 4
  let lanes := if lm = 1 then 2 else 4
  if lm = 0 then groupHolds bc f 0
  else if cc.toNat / 64 % 2 = 0 then ∃ i, i < lanes ∧ groupHolds bc f i
  else ∀ i, i < lanes → groupHolds bc f i

end Sys2Proof.Machine
end

