-- ==== Sys2Proof/Certificates/Slice0/Obligations.lean ====
section
/-! DEFINITION. The statements about the model, one `Obligations.<Name>` each. Where a statement speaks of a
state it takes `StateInv`, which reset has (`ResetInvariant`) and every step keeps (`StepKeepsInvariant`). A value
a device answers is free (log 5): every statement holds whatever it is. -/

open Sys2Proof Sys2Proof.Machine

/-! ### Encoding -/

/-- Every well-formed instruction, at every operand value, is what its encoding decodes to, whatever bytes
follow it in the window (spec/30_encoding.md R120, R122, R160). -/
def Obligations.DecodeOfEncode : Prop :=
  ∀ (i : Instr) (rest : List Byte), wellFormed i = true → decode (Window.ofList (encode i ++ rest)) = .ok i

/-- The encoding is canonical (spec/30_encoding.md R162, R163): whatever decode accepts begins with the
encoding of the instruction it answers, which is well formed and 1 to 8 bytes long (R120, R126). -/
def Obligations.DecodeIsCanonical : Prop :=
  ∀ (w : Window) (i : Instr), decode w = .ok i →
    wellFormed i = true ∧ encode i = w.toList.take i.len ∧ 1 ≤ i.len ∧ i.len ≤ 8

/-- Words of the spec's own examples decode to the instructions the spec says they are (spec/30_encoding.md
R172, spec/41_move.md, spec/43_arith.md, spec/46_control.md). -/
def Obligations.DecodingWords : Prop :=
  decode (Window.ofList [0x10, 0x34, 0x12]) = .ok (.movImmA 0x1234) ∧
  decode (Window.ofList [0x18, 0x49, 0x00, 0x20, 0x00, 0x00]) = .ok (.mov (.w16 (.rm 1 (.abs 0x2000)))) ∧
  decode (Window.ofList [0x35, 0x47, 0x20, 0xFE]) = .ok (.pop (.w16 (.mem (.off8 .bp 0xFE)))) ∧
  decode (Window.ofList [0x42, 0xC0, 0x01]) = .ok (.sub (.w8 (.ri 0 0x01))) ∧
  decode (Window.ofList [0x50, 0x81]) = .ok (.padd .nibble (.rr 0 1)) ∧
  decode (Window.ofList [0x61, 0x81]) = .ok (.mulh (.w8 (.rr 0 1))) ∧
  decode (Window.ofList [0x98, 0x07, 0xFB]) = .ok (.jccRel8 0x07 0xFB) ∧
  decode (Window.ofList [0x04, 0x20]) = .ok (.int 0x20)

/-- Every opcode byte not in the table raises DecodingFault (spec/30_encoding.md R161): decode refuses it by
that name and no other byte, and a step that fetched it takes the fault. -/
def Obligations.ReservedOpcodes : Prop :=
  (∀ w : Window, decode w = .error .reservedOpcode ↔ reservedByte w.b0.toNat = true) ∧
  ∀ s t, Running s → refill s = .ok () t → reservedByte t.win.b0.toNat = true →
    step s = .next (takeFault .decoding s.ip t)

/-- Reserved field values are refused by name (spec/30_encoding.md R127, R129, R134, R135, R157, R163): the
size bit of a W16 or W32 opcode; an immediate as destination; a register field in a one-sided form; the wrong
direction or shape there; and the condition bytes of JCC exactly when they are not conditions. -/
def Obligations.RefusedFields : Prop :=
  ∀ w : Window,
    (w.b0.toNat ∈ wideOpcodes → w.b1.toNat / 128 = 1 → decode w = .error .sizeBitSet) ∧
    (w.b0.toNat ∈ twoOperandOpcodes → (w.b0.toNat ∈ wideOpcodes → w.b1.toNat / 128 = 0) →
      w.b1.toNat / 64 % 2 = 1 → w.b1.toNat % 8 = 4 → decode w = .error .immediateDestination) ∧
    (w.b0.toNat ∈ sourceOpcodes ++ destinationOpcodes → (w.b0.toNat ∈ wideOpcodes → w.b1.toNat / 128 = 0) →
      w.b1.toNat / 8 % 8 ≠ 0 → decode w = .error .registerFieldNonzero) ∧
    (w.b0.toNat ∈ sourceOpcodes → (w.b0.toNat ∈ wideOpcodes → w.b1.toNat / 128 = 0) →
      w.b1.toNat / 8 % 16 = 8 → 4 ≤ w.b1.toNat % 8 → decode w = .error .oneSidedShape) ∧
    (w.b0.toNat ∈ destinationOpcodes → (w.b0.toNat ∈ wideOpcodes → w.b1.toNat / 128 = 0) →
      w.b1.toNat / 8 % 16 = 8 → w.b1.toNat % 8 ≤ 4 → decode w = .error .oneSidedShape) ∧
    (w.b0.toNat = 0x98 ∨ w.b0.toNat = 0x99 →
      (decode w = .error .conditionByte ↔
        (128 ≤ w.b1.toNat ∨ 14 ≤ w.b1.toNat % 16 ∨ w.b1.toNat / 16 % 4 = 3 ∨
          (w.b1.toNat / 16 % 4 = 0 ∧ w.b1.toNat / 64 % 2 = 1))))

/-! ### The step -/

/-- A running core whose refill succeeds runs the instruction it decodes from the window, on the state the
refill left; where decode refuses, DecodingFault is taken with the instruction's own address
(spec/60_exceptions.md R380, R383). -/
def Obligations.StepRunsDecoded : Prop :=
  ∀ s t, Running s → refill s = .ok () t →
    (∀ i, decode t.win = .ok i → step s = exec i t) ∧
    (∀ e, decode t.win = .error e → step s = .next (takeFault .decoding s.ip t))

/-- The bytes a step decodes (spec/20_memory.md R91, R92, and R97, the spec's inference from them): from each
of the eight addresses at IP the byte the window kept, and otherwise the byte memory now holds; so a store to
a kept byte is not seen. Registers, platform and memory reach the instruction as they were, devices apart
where a read of the refill may call one. -/
def Obligations.StepFetches : Prop :=
  ∀ s w, StateInv s → Running s → FetchPermitted s →
    (∀ k, k < 8 → ∀ b, keptByte s (s.ip + BitVec.ofNat 32 k) = some b → w.byte k = b) →
    (∀ k, k < 8 → keptByte s (s.ip + BitVec.ofNat 32 k) = none →
      ramView s (s.ip + BitVec.ofNat 32 k).toNat = some (w.byte k)) →
    ∃ t, t.win = w ∧ t.winBase = s.ip ∧ t.winValid = true ∧ StateInv t ∧ regsOf t = regsOf s ∧ t.plat = s.plat ∧
      DeviceOnly s t ∧ (NoDevice s (refillReach s) → Silent s t) ∧ (∀ x, ramView t x = ramView s x) ∧
      step s = match decode w with
        | .ok i => exec i t
        | .error _ => .next (takeFault .decoding s.ip t)

/-- A fetch fault (spec/20_memory.md R95, spec/60_exceptions.md R385): the first fault of the refill's reads
is taken with IP as the saved address and the window invalid; before it nothing changed but the window and,
where a read of the refill may call one, what devices do. -/
def Obligations.FetchFaultTaken : Prop :=
  ∀ s r, StateInv s → Running s → fetchFault s = some r →
    ∃ u, step s = .next (takeFault r s.ip u) ∧ u.winValid = false ∧ StateInv u ∧ regsOf u = regsOf s ∧
      u.plat = s.plat ∧ DeviceOnly s u ∧ (NoDevice s (refillReach s) → Silent s u) ∧ ∀ x, ramView u x = ramView s x

/-- A halted core does nothing, not even take a pending request (spec/10_state.md R36, spec/60_exceptions.md
R380, R407). -/
def Obligations.HaltedStaysPut : Prop :=
  ∀ s, s.halted = true → step s = .next s

/-- A pending request is served instead of an instruction, with the address of the next instruction saved
(spec/60_exceptions.md R380, R389, R392): an entry of the latched vector, the latch cleared first. -/
def Obligations.PendingRequestServed : Prop :=
  ∀ s, StateInv s → s.halted = false → s.pend = true → EntryPermitted s.pendVec s →
    ∃ t, step s = .next t ∧ Entered s.pendVec s.ip [] { s with pend := false } t

/-- Every step, and every instruction's meaning, answers a next state: the five faults are taken, none ends a
run (spec/60_exceptions.md R383; log 16 says that the model's fault and refusal outcomes are unused). -/
def Obligations.StepAnswersNext : Prop :=
  (∀ i s, ∃ t, exec i s = .next t) ∧ ∀ s, ∃ t, step s = .next t

/-- The state after reset has the invariant (its platform and memory are the model's choice, logs 1 and 2). -/
def Obligations.ResetInvariant : Prop := StateInv State.reset

/-- Every step keeps the invariant: the segment table stays one registrations can make, memory and cache stay
in canonical form, and every valid line stays what spec/20_memory.md R76 to R78 make it. -/
def Obligations.StepKeepsInvariant : Prop :=
  ∀ s t, StateInv s → step s = .next t → StateInv t

/-- No step changes the platform: segment table, NLINES, CACHE_ENABLED (spec/10_state.md R41). -/
def Obligations.StepKeepsPlatform : Prop :=
  ∀ s t, StateInv s → step s = .next t → t.plat = s.plat

/-! ### Exceptions -/

/-- A fault whose entry is permitted enters the handler of its vector (spec/60_exceptions.md R381, R383, R389
to R393), the faulting instruction's address saved. -/
def Obligations.FaultEntersHandler : Prop :=
  ∀ (e : Fault) (ip0 : Word) s, StateInv s →
    let v : BitVec 8 := match e with
      | .memory => 0x08
      | .division => 0x0D
      | .decoding => 0x0F
      | .generalProtection => 0x10
      | .unprivilegedAccess => 0x11
    EntryPermitted v s → Entered v ip0 [] s (takeFault e ip0 s)

/-- A fault inside an entry is a double fault (spec/60_exceptions.md R395): HALTED is set, no other register
changes, and the frame words written before the failing access stay written. IP stays past an INT, at the next
instruction for a request, whose latch is cleared, and at the faulting instruction for a fault. What devices may
do is what the entry's own accesses call (`EntryFails`). -/
def Obligations.DoubleFaultHalts : Prop :=
  ∀ s (v : BitVec 8), StateInv s → ¬ EntryPermitted v s →
    (s.pv = true ∨ v = 0x20 → ∃ t, exec (.int v) s = .next t ∧
      DoubleFaulted v (s.ip + 2) s t { regsOf s with ip := s.ip + 2 }) ∧
    (s.halted = false → s.pend = true → s.pendVec = v →
      ∃ t, step s = .next t ∧ DoubleFaulted v s.ip { s with pend := false } t (regsOf s)) ∧
    (∀ (e : Fault) (ip0 : Word), faultVector e = v →
      DoubleFaulted v ip0 s (takeFault e ip0 s) { regsOf s with ip := ip0 })

/-- Division by zero (spec/44_muldiv.md R303 to R306, R310 to R314, spec/60_exceptions.md R383, R392, and R384,
the spec's inference): whatever the divide, its width and its operand form, with a divisor that is 0, or one
zero lane of a packed divisor, all registers but those an entry sets stay, and IP is the division handler's
address. -/
def Obligations.DivisionByZeroHandled : Prop :=
  (∀ i ∈ [Instr.div, Instr.divs], DividesByZero (fun o : Rim2 .b16 .b16 => i (.w16 o)) (· = 0) ∧
    DividesByZero (fun o : Rim2 .b8 .b8 => i (.w8 o)) (· = 0)) ∧
  (∀ i ∈ [Instr.divm, Instr.divms], DividesByZero (fun o : Rim2 .b32 .b16 => i (.w16 o)) (· = 0) ∧
    DividesByZero (fun o : Rim2 .b16 .b8 => i (.w8 o)) (· = 0)) ∧
  ∀ l : Lane,
    let zeroLane := fun b : Half => ∃ k, k < 16 / laneBits l ∧ laneOf (laneBits l) b k = 0
    (∀ i ∈ [Instr.pdiv l, Instr.pdivs l], DividesByZero (wd := .b16) (ws := .b16) i zeroLane) ∧
    ∀ i ∈ [Instr.pdivm l, Instr.pdivms l], DividesByZero (wd := .b32) (ws := .b16) i zeroLane

/-- INT enters its vector and saves the address after it (spec/47_system.md R372), from privileged code with
every vector and from unprivileged code with 0x20. -/
def Obligations.IntEnters : Prop :=
  ∀ s (v : BitVec 8), StateInv s → s.pv = true ∨ v = 0x20 → EntryPermitted v s →
    ∃ t, exec (.int v) s = .next t ∧ Entered v (s.ip + 2) [] s t

/-- The privileged instructions, and INT of a vector other than 0x20, raise GeneralProtectionFault when PV is
0 (spec/60_exceptions.md R401, R385, spec/47_system.md R372), with no access to memory, and so no call of a
device, but the source of the two loads. -/
def Obligations.PrivilegedRefused : Prop :=
  ∀ s, s.pv = false →
    Traps .iret s .generalProtection [] 0 [] ∧ Traps .pushPf s .generalProtection [] 0 [] ∧
    Traps .popPf s .generalProtection [] 0 [] ∧
    (∀ v : BitVec 8, v ≠ 0x20 → Traps (.int v) s .generalProtection [] 0 []) ∧
    (∀ o, Traps (.movFromIsp o) s .generalProtection [] 0 []) ∧
    (∀ o, Traps (.movFromPf o) s .generalProtection [] 0 []) ∧
    (∀ o, StateInv s → Readable s (rimSrcLoc o (nextOf (.movToIsp o) s) s) →
      Traps (.movToIsp o) s .generalProtection (locReach (rimSrcLoc o (nextOf (.movToIsp o) s) s)) 0 []) ∧
    (∀ o, StateInv s → Readable s (rimSrcLoc o (nextOf (.movToPf o) s) s) →
      Traps (.movToPf o) s .generalProtection (locReach (rimSrcLoc o (nextOf (.movToPf o) s) s)) 0 [])

/-- IRET restores SP, BP, IP, PF and F from the frame (spec/47_system.md R373, spec/60_exceptions.md R398); where
one of its four reads is refused, the first such fault is raised and nothing is restored. -/
def Obligations.IretRestores : Prop :=
  ∀ s, StateInv s → s.pv = true →
    (∀ e, returnFault s = some e → Traps .iret s e (returnReads s) 0 []) ∧
    ((∀ k ∈ [0, 4, 8, 12], Readable s (Loc.mem (s.sp + BitVec.ofNat 32 k) : Loc .b32)) →
    ∃ w sp bp ip : Word,
      ValueOf s (Loc.mem s.sp : Loc .b32) w ∧ ValueOf s (Loc.mem (s.sp + 4) : Loc .b32) sp ∧
      ValueOf s (Loc.mem (s.sp + 8) : Loc .b32) bp ∧ ValueOf s (Loc.mem (s.sp + 12) : Loc .b32) ip ∧
      Completes .iret s
        { regsOf s with
          sp := sp, bp := bp, ip := ip, f := BitVec.ofNat 16 w.toNat
          ie := w.getLsbD 16, pv := w.getLsbD 17, ii := w.getLsbD 18 } (returnReads s) 0 [])

/-- An entry and the return from it (spec/60_exceptions.md R398, spec/47_system.md R372, R373): INT then IRET,
on a frame in readable RAM, leaves every register as it was, IP past the INT, and memory changed by the frame
alone; devices are untouched where the entry reaches none. -/
def Obligations.EntryThenReturn : Prop :=
  ∀ s (v : BitVec 8), StateInv s → s.pv = true ∨ v = 0x20 → EntryPermitted v s →
    (∀ k ∈ [4, 8, 12, 16],
      (accessPlan false s.plat (entryStack s - BitVec.ofNat 32 k).toNat 4 true).2 = none ∧
      ∀ j < 4, (ramView s ((entryStack s - BitVec.ofNat 32 k).toNat + j)).isSome = true) →
    ∃ t u, exec (.int v) s = .next t ∧ exec .iret t = .next u ∧
      regsOf u = { regsOf s with ip := s.ip + 2 } ∧ (∀ x, ramView u x = viewWithFrame s (s.ip + 2) x) ∧
      (NoDevice s (entryReach v s) → Silent s u)

/-- What an unprivileged step can do to privilege (spec/10_state.md R29, R35, spec/60_exceptions.md R392,
R401, and R402, the spec's inference from them): either PV stays 0 and IE, II and ISP stay as they were, or it
ends in an entry: privileged, at a handler address of the vector table, of a fault's vector, the syscall
vector or the pending one, with no other register changed than an entry changes. -/
def Obligations.UnprivilegedStep : Prop :=
  ∀ s t, StateInv s → s.pv = false → step s = .next t →
    (t.pv = false ∧ t.ie = s.ie ∧ t.ii = s.ii ∧ t.isp = s.isp) ∨
    ∃ (v : BitVec 8) (h : Word),
      (v ∈ [0x08, 0x0D, 0x0F, 0x10, 0x11, 0x20] ∨ (s.pend = true ∧ v = s.pendVec)) ∧
      regsOf t = { regsOf s with sp := entryStack s - 16, pv := true, ii := true, ie := false, ip := h } ∧
      t.winValid = false ∧ ∀ m, viewNum (ramView t) (4 * v.toNat) 4 = some m → h.toNat = m

/-- Memory protection (spec/20_memory.md R69, R79, R109): a step of unprivileged code that stays unprivileged
and running changes no byte of a RAM segment whose writes need privilege. -/
def Obligations.UnprivilegedMemory : Prop :=
  ∀ s t, StateInv s → s.pv = false → step s = .next t → t.pv = false → t.halted = false →
    ∀ a g, lookup s.plat.segments a = some g → g.writeNeedsPriv = true → ramView t a = ramView s a

/-- No other instruction changes F (spec/10_state.md R32): moves, conditional moves, stack instructions,
jumps, calls, returns, INT, NOP and HLT leave it, faults taken included. -/
def Obligations.FlagsKept : Prop :=
  ∀ i s t, StateInv s → writesF i = false → exec i s = .next t → t.f = s.f

/-! ### Operands and registers -/

/-- The register views (spec/10_state.md R21 to R24): what a half, a 16-bit register, a pair, BP or SP reads as,
and what a write of one does to each of the eight registers; everything else of the state stays as it was. -/
def Obligations.RegisterViews : Prop :=
  ∀ s : State,
    (∀ (n k : Fin 8) (v : Byte), k.val = n.val % 4 →
      (readReg .b8 n s).toNat = (if n.val < 4 then (reg16 k s).toNat % 256 else (reg16 k s).toNat / 256) ∧
      ∀ j : Fin 8, (reg16 j (writeReg .b8 n v s)).toNat =
        if j = k then
          (if n.val < 4 then (reg16 k s).toNat / 256 * 256 + v.toNat else v.toNat * 256 + (reg16 k s).toNat % 256)
        else (reg16 j s).toNat) ∧
    (∀ (n : Fin 8) (v : Half) (j : Fin 8), readReg .b16 n s = reg16 n s ∧
      reg16 j (writeReg .b16 n v s) = if j = n then v else reg16 j s) ∧
    (∀ (n : Fin 8) (v : Byte) (u : Half), SameButGenerals s (writeReg .b8 n v s) ∧
      SameButGenerals s (writeReg .b16 n u s)) ∧
    (∀ (n : Fin 4) (v : Word), SameButGenerals s (writeReg .b32 (n.castLE (by decide)) v s)) ∧
    (∀ (n : Fin 4) (v : Word),
      (readReg .b32 (n.castLE (by decide)) s).toNat =
        (reg16 (pairHigh n) s).toNat * 65536 + (reg16 (pairLow n) s).toNat ∧
      ∀ j : Fin 8, (reg16 j (writeReg .b32 (n.castLE (by decide)) v s)).toNat =
        if j = pairHigh n then v.toNat / 65536 else if j = pairLow n then v.toNat % 65536 else (reg16 j s).toNat) ∧
    (∀ v : Word, readReg .b32 4 s = s.bp ∧ readReg .b32 5 s = s.sp ∧
      writeReg .b32 4 v s = { s with bp := v } ∧ writeReg .b32 5 v s = { s with sp := v })

/-- The effective address (spec/30_encoding.md R131, R140 to R144): base plus scaled index plus sign-extended
offset, modulo `2^32`. -/
def Obligations.EffectiveAddress : Prop :=
  ∀ (b : Base) (ix : Index) (next : Word) (s : State),
    (∀ a : Word, effectiveAddr (.abs a) next s = a) ∧
    (effectiveAddr (.plain b) next s).toNat = baseNumber b next s ∧
    (effectiveAddr (.indexed b ix) next s).toNat = (baseNumber b next s + indexNumber ix s) % 2 ^ 32 ∧
    (∀ o : BitVec 8, ((effectiveAddr (.off8 b o) next s).toNat : Int) =
      (baseNumber b next s + o.toInt) % 2 ^ 32) ∧
    (∀ o : BitVec 16, ((effectiveAddr (.off16 b o) next s).toNat : Int) =
      (baseNumber b next s + o.toInt) % 2 ^ 32) ∧
    (∀ o : BitVec 32, ((effectiveAddr (.off32 b o) next s).toNat : Int) =
      (baseNumber b next s + o.toInt) % 2 ^ 32) ∧
    (∀ o : BitVec 32, ((effectiveAddr (.indexedOff b ix o) next s).toNat : Int) =
      (baseNumber b next s + indexNumber ix s + o.toInt) % 2 ^ 32)

/-! ### Moves -/

/-- MOV R16[n], imm16 (spec/41_move.md R221): the register gets the immediate, nothing else changes. -/
def Obligations.MoveImmediate : Prop :=
  ∀ (v : BitVec 16) s,
    Completes (.movImmA v) s { regsOf s with a := v, ip := s.ip + 3 } [] 0 [] ∧
    Completes (.movImmB v) s { regsOf s with b := v, ip := s.ip + 3 } [] 0 [] ∧
    Completes (.movImmC v) s { regsOf s with c := v, ip := s.ip + 3 } [] 0 [] ∧
    Completes (.movImmD v) s { regsOf s with d := v, ip := s.ip + 3 } [] 0 [] ∧
    Completes (.movImmI v) s { regsOf s with i := v, ip := s.ip + 3 } [] 0 [] ∧
    Completes (.movImmJ v) s { regsOf s with j := v, ip := s.ip + 3 } [] 0 [] ∧
    Completes (.movImmK v) s { regsOf s with k := v, ip := s.ip + 3 } [] 0 [] ∧
    Completes (.movImmL v) s { regsOf s with l := v, ip := s.ip + 3 } [] 0 []

/-- MOV and MOVW (spec/41_move.md R220, R222, R226): the destination, not read, gets the source's value. -/
def Obligations.Move : Prop :=
  Rim2Rule (fun o : Rim2 .b16 .b16 => .mov (.w16 o)) false (fun _ _ v => some (moved v)) ∧
  Rim2Rule (fun o : Rim2 .b8 .b8 => .mov (.w8 o)) false (fun _ _ v => some (moved v)) ∧
  Rim2Rule (fun o : Rim2 .b32 .b32 => .movw o) false (fun _ _ v => some (moved v))

/-- MOVS and MOVZ (spec/41_move.md R223, R224, R226): the source's signed or unsigned number at twice its
width. -/
def Obligations.MoveExtended : Prop :=
  PromRule .movs false (fun _ w2 _ _ v => some (moved (BitVec.ofInt w2 v.toInt))) ∧
  PromRule .movz false (fun _ w2 _ _ v => some (moved (BitVec.ofNat w2 v.toNat)))

/-- CMOV (spec/41_move.md R230, spec/40_alu.md R210, R211): a move where the condition holds; where it does
not, the source is read and nothing is written. -/
def Obligations.ConditionalMove : Prop :=
  ∀ (cc : BitVec 8) s, condWellFormed cc = true →
    (condHolds cc s.f →
      (∀ o : Rim2 .b16 .b16, Rim2RuleAt s (.cmov (.w16 o) cc) o false (fun _ v => some (moved v))) ∧
      (∀ o : Rim2 .b8 .b8, Rim2RuleAt s (.cmov (.w8 o) cc) o false (fun _ v => some (moved v)))) ∧
    (¬ condHolds cc s.f →
      (∀ o : Rim2 .b16 .b16, Rim2RuleAt s (.cmov (.w16 o) cc) o false
        (fun _ _ => some { result := none, flags := none })) ∧
      (∀ o : Rim2 .b8 .b8, Rim2RuleAt s (.cmov (.w8 o) cc) o false
        (fun _ _ => some { result := none, flags := none })))

/-- PCMOV (spec/41_move.md R231, spec/40_alu.md R211, R212): each lane is the source's where the condition
holds of the lane's own group (`take`), else the destination's; the destination is always written, F stays. -/
def Obligations.PackedConditionalMove : Prop :=
  ∀ (cc : BitVec 8) s (take : Nat → Bool), laneCondWellFormed cc = true →
    (∀ i, i < 4 → (take i = true ↔ groupHolds (cc.toNat % 16) s.f i)) →
    ∀ (l : Lane) (o : Rim2 .b16 .b16), Rim2RuleAt s (.pcmov l o cc) o true (fun a b =>
      some (moved (BitVec.ofNat 16 (fromLanes (laneBits l) (16 / laneBits l) fun i =>
        if take i then (laneOf (laneBits l) b i).toNat else (laneOf (laneBits l) a i).toNat))))

/-- The protected moves in privileged mode (spec/41_move.md R236 to R239); the loads of ISP and PF raise their
source's fault in either mode. -/
def Obligations.ProtectedMoves : Prop :=
  RimSrcRule .movToIsp (fun i s reach v => s.pv = true →
    Completes i s { regsOf s with isp := v, ip := nextOf i s } reach 0 []) ∧
  RimSrcRule .movToPf (fun i s reach (v : BitVec 16) => s.pv = true →
    Completes i s { regsOf s with ie := v.getLsbD 0, pv := v.getLsbD 1, ii := v.getLsbD 2, ip := nextOf i s }
      reach 0 []) ∧
  WritesTo .movFromIsp (fun s => s.isp) ∧
  WritesTo .movFromPf (fun s => BitVec.ofNat 16 (4 * s.ii.toNat + 2 * s.pv.toNat + s.ie.toNat))

/-! ### The stack -/

/-- PUSH of a register (spec/42_stack.md R250, R252, R254, R255): the register as it was is stored below SP,
SP goes down by its size, nothing else changes; a store that faults leaves SP. PUSH SP stores the old SP. -/
def Obligations.PushRegister : Prop :=
  ∀ s, StateInv s →
    PushesTo .pushA s [] (w := .b16) s.rA (s.ip + 1) ∧ PushesTo .pushB s [] (w := .b16) s.rB (s.ip + 1) ∧
    PushesTo .pushC s [] (w := .b16) s.rC (s.ip + 1) ∧ PushesTo .pushD s [] (w := .b16) s.rD (s.ip + 1) ∧
    PushesTo .pushI s [] (w := .b16) s.rI (s.ip + 1) ∧ PushesTo .pushJ s [] (w := .b16) s.rJ (s.ip + 1) ∧
    PushesTo .pushK s [] (w := .b16) s.rK (s.ip + 1) ∧ PushesTo .pushL s [] (w := .b16) s.rL (s.ip + 1) ∧
    PushesTo .pushBp s [] (w := .b32) s.bp (s.ip + 1) ∧ PushesTo .pushSp s [] (w := .b32) s.sp (s.ip + 1)

/-- POP of a register (spec/42_stack.md R250, R253, R256, R257): the register gets what stands at SP, SP goes
up by its size, except in POP SP, where the loaded value wins; a read that faults changes no register. -/
def Obligations.PopRegister : Prop :=
  ∀ s, StateInv s →
    PopsTo .b16 .popA s (fun reach v =>
      Completes .popA s { regsOf s with a := v, sp := s.sp + 2, ip := s.ip + 1 } reach 0 []) ∧
    PopsTo .b16 .popB s (fun reach v =>
      Completes .popB s { regsOf s with b := v, sp := s.sp + 2, ip := s.ip + 1 } reach 0 []) ∧
    PopsTo .b16 .popC s (fun reach v =>
      Completes .popC s { regsOf s with c := v, sp := s.sp + 2, ip := s.ip + 1 } reach 0 []) ∧
    PopsTo .b16 .popD s (fun reach v =>
      Completes .popD s { regsOf s with d := v, sp := s.sp + 2, ip := s.ip + 1 } reach 0 []) ∧
    PopsTo .b16 .popI s (fun reach v =>
      Completes .popI s { regsOf s with i := v, sp := s.sp + 2, ip := s.ip + 1 } reach 0 []) ∧
    PopsTo .b16 .popJ s (fun reach v =>
      Completes .popJ s { regsOf s with j := v, sp := s.sp + 2, ip := s.ip + 1 } reach 0 []) ∧
    PopsTo .b16 .popK s (fun reach v =>
      Completes .popK s { regsOf s with k := v, sp := s.sp + 2, ip := s.ip + 1 } reach 0 []) ∧
    PopsTo .b16 .popL s (fun reach v =>
      Completes .popL s { regsOf s with l := v, sp := s.sp + 2, ip := s.ip + 1 } reach 0 []) ∧
    PopsTo .b32 .popBp s (fun reach v =>
      Completes .popBp s { regsOf s with bp := v, sp := s.sp + 4, ip := s.ip + 1 } reach 0 []) ∧
    PopsTo .b32 .popSp s (fun reach v => Completes .popSp s { regsOf s with sp := v, ip := s.ip + 1 } reach 0 [])

/-- PUSH and PUSHW of an operand (spec/42_stack.md R258, R260): the source, addressed with the old SP, is
pushed at its width. -/
def Obligations.PushOperand : Prop :=
  RimSrcRule (fun o : RimSrc .b16 => .push (.w16 o)) (fun i s reach v => PushesTo i s reach (w := .b16) v (nextOf i s)) ∧
  RimSrcRule (fun o : RimSrc .b8 => .push (.w8 o)) (fun i s reach v => PushesTo i s reach (w := .b8) v (nextOf i s)) ∧
  RimSrcRule .pushw (fun i s reach v => PushesTo i s reach (w := .b32) v (nextOf i s))

/-- POP and POPW to an operand (spec/42_stack.md R259, R261): the destination, addressed with the old SP, gets
what stands at SP, and SP goes up last; into SP itself the loaded value wins. A read of the stack or a store
that faults leaves SP. -/
def Obligations.PopOperand : Prop :=
  ∀ s, StateInv s →
    (∀ o : RimDst .b16, PopsTo .b16 (.pop (.w16 o)) s fun reach v =>
      let i := Instr.pop (.w16 o)
      let dst := rimDstLoc o (nextOf i s) s
      Commits i s reach dst (moved v) { regsAfter dst (moved v) (nextOf i s) s with sp := s.sp + 2 }) ∧
    (∀ o : RimDst .b8, PopsTo .b8 (.pop (.w8 o)) s fun reach v =>
      let i := Instr.pop (.w8 o)
      let dst := rimDstLoc o (nextOf i s) s
      Commits i s reach dst (moved v) { regsAfter dst (moved v) (nextOf i s) s with sp := s.sp + 1 }) ∧
    (∀ o : RimDst .b32, PopsTo .b32 (.popw o) s fun reach v =>
      let i := Instr.popw o
      let dst := rimDstLoc o (nextOf i s) s
      Commits i s reach dst (moved v)
        { regsAfter dst (moved v) (nextOf i s) s with sp := if o = .reg 5 then v else s.sp + 4 })

/-- PUSH PF and POP PF in privileged mode (spec/42_stack.md R262, R263, spec/10_state.md R34). -/
def Obligations.PushPopFlags : Prop :=
  ∀ s, StateInv s → s.pv = true →
    PushesTo .pushPf s [] (w := .b16) (BitVec.ofNat 16 (4 * s.ii.toNat + 2 * s.pv.toNat + s.ie.toNat)) (s.ip + 1) ∧
    PopsTo .b16 .popPf s (fun reach v => Completes .popPf s
      { regsOf s with
        ie := v.getLsbD 0, pv := v.getLsbD 1, ii := v.getLsbD 2, sp := s.sp + 2, ip := s.ip + 1 } reach 0 [])

/-- Pushes and pops are inverses (spec/42_stack.md R251): any list of registers pushed and then popped in
reverse order, on a stack of RAM that can be written and read, leaves every register and SP as they were. -/
def Obligations.PushPopInverse : Prop :=
  ∀ (ns : List (Fin 8)) s, StateInv s → 2 * ns.length ≤ s.sp.toNat →
    (∀ k, k < ns.length →
      (accessPlan true s.plat (s.sp.toNat - 2 * (k + 1)) 2 s.pv).2 = none ∧
      (accessPlan false s.plat (s.sp.toNat - 2 * (k + 1)) 2 s.pv).2 = none) →
    (∀ x, s.sp.toNat - 2 * ns.length ≤ x → x < s.sp.toNat → (ramView s x).isSome = true) →
    ∃ t, runAll (ns.map pushOf ++ ns.reverse.map popOf) s = some t ∧
      regsOf t = { regsOf s with ip := s.ip + BitVec.ofNat 32 (2 * ns.length) }

/-! ### Faults of an instruction's own accesses -/

/-- The stores of MOV (16 bits), MOVW, ADD (16 bits), PUSH BP and CALL rel32 that fault (spec/20_memory.md R69, R81,
spec/43_arith.md R296, spec/42_stack.md R250, and spec/60_exceptions.md R384, the spec's inference from the last
two): the bytes before the faulting one of a crossing store stay written, otherwise none, and no register
changes, F included. Every other storing form has the same clause in its own statement (`Commits`,
`PushesTo`). -/
def Obligations.StoreFaults : Prop :=
  ∀ (m : MemOp) s (e : Fault), StateInv s →
    (∀ (x : Fin 8) a k, a = (effectiveAddr m (nextOf (.mov (.w16 (.mr m x))) s) s).toNat →
      accessPlan true s.plat a 2 s.pv = (k, some e) →
      Traps (.mov (.w16 (.mr m x))) s e [(a, 2)] a ((leBytes 2 (reg16 x s).toNat).take k)) ∧
    (∀ (x : Fin 6) a k, a = (effectiveAddr m (nextOf (.movw (.mr m x)) s) s).toNat →
      accessPlan true s.plat a 4 s.pv = (k, some e) →
      Traps (.movw (.mr m x)) s e [(a, 4)] a ((leBytes 4 (reg32 x s).toNat).take k)) ∧
    (∀ (x : Fin 8) a k, a = (effectiveAddr m (nextOf (.add (.w16 (.mr m x))) s) s).toNat →
      (accessPlan false s.plat a 2 s.pv).2 = none → accessPlan true s.plat a 2 s.pv = (k, some e) →
      ∃ v : Half, (∀ n, viewNum (ramView s) a 2 = some n → v.toNat = n) ∧
        Traps (.add (.w16 (.mr m x))) s e [(a, 2)] a ((leBytes 2 (v + reg16 x s).toNat).take k)) ∧
    (∀ a k, a = (s.sp - 4).toNat → accessPlan true s.plat a 4 s.pv = (k, some e) →
      Traps .pushBp s e [(a, 4)] a ((leBytes 4 s.bp.toNat).take k) ∧
      ∀ d, Traps (.callRel32 d) s e [(a, 4)] a ((leBytes 4 (s.ip + 5).toNat).take k))

/-- The reads of ADD (16 bits, source), DIV (8 bits, destination), MOV ISP, POP A, POP to memory (16 bits), RET and
IRET that fault (spec/60_exceptions.md R385, and R384, the spec's inference): the access's fault, with no register
changed and nothing stored; a privileged load reports its source's fault before its privilege. Every other reading
form has the same clause in its own statement (`Rim2RuleAt`, `RimDstRule`, `RimSrcRule`, `PopsTo`). -/
def Obligations.LoadFaults : Prop :=
  ∀ (m : MemOp) s (e : Fault), StateInv s →
    (∀ d a, a = (effectiveAddr m (nextOf (.add (.w16 (.rm d m))) s) s).toNat →
      (accessPlan false s.plat a 2 s.pv).2 = some e → Traps (.add (.w16 (.rm d m))) s e [(a, 2)] 0 []) ∧
    (∀ x a, a = (effectiveAddr m (nextOf (.div (.w8 (.mr m x))) s) s).toNat →
      (accessPlan false s.plat a 1 s.pv).2 = some e → Traps (.div (.w8 (.mr m x))) s e [(a, 1)] 0 []) ∧
    (∀ a, a = (effectiveAddr m (nextOf (.movToIsp (.mem m)) s) s).toNat →
      (accessPlan false s.plat a 4 s.pv).2 = some e → Traps (.movToIsp (.mem m)) s e [(a, 4)] 0 []) ∧
    ((accessPlan false s.plat s.sp.toNat 2 s.pv).2 = some e → Traps .popA s e [(s.sp.toNat, 2)] 0 [] ∧
      Traps (.pop (.w16 (.mem m))) s e [(s.sp.toNat, 2)] 0 []) ∧
    ((accessPlan false s.plat s.sp.toNat 4 s.pv).2 = some e → Traps .ret s e [(s.sp.toNat, 4)] 0 [] ∧
      (s.pv = true → Traps .iret s e [(s.sp.toNat, 4)] 0 []))

/-- Device calls (spec/20_memory.md R62, R63, R70, R78, R80, R82, spec/30_encoding.md R150). On a device outside the
cache: a load of MOV or MOVW, of 1, 2 or 4 bytes, is as many read calls in ascending order; a store of MOV,
MOVW, MOVS, MOVZ, CMOV, POP, POPW or of ISP or PF is write calls alone, in ascending order, and none where CMOV's
condition is false; ADD and ADDW read, then write. On a device behind the cache: a byte load or store of MOV that
finds its line valid reads or changes the line's byte, `View` of the address, with no call; one that does not
calls for the eviction and then for the 32 bytes of the line. -/
def Obligations.DeviceAccess : Prop :=
  (DeviceLoads (w := .b8) (fun x m => .mov (.w8 (.rm x m))) ∧ DeviceLoads (w := .b16) (fun x m => .mov (.w16 (.rm x m))) ∧
    DeviceLoads (w := .b32) (fun x m => .movw (.rm x m))) ∧
  (∀ (m : MemOp) s (x : Fin 8) (y : Fin 6),
    DeviceStores (w := .b8) (.mov (.w8 (.mr m x))) s m (reg8 x s) ∧
    DeviceStores (w := .b16) (.mov (.w16 (.mr m x))) s m (reg16 x s) ∧
    DeviceStores (w := .b32) (.movw (.mr m y)) s m (reg32 y s) ∧
    DeviceStores (w := .b16) (.movs (.w8 (.mr m x))) s m (BitVec.ofInt 16 (reg8 x s).toInt) ∧
    DeviceStores (w := .b32) (.movs (.w16 (.mr m x))) s m (BitVec.ofInt 32 (reg16 x s).toInt) ∧
    DeviceStores (w := .b16) (.movz (.w8 (.mr m x))) s m (BitVec.ofNat 16 (reg8 x s).toNat) ∧
    DeviceStores (w := .b32) (.movz (.w16 (.mr m x))) s m (BitVec.ofNat 32 (reg16 x s).toNat) ∧
    (∀ cc : BitVec 8, condWellFormed cc = true →
      (condHolds cc s.f → DeviceStores (w := .b8) (.cmov (.w8 (.mr m x)) cc) s m (reg8 x s) ∧
        DeviceStores (w := .b16) (.cmov (.w16 (.mr m x)) cc) s m (reg16 x s)) ∧
      (¬ condHolds cc s.f → (∃ t, exec (.cmov (.w8 (.mr m x)) cc) s = .next t ∧ t.devLog = s.devLog) ∧
        ∃ t, exec (.cmov (.w16 (.mr m x)) cc) s = .next t ∧ t.devLog = s.devLog)) ∧
    (s.pv = true → DeviceStores (w := .b32) (.movFromIsp (.mem m)) s m s.isp ∧
      DeviceStores (w := .b16) (.movFromPf (.mem m)) s m
        (BitVec.ofNat 16 (4 * s.ii.toNat + 2 * s.pv.toNat + s.ie.toNat))) ∧
    DevicePops (w := .b8) (.pop (.w8 (.mem m))) s m ∧ DevicePops (w := .b16) (.pop (.w16 (.mem m))) s m ∧
    DevicePops (w := .b32) (.popw (.mem m)) s m ∧
    DeviceUpdates (w := .b8) (.add (.w8 (.mr m x))) s m (fun n => BitVec.ofNat 8 (n + (reg8 x s).toNat)) ∧
    DeviceUpdates (w := .b16) (.add (.w16 (.mr m x))) s m (fun n => BitVec.ofNat 16 (n + (reg16 x s).toNat)) ∧
    DeviceUpdates (w := .b32) (.addw (.mr m y)) s m (fun n => BitVec.ofNat 32 (n + (reg32 y s).toNat))) ∧
  (∀ (m : MemOp) s (x : Fin 8) g a, StateInv s → a = (effectiveAddr m (nextOf (.mov (.w8 (.rm x m))) s) s).toNat →
    CachedDevice false s g a →
    (∀ b, view s a = some b → ∃ t, exec (.mov (.w8 (.rm x m))) s = .next t ∧ reg8 x t = b ∧ t.devLog = s.devLog ∧
      t.cache = s.cache ∧ t.mem = s.mem) ∧
    (view s a = none → ∃ t bs, exec (.mov (.w8 (.rm x m))) s = .next t ∧ bs.length = 32 ∧
      reg8 x t = bs.getD (lineOffset a) 0 ∧ view t a = some (bs.getD (lineOffset a) 0) ∧
      t.devLog = s.devLog ++ evictCalls s (lineIndex s.plat a) ++ deviceReads g (lineBase a) bs)) ∧
  ∀ (m : MemOp) s (x : Fin 8) g a, StateInv s → a = (effectiveAddr m (nextOf (.mov (.w8 (.mr m x))) s) s).toNat →
    CachedDevice true s g a →
    ∃ t, exec (.mov (.w8 (.mr m x))) s = .next t ∧ view t a = some (reg8 x s) ∧
      (view s a ≠ none → t.devLog = s.devLog ∧ t.mem = s.mem) ∧
      (view s a = none → ∃ bs, bs.length = 32 ∧
        t.devLog = s.devLog ++ evictCalls s (lineIndex s.plat a) ++ deviceReads g (lineBase a) bs)

/-! ### Arithmetic -/

/-- ADD, ADC, SUB, SBB and their 32-bit forms (spec/43_arith.md R280 to R283, R286 to R289, R296, R297;
spec/40_alu.md R184, R185): result and flags of the sum or difference, with C of group 0 as the carry or the
borrow. -/
def Obligations.AddSubtract : Prop :=
  SzRule .add (fun _ _ a b => some (outcome (a + b) (addGroup a b false))) ∧
  SzRule .adc (fun w s a b =>
    some (outcome (a + b + BitVec.ofNat w (laneC s.f 0).toNat) (addGroup a b (laneC s.f 0)))) ∧
  SzRule .sub (fun _ _ a b => some (outcome (a - b) (subGroup a b false))) ∧
  SzRule .sbb (fun w s a b =>
    some (outcome (a - b - BitVec.ofNat w (laneC s.f 0).toNat) (subGroup a b (laneC s.f 0)))) ∧
  Rim2Rule .addw true (fun _ (a b : Word) => some (outcome (a + b) (addGroup a b false))) ∧
  Rim2Rule .adcw true (fun s (a b : Word) =>
    some (outcome (a + b + BitVec.ofNat 32 (laneC s.f 0).toNat) (addGroup a b (laneC s.f 0)))) ∧
  Rim2Rule .subw true (fun _ (a b : Word) => some (outcome (a - b) (subGroup a b false))) ∧
  Rim2Rule .sbbw true (fun s (a b : Word) =>
    some (outcome (a - b - BitVec.ofNat 32 (laneC s.f 0).toNat) (subGroup a b (laneC s.f 0))))

/-- CMP, CMPI and CMPW (spec/43_arith.md R284, R285, R290): the flags of the difference and no result; CMPI
takes its byte sign-extended. -/
def Obligations.Compare : Prop :=
  SzRule .cmp (fun _ _ a b => some (compared (subGroup a b false))) ∧
  (∀ v : BitVec 8, SzDstRule (fun o => .cmpi o v)
    (fun w _ a => compared (subGroup a (BitVec.ofInt w v.toInt) false))) ∧
  Rim2Rule .cmpw true (fun _ (a b : Word) => some (compared (subGroup a b false)))

/-- The packed additions, subtractions and compare (spec/43_arith.md R291 to R295, spec/40_alu.md R187 to
R189): each lane on its own, with C of its own group where the instruction takes a carry, its flags in its
group. -/
def Obligations.PackedAddSubtract : Prop :=
  ∀ l : Lane,
    let L := laneBits l
    let n := 16 / L
    Rim2Rule (.padd l) true (fun _ (a b : Half) => some (packedOut 16 L n
      (fun i => (laneOf L a i + laneOf L b i).toNat) (fun i => addGroup (laneOf L a i) (laneOf L b i) false))) ∧
    Rim2Rule (.padc l) true (fun s (a b : Half) => some (packedOut 16 L n
      (fun i => (laneOf L a i + laneOf L b i + BitVec.ofNat L (laneC s.f i).toNat).toNat)
      (fun i => addGroup (laneOf L a i) (laneOf L b i) (laneC s.f i)))) ∧
    Rim2Rule (.psub l) true (fun _ (a b : Half) => some (packedOut 16 L n
      (fun i => (laneOf L a i - laneOf L b i).toNat) (fun i => subGroup (laneOf L a i) (laneOf L b i) false))) ∧
    Rim2Rule (.psbb l) true (fun s (a b : Half) => some (packedOut 16 L n
      (fun i => (laneOf L a i - laneOf L b i - BitVec.ofNat L (laneC s.f i).toNat).toNat)
      (fun i => subGroup (laneOf L a i) (laneOf L b i) (laneC s.f i)))) ∧
    Rim2Rule (.pcmp l) true (fun _ (a b : Half) => some { packedOut 16 L n
      (fun _ => 0) (fun i => subGroup (laneOf L a i) (laneOf L b i) false) with result := none })

/-- MUL, MULH and MULSH (spec/44_muldiv.md R300 to R302, R314; spec/40_alu.md R191 to R193). -/
def Obligations.Multiply : Prop :=
  SzRule .mul (fun _ _ a b => some (outcomeOf (lowProduct a b))) ∧
  PromRule .mulh true (fun w w2 _ a b => some (outcomeOf (wideProductU w2 (BitVec.ofNat w a.toNat) b))) ∧
  PromRule .mulsh true (fun w w2 _ a b => some (outcomeOf (wideProductS w2 (BitVec.ofNat w a.toNat) b)))

/-- DIV, DIVS, DIVM and DIVMS (spec/44_muldiv.md R303 to R306, R314; spec/40_alu.md R194 to R197): quotient,
or remainder and quotient; DivisionFault with nothing written exactly where there is none. -/
def Obligations.Divide : Prop :=
  SzRule .div (fun _ _ a b => (quotientU a b).map outcomeOf) ∧
  SzRule .divs (fun _ _ a b => (quotientS a b).map outcomeOf) ∧
  PromRule .divm true (fun _ _ _ a b => (divModU a b).map outcomeOf) ∧
  PromRule .divms true (fun _ _ _ a b => (divModS a b).map outcomeOf)

/-- The packed multiplies (spec/44_muldiv.md R307 to R309, spec/40_alu.md R187, R198). -/
def Obligations.PackedMultiply : Prop :=
  ∀ l : Lane,
    let L := laneBits l
    let n := 16 / L
    Rim2Rule (.pmul l) true (fun _ (a b : Half) => some (packedOut 16 L n
      (fun i => (lowProduct (laneOf L a i) (laneOf L b i)).1.toNat)
      (fun i => (lowProduct (laneOf L a i) (laneOf L b i)).2))) ∧
    Rim2Rule (.pmulh l) true (fun _ (a : Word) (b : Half) => some (packedOut 32 (2 * L) n
      (fun i => (wideProductU (2 * L) (BitVec.ofNat L (laneOf (2 * L) a i).toNat) (laneOf L b i)).1.toNat)
      (fun i => (wideProductU (2 * L) (BitVec.ofNat L (laneOf (2 * L) a i).toNat) (laneOf L b i)).2))) ∧
    Rim2Rule (.pmulsh l) true (fun _ (a : Word) (b : Half) => some (packedOut 32 (2 * L) n
      (fun i => (wideProductS (2 * L) (BitVec.ofNat L (laneOf (2 * L) a i).toNat) (laneOf L b i)).1.toNat)
      (fun i => (wideProductS (2 * L) (BitVec.ofNat L (laneOf (2 * L) a i).toNat) (laneOf L b i)).2)))

/-- The packed divides (spec/44_muldiv.md R310 to R313, spec/40_alu.md R198): every lane's quotient, or
DivisionFault with nothing written where one lane has none. -/
def Obligations.PackedDivide : Prop :=
  ∀ l : Lane,
    let L := laneBits l
    let n := 16 / L
    Rim2Rule (.pdiv l) true (fun _ (a b : Half) =>
      packedMaybe 16 n (fun i => quotientU (laneOf L a i) (laneOf L b i))) ∧
    Rim2Rule (.pdivs l) true (fun _ (a b : Half) =>
      packedMaybe 16 n (fun i => quotientS (laneOf L a i) (laneOf L b i))) ∧
    Rim2Rule (.pdivm l) true (fun _ (a : Word) (b : Half) =>
      packedMaybe 32 n (fun i => divModU (laneOf (2 * L) a i) (laneOf L b i))) ∧
    Rim2Rule (.pdivms l) true (fun _ (a : Word) (b : Half) =>
      packedMaybe 32 n (fun i => divModS (laneOf (2 * L) a i) (laneOf L b i)))

/-! ### Logic, shifts and rotates -/

/-- AND, OR, XOR and NOT (spec/45_logic_shift.md R320 to R324, spec/40_alu.md R199): the result bit by bit, C
and O 0, S and Z the result's. -/
def Obligations.Logic : Prop :=
  SzRule .and (fun w _ a b =>
    let r := BitVec.ofFnLE fun i : Fin w => a.getLsbD i && b.getLsbD i
    some (outcome r (plainGroup r))) ∧
  SzRule .or (fun w _ a b =>
    let r := BitVec.ofFnLE fun i : Fin w => a.getLsbD i || b.getLsbD i
    some (outcome r (plainGroup r))) ∧
  SzRule .xor (fun w _ a b =>
    let r := BitVec.ofFnLE fun i : Fin w => a.getLsbD i != b.getLsbD i
    some (outcome r (plainGroup r))) ∧
  SzDstRule .not (fun w _ a =>
    let r := BitVec.ofFnLE fun i : Fin w => !a.getLsbD i
    outcome r (plainGroup r))

/-- The shifts and rotates by a count (spec/45_logic_shift.md R330 to R336, R344), by the closed forms that
the spec infers (spec/40_alu.md R208) from its one-bit steps (R200 to R207), on the count's low five bits;
with a count of 0 the value and C stay (R200). -/
def Obligations.Shifts : Prop :=
  SzRule .shl (fun _ s a b => some (shiftOut .shl a (b.toNat % 32) (laneC s.f 0))) ∧
  SzRule .shr (fun _ s a b => some (shiftOut .shr a (b.toNat % 32) (laneC s.f 0))) ∧
  SzRule .sar (fun _ s a b => some (shiftOut .sar a (b.toNat % 32) (laneC s.f 0))) ∧
  SzRule .rol (fun _ s a b => some (shiftOut .rol a (b.toNat % 32) (laneC s.f 0))) ∧
  SzRule .ror (fun _ s a b => some (shiftOut .ror a (b.toNat % 32) (laneC s.f 0))) ∧
  SzRule .rcl (fun _ s a b => some (shiftOut .rcl a (b.toNat % 32) (laneC s.f 0))) ∧
  SzRule .rcr (fun _ s a b => some (shiftOut .rcr a (b.toNat % 32) (laneC s.f 0)))

/-- The shifts and rotates by one (spec/45_logic_shift.md R337 to R344), by the same closed forms. -/
def Obligations.ShiftsByOne : Prop :=
  SzDstRule .shl1 (fun _ s a => shiftOut .shl a 1 (laneC s.f 0)) ∧
  SzDstRule .shr1 (fun _ s a => shiftOut .shr a 1 (laneC s.f 0)) ∧
  SzDstRule .sar1 (fun _ s a => shiftOut .sar a 1 (laneC s.f 0)) ∧
  SzDstRule .rol1 (fun _ s a => shiftOut .rol a 1 (laneC s.f 0)) ∧
  SzDstRule .ror1 (fun _ s a => shiftOut .ror a 1 (laneC s.f 0)) ∧
  SzDstRule .rcl1 (fun _ s a => shiftOut .rcl a 1 (laneC s.f 0)) ∧
  SzDstRule .rcr1 (fun _ s a => shiftOut .rcr a 1 (laneC s.f 0))

/-! ### Control flow and system -/

/-- JMP and JMPA (spec/46_control.md R350 to R353, R360): IP moves by the displacement from the next
instruction, or gets the source. -/
def Obligations.Jumps : Prop :=
  (∀ s,
    (∀ d : BitVec 8, Completes (.jmpRel8 d) s
      { regsOf s with ip := BitVec.ofInt 32 (s.ip.toNat + 2 + d.toInt) } [] 0 []) ∧
    (∀ d : BitVec 16, Completes (.jmpRel16 d) s
      { regsOf s with ip := BitVec.ofInt 32 (s.ip.toNat + 3 + d.toInt) } [] 0 []) ∧
    (∀ d : BitVec 32, Completes (.jmpRel32 d) s
      { regsOf s with ip := BitVec.ofInt 32 (s.ip.toNat + 5 + d.toInt) } [] 0 [])) ∧
  RimSrcRule .jmpa (fun i s reach v => Completes i s { regsOf s with ip := v } reach 0 [])

/-- JCC (spec/46_control.md R358, R359, spec/40_alu.md R210, R211): taken exactly when the condition holds of
F, over one, two or four lanes. -/
def Obligations.ConditionalJumps : Prop :=
  ∀ (cc : BitVec 8) s, condWellFormed cc = true →
    (condHolds cc s.f →
      (∀ d : BitVec 8, Completes (.jccRel8 cc d) s
        { regsOf s with ip := BitVec.ofInt 32 (s.ip.toNat + 3 + d.toInt) } [] 0 []) ∧
      (∀ d : BitVec 16, Completes (.jccRel16 cc d) s
        { regsOf s with ip := BitVec.ofInt 32 (s.ip.toNat + 4 + d.toInt) } [] 0 [])) ∧
    (¬ condHolds cc s.f →
      (∀ d : BitVec 8, Completes (.jccRel8 cc d) s { regsOf s with ip := s.ip + 3 } [] 0 []) ∧
      (∀ d : BitVec 16, Completes (.jccRel16 cc d) s { regsOf s with ip := s.ip + 4 } [] 0 []))

/-- CALL, CALLA and RET (spec/46_control.md R354 to R357, R361): the address of the next instruction is pushed
and IP moves, the source of CALLA read with the old SP; RET moves IP to the word at SP, and SP up by 4. Where the
push or the read faults, neither IP nor SP has moved. -/
def Obligations.CallsAndReturn : Prop :=
  (∀ s, StateInv s →
    (∀ d : BitVec 16, PushesTo (.callRel16 d) s [] (w := .b32) (s.ip + 3)
      (BitVec.ofInt 32 (s.ip.toNat + 3 + d.toInt))) ∧
    (∀ d : BitVec 32, PushesTo (.callRel32 d) s [] (w := .b32) (s.ip + 5)
      (BitVec.ofInt 32 (s.ip.toNat + 5 + d.toInt)))) ∧
  RimSrcRule .calla (fun i s reach v => PushesTo i s reach (w := .b32) (nextOf i s) v) ∧
  ∀ s, StateInv s →
    PopsTo .b32 .ret s (fun reach v => Completes .ret s { regsOf s with sp := s.sp + 4, ip := v } reach 0 [])

/-- NOP and HLT (spec/47_system.md R370, R371): NOP advances IP; HLT does, and sets HALTED, in either mode. -/
def Obligations.NopHlt : Prop :=
  ∀ s, Completes .nop s { regsOf s with ip := s.ip + 1 } [] 0 [] ∧
    exec .hlt s = .next { s with halted := true, ip := s.ip + 1 }

/-! ### Requests, reset, host -/

/-- The latch (spec/60_exceptions.md R386, R387): a maskable request is refused with IE 0 and changes nothing;
with IE 1 it is accepted, and dispatched at the next step even if IE was cleared in between (an entry, or a
double fault); the non-maskable one is latched whatever IE is, in the same latch. -/
def Obligations.RequestsLatched : Prop :=
  ∀ s (v : BitVec 8),
    (s.ie = false → fireMaskable v s = (false, s)) ∧
    (s.ie = true → (fireMaskable v s).1 = true ∧ (fireMaskable v s).2 = { s with pend := true, pendVec := v }) ∧
    fireNonMaskable v s = { s with pend := true, pendVec := v } ∧
    (StateInv s → s.ie = true → s.halted = false →
      ∃ t, step { (fireMaskable v s).2 with ie := false } = .next t ∧
        (EntryPermitted v s → Entered v s.ip [] { s with ie := false, pend := false, pendVec := v } t) ∧
        (¬ EntryPermitted v s →
          DoubleFaulted v s.ip { s with ie := false, pend := false, pendVec := v } t { regsOf s with ie := false }))

/-- After reset, of the core, of the machine or at the start, the core is privileged, not in an interrupt, and
refuses maskable requests (spec/70_reset_and_hazards.md R432). -/
def Obligations.ResetMode : Prop :=
  ∀ s, ∀ r ∈ [State.reset, resetCore s, resetMachine s],
    r.pv = true ∧ r.ii = false ∧ r.ie = false ∧ ∀ v, (fireMaskable v r).1 = false

/-- The values after reset (spec/10_state.md R43, spec/70_reset_and_hazards.md R430, R431, R433): IP is the
platform's RESET_IP, an open parameter that State.reset takes at the spec's default (log 8). Controllers and
segment table stay; the cache stays in a reset of the core and is emptied, without a flush, in one of the
machine. -/
def Obligations.ResetValues : Prop :=
  ∀ s, ∀ r ∈ [State.reset, resetCore s, resetMachine s],
    regsOf r = ⟨0, 0, 0, 0, 0, 0, 0, 0, r.plat.resetIp, 0, 0, 0, 0, false, true, false⟩ ∧
    r.halted = false ∧ r.pend = false ∧ r.winValid = false ∧
    (resetCore s).mem = s.mem ∧ (resetMachine s).mem = s.mem ∧ (resetCore s).plat = s.plat ∧
    (resetMachine s).plat = s.plat ∧ (resetCore s).cache = s.cache ∧ (resetMachine s).cache = [] ∧
    State.reset.cache = [] ∧ State.reset.plat.resetIp = 0x400

/-- Registration (spec/20_memory.md R61, R64, R65, R77): a segment without size, past the address space,
cacheable and not aligned to lines, or sharing an address with another is refused, every other one is
accepted; it is then found at exactly its own addresses, every other address is owned as before, nothing
else changes, and the table stays one registrations make. -/
def Obligations.Registration : Prop :=
  ∀ (g : Segment) s, segmentsValid s.plat.segments = true →
    let malformed := g.size = 0 ∨ 2 ^ 32 < g.start + g.size ∨
      (g.cacheable = true ∧ (g.start % 32 ≠ 0 ∨ g.size % 32 ≠ 0))
    let overlaps := ∃ h a, h ∈ s.plat.segments ∧ segContains g a = true ∧ segContains h a = true
    (malformed ∨ overlaps → registerSegment g s = none) ∧
    (¬ malformed → ¬ overlaps → ∃ t, registerSegment g s = some t ∧
      t = { s with plat := { s.plat with segments := t.plat.segments } } ∧
      segmentsValid t.plat.segments = true ∧
      ∀ a, lookup t.plat.segments a = if segContains g a then some g else lookup s.plat.segments a)

/-- The host's memory access through the manager (spec/20_memory.md R70, R80, R85), as the model makes it: that it
carries the privileged right, and that a run of more than 4 bytes is one access, is the model's choice (logs 19
and 20). Bytes stored in RAM are seen at their addresses and nowhere else, and loaded back as they were stored;
no register, and neither window nor platform, changes. -/
def Obligations.HostMemory : Prop :=
  ∀ (a : Nat) (bs : List Byte) s, StateInv s → (accessPlan true s.plat a bs.length true).2 = none →
    (∀ k, k < bs.length → (ramView s (a + k)).isSome = true) →
    ∃ t u, hostStore a bs s = .ok () t ∧ Leaves s (regsOf s) [(a, bs.length)] a bs t ∧
      hostLoad a bs.length t = .ok bs u ∧ Leaves t (regsOf s) [(a, bs.length)] 0 [] u
end

