-- ==== Sys2Proof/Laws/Segments.lean ====
section
/-! SUPPORT. The laws of the segment table: a valid table owns each address at most once, and the floor
lookup finds the owner (spec/20_memory.md R61, R65). -/

namespace Sys2Proof.Machine

/-- The segment owns the address. -/
def owns (g : Segment) (a : Nat) : Prop := g.start ≤ a ∧ a < segLimit g

theorem segmentsApart_symm (g h : Segment) : segmentsApart g h = true → segmentsApart h g = true := by
  simp only [segmentsApart, Bool.or_eq_true, decide_eq_true_eq]
  tauto

/-- The parts of a valid table. -/
theorem segmentsValid_cons (g : Segment) (gs : List Segment) :
    segmentsValid (g :: gs) = true ↔
      segmentOk g = true ∧ (∀ h ∈ gs, segmentsApart g h = true) ∧ segmentsValid gs = true := by
  simp [segmentsValid, and_assoc]

theorem segmentOk_of_mem {gs : List Segment} (hv : segmentsValid gs = true) {g : Segment} (hg : g ∈ gs) :
    segmentOk g = true := by
  induction gs with
  | nil => simp at hg
  | cons h gs ih =>
    obtain ⟨h1, _, h3⟩ := (segmentsValid_cons h gs).1 hv
    rcases List.mem_cons.1 hg with rfl | hg
    · exact h1
    · exact ih h3 hg

theorem segmentsApart_of_mem {gs : List Segment} (hv : segmentsValid gs = true) {g h : Segment}
    (hg : g ∈ gs) (hh : h ∈ gs) : g = h ∨ segmentsApart g h = true := by
  induction gs with
  | nil => simp at hg
  | cons k gs ih =>
    obtain ⟨_, h2, h3⟩ := (segmentsValid_cons k gs).1 hv
    rcases List.mem_cons.1 hg with rfl | hg' <;> rcases List.mem_cons.1 hh with rfl | hh'
    · exact .inl rfl
    · exact .inr (h2 h hh')
    · exact .inr (segmentsApart_symm _ _ (h2 g hg'))
    · exact ih h3 hg' hh'

/-- What a segment of a valid table satisfies, as arithmetic. -/
theorem segmentOk_iff (g : Segment) :
    segmentOk g = true ↔ 1 ≤ g.size ∧ segLimit g ≤ 2 ^ 32 ∧
      (g.cacheable = true → g.start % 32 = 0 ∧ g.size % 32 = 0) := by
  cases hc : g.cacheable <;> simp [segmentOk, hc, and_assoc]

/-- Two owners of one address in a valid table are one segment. -/
theorem owns_unique {gs : List Segment} (hv : segmentsValid gs = true) {g h : Segment} (hg : g ∈ gs)
    (hh : h ∈ gs) {a : Nat} (h1 : owns g a) (h2 : owns h a) : g = h := by
  rcases segmentsApart_of_mem hv hg hh with h3 | h3
  · exact h3
  · simp only [segmentsApart, Bool.or_eq_true, decide_eq_true_eq] at h3
    obtain ⟨h4, h5⟩ := h1
    obtain ⟨h6, h7⟩ := h2
    omega

/-- What the floor lookup answers. -/
theorem floorSegment_spec (gs : List Segment) (a : Nat) :
    (∀ g, floorSegment gs a = some g → g ∈ gs ∧ g.start ≤ a ∧ ∀ h ∈ gs, h.start ≤ a → h.start ≤ g.start) ∧
      (floorSegment gs a = none → ∀ h ∈ gs, a < h.start) := by
  induction gs with
  | nil => simp [floorSegment]
  | cons k gs ih =>
    obtain ⟨ih1, ih2⟩ := ih
    simp only [floorSegment]
    cases hf : floorSegment gs a with
    | none =>
      have hn := ih2 hf
      refine ⟨?_, ?_⟩
      · intro g hg
        simp only at hg
        split at hg <;> simp at hg
        subst hg
        refine ⟨by simp, by assumption, ?_⟩
        intro h hh hle
        rcases List.mem_cons.1 hh with rfl | hh
        · exact le_refl _
        · have := hn h hh; omega
      · intro hg h hh
        simp only at hg
        split at hg <;> simp at hg
        rcases List.mem_cons.1 hh with rfl | hh
        · omega
        · exact hn h hh
    | some f =>
      obtain ⟨hm, hle, hmax⟩ := ih1 f hf
      refine ⟨?_, ?_⟩
      · intro g hg
        simp only at hg
        split at hg <;> simp at hg
        · rename_i hk
          subst hg
          refine ⟨by simp, hk.1, ?_⟩
          intro h hh hle'
          rcases List.mem_cons.1 hh with rfl | hh
          · exact le_refl _
          · have := hmax h hh hle'; omega
        · rename_i hk
          subst hg
          refine ⟨by simp [hm], hle, ?_⟩
          intro h hh hle'
          rcases List.mem_cons.1 hh with rfl | hh
          · by_contra hc
            exact hk ⟨hle', by omega⟩
          · exact hmax h hh hle'
      · intro hg
        simp only at hg
        split at hg <;> simp at hg

/-- The lookup answers a segment of the table that owns the address. -/
theorem lookup_some {gs : List Segment} {a : Nat} {g : Segment} (h : lookup gs a = some g) :
    g ∈ gs ∧ owns g a := by
  unfold lookup at h
  split at h
  · rename_i f hf
    split at h <;> simp at h
    subst h
    obtain ⟨h1, h2, _⟩ := (floorSegment_spec gs a).1 _ hf
    exact ⟨h1, h2, by assumption⟩
  · simp at h

/-- In a valid table the lookup finds the owner. -/
theorem lookup_of_owns {gs : List Segment} (hv : segmentsValid gs = true) {g : Segment} (hg : g ∈ gs) {a : Nat}
    (h : owns g a) : lookup gs a = some g := by
  unfold lookup
  cases hf : floorSegment gs a with
  | none =>
    have := (floorSegment_spec gs a).2 hf g hg
    have := h.1
    omega
  | some f =>
    obtain ⟨h1, h2, h3⟩ := (floorSegment_spec gs a).1 _ hf
    have h4 := h3 g hg h.1
    have hfo := (segmentOk_iff f).1 (segmentOk_of_mem hv h1)
    have hgo := (segmentOk_iff g).1 (segmentOk_of_mem hv hg)
    have : f = g := by
      rcases segmentsApart_of_mem hv h1 hg with h5 | h5
      · exact h5
      · simp only [segmentsApart, Bool.or_eq_true, decide_eq_true_eq] at h5
        obtain ⟨h6, h7⟩ := h
        unfold segLimit at *
        omega
    subst this
    simp [h.2]

/-- Addresses of one segment have one owner. -/
theorem lookup_same {gs : List Segment} (hv : segmentsValid gs = true) {g : Segment} {a x : Nat}
    (h : lookup gs a = some g) (h1 : g.start ≤ x) (h2 : x < segLimit g) : lookup gs x = some g :=
  lookup_of_owns hv (lookup_some h).1 ⟨h1, h2⟩

/-- The line of an address of a cacheable segment lies in the segment. -/
theorem line_in_segment {gs : List Segment} (hv : segmentsValid gs = true) {g : Segment} {a : Nat}
    (h : lookup gs a = some g) (hc : g.cacheable = true) :
    g.start ≤ lineBase a ∧ lineBase a + 32 ≤ segLimit g := by
  obtain ⟨hg, h1, h2⟩ := lookup_some h
  obtain ⟨_, _, h3⟩ := (segmentOk_iff g).1 (segmentOk_of_mem hv hg)
  obtain ⟨h4, h5⟩ := h3 hc
  unfold lineBase segLimit at *
  simp only [Config.lineBytes]
  omega

end Sys2Proof.Machine
end

