-- ==== Sys2Proof/Laws/Cache.lean ====
section
/-! SUPPORT. The laws of the cache list and of a line's geometry (spec/20_memory.md R75, R76). -/

namespace Sys2Proof.Machine

theorem cacheRising_cons (i : Nat) (ln : CacheLine) (c : List (Nat × CacheLine)) :
    cacheRising ((i, ln) :: c) = true ↔ (∀ e ∈ c, i < e.1) ∧ cacheRising c = true := by
  simp [cacheRising]

/-- A line put at an index is found there, and every other index keeps its line. -/
theorem lineGet_linePut (c : List (Nat × CacheLine)) (x : Nat) (v : CacheLine) (y : Nat) :
    lineGet (linePut c x v) y = if y = x then some v else lineGet c y := by
  induction c with
  | nil => by_cases h : y = x <;> simp [linePut, lineGet, h]
  | cons e c ih =>
    obtain ⟨i, ln⟩ := e
    simp only [linePut]
    split
    · by_cases h : y = x <;> simp [lineGet, h]
    · split
      · rename_i hx
        subst hx
        by_cases h : y = x <;> simp [lineGet, h]
      · simp only [lineGet, ih]
        by_cases h : y = i
        · subst h; rw [if_pos rfl, if_neg (by omega), if_pos rfl]
        · rw [if_neg h, if_neg h]

/-- A line that is found stands in the list. -/
theorem lineGet_mem {c : List (Nat × CacheLine)} {x : Nat} {ln : CacheLine} (h : lineGet c x = some ln) :
    (x, ln) ∈ c := by
  induction c with
  | nil => simp [lineGet] at h
  | cons e c ih =>
    obtain ⟨i, k⟩ := e
    simp only [lineGet] at h
    split at h
    · rename_i hx
      simp at h
      simp [hx, h]
    · simp [ih h]

/-- In canonical form every entry is found at its index. -/
theorem lineGet_of_mem {c : List (Nat × CacheLine)} (hr : cacheRising c = true) {x : Nat} {ln : CacheLine}
    (h : (x, ln) ∈ c) : lineGet c x = some ln := by
  induction c with
  | nil => simp at h
  | cons e c ih =>
    obtain ⟨i, k⟩ := e
    obtain ⟨h1, h2⟩ := (cacheRising_cons i k c).1 hr
    rcases List.mem_cons.1 h with h | h
    · simp only [Prod.mk.injEq] at h
      simp [lineGet, h]
    · have := h1 _ h
      simp only at this
      rw [lineGet, if_neg (by omega)]
      exact ih h2 h

theorem mem_linePut {c : List (Nat × CacheLine)} {x : Nat} {v : CacheLine} {e : Nat × CacheLine}
    (h : e ∈ linePut c x v) : e = (x, v) ∨ e ∈ c := by
  induction c with
  | nil => simpa [linePut] using h
  | cons k c ih =>
    obtain ⟨i, ln⟩ := k
    simp only [linePut] at h
    split at h
    · rcases List.mem_cons.1 h with h | h
      · exact .inl h
      · exact .inr h
    · split at h
      · rcases List.mem_cons.1 h with h | h
        · exact .inl h
        · exact .inr (by simp [h])
      · rcases List.mem_cons.1 h with h | h
        · exact .inr (by simp [h])
        · rcases ih h with h | h
          · exact .inl h
          · exact .inr (by simp [h])

/-- A line put at an index keeps the canonical form. -/
theorem linePut_rising (c : List (Nat × CacheLine)) (hr : cacheRising c = true) (x : Nat) (v : CacheLine) :
    cacheRising (linePut c x v) = true := by
  induction c with
  | nil => simp [linePut, cacheRising]
  | cons e c ih =>
    obtain ⟨i, ln⟩ := e
    obtain ⟨h1, h2⟩ := (cacheRising_cons i ln c).1 hr
    simp only [linePut]
    split
    · rename_i hx
      refine (cacheRising_cons x v _).2 ⟨?_, hr⟩
      intro e he
      rcases List.mem_cons.1 he with he | he
      · simpa [he] using hx
      · have := h1 e he; omega
    · split
      · rename_i hx
        exact (cacheRising_cons x v c).2 ⟨fun e he => hx ▸ h1 e he, h2⟩
      · rename_i hx hx'
        refine (cacheRising_cons i ln _).2 ⟨?_, ih h2⟩
        intro e he
        rcases mem_linePut he with he | he
        · subst he; simp; omega
        · exact h1 e he

/-! ### Geometry -/

theorem lineOffset_lt (a : Nat) : lineOffset a < 32 := Nat.mod_lt _ (by decide)

theorem lineBase_add_offset (a : Nat) : lineBase a + lineOffset a = a := by
  simp only [lineBase, lineOffset, Config.lineBytes]; omega

theorem lineIndex_lt (pl : Platform) (a : Nat) : lineIndex pl a < 2 ^ pl.lineBits :=
  Nat.mod_lt _ (Nat.two_pow_pos _)

/-- The base of the line with an address's tag and index is the address's base. -/
theorem lineAddr_of (pl : Platform) (a : Nat) : lineAddr pl (lineTag pl a) (lineIndex pl a) = lineBase a := by
  unfold lineAddr lineTag lineIndex lineBase
  rw [Nat.mul_comm (a / Config.lineBytes / 2 ^ pl.lineBits), Nat.div_add_mod]
  simp only [Config.lineBytes]
  omega

/-- The tag and index of an address inside the line with a tag and an index. -/
theorem index_tag_of_lineAddr (pl : Platform) {tag idx k : Nat} (hi : idx < 2 ^ pl.lineBits) (hk : k < 32) :
    lineIndex pl (lineAddr pl tag idx + k) = idx ∧ lineTag pl (lineAddr pl tag idx + k) = tag := by
  unfold lineIndex lineTag lineAddr
  have h : ((tag * 2 ^ pl.lineBits + idx) * Config.lineBytes + k) / Config.lineBytes =
      tag * 2 ^ pl.lineBits + idx := by
    simp only [Config.lineBytes]; omega
  rw [h]
  refine ⟨?_, ?_⟩
  · rw [Nat.mul_comm, Nat.mul_add_mod, Nat.mod_eq_of_lt hi]
  · rw [Nat.mul_comm, Nat.mul_add_div (Nat.two_pow_pos _), Nat.div_eq_of_lt hi, Nat.add_zero]

/-- Two addresses with one tag and one index are in one line. -/
theorem lineBase_eq {pl : Platform} {a x : Nat} (h1 : lineIndex pl x = lineIndex pl a)
    (h2 : lineTag pl x = lineTag pl a) : lineBase x = lineBase a := by
  rw [← lineAddr_of pl x, ← lineAddr_of pl a, h1, h2]

theorem lineAddr_aligned (pl : Platform) (tag idx : Nat) : lineAddr pl tag idx % 32 = 0 := by
  simp [lineAddr, Config.lineBytes]

/-- An address of a line is its base and its offset. -/
theorem eq_lineAddr_add {pl : Platform} {tag x : Nat} (h : lineTag pl x = tag) :
    x = lineAddr pl tag (lineIndex pl x) + lineOffset x := by
  rw [← h, lineAddr_of, lineBase_add_offset]

/-! ### A line's bytes -/

theorem overwrite_length {data : List Byte} {off : Nat} {bs : List Byte} (h : off + bs.length ≤ data.length) :
    (overwrite data off bs).length = data.length := by
  simp [overwrite]; omega

/-- An overwritten line answers the new bytes where they stand and the old ones elsewhere. -/
theorem overwrite_getD {data : List Byte} {off : Nat} {bs : List Byte} (h : off + bs.length ≤ data.length)
    (k : Nat) :
    (overwrite data off bs).getD k 0 =
      if off ≤ k ∧ k < off + bs.length then bs.getD (k - off) 0 else data.getD k 0 := by
  simp only [overwrite, List.getD_eq_getElem?_getD]
  by_cases h1 : k < off
  · rw [if_neg (by omega), List.append_assoc, List.getElem?_append_left (by simp; omega),
      List.getElem?_take_of_lt h1]
  · by_cases h2 : k < off + bs.length
    · rw [if_pos ⟨by omega, h2⟩, List.append_assoc, List.getElem?_append_right (by simp; omega),
        List.getElem?_append_left (by simp; omega)]
      simp only [List.length_take]
      congr 2
      rw [Nat.min_eq_left (by omega)]
    · rw [if_neg (by omega), List.getElem?_append_right (by simp; omega)]
      simp only [List.length_append, List.length_take, List.getElem?_drop]
      congr 2
      rw [Nat.min_eq_left (by omega)]
      omega

end Sys2Proof.Machine
end

