-- ==== Sys2Proof/Laws/Cells.lean ====
section
/-! SUPPORT. The laws of the RAM cells: reading after writing, the canonical form kept by every write, and
equal contents being equal lists. -/

namespace Sys2Proof.Machine

@[simp] theorem memGet_nil (x : Nat) : memGet [] x = Config.unlistedByte := rfl

theorem memGet_cons (a : Nat) (b : Byte) (m : Memory) (x : Nat) :
    memGet ((a, b) :: m) x = if x = a then b else memGet m x := rfl

/-- What the canonical form of a longer list says. -/
theorem wf_cons (a : Nat) (b : Byte) (m : Memory) :
    Memory.wf ((a, b) :: m) = true ↔
      b ≠ Config.unlistedByte ∧ (∀ c ∈ m, a < c.1) ∧ Memory.wf m = true := by
  simp [Memory.wf, and_assoc]

/-- An address below every listed one reads as unlisted. -/
theorem memGet_below (m : Memory) (x : Nat) (h : ∀ c ∈ m, x < c.1) : memGet m x = Config.unlistedByte := by
  induction m with
  | nil => rfl
  | cons e m ih =>
    obtain ⟨a, b⟩ := e
    have hx : x ≠ a := by
      have := h (a, b) (by simp)
      simp at this
      omega
    rw [memGet_cons, if_neg hx]
    exact ih fun c hc => h c (by simp [hc])

/-- A write changes its own address and no other. -/
theorem memGet_memPut (m : Memory) (hm : Memory.wf m = true) (x : Nat) (v : Byte) (y : Nat) :
    memGet (memPut m x v) y = if y = x then v else memGet m y := by
  induction m with
  | nil =>
    by_cases hv : v = Config.unlistedByte <;> by_cases hy : y = x <;> simp [memPut, hv, hy, memGet]
  | cons e m ih =>
    obtain ⟨a, b⟩ := e
    obtain ⟨hb, hlt, hwf⟩ := (wf_cons a b m).1 hm
    have below : ∀ z, z < a → memGet m z = Config.unlistedByte := fun z hz =>
      memGet_below m z fun c hc => by have := hlt c hc; omega
    have self : memGet m a = Config.unlistedByte := memGet_below m a hlt
    rcases Nat.lt_trichotomy x a with h | h | h
    · by_cases hv : v = Config.unlistedByte
      · simp only [memPut, if_pos h, if_pos hv, memGet_cons]
        by_cases hy : y = x
        · subst hy
          rw [if_neg (by omega), if_pos rfl, below y h, hv]
        · rw [if_neg hy]
      · simp only [memPut, if_pos h, if_neg hv, memGet_cons]
    · subst h
      by_cases hv : v = Config.unlistedByte
      · simp only [memPut, lt_irrefl, if_false, if_true, if_pos hv, memGet_cons]
        by_cases hy : y = x
        · subst hy; rw [if_pos rfl, self, hv]
        · rw [if_neg hy, if_neg hy]
      · simp only [memPut, lt_irrefl, if_false, if_true, if_neg hv, memGet_cons]
        by_cases hy : y = x <;> simp [hy]
    · have h1 : ¬ x < a := by omega
      have h2 : x ≠ a := by omega
      simp only [memPut, if_neg h1, if_neg h2, memGet_cons, ih hwf]
      by_cases hy : y = a
      · subst hy; rw [if_pos rfl, if_neg (by omega), if_pos rfl]
      · rw [if_neg hy, if_neg hy]

/-- Every entry of a written memory is the new one or an old one. -/
theorem mem_memPut (m : Memory) (x : Nat) (v : Byte) (c : Host.Cell) (h : c ∈ memPut m x v) :
    c = (x, v) ∨ c ∈ m := by
  induction m with
  | nil =>
    simp only [memPut] at h
    split at h <;> simp_all
  | cons e m ih =>
    obtain ⟨a, b⟩ := e
    simp only [memPut] at h
    split at h
    · split at h <;> simp_all
    · split at h
      · split at h
        · simp [h]
        · rename_i hx _
          subst hx
          rcases List.mem_cons.1 h with h | h <;> simp [h]
      · rcases List.mem_cons.1 h with h | h
        · simp [h]
        · rcases ih h with h | h <;> simp [h]

/-- A write keeps the canonical form. -/
theorem memPut_wf (m : Memory) (hm : Memory.wf m = true) (x : Nat) (v : Byte) :
    Memory.wf (memPut m x v) = true := by
  induction m with
  | nil =>
    simp only [memPut]
    split <;> simp_all [Memory.wf]
  | cons e m ih =>
    obtain ⟨a, b⟩ := e
    obtain ⟨hb, hlt, hwf⟩ := (wf_cons a b m).1 hm
    simp only [memPut]
    split
    · rename_i hx
      split
      · exact hm
      · rename_i hv
        refine (wf_cons x v _).2 ⟨hv, ?_, hm⟩
        intro c hc
        rcases List.mem_cons.1 hc with hc | hc
        · simpa [hc] using hx
        · have := hlt c hc; omega
    · split
      · rename_i hx
        split
        · exact hwf
        · rename_i hv
          exact (wf_cons x v m).2 ⟨hv, fun c hc => hx ▸ hlt c hc, hwf⟩
      · rename_i h1 h2
        refine (wf_cons a b _).2 ⟨hb, ?_, ih hwf⟩
        intro c hc
        rcases mem_memPut m x v c hc with hc | hc
        · subst hc; simp; omega
        · exact hlt c hc

/-- Bytes written at consecutive addresses. -/
def memPutAll : Memory → Nat → List Byte → Memory
  | m, _, [] => m
  | m, a, b :: bs => memPutAll (memPut m a b) (a + 1) bs

theorem memPutAll_wf (bs : List Byte) : ∀ (m : Memory) (a : Nat), Memory.wf m = true →
    Memory.wf (memPutAll m a bs) = true := by
  induction bs with
  | nil => intro m a h; exact h
  | cons b bs ih => intro m a h; exact ih _ _ (memPut_wf m h a b)

/-- A run of writes changes exactly its own addresses. -/
theorem memGet_memPutAll (bs : List Byte) : ∀ (m : Memory) (a x : Nat), Memory.wf m = true →
    memGet (memPutAll m a bs) x = if a ≤ x ∧ x < a + bs.length then bs.getD (x - a) 0 else memGet m x := by
  induction bs with
  | nil =>
    intro m a x _
    have : ¬ (a ≤ x ∧ x < a + ([] : List Byte).length) := by simp
    rw [if_neg this]; rfl
  | cons b bs ih =>
    intro m a x h
    rw [memPutAll, ih _ _ _ (memPut_wf m h a b), memGet_memPut m h]
    simp only [List.length_cons]
    by_cases hx : x = a
    · subst hx
      rw [if_neg (by omega), if_pos rfl, if_pos (by omega)]
      simp
    · by_cases h1 : a + 1 ≤ x ∧ x < a + 1 + bs.length
      · rw [if_pos h1, if_pos (by omega)]
        obtain ⟨k, rfl⟩ : ∃ k, x = a + 1 + k := ⟨x - (a + 1), by omega⟩
        have e1 : a + 1 + k - (a + 1) = k := by omega
        have e2 : a + 1 + k - a = k + 1 := by omega
        rw [e1, e2, List.getD_cons_succ]
      · rw [if_neg h1, if_neg hx, if_neg (by omega)]

/-- The memory after reset has the canonical form. -/
theorem reset_mem_wf : Memory.wf State.reset.mem = true := rfl

end Sys2Proof.Machine
end

