-- ==== Sys2Proof/Laws/Kept.lean ====
section
/-! SUPPORT. What memory traffic leaves alone: the relation `Kept` (registers, fetch window and platform as
before, HALTED and the latch touched by devices alone), and the device calls, which keep it. -/

namespace Sys2Proof.Machine

theorem DeviceOnly.refl (s : State) : DeviceOnly s s := ⟨[], by simp⟩

theorem DeviceOnly.trans {s t u : State} (h1 : DeviceOnly s t) (h2 : DeviceOnly t u) : DeviceOnly s u := by
  obtain ⟨c1, l1, q1⟩ := h1
  obtain ⟨c2, l2, q2⟩ := h2
  refine ⟨c1 ++ c2, by rw [l2, l1, List.append_assoc], ?_⟩
  intro h
  obtain ⟨rfl, rfl⟩ := List.append_eq_nil_iff.1 h
  obtain ⟨a1, a2, a3, a4⟩ := q1 rfl
  obtain ⟨b1, b2, b3, b4⟩ := q2 rfl
  exact ⟨b1.trans a1, b2.trans a2, b3.trans a3, b4.trans a4⟩

theorem SameRest.refl (s : State) : SameRest s s := ⟨rfl, rfl, rfl, rfl, .refl s⟩

theorem SameRest.trans {s t u : State} (h1 : SameRest s t) (h2 : SameRest t u) : SameRest s u :=
  ⟨h2.win.trans h1.win, h2.winBase.trans h1.winBase, h2.winValid.trans h1.winValid, h2.plat.trans h1.plat,
    h1.device.trans h2.device⟩

/-- Registers and the rest are as before: what memory traffic keeps. -/
structure Kept (s t : State) : Prop where
  regs : regsOf t = regsOf s
  rest : SameRest s t

theorem Kept.refl (s : State) : Kept s s := ⟨rfl, .refl s⟩

theorem Kept.trans {s t u : State} (h1 : Kept s t) (h2 : Kept t u) : Kept s u :=
  ⟨h2.regs.trans h1.regs, h1.rest.trans h2.rest⟩

theorem Kept.plat {s t : State} (h : Kept s t) : t.plat = s.plat := h.rest.plat

theorem Kept.pv {s t : State} (h : Kept s t) : t.pv = s.pv := congrArg Regs.pv h.regs
theorem Kept.ip {s t : State} (h : Kept s t) : t.ip = s.ip := congrArg Regs.ip h.regs
theorem Kept.sp {s t : State} (h : Kept s t) : t.sp = s.sp := congrArg Regs.sp h.regs
theorem Kept.bp {s t : State} (h : Kept s t) : t.bp = s.bp := congrArg Regs.bp h.regs
theorem Kept.isp {s t : State} (h : Kept s t) : t.isp = s.isp := congrArg Regs.isp h.regs
theorem Kept.f {s t : State} (h : Kept s t) : t.f = s.f := congrArg Regs.f h.regs
theorem Kept.ie {s t : State} (h : Kept s t) : t.ie = s.ie := congrArg Regs.ie h.regs
theorem Kept.ii {s t : State} (h : Kept s t) : t.ii = s.ii := congrArg Regs.ii h.regs

/-! ### Where accesses reach, and silence -/

@[simp] theorem not_reaches_nil (x : Nat) : ¬ Reaches [] x := by
  rintro ⟨e, he, _⟩
  cases he

theorem reaches_append (r1 r2 : Reach) (x : Nat) : Reaches (r1 ++ r2) x ↔ Reaches r1 x ∨ Reaches r2 x := by
  simp only [Reaches, List.mem_append]
  constructor
  · rintro ⟨e, h | h, h2⟩
    · exact .inl ⟨e, h, h2⟩
    · exact .inr ⟨e, h, h2⟩
  · rintro (⟨e, h, h2⟩ | ⟨e, h, h2⟩)
    · exact ⟨e, .inl h, h2⟩
    · exact ⟨e, .inr h, h2⟩

theorem reaches_one (a n x : Nat) : Reaches [(a, n)] x ↔ x = a ∨ (a ≤ x ∧ x < a + n) := by
  simp [Reaches]

theorem reaches_self (a n : Nat) : Reaches [(a, n)] a := (reaches_one a n a).2 (.inl rfl)

theorem NoDevice.nil (s : State) : NoDevice s [] := fun x h => absurd h (not_reaches_nil x)

theorem NoDevice.mono {s : State} {r1 r2 : Reach} (h : NoDevice s r2) (hr : ∀ x, Reaches r1 x → Reaches r2 x) :
    NoDevice s r1 := fun x hx => h x (hr x hx)

theorem NoDevice.append {s : State} {r1 r2 : Reach} (h : NoDevice s (r1 ++ r2)) : NoDevice s r1 ∧ NoDevice s r2 :=
  ⟨h.mono fun x hx => (reaches_append r1 r2 x).2 (.inl hx), h.mono fun x hx => (reaches_append r1 r2 x).2 (.inr hx)⟩

theorem Silent.refl (s : State) : Silent s s := ⟨rfl, rfl, rfl, rfl, rfl, fun _ _ _ => Iff.rfl⟩

theorem Silent.trans {s t u : State} (h1 : Silent s t) (hp : t.plat = s.plat) (h2 : Silent t u) : Silent s u :=
  ⟨h2.devLog.trans h1.devLog, h2.devCount.trans h1.devCount, h2.halted.trans h1.halted, h2.pend.trans h1.pend,
    h2.pendVec.trans h1.pendVec, fun i ln h => (h2.lines i ln (by rw [hp]; exact h)).trans (h1.lines i ln h)⟩

/-- After a silent action an access reaches a device only where it did before. -/
theorem Silent.nearDevice {s t : State} (h : Silent s t) (hp : t.plat = s.plat) {x : Nat} (hx : NearDevice t x) :
    NearDevice s x := by
  obtain ⟨g, h1, h2⟩ := hx
  rw [hp] at h1 h2
  refine ⟨g, h1, ?_⟩
  rcases h2 with h2 | ⟨h2, ln, h3, h4⟩
  · exact .inl h2
  · exact .inr ⟨h2, ln, (h.lines _ ln h4).1 h3, h4⟩

theorem Silent.noDevice {s t : State} (h : Silent s t) (hp : t.plat = s.plat) {r : Reach} (hr : NoDevice s r) :
    NoDevice t r := fun x hx hn => hr x hx (h.nearDevice hp hn)

/-- Memory alone changed: no device was called. -/
theorem Silent.mem (s : State) (m : Memory) : Silent s { s with mem := m } :=
  ⟨rfl, rfl, rfl, rfl, rfl, fun _ _ _ => Iff.rfl⟩

/-- Nothing that silence speaks of changed. -/
theorem Silent.of_fields {s t u : State} (h : Silent s t) (h1 : u.devLog = t.devLog) (h2 : u.devCount = t.devCount)
    (h3 : u.halted = t.halted) (h4 : u.pend = t.pend) (h5 : u.pendVec = t.pendVec) (h6 : u.cache = t.cache) :
    Silent s u :=
  ⟨h1.trans h.devLog, h2.trans h.devCount, h3.trans h.halted, h4.trans h.pend, h5.trans h.pendVec,
    fun i ln hd => by rw [h6]; exact h.lines i ln hd⟩

/-- What an address away from devices says of its segment and of the line it could evict. -/
theorem ram_of_not_near {s : State} {a : Nat} {g : Segment} (hg : lookup s.plat.segments a = some g)
    (h : ¬ NearDevice s a) : g.kind = .ram ∧ (throughCache s.plat g = true →
      ∀ ln, lineGet s.cache (lineIndex s.plat a) = some ln → ¬ DeviceLine s.plat (lineIndex s.plat a) ln) := by
  constructor
  · cases hk : g.kind with
    | ram => rfl
    | device => exact absurd ⟨g, hg, .inl hk⟩ h
  · intro ht ln hl hd
    exact h ⟨g, hg, .inr ⟨ht, ln, hl, hd⟩⟩

/-- A state that differs in memory and cache alone is kept. -/
theorem Kept.mem_cache (s : State) (m : Memory) (c : List (Nat × CacheLine)) :
    Kept s { s with mem := m, cache := c } := ⟨rfl, rfl, rfl, rfl, rfl, [], by simp⟩

/-- Kept, and memory and cache as before as well: what a device call does. -/
structure Quiet (s t : State) : Prop where
  kept : Kept s t
  mem : t.mem = s.mem
  cache : t.cache = s.cache

theorem Quiet.refl (s : State) : Quiet s s := ⟨.refl s, rfl, rfl⟩

theorem Quiet.trans {s t u : State} (h1 : Quiet s t) (h2 : Quiet t u) : Quiet s u :=
  ⟨h1.kept.trans h2.kept, h2.mem.trans h1.mem, h2.cache.trans h1.cache⟩

/-- What a device does to the core: HALTED and the latch are all it reaches. -/
theorem applyEvents_fields (es : List DeviceEvent) : ∀ s : State,
    regsOf (es.foldl applyEvent s) = regsOf s ∧ (es.foldl applyEvent s).win = s.win ∧
      (es.foldl applyEvent s).winBase = s.winBase ∧ (es.foldl applyEvent s).winValid = s.winValid ∧
      (es.foldl applyEvent s).plat = s.plat ∧ (es.foldl applyEvent s).devLog = s.devLog ∧
      (es.foldl applyEvent s).mem = s.mem ∧ (es.foldl applyEvent s).cache = s.cache := by
  induction es with
  | nil => intro s; simp
  | cons e es ih =>
    intro s
    have h : regsOf (applyEvent s e) = regsOf s ∧ (applyEvent s e).win = s.win ∧
        (applyEvent s e).winBase = s.winBase ∧ (applyEvent s e).winValid = s.winValid ∧
        (applyEvent s e).plat = s.plat ∧ (applyEvent s e).devLog = s.devLog ∧
        (applyEvent s e).mem = s.mem ∧ (applyEvent s e).cache = s.cache := by
      cases e with
      | fireMaskable v =>
        simp only [applyEvent, fireMaskable]
        split <;> exact ⟨rfl, rfl, rfl, rfl, rfl, rfl, rfl, rfl⟩
      | fireNonMaskable v => exact ⟨rfl, rfl, rfl, rfl, rfl, rfl, rfl, rfl⟩
      | setHalted => exact ⟨rfl, rfl, rfl, rfl, rfl, rfl, rfl, rfl⟩
    have h' := ih (applyEvent s e)
    simp only [List.foldl_cons]
    obtain ⟨a1, a2, a3, a4, a5, a6, a7, a8⟩ := h
    obtain ⟨b1, b2, b3, b4, b5, b6, b7, b8⟩ := h'
    exact ⟨b1.trans a1, b2.trans a2, b3.trans a3, b4.trans a4, b5.trans a5, b6.trans a6, b7.trans a7,
      b8.trans a8⟩

/-- A device call is recorded and reaches nothing but HALTED and the latch. -/
theorem deviceCall_quiet (c : DeviceCall) (s : State) : Quiet s (deviceCall c s) := by
  unfold deviceCall
  obtain ⟨a1, a2, a3, a4, a5, a6, a7, a8⟩ := applyEvents_fields (Config.deviceEvents s.devCount c)
    { s with devLog := s.devLog ++ [c], devCount := s.devCount + 1 }
  exact ⟨⟨a1, a2, a3, a4, a5, [c], a6, by simp⟩, a7, a8⟩

/-- Reads of a device controller. -/
theorem ctrlRead_device (g : Segment) (hg : g.kind = .device) (n : Nat) : ∀ (a : Nat) (s : State),
    Quiet s (ctrlRead g a n s).2 ∧ (ctrlRead g a n s).1.length = n := by
  induction n with
  | zero => intro a s; exact ⟨.refl s, rfl⟩
  | succ n ih =>
    intro a s
    obtain ⟨h1, h2⟩ := ih (a + 1) (ctrlReadByte g a s).2
    have h0 : Quiet s (ctrlReadByte g a s).2 := by
      simp only [ctrlReadByte, hg]
      exact deviceCall_quiet _ s
    exact ⟨h0.trans h1, by simp [ctrlRead, h2]⟩

/-- Writes of a device controller. -/
theorem ctrlWrite_device (g : Segment) (hg : g.kind = .device) (bs : List Byte) : ∀ (a : Nat) (s : State),
    Quiet s (ctrlWrite g a bs s) := by
  induction bs with
  | nil => intro a s; exact .refl s
  | cons b bs ih =>
    intro a s
    have h0 : Quiet s (ctrlWriteByte g a b s) := by
      simp only [ctrlWriteByte, hg]
      exact deviceCall_quiet _ s
    exact h0.trans (ih (a + 1) _)

/-- A device call is appended to the log. -/
theorem deviceCall_log (c : DeviceCall) (s : State) : (deviceCall c s).devLog = s.devLog ++ [c] :=
  (applyEvents_fields (Config.deviceEvents s.devCount c)
    { s with devLog := s.devLog ++ [c], devCount := s.devCount + 1 }).2.2.2.2.2.1

/-- The calls of a run of reads of a device, in ascending order (spec/20_memory.md R62). -/
theorem ctrlRead_log (g : Segment) (hg : g.kind = .device) (n : Nat) : ∀ (a : Nat) (s : State),
    (ctrlRead g a n s).2.devLog = s.devLog ++ deviceReads g a (ctrlRead g a n s).1 := by
  induction n with
  | zero => intro a s; simp [ctrlRead, deviceReads]
  | succ n ih =>
    intro a s
    simp only [ctrlRead, ctrlReadByte, hg, ih, deviceCall_log, deviceReads, List.append_assoc, List.singleton_append]

/-- The calls of a run of writes of a device, in ascending order (spec/20_memory.md R62). -/
theorem ctrlWrite_log (g : Segment) (hg : g.kind = .device) (bs : List Byte) : ∀ (a : Nat) (s : State),
    (ctrlWrite g a bs s).devLog = s.devLog ++ deviceWrites g a bs := by
  induction bs with
  | nil => intro a s; simp [ctrlWrite, deviceWrites]
  | cons b bs ih =>
    intro a s
    simp only [ctrlWrite, ctrlWriteByte, hg, ih, deviceCall_log, deviceWrites, List.append_assoc,
      List.singleton_append]

/-- The bytes of consecutive RAM cells. -/
def cells (m : Memory) (a n : Nat) : List Byte := (List.range n).map fun k => memGet m (a + k)

theorem cells_length (m : Memory) (a n : Nat) : (cells m a n).length = n := by simp [cells]

theorem cells_succ (m : Memory) (a n : Nat) : cells m a (n + 1) = memGet m a :: cells m (a + 1) n := by
  simp only [cells, List.range_succ_eq_map, List.map_cons, List.map_map, Nat.add_zero]
  congr 1
  apply List.map_congr_left
  intro k _
  simp only [Function.comp_apply]
  congr 1
  omega

theorem cells_add (m : Memory) (a n k : Nat) : cells m a (n + k) = cells m a n ++ cells m (a + n) k := by
  induction n generalizing a with
  | zero => simp [cells]
  | succ n ih =>
    rw [Nat.add_right_comm, cells_succ, cells_succ, ih, List.cons_append]
    congr 3
    omega

theorem cells_getD (m : Memory) (a n k : Nat) (h : k < n) : (cells m a n).getD k 0 = memGet m (a + k) := by
  simp [cells, List.getD_eq_getElem?_getD, h]

/-- Reads of a RAM controller have no side effect (spec/20_memory.md R63). -/
theorem ctrlRead_ram (g : Segment) (hg : g.kind = .ram) (n : Nat) : ∀ (a : Nat) (s : State),
    ctrlRead g a n s = (cells s.mem a n, s) := by
  induction n with
  | zero => intro a s; simp [ctrlRead, cells]
  | succ n ih =>
    intro a s
    have h : ctrlReadByte g a s = (memGet s.mem a, s) := by simp [ctrlReadByte, hg]
    simp only [ctrlRead, h, ih, cells_succ]

/-- A run of writes of a RAM controller stores its bytes and does nothing else. -/
theorem ctrlWrite_ram (g : Segment) (hg : g.kind = .ram) (bs : List Byte) : ∀ (a : Nat) (s : State),
    ctrlWrite g a bs s = { s with mem := memPutAll s.mem a bs } := by
  induction bs with
  | nil => intro a s; rfl
  | cons b bs ih =>
    intro a s
    have h : ctrlWriteByte g a b s = { s with mem := memPut s.mem a b } := by simp [ctrlWriteByte, hg]
    simp only [ctrlWrite, ih, h, memPutAll]

end Sys2Proof.Machine
end

