-- ==== Sys2Proof/Laws/Lines.lean ====
section
/-! SUPPORT. The lines of the cache: an eviction, a load and `EnsureLine` (spec/20_memory.md R78) keep the
invariant, the registers and the memory view, and cannot fault (R84, R86). -/

namespace Sys2Proof.Machine

@[simp] theorem Res.bind_ok {α β : Type} (v : α) (s : State) (k : α → State → Res β) :
    (Res.ok v s).bind k = k v s := rfl

@[simp] theorem Res.bind_raise {α β : Type} (r : Fault) (s : State) (k : α → State → Res β) :
    (Res.raise r s).bind k = .raise r s := rfl

@[simp] theorem Res.map_ok {α β : Type} (g : α → β) (v : α) (s : State) : (Res.ok v s).map g = .ok (g v) s := rfl

@[simp] theorem Res.map_raise {α β : Type} (g : α → β) (r : Fault) (s : State) :
    (Res.raise r s).map g = .raise r s := rfl

/-- Two states whose RAM reads the same everywhere. -/
def SameRam (s t : State) : Prop := ∀ x, ramView t x = ramView s x

theorem SameRam.refl (s : State) : SameRam s s := fun _ => rfl

theorem SameRam.trans {s t u : State} (h1 : SameRam s t) (h2 : SameRam t u) : SameRam s u :=
  fun x => (h2 x).trans (h1 x)

/-- What `lineOk` says of a line, as a proposition. -/
structure LineOk (pl : Platform) (m : Memory) (i : Nat) (ln : CacheLine) (g : Segment) : Prop where
  index : i < 2 ^ pl.lineBits
  length : ln.data.length = 32
  owner : lookup pl.segments (lineAddr pl ln.tag i) = some g
  cacheable : g.cacheable = true
  rpriv : ln.rpriv = g.readNeedsPriv
  wpriv : ln.wpriv = g.writeNeedsPriv
  clean : ln.dirty = true ∨ g.kind = .device ∨ ln.data = cells m (lineAddr pl ln.tag i) 32

theorem lineOk_iff (s : State) (i : Nat) (ln : CacheLine) :
    lineOk s i ln = true ↔ ∃ g, LineOk s.plat s.mem i ln g := by
  unfold lineOk
  cases hg : lookup s.plat.segments (lineAddr s.plat ln.tag i) with
  | none =>
    simp only [Bool.and_false, Bool.false_eq_true, false_iff, not_exists]
    intro g h
    have := h.owner
    rw [hg] at this
    cases this
  | some g =>
    simp only [Bool.and_eq_true, decide_eq_true_eq, beq_iff_eq, Bool.or_eq_true]
    constructor
    · rintro ⟨⟨h1, h2⟩, ⟨⟨h3, h4⟩, h5⟩, h6⟩
      exact ⟨g, h1, h2, hg, h3, h4, h5, by
        rcases h6 with (h6 | h6) | h6
        · exact .inl h6
        · exact .inr (.inl h6)
        · exact .inr (.inr h6)⟩
    · rintro ⟨g', h⟩
      have : g = g' := by simpa [hg] using h.owner
      subst this
      refine ⟨⟨h.index, h.length⟩, ⟨⟨h.cacheable, h.rpriv⟩, h.wpriv⟩, ?_⟩
      rcases h.clean with h6 | h6 | h6
      · exact .inl (.inl h6)
      · exact .inl (.inr h6)
      · exact .inr h6

/-- The invariant, with the lines looked up by index. -/
theorem inv_iff (s : State) : StateInv s ↔
    segmentsValid s.plat.segments = true ∧ Memory.wf s.mem = true ∧ cacheRising s.cache = true ∧
      (∀ i ln, lineGet s.cache i = some ln → ∃ g, LineOk s.plat s.mem i ln g) ∧
      (s.plat.cacheEnabled = false → s.cache = []) := by
  unfold StateInv
  constructor
  · rintro ⟨h1, h2, h3, h4, h5⟩
    refine ⟨h1, h2, h3, ?_, h5⟩
    intro i ln hl
    exact (lineOk_iff s i ln).1 (List.all_eq_true.1 h4 _ (lineGet_mem hl))
  · rintro ⟨h1, h2, h3, h4, h5⟩
    refine ⟨h1, h2, h3, ?_, h5⟩
    refine List.all_eq_true.2 ?_
    rintro ⟨i, ln⟩ he
    exact (lineOk_iff s i ln).2 (h4 i ln (lineGet_of_mem h3 he))

theorem StateInv.segments {s : State} (h : StateInv s) : segmentsValid s.plat.segments = true := h.1
theorem StateInv.memWf {s : State} (h : StateInv s) : Memory.wf s.mem = true := h.2.1
theorem StateInv.rising {s : State} (h : StateInv s) : cacheRising s.cache = true := h.2.2.1
theorem StateInv.line {s : State} (h : StateInv s) {i : Nat} {ln : CacheLine} (hl : lineGet s.cache i = some ln) :
    ∃ g, LineOk s.plat s.mem i ln g := ((inv_iff s).1 h).2.2.2.1 i ln hl
theorem StateInv.off {s : State} (h : StateInv s) : s.plat.cacheEnabled = false → s.cache = [] := h.2.2.2.2

/-- The invariant reads nothing but memory, cache and platform. -/
theorem StateInv.congr {s t : State} (h : StateInv s) (hm : t.mem = s.mem) (hc : t.cache = s.cache)
    (hp : t.plat = s.plat) : StateInv t := by
  obtain ⟨h1, h2, h3, h4, h5⟩ := (inv_iff s).1 h
  exact (inv_iff t).2 ⟨hp ▸ h1, hm ▸ h2, hc ▸ h3, by rw [hp, hm, hc]; exact h4, by rw [hp, hc]; exact h5⟩

/-- The view of RAM reads nothing but memory, cache and platform. -/
theorem ramView_congr {s t : State} (hm : t.mem = s.mem) (hc : t.cache = s.cache) (hp : t.plat = s.plat) :
    SameRam s t := fun x => by
  simp only [ramView, view, ctrlByte, hm, hc, hp]

theorem Quiet.inv {s t : State} (h : Quiet s t) (hi : StateInv s) : StateInv t :=
  hi.congr h.mem h.cache h.kept.plat

theorem Quiet.ram {s t : State} (h : Quiet s t) : SameRam s t := ramView_congr h.mem h.cache h.kept.plat

/-! ### The view of an address -/

/-- No view where no RAM controller owns the address. -/
theorem ramView_none {s : State} {x : Nat} (h : ∀ g, lookup s.plat.segments x = some g → g.kind = .device) :
    ramView s x = none := by
  unfold ramView
  cases hg : lookup s.plat.segments x with
  | none => rfl
  | some g => simp only [h g hg]

/-- The view of an address a RAM controller owns. -/
theorem ramView_ram {s : State} {x : Nat} {g : Segment} (h : lookup s.plat.segments x = some g)
    (hk : g.kind = .ram) :
    ramView s x = if throughCache s.plat g then
        match lineGet s.cache (lineIndex s.plat x) with
        | some ln =>
          if ln.tag = lineTag s.plat x then some (ln.data.getD (lineOffset x) 0) else some (memGet s.mem x)
        | none => some (memGet s.mem x)
      else some (memGet s.mem x) := by
  simp only [ramView, view, ctrlByte, h, hk] <;> rfl

/-- Two states of one platform read the same where they do at every byte of RAM. -/
theorem sameRam_of_ram {s t : State} (hp : t.plat = s.plat)
    (h : ∀ x g, lookup s.plat.segments x = some g → g.kind = .ram → ramView t x = ramView s x) : SameRam s t := by
  intro x
  by_cases hx : ∃ g, lookup s.plat.segments x = some g ∧ g.kind = .ram
  · obtain ⟨g, hg, hk⟩ := hx
    exact h x g hg hk
  · have hall : ∀ g, lookup s.plat.segments x = some g → g.kind = .device := by
      intro g hg
      cases hk : g.kind with
      | device => rfl
      | ram => exact absurd ⟨g, hg, hk⟩ hx
    rw [ramView_none hall, ramView_none (s := t)]
    rw [hp]
    exact hall

/-- A line of the right kind put into the cache keeps the invariant. -/
theorem inv_setLine {s : State} (hi : StateInv s) (hen : s.plat.cacheEnabled = true) {idx : Nat} {ln : CacheLine}
    {g : Segment} (h : LineOk s.plat s.mem idx ln g) : StateInv (setLine idx ln s) := by
  refine (inv_iff _).2 ⟨hi.segments, hi.memWf, linePut_rising _ hi.rising _ _, ?_, ?_⟩
  · intro i l hl
    simp only [setLine, lineGet_linePut] at hl
    split at hl
    · rename_i hx
      simp only [Option.some.injEq] at hl
      subst hl hx
      exact ⟨g, h⟩
    · exact hi.line hl
  · intro he
    simp only [setLine] at he
    rw [hen] at he
    cases he

/-- A RAM line put where no device's line stands: no device was called. -/
theorem silent_setLine {s : State} {idx : Nat} {ln : CacheLine} (hnew : ¬ DeviceLine s.plat idx ln)
    (hold : ∀ lo, lineGet s.cache idx = some lo → ¬ DeviceLine s.plat idx lo) : Silent s (setLine idx ln s) := by
  refine ⟨rfl, rfl, rfl, rfl, rfl, fun i l hd => ?_⟩
  simp only [setLine, lineGet_linePut]
  by_cases hi : i = idx
  · subst hi
    rw [if_pos rfl]
    constructor
    · intro h
      rw [Option.some.inj h] at hnew
      exact absurd hd hnew
    · intro h
      exact absurd hd (hold l h)
  · rw [if_neg hi]

theorem kept_setLine (idx : Nat) (ln : CacheLine) (s : State) : Kept s (setLine idx ln s) :=
  ⟨rfl, rfl, rfl, rfl, rfl, [], by simp [setLine]⟩

/-- A state with a line has its cache on. -/
theorem StateInv.enabled {s : State} (hi : StateInv s) {idx : Nat} {ln : CacheLine} (hl : lineGet s.cache idx = some ln) :
    s.plat.cacheEnabled = true := by
  by_contra h
  rw [hi.off (by simpa using h)] at hl
  simp [lineGet] at hl

/-- The segment of an address and the segment of a line that covers it are one. -/
theorem LineOk.covers {pl : Platform} {m : Memory} {i : Nat} {ln : CacheLine} {g : Segment}
    (hv : segmentsValid pl.segments = true) (h : LineOk pl m i ln g) {x : Nat} (hi : lineIndex pl x = i)
    (ht : ln.tag = lineTag pl x) : lookup pl.segments x = some g := by
  obtain ⟨h1, h2⟩ := line_in_segment hv h.owner h.cacheable
  have ha : lineBase (lineAddr pl ln.tag i) = lineAddr pl ln.tag i := by
    have := lineAddr_aligned pl ln.tag i
    simp only [lineBase, Config.lineBytes]; omega
  rw [ha] at h1 h2
  have hx := eq_lineAddr_add (pl := pl) (tag := ln.tag) (x := x) ht.symm
  rw [hi] at hx
  have := lineOffset_lt x
  exact lookup_same hv h.owner (by omega) (by omega)

/-- A clean line of RAM reads as the controller's bytes. -/
theorem LineOk.clean_byte {pl : Platform} {m : Memory} {i : Nat} {ln : CacheLine} {g : Segment}
    (h : LineOk pl m i ln g) (hd : ln.dirty = false) (hk : g.kind = .ram) {x : Nat} (hi : lineIndex pl x = i)
    (ht : ln.tag = lineTag pl x) : ln.data.getD (lineOffset x) 0 = memGet m x := by
  rcases h.clean with hc | hc | hc
  · simp [hd] at hc
  · simp [hk] at hc
  · rw [hc, cells_getD _ _ _ _ (lineOffset_lt x)]
    congr 1
    have hx := eq_lineAddr_add (pl := pl) (tag := ln.tag) (x := x) ht.symm
    rw [hi] at hx
    exact hx.symm

/-! ### The cache's own traffic -/

theorem routerWrite_priv {s : State} {a : Nat} {bs : List Byte} {g : Segment}
    (h : lookup s.plat.segments a = some g) (hl : a + bs.length ≤ segLimit g) :
    routerWrite a bs true s = .ok () (ctrlWrite g a bs s) := by
  simp only [routerWrite, h, if_neg (Nat.not_lt.2 hl), Bool.not_true, Bool.and_false, Bool.false_eq_true,
    if_false]

theorem routerRead_priv {s : State} {a n : Nat} {g : Segment} (h : lookup s.plat.segments a = some g)
    (hl : a + n ≤ segLimit g) :
    routerRead a n true s = .ok (ctrlRead g a n s).1 (ctrlRead g a n s).2 := by
  simp only [routerRead, h, if_neg (Nat.not_lt.2 hl), Bool.not_true, Bool.and_false, Bool.false_eq_true,
    if_false]

theorem memPutAll_append (xs : List Byte) : ∀ (m : Memory) (a : Nat) (ys : List Byte),
    memPutAll m a (xs ++ ys) = memPutAll (memPutAll m a xs) (a + xs.length) ys := by
  induction xs with
  | nil => intro m a ys; rfl
  | cons x xs ih =>
    intro m a ys
    rw [List.cons_append, memPutAll, ih, memPutAll]
    congr 1
    simp; omega

/-- A victim's flush succeeds (R86): RAM takes the bytes; a device is called. -/
theorem flushChunks_spec {g : Segment} (k : Nat) : ∀ (a : Nat) (data : List Byte) (s : State),
    segmentsValid s.plat.segments = true → lookup s.plat.segments a = some g → data.length = 4 * k →
    a + 4 * k ≤ segLimit g →
    ∃ t, flushChunks a data k s = .ok () t ∧ (g.kind = .ram → t = { s with mem := memPutAll s.mem a data }) ∧
      (g.kind = .device → Quiet s t) := by
  induction k with
  | zero =>
    intro a data s _ _ hd _
    have : data = [] := List.length_eq_zero_iff.1 (by omega)
    exact ⟨s, rfl, fun _ => by simp [this, memPutAll], fun _ => .refl s⟩
  | succ k ih =>
    intro a data s hv hg hd hl
    have hw : routerWrite a (data.take 4) true s = .ok () (ctrlWrite g a (data.take 4) s) :=
      routerWrite_priv hg (by simp; omega)
    have hplat : (ctrlWrite g a (data.take 4) s).plat = s.plat := by
      cases hk : g.kind with
      | ram => rw [ctrlWrite_ram g hk]
      | device => exact (ctrlWrite_device g hk _ a s).kept.plat
    rcases Nat.eq_zero_or_pos k with rfl | hk0
    · refine ⟨ctrlWrite g a (data.take 4) s, by simp [flushChunks, hw], ?_, ?_⟩
      · intro hk
        rw [ctrlWrite_ram g hk, List.take_of_length_le (by omega)]
      · intro hk
        exact ctrlWrite_device g hk _ a s
    · have hg' : lookup s.plat.segments (a + 4) = some g := by
        have := lookup_some hg
        exact lookup_same hv hg (by have := this.2.1; omega) (by omega)
      obtain ⟨t, h1, h2, h3⟩ := ih (a + 4) (data.drop 4) (ctrlWrite g a (data.take 4) s)
        (by rw [hplat]; exact hv) (by rw [hplat]; exact hg') (by simp; omega) (by omega)
      refine ⟨t, by simp [flushChunks, hw, h1], ?_, ?_⟩
      · intro hk
        rw [h2 hk, ctrlWrite_ram g hk]
        simp only
        congr 1
        conv_rhs => rw [← List.take_append_drop 4 data]
        rw [memPutAll_append]
        congr 1
        simp; omega
      · intro hk
        exact (ctrlWrite_device g hk _ a s).trans (h3 hk)

/-- A line's load succeeds (R86) and answers the controller's bytes. -/
theorem loadChunks_spec {g : Segment} (k : Nat) : ∀ (a : Nat) (s : State),
    segmentsValid s.plat.segments = true → lookup s.plat.segments a = some g → a + 4 * k ≤ segLimit g →
    ∃ bs t, loadChunks a k s = .ok bs t ∧ bs.length = 4 * k ∧ Quiet s t ∧
      (g.kind = .ram → bs = cells s.mem a (4 * k)) ∧ (g.kind = .ram → Silent s t) := by
  induction k with
  | zero => intro a s _ _ _; exact ⟨[], s, rfl, rfl, .refl s, fun _ => by simp [cells], fun _ => .refl s⟩
  | succ k ih =>
    intro a s hv hg hl
    have hr := routerRead_priv (s := s) (n := 4) hg (by omega)
    have hq : Quiet s (ctrlRead g a 4 s).2 ∧ (ctrlRead g a 4 s).1.length = 4 ∧
        (g.kind = .ram → (ctrlRead g a 4 s).1 = cells s.mem a 4) ∧
        (g.kind = .ram → Silent s (ctrlRead g a 4 s).2) := by
      cases hk : g.kind with
      | ram => rw [ctrlRead_ram g hk]; exact ⟨.refl s, cells_length _ _ _, fun _ => rfl, fun _ => .refl s⟩
      | device => exact ⟨(ctrlRead_device g hk 4 a s).1, (ctrlRead_device g hk 4 a s).2, by simp, by simp⟩
    obtain ⟨q1, q2, q3, q4⟩ := hq
    rcases Nat.eq_zero_or_pos k with rfl | hk0
    · refine ⟨(ctrlRead g a 4 s).1, (ctrlRead g a 4 s).2, by simp [loadChunks, hr], q2, q1, ?_, q4⟩
      intro hk; simpa using q3 hk
    · have hg' : lookup s.plat.segments (a + 4) = some g := by
        have := lookup_some hg
        exact lookup_same hv hg (by have := this.2.1; omega) (by omega)
      obtain ⟨bs, t, h1, h2, h3, h4, h5⟩ := ih (a + 4) (ctrlRead g a 4 s).2
        (by rw [q1.kept.plat]; exact hv) (by rw [q1.kept.plat]; exact hg') (by omega)
      refine ⟨(ctrlRead g a 4 s).1 ++ bs, t, by simp [loadChunks, hr, h1], by simp [q2, h2]; omega,
        q1.trans h3, ?_, fun hk => (q4 hk).trans q1.kept.plat (h5 hk)⟩
      intro hk
      rw [q3 hk, h4 hk, q1.mem, ← cells_add]
      congr 1
      omega

/-! ### Eviction and load -/

/-- RAM bytes stored under a dirty line that holds them keep the invariant and the view: the flush of R78. -/
theorem flush_ram {s : State} (hi : StateInv s) {idx : Nat} {ln : CacheLine} {g : Segment}
    (hl : lineGet s.cache idx = some ln) (hd : ln.dirty = true) (hg : LineOk s.plat s.mem idx ln g)
    {t : State} (ht : t = { s with mem := memPutAll s.mem (lineAddr s.plat ln.tag idx) ln.data }) :
    StateInv t ∧ SameRam s t ∧ cells t.mem (lineAddr s.plat ln.tag idx) 32 = ln.data := by
  have hcell : ∀ x, memGet t.mem x =
      if lineAddr s.plat ln.tag idx ≤ x ∧ x < lineAddr s.plat ln.tag idx + 32 then
        ln.data.getD (x - lineAddr s.plat ln.tag idx) 0 else memGet s.mem x := by
    intro x
    rw [ht, memGet_memPutAll _ _ _ _ hi.memWf, hg.length]
  have hin : ∀ x, lineAddr s.plat ln.tag idx ≤ x ∧ x < lineAddr s.plat ln.tag idx + 32 →
      lineIndex s.plat x = idx ∧ lineTag s.plat x = ln.tag := by
    intro x hx
    have := index_tag_of_lineAddr s.plat (tag := ln.tag) (k := x - lineAddr s.plat ln.tag idx) hg.index
      (by omega)
    rwa [show lineAddr s.plat ln.tag idx + (x - lineAddr s.plat ln.tag idx) = x by omega] at this
  have hplat : t.plat = s.plat := by rw [ht]
  have hcache : t.cache = s.cache := by rw [ht]
  refine ⟨?_, ?_, ?_⟩
  · refine (inv_iff _).2 ⟨hplat ▸ hi.segments, ?_, hcache ▸ hi.rising, ?_, by rw [hplat, hcache]; exact hi.off⟩
    · rw [ht]; exact memPutAll_wf _ _ _ hi.memWf
    · intro i l h
      rw [hcache] at h
      rw [hplat]
      obtain ⟨g', h'⟩ := hi.line h
      refine ⟨g', h'.index, h'.length, h'.owner, h'.cacheable, h'.rpriv, h'.wpriv, ?_⟩
      by_cases hii : i = idx
      · subst hii
        rw [hl] at h
        exact .inl (Option.some.inj h ▸ hd)
      · rcases h'.clean with hc | hc | hc
        · exact .inl hc
        · exact .inr (.inl hc)
        · refine .inr (.inr ?_)
          rw [hc]
          apply List.map_congr_left
          intro k hk
          simp only [List.mem_range] at hk
          rw [hcell, if_neg]
          intro h6
          have h9 := (index_tag_of_lineAddr s.plat (tag := l.tag) (k := k) h'.index hk).1
          exact hii (h9.symm.trans (hin _ h6).1)
  · refine sameRam_of_ram hplat ?_
    intro x g' hg' hk'
    rw [ramView_ram (s := s) hg' hk', ramView_ram (s := t) (g := g') (by rw [hplat]; exact hg') hk', hplat, hcache,
      hcell]
    by_cases hr : lineAddr s.plat ln.tag idx ≤ x ∧ x < lineAddr s.plat ln.tag idx + 32
    · obtain ⟨h4, h5⟩ := hin x hr
      have hgx := hg.covers hi.segments h4 h5.symm
      rw [hg'] at hgx
      have hgx := Option.some.inj hgx
      subst hgx
      simp only [throughCache, hi.enabled hl, hg.cacheable, Bool.and_self, if_true, h4, hl, h5]
    · simp only [if_neg hr]
  · apply List.ext_getElem
    · rw [cells_length, hg.length]
    · intro k hk1 hk2
      rw [cells_length] at hk1
      have h6 := cells_getD t.mem (lineAddr s.plat ln.tag idx) 32 k hk1
      rw [hcell, if_pos ⟨by omega, by omega⟩, List.getD_eq_getElem _ _ (by rwa [cells_length]),
        Nat.add_sub_cancel_left, List.getD_eq_getElem _ _ hk2] at h6
      exact h6

/-- A line made clean reads the same. -/
theorem ramView_setClean {s : State} {idx : Nat} {ln : CacheLine} (hl : lineGet s.cache idx = some ln) :
    SameRam s (setLine idx { ln with dirty := false } s) := by
  refine sameRam_of_ram rfl ?_
  intro x g hg hk
  rw [ramView_ram (s := s) hg hk, ramView_ram (s := setLine idx { ln with dirty := false } s) (g := g) hg hk]
  simp only [setLine, lineGet_linePut]
  by_cases hx : lineIndex s.plat x = idx
  · simp only [hx, if_true, hl]
    rfl
  · simp only [if_neg hx]
    rfl

/-- An eviction leaves the line clean and everything a program can see as it was. -/
theorem evictLine_spec {s : State} (hi : StateInv s) {idx : Nat} {ln : CacheLine}
    (hl : lineGet s.cache idx = some ln) :
    ∃ t, evictLine idx ln s = .ok () t ∧ StateInv t ∧ Kept s t ∧ SameRam s t ∧
      lineGet t.cache idx = some { ln with dirty := false } ∧ (¬ DeviceLine s.plat idx ln → Silent s t) := by
  cases hd : ln.dirty with
  | false =>
    refine ⟨s, by simp [evictLine, hd], hi, .refl s, .refl s, ?_, fun _ => .refl s⟩
    rw [hl, ← hd]
  | true =>
    obtain ⟨g, hg⟩ := hi.line hl
    have hb := line_in_segment hi.segments hg.owner hg.cacheable
    have hbase : lineBase (lineAddr s.plat ln.tag idx) = lineAddr s.plat ln.tag idx := by
      have := lineAddr_aligned s.plat ln.tag idx
      simp only [lineBase, Config.lineBytes]; omega
    rw [hbase] at hb
    obtain ⟨t, h1, h2, h3⟩ := flushChunks_spec 8 (lineAddr s.plat ln.tag idx) ln.data s hi.segments hg.owner
      (by have := hg.length; omega) (by omega)
    have hrun : evictLine idx ln s = .ok () (setLine idx { ln with dirty := false } t) := by
      have : Config.lineBytes / Config.lineChunk = 8 := rfl
      simp [evictLine, hd, this, h1]
    have hmid : StateInv t ∧ Kept s t ∧ SameRam s t ∧ t.cache = s.cache ∧
        (g.kind = .device ∨ ln.data = cells t.mem (lineAddr s.plat ln.tag idx) 32) ∧
        (¬ DeviceLine s.plat idx ln → Silent s t) := by
      cases hk : g.kind with
      | device =>
        have hq := h3 hk
        exact ⟨hq.inv hi, hq.kept, hq.ram, hq.cache, .inl rfl, fun hn => absurd ⟨g, hg.owner, hk⟩ hn⟩
      | ram =>
        have ht := h2 hk
        obtain ⟨f1, f2, f3⟩ := flush_ram hi hl hd hg ht
        refine ⟨f1, ?_, f2, by rw [ht], .inr f3.symm, fun _ => ?_⟩
        · rw [ht]
          exact .mem_cache s _ s.cache
        · rw [ht]
          exact .mem s _
    obtain ⟨m1, m2, m3, m4, m5, m6⟩ := hmid
    have hl' : lineGet t.cache idx = some ln := by rw [m4, hl]
    refine ⟨_, hrun, ?_, m2.trans (kept_setLine _ _ _), m3.trans (ramView_setClean hl'), ?_, fun hn => ?_⟩
    · refine inv_setLine m1 (m1.enabled hl') (g := g) ?_
      rw [m2.plat]
      exact ⟨hg.index, hg.length, hg.owner, hg.cacheable, hg.rpriv, hg.wpriv, .inr m5⟩
    · simp [setLine, lineGet_linePut]
    · refine (m6 hn).trans m2.plat (silent_setLine (by rw [m2.plat]; exact hn) fun lo h => ?_)
      rw [hl'] at h
      rw [← Option.some.inj h, m2.plat]
      exact hn

/-- A load over no line, or over a clean one, brings the line in and changes nothing a program can see. -/
theorem loadLine_spec {s : State} (hi : StateInv s) (hen : s.plat.cacheEnabled = true) {a : Nat} {g : Segment}
    (hg : lookup s.plat.segments a = some g) (hc : g.cacheable = true)
    (hold : ∀ ln, lineGet s.cache (lineIndex s.plat a) = some ln → ln.dirty = false) :
    ∃ ln t, loadLine a s = .ok ln t ∧ StateInv t ∧ Kept s t ∧ SameRam s t ∧
      lineGet t.cache (lineIndex s.plat a) = some ln ∧ ln.tag = lineTag s.plat a ∧
      (¬ NearDevice s a → Silent s t) := by
  obtain ⟨hb1, hb2⟩ := line_in_segment hi.segments hg hc
  have hbase := lookup_same hi.segments hg hb1 (by omega)
  obtain ⟨bs, t, h1, h2, h3, h4, h5⟩ := loadChunks_spec 8 (lineBase a) s hi.segments hbase (by omega)
  have hp := h3.kept.plat
  let ln : CacheLine :=
    { tag := lineTag s.plat a, dirty := false, rpriv := g.readNeedsPriv, wpriv := g.writeNeedsPriv, data := bs }
  have hrun : loadLine a s = .ok ln (setLine (lineIndex s.plat a) ln t) := by
    have : Config.lineBytes / Config.lineChunk = 8 := rfl
    simp [loadLine, hbase, this, h1, ln]
  have hok : LineOk s.plat s.mem (lineIndex s.plat a) ln g := by
    refine ⟨lineIndex_lt _ _, h2, ?_, hc, rfl, rfl, ?_⟩
    · simp only [ln, lineAddr_of]; exact hbase
    · cases hk : g.kind with
      | device => exact .inr (.inl rfl)
      | ram => simp only [ln, lineAddr_of]; exact .inr (.inr (h4 hk))
  have hit : StateInv t := h3.inv hi
  refine ⟨ln, _, hrun, ?_, h3.kept.trans (kept_setLine _ _ _), h3.ram.trans ?_, ?_, rfl, fun hn => ?_⟩
  · refine inv_setLine hit (by rw [hp]; exact hen) (g := g) ?_
    rw [hp, h3.mem]; exact hok
  · refine sameRam_of_ram rfl ?_
    intro x g' hg' hk'
    rw [ramView_ram (s := t) hg' hk', ramView_ram (s := setLine (lineIndex s.plat a) ln t) (g := g') hg' hk']
    rw [hp] at hg'
    simp only [setLine, lineGet_linePut, hp, h3.cache, h3.mem]
    by_cases hx : lineIndex s.plat x = lineIndex s.plat a
    · simp only [hx, if_true]
      have hnew : ln.tag = lineTag s.plat x → ln.data.getD (lineOffset x) 0 = memGet s.mem x := by
        intro ht
        have hgx := hok.covers hi.segments hx ht
        rw [hg'] at hgx
        have hgx := Option.some.inj hgx
        subst hgx
        exact hok.clean_byte rfl hk' hx ht
      cases hl : lineGet s.cache (lineIndex s.plat a) with
      | none =>
        by_cases ht : ln.tag = lineTag s.plat x
        · simp only [if_pos ht, hnew ht]
        · simp only [if_neg ht]
      | some lo =>
        obtain ⟨go, ho⟩ := hi.line hl
        have hold' : lo.tag = lineTag s.plat x → lo.data.getD (lineOffset x) 0 = memGet s.mem x := by
          intro ht
          have hgx := ho.covers hi.segments hx ht
          rw [hg'] at hgx
          have hgx := Option.some.inj hgx
          subst hgx
          exact ho.clean_byte (hold lo hl) hk' hx ht
        have e1 : (if ln.tag = lineTag s.plat x then some (ln.data.getD (lineOffset x) 0)
            else some (memGet s.mem x)) = some (memGet s.mem x) := by
          split
          · rename_i ht; rw [hnew ht]
          · rfl
        have e2 : (if lo.tag = lineTag s.plat x then some (lo.data.getD (lineOffset x) 0)
            else some (memGet s.mem x)) = some (memGet s.mem x) := by
          split
          · rename_i ht; rw [hold' ht]
          · rfl
        simp only [e1, e2]
    · simp only [if_neg hx]
  · simp [setLine, lineGet_linePut]
  · obtain ⟨hk, hold'⟩ := ram_of_not_near hg hn
    have ht : throughCache s.plat g = true := by simp [throughCache, hen, hc]
    refine (h5 hk).trans hp (silent_setLine ?_ ?_)
    · rintro ⟨g', h', hk'⟩
      rw [hp] at h'
      simp only [ln, lineAddr_of, hbase] at h'
      rw [← Option.some.inj h', hk] at hk'
      cases hk'
    · rw [h3.cache, hp]
      exact hold' ht

/-- `EnsureLine` cannot fail in a cacheable segment (R86); it brings in the line and changes nothing a program can
see (R84). -/
theorem ensureLine_spec {s : State} (hi : StateInv s) (hen : s.plat.cacheEnabled = true) {a : Nat} {g : Segment}
    (hg : lookup s.plat.segments a = some g) (hc : g.cacheable = true) :
    ∃ ln t, ensureLine a s = .ok ln t ∧ StateInv t ∧ Kept s t ∧ SameRam s t ∧
      lineGet t.cache (lineIndex s.plat a) = some ln ∧ ln.tag = lineTag s.plat a ∧
      LineOk t.plat t.mem (lineIndex s.plat a) ln g ∧ (¬ NearDevice s a → Silent s t) := by
  have main : ∃ ln t, ensureLine a s = .ok ln t ∧ StateInv t ∧ Kept s t ∧ SameRam s t ∧
      lineGet t.cache (lineIndex s.plat a) = some ln ∧ ln.tag = lineTag s.plat a ∧
      (¬ NearDevice s a → Silent s t) := by
    cases hl : lineGet s.cache (lineIndex s.plat a) with
    | none =>
      have := loadLine_spec hi hen hg hc (by simp [hl])
      simpa only [ensureLine, hl] using this
    | some ln =>
      by_cases ht : ln.tag = lineTag s.plat a
      · exact ⟨ln, s, by simp only [ensureLine, hl, if_pos ht], hi, .refl s, .refl s, hl, ht, fun _ => .refl s⟩
      · obtain ⟨t, e1, e2, e3, e4, e5, e6⟩ := evictLine_spec hi hl
        have hp := e3.plat
        obtain ⟨l2, u, f1, f2, f3, f4, f5, f6, f7⟩ := loadLine_spec (s := t) (a := a) e2 (by rw [hp]; exact hen)
          (by rw [hp]; exact hg) hc (by
            intro l h
            rw [hp, e5] at h
            rw [← Option.some.inj h])
        rw [hp] at f5 f6
        refine ⟨l2, u, ?_, f2, e3.trans f3, e4.trans f4, f5, f6, fun hn => ?_⟩
        · simp only [ensureLine, hl, if_neg ht, e1, Res.bind_ok, f1]
        · have hs := e6 ((ram_of_not_near hg hn).2 (by simp [throughCache, hen, hc]) ln hl)
          exact hs.trans hp (f7 fun h => hn (hs.nearDevice hp h))
  obtain ⟨ln, t, h1, h2, h3, h4, h5, h6, h7⟩ := main
  refine ⟨ln, t, h1, h2, h3, h4, h5, h6, ?_, h7⟩
  obtain ⟨g', h'⟩ := h2.line h5
  have hcov := h'.covers h2.segments (x := a) (by rw [h3.plat]) (by rw [h3.plat]; exact h6)
  rw [h3.plat, hg] at hcov
  rw [Option.some.inj hcov]
  exact h'

end Sys2Proof.Machine
end

