-- ==== Sys2Proof/Laws/Access.lean ====
section
/-! SUPPORT. What a read and a write of memory can do, said once (spec/20_memory.md R69, R70, R79 to R84): which
fault, how many bytes, what the view is afterwards, and that registers and the invariant are kept. -/

namespace Sys2Proof.Machine

/-- What a read that is permitted answers: bytes of RAM as the view has them, and nothing else changed. -/
structure ReadDone (s : State) (a n : Nat) (bs : List Byte) (t : State) : Prop where
  inv : StateInv t
  kept : Kept s t
  ram : SameRam s t
  length : bs.length = n
  bytes : ∀ k, k < n → ∀ v, ramView s (a + k) = some v → bs.getD k 0 = v
  silent : NoDevice s [(a, n)] → Silent s t

/-- Memory traffic that leaves RAM as it reads: what a read leaves behind, also a refused one, given where it
reaches. -/
structure Passed (s : State) (r : Reach) (t : State) : Prop where
  inv : StateInv t
  kept : Kept s t
  ram : SameRam s t
  silent : NoDevice s r → Silent s t

/-- What a write leaves, given where it reaches, with the bytes it moved. -/
structure WriteDone (s : State) (r : Reach) (a : Nat) (bs : List Byte) (t : State) : Prop where
  inv : StateInv t
  kept : Kept s t
  ram : ∀ x, ramView t x = putBytes (ramView s) a bs x
  silent : NoDevice s r → Silent s t

/-- A read's result against its plan. -/
def ReadResult (s : State) (a n : Nat) (plan : Nat × Option Fault) (res : Res (List Byte)) : Prop :=
  match plan.2 with
  | none => ∃ bs t, res = .ok bs t ∧ ReadDone s a n bs t
  | some r => ∃ t, res = .raise r t ∧ Passed s [(a, n)] t

/-- A write's result against its plan. -/
def WriteResult (s : State) (a : Nat) (bs : List Byte) (plan : Nat × Option Fault) (res : Res Unit) : Prop :=
  match plan.2 with
  | none => ∃ t, res = .ok () t ∧ WriteDone s [(a, bs.length)] a bs t
  | some r => ∃ t, res = .raise r t ∧ WriteDone s [(a, bs.length)] a (bs.take plan.1) t

theorem putBytes_nil (v : Nat → Option Byte) (a x : Nat) : putBytes v a [] x = v x := by
  unfold putBytes
  rw [if_neg (by simp)]

theorem putBytes_out {v : Nat → Option Byte} {a x : Nat} {bs : List Byte} (h : x < a ∨ a + bs.length ≤ x) :
    putBytes v a bs x = v x := by
  unfold putBytes
  rw [if_neg (by omega)]

theorem putBytes_cons (v : Nat → Option Byte) (a : Nat) (b : Byte) (bs : List Byte) (x : Nat) :
    putBytes v a (b :: bs) x = putBytes (putBytes v a [b]) (a + 1) bs x := by
  unfold putBytes
  simp only [List.length_cons, List.length_nil]
  by_cases hx : x = a
  · subst hx
    rw [if_pos (by omega), if_neg (by omega), if_pos (by omega)]
    simp
  · by_cases h1 : a + 1 ≤ x ∧ x < a + 1 + bs.length
    · rw [if_pos (by omega), if_pos h1, if_neg (by omega)]
      obtain ⟨k, rfl⟩ : ∃ k, x = a + 1 + k := ⟨x - (a + 1), by omega⟩
      rw [show a + 1 + k - a = k + 1 by omega, show a + 1 + k - (a + 1) = k by omega, List.getD_cons_succ]
    · rw [if_neg (by omega), if_neg h1, if_neg (by omega)]

theorem putBytes_congr {v w : Nat → Option Byte} (h : ∀ x, v x = w x) (a : Nat) (bs : List Byte) (x : Nat) :
    putBytes v a bs x = putBytes w a bs x := by
  rw [show v = w from funext h]

theorem Passed.refl {s : State} (hi : StateInv s) (r : Reach) : Passed s r s :=
  ⟨hi, .refl s, .refl s, fun _ => .refl s⟩

theorem WriteDone.none {s : State} (hi : StateInv s) (r : Reach) (a : Nat) (bs : List Byte) :
    WriteDone s r a (bs.take 0) s :=
  ⟨hi, .refl s, fun x => by rw [List.take_zero, putBytes_nil], fun _ => .refl s⟩

/-- What `lookup` says of the address itself. -/
theorem owns_of_lookup {gs : List Segment} {a : Nat} {g : Segment} (h : lookup gs a = some g) :
    g.start ≤ a ∧ a < segLimit g := (lookup_some h).2

/-! ### Routed accesses (spec/20_memory.md R69, R82) -/

theorem ramView_uncached {s : State} {x : Nat} {g : Segment} (hg : lookup s.plat.segments x = some g)
    (hk : g.kind = .ram) (ht : throughCache s.plat g = false) : ramView s x = some (memGet s.mem x) := by
  rw [ramView_ram hg hk, ht]
  rfl

theorem routed_read {s : State} (hi : StateInv s) {a n : Nat} {g : Segment}
    (hg : lookup s.plat.segments a = some g) (ht : throughCache s.plat g = false) (hl : a + n ≤ segLimit g) :
    ReadDone s a n (ctrlRead g a n s).1 (ctrlRead g a n s).2 := by
  have ho := owns_of_lookup hg
  cases hk : g.kind with
  | device =>
    obtain ⟨h1, h2⟩ := ctrlRead_device g hk n a s
    refine ⟨h1.inv hi, h1.kept, h1.ram, h2, ?_, fun hn => absurd ⟨g, hg, .inl hk⟩ (hn a (reaches_self a n))⟩
    intro k hk' v hv
    have := lookup_same hi.segments hg (x := a + k) (by omega) (by omega)
    rw [ramView_none (fun g' h' => by rw [this] at h'; rw [← Option.some.inj h']; exact hk)] at hv
    cases hv
  | ram =>
    rw [ctrlRead_ram g hk]
    refine ⟨hi, .refl s, .refl s, cells_length _ _ _, ?_, fun _ => .refl s⟩
    intro k hk' v hv
    have := lookup_same hi.segments hg (x := a + k) (by omega) (by omega)
    rw [ramView_uncached this hk ht] at hv
    rw [cells_getD _ _ _ _ hk']
    exact Option.some.inj hv

theorem routed_write {s : State} (hi : StateInv s) {a : Nat} {bs : List Byte} {g : Segment}
    (hg : lookup s.plat.segments a = some g) (ht : throughCache s.plat g = false)
    (hl : a + bs.length ≤ segLimit g) : WriteDone s [(a, bs.length)] a bs (ctrlWrite g a bs s) := by
  have ho := owns_of_lookup hg
  have hown : ∀ x, a ≤ x ∧ x < a + bs.length → lookup s.plat.segments x = some g := fun x hx =>
    lookup_same hi.segments hg (by omega) (by omega)
  cases hk : g.kind with
  | device =>
    have hq := ctrlWrite_device g hk bs a s
    refine ⟨hq.inv hi, hq.kept, ?_, fun hn => absurd ⟨g, hg, .inl hk⟩ (hn a (reaches_self _ _))⟩
    intro x
    rw [hq.ram x]
    unfold putBytes
    split
    · rename_i hx
      rw [ramView_none (fun g' h' => by rw [hown x hx] at h'; rw [← Option.some.inj h']; exact hk)]
      rfl
    · rfl
  | ram =>
    rw [ctrlWrite_ram g hk]
    have hcell := fun x => memGet_memPutAll bs s.mem a x hi.memWf
    refine ⟨?_, .mem_cache s _ s.cache, ?_, fun _ => .mem s _⟩
    · refine (inv_iff _).2 ⟨hi.segments, memPutAll_wf _ _ _ hi.memWf, hi.rising, ?_, hi.off⟩
      intro i ln h
      obtain ⟨g', h'⟩ := hi.line h
      refine ⟨g', h'.index, h'.length, h'.owner, h'.cacheable, h'.rpriv, h'.wpriv, ?_⟩
      rcases h'.clean with hc | hc | hc
      · exact .inl hc
      · exact .inr (.inl hc)
      · refine .inr (.inr ?_)
        rw [hc]
        apply List.map_congr_left
        intro k hk'
        simp only [List.mem_range] at hk'
        rw [hcell, if_neg]
        intro hx
        obtain ⟨e1, e2⟩ := index_tag_of_lineAddr s.plat (tag := ln.tag) (k := k) h'.index hk'
        have h1 := h'.covers hi.segments e1 e2.symm
        rw [hown _ hx] at h1
        have h1 := Option.some.inj h1
        subst h1
        simp [throughCache, hi.enabled h, h'.cacheable] at ht
    · intro x
      by_cases hram : ∃ g', lookup s.plat.segments x = some g' ∧ g'.kind = .ram
      · obtain ⟨g', hg', hk'⟩ := hram
        rw [ramView_ram (s := { s with mem := memPutAll s.mem a bs }) (g := g') hg' hk']
        simp only [hcell]
        unfold putBytes
        by_cases hx : a ≤ x ∧ x < a + bs.length
        · have h1 := hown x hx
          rw [hg'] at h1
          have h1 := Option.some.inj h1
          subst h1
          simp only [ht, if_pos hx, ramView_uncached hg' hk' ht, Bool.false_eq_true, if_false, Option.map_some]
        · rw [if_neg hx, ramView_ram (s := s) hg' hk']
          simp only [if_neg hx]
      · have hall : ∀ g', lookup s.plat.segments x = some g' → g'.kind = .device := by
          intro g' h'
          cases hkk : g'.kind with
          | device => rfl
          | ram => exact absurd ⟨g', h', hkk⟩ hram
        rw [ramView_none (s := { s with mem := memPutAll s.mem a bs }) hall]
        unfold putBytes
        rw [ramView_none (s := s) hall]
        simp

/-! ### Cached accesses inside one line (spec/20_memory.md R79, R80) -/

theorem lineIndex_in {pl : Platform} {a k : Nat} (h : lineOffset a + k < 32) :
    lineIndex pl (a + k) = lineIndex pl a ∧ lineTag pl (a + k) = lineTag pl a ∧
      lineOffset (a + k) = lineOffset a + k := by
  have h1 : (a + k) / Config.lineBytes = a / Config.lineBytes := by
    simp only [lineOffset, Config.lineBytes] at *; omega
  refine ⟨by simp only [lineIndex, h1], by simp only [lineTag, h1], ?_⟩
  simp only [lineOffset, Config.lineBytes] at *; omega

/-- An address with the index and the tag of another lies in its line. -/
theorem same_line {pl : Platform} {a x : Nat} (h1 : lineIndex pl x = lineIndex pl a)
    (h2 : lineTag pl x = lineTag pl a) : x + lineOffset a = a + lineOffset x := by
  have h3 := lineBase_eq h1 h2
  have h4 := lineBase_add_offset a
  have h5 := lineBase_add_offset x
  omega

theorem cached_read {s t : State} (ht : StateInv t) (hkt : Kept s t) (hv : SameRam s t) {a n : Nat}
    {g : Segment} {ln : CacheLine} (hen : throughCache s.plat g = true)
    (hl : lineGet t.cache (lineIndex s.plat a) = some ln) (htag : ln.tag = lineTag s.plat a)
    (hok : LineOk t.plat t.mem (lineIndex s.plat a) ln g) (hs : ¬ NearDevice s a → Silent s t)
    (hn : lineOffset a + n ≤ 32) :
    ReadDone s a n ((ln.data.drop (lineOffset a)).take n) t := by
  refine ⟨ht, hkt, hv, ?_, ?_, fun h => hs (h a (reaches_self a n))⟩
  · have := hok.length
    simp; omega
  · intro k hk v hvk
    obtain ⟨e1, e2, e3⟩ := lineIndex_in (pl := s.plat) (a := a) (k := k) (by omega)
    have hcov := hok.covers ht.segments (x := a + k) (by rw [hkt.plat, e1]) (by rw [hkt.plat, e2, htag])
    rw [← hv (a + k)] at hvk
    cases hkd : g.kind with
    | device =>
      rw [ramView_none (fun g' h' => by rw [hcov] at h'; rw [← Option.some.inj h']; exact hkd)] at hvk
      cases hvk
    | ram =>
      rw [ramView_ram hcov hkd, hkt.plat, hen, if_pos rfl, e1, hl] at hvk
      simp only [e2, htag, if_true, e3, Option.some.injEq] at hvk
      rw [← hvk]
      simp only [List.getD_eq_getElem?_getD, List.getElem?_take_of_lt hk, List.getElem?_drop]

theorem cached_write {s t : State} (ht : StateInv t) (hkt : Kept s t) (hv : SameRam s t) {a : Nat}
    {bs : List Byte} {g : Segment} {ln : CacheLine} (hen : throughCache s.plat g = true)
    (hl : lineGet t.cache (lineIndex s.plat a) = some ln) (htag : ln.tag = lineTag s.plat a)
    (hok : LineOk t.plat t.mem (lineIndex s.plat a) ln g) (hg : lookup s.plat.segments a = some g)
    (hs : ¬ NearDevice s a → Silent s t) (hn : lineOffset a + bs.length ≤ 32) :
    WriteDone s [(a, bs.length)] a bs (setLine (lineIndex s.plat a)
      { ln with dirty := true, data := overwrite ln.data (lineOffset a) bs } t) := by
  have hlen := hok.length
  have hov := overwrite_getD (data := ln.data) (off := lineOffset a) (bs := bs) (by omega)
  refine ⟨?_, hkt.trans (kept_setLine _ _ _), ?_, fun hnd => ?_⟩
  · refine inv_setLine ht (ht.enabled hl) (g := g) ?_
    refine ⟨hok.index, ?_, hok.owner, hok.cacheable, hok.rpriv, hok.wpriv, .inl rfl⟩
    rw [← hlen]
    exact overwrite_length (by omega)
  · intro x
    by_cases hram : ∃ g', lookup s.plat.segments x = some g' ∧ g'.kind = .ram
    · obtain ⟨g', hg', hk'⟩ := hram
      have hg2 : lookup t.plat.segments x = some g' := by rw [hkt.plat]; exact hg'
      rw [ramView_ram (s := setLine (lineIndex s.plat a) _ t) (g := g') hg2 hk']
      simp only [setLine, lineGet_linePut, hkt.plat]
      by_cases hx : lineIndex s.plat x = lineIndex s.plat a ∧ lineTag s.plat x = lineTag s.plat a
      · have hcov := hok.covers ht.segments (x := x) (by rw [hkt.plat]; exact hx.1)
          (by rw [hkt.plat, htag]; exact hx.2.symm)
        rw [hg2] at hcov
        have hcov := Option.some.inj hcov
        subst hcov
        have hsl := same_line hx.1 hx.2
        have h1 := lineOffset_lt x
        have hold : ramView s x = some (ln.data.getD (lineOffset x) 0) := by
          rw [← hv x, ramView_ram hg2 hk', hkt.plat, hen, if_pos rfl, hx.1, hl]
          simp only [hx.2, htag, if_true]
        simp only [hen, hx.1, hx.2, htag, if_true, hov]
        unfold putBytes
        by_cases hin : a ≤ x ∧ x < a + bs.length
        · rw [if_pos hin, if_pos (by omega), hold]
          simp only [Option.map_some]
          congr 2
          omega
        · rw [if_neg hin, if_neg (by omega), hold]
      · have hout : putBytes (ramView s) a bs x = ramView s x := by
          unfold putBytes
          rw [if_neg]
          rintro ⟨h2, h3⟩
          obtain ⟨e1, e2, _⟩ := lineIndex_in (pl := s.plat) (a := a) (k := x - a) (by omega)
          rw [show a + (x - a) = x by omega] at e1 e2
          exact hx ⟨e1, e2⟩
        rw [hout, ← hv x, ramView_ram (s := t) hg2 hk', hkt.plat]
        by_cases hxi : lineIndex s.plat x = lineIndex s.plat a
        · have hxt : ¬ lineTag s.plat a = lineTag s.plat x := fun h => hx ⟨hxi, h.symm⟩
          simp only [hxi, hl, if_true, htag, if_neg hxt]
        · simp only [if_neg hxi]
    · have hall : ∀ g', lookup s.plat.segments x = some g' → g'.kind = .device := by
        intro g' h'
        cases hkk : g'.kind with
        | device => rfl
        | ram => exact absurd ⟨g', h', hkk⟩ hram
      rw [ramView_none (s := setLine (lineIndex s.plat a) _ t) (by simp only [setLine]; rw [hkt.plat]; exact hall)]
      unfold putBytes
      rw [ramView_none (s := s) hall]
      simp
  · have hna := hnd a (reaches_self _ _)
    have hno : ¬ DeviceLine t.plat (lineIndex s.plat a) ln := by
      rintro ⟨g', h1, h2⟩
      rw [hok.owner] at h1
      rw [← Option.some.inj h1, (ram_of_not_near hg hna).1] at h2
      cases h2
    refine (hs hna).trans hkt.plat (silent_setLine hno fun lo h => ?_)
    rw [hl] at h
    rw [← Option.some.inj h]
    exact hno

/-! ### One access (spec/20_memory.md R69, R80) -/

/-- A cached access inside one line stays inside its segment. -/
theorem in_line_in_segment {s : State} (hi : StateInv s) {a n : Nat} {g : Segment}
    (hg : lookup s.plat.segments a = some g) (ht : throughCache s.plat g = true)
    (hs : splits s.plat g a n = false) : lineOffset a + n ≤ 32 ∧ a + n ≤ segLimit g := by
  have hc : g.cacheable = true := by simp only [throughCache, Bool.and_eq_true] at ht; exact ht.2
  obtain ⟨h1, h2⟩ := line_in_segment hi.segments hg hc
  have h3 := lineBase_add_offset a
  have h4 : lineOffset a + n ≤ 32 := by
    simp only [splits, ht, Bool.true_and, decide_eq_false_iff_not, Config.lineBytes] at hs
    omega
  omega

theorem accessRead_spec {s : State} (hi : StateInv s) {a n : Nat} {p : Bool}
    (hs : ∀ g, lookup s.plat.segments a = some g → splits s.plat g a n = false) :
    ReadResult s a n (accessPlan false s.plat a n p) (accessRead a n p s) := by
  unfold accessPlan accessRead ReadResult
  cases hg : lookup s.plat.segments a with
  | none => exact ⟨s, rfl, .refl hi _⟩
  | some g =>
    have hns := hs g hg
    simp only [hns, Bool.false_eq_true, if_false, needsPriv]
    cases ht : throughCache s.plat g with
    | true =>
      obtain ⟨h1, h2⟩ := in_line_in_segment hi hg ht hns
      have htc : s.plat.cacheEnabled = true ∧ g.cacheable = true := by
        simpa only [throughCache, Bool.and_eq_true] using ht
      obtain ⟨ln, t, e1, e2, e3, e4, e5, e6, e7, e8⟩ := ensureLine_spec hi htc.1 hg htc.2
      simp only [if_neg (Nat.not_lt.2 h2), e1, Res.bind_ok, e7.rpriv, if_true]
      cases hp : g.readNeedsPriv && !p with
      | true => exact ⟨t, rfl, e2, e3, e4, fun h => e8 (h a (reaches_self a n))⟩
      | false => exact ⟨_, t, rfl, cached_read e2 e3 e4 ht e5 e6 e7 e8 h1⟩
    | false =>
      simp only [Bool.false_eq_true, if_false, routerRead, hg]
      by_cases hl : segLimit g < a + n
      · simp only [if_pos hl]; exact ⟨s, rfl, .refl hi _⟩
      · simp only [if_neg hl]
        cases hp : g.readNeedsPriv && !p with
        | true => exact ⟨s, rfl, .refl hi _⟩
        | false => exact ⟨_, _, rfl, routed_read hi hg ht (by omega)⟩

theorem accessWrite_spec {s : State} (hi : StateInv s) {a : Nat} {bs : List Byte} {p : Bool}
    (hs : ∀ g, lookup s.plat.segments a = some g → splits s.plat g a bs.length = false) :
    WriteResult s a bs (accessPlan true s.plat a bs.length p) (accessWrite a bs p s) := by
  unfold accessPlan accessWrite WriteResult
  cases hg : lookup s.plat.segments a with
  | none => exact ⟨s, rfl, .none hi _ a bs⟩
  | some g =>
    have hns := hs g hg
    simp only [hns, Bool.false_eq_true, if_false, needsPriv, if_true]
    cases ht : throughCache s.plat g with
    | true =>
      obtain ⟨h1, h2⟩ := in_line_in_segment hi hg ht hns
      have htc : s.plat.cacheEnabled = true ∧ g.cacheable = true := by
        simpa only [throughCache, Bool.and_eq_true] using ht
      obtain ⟨ln, t, e1, e2, e3, e4, e5, e6, e7, e8⟩ := ensureLine_spec hi htc.1 hg htc.2
      simp only [if_neg (Nat.not_lt.2 h2), e1, Res.bind_ok, e7.wpriv, if_true]
      cases hp : g.writeNeedsPriv && !p with
      | true =>
        refine ⟨t, rfl, e2, e3, fun x => ?_, fun h => e8 (h a (reaches_self _ _))⟩
        change ramView t x = putBytes (ramView s) a (List.take 0 bs) x
        rw [List.take_zero, putBytes_nil]
        exact e4 x
      | false =>
        refine ⟨_, rfl, ?_⟩
        have := cached_write e2 e3 e4 ht e5 e6 e7 hg e8 h1
        rwa [e7.wpriv] at this
    | false =>
      simp only [Bool.false_eq_true, if_false, routerWrite, hg]
      by_cases hl : segLimit g < a + bs.length
      · simp only [if_pos hl]; exact ⟨s, rfl, .none hi _ a bs⟩
      · simp only [if_neg hl]
        cases hp : g.writeNeedsPriv && !p with
        | true => exact ⟨s, rfl, .none hi _ a bs⟩
        | false => exact ⟨_, rfl, routed_write hi hg ht (by omega)⟩

/-! ### Split accesses (spec/20_memory.md R81) -/

theorem splits_one (pl : Platform) (g : Segment) (a : Nat) : splits pl g a 1 = false := by
  have := lineOffset_lt a
  simp [splits, Config.lineBytes]
  intro _
  omega

/-- A single-byte access is permitted exactly where its segment permits it. -/
theorem plan_one (write : Bool) (pl : Platform) (a : Nat) (p : Bool) :
    accessPlan write pl a 1 p = match byteFault write pl a p with
      | none => (1, none)
      | some r => (0, some r) := by
  unfold accessPlan byteFault
  cases hg : lookup pl.segments a with
  | none => rfl
  | some g =>
    have := owns_of_lookup hg
    simp only [splits_one, Bool.false_eq_true, if_false, if_neg (show ¬ segLimit g < a + 1 by omega)]
    cases needsPriv write g && !p <;> rfl

/-- A run of bytes reaches where its first byte and the rest do. -/
theorem reach_split {s : State} {a n : Nat} (h : NoDevice s [(a, n + 1)]) :
    NoDevice s [(a, 1)] ∧ (0 < n → NoDevice s [(a + 1, n)]) := by
  refine ⟨h.mono fun x hx => ?_, fun hn => h.mono fun x hx => ?_⟩
  · rw [reaches_one] at hx ⊢
    omega
  · rw [reaches_one] at hx ⊢
    omega

theorem splitRead_spec (n : Nat) : ∀ {s : State} (_ : StateInv s) (a : Nat) (p : Bool),
    ReadResult s a n (runPlan false s.plat p a n) (splitRead a n p s) := by
  induction n with
  | zero => intro s hi a p; exact ⟨[], s, rfl, hi, .refl s, .refl s, rfl, by simp, fun _ => .refl s⟩
  | succ n ih =>
    intro s hi a p
    have h1 := accessRead_spec hi (a := a) (n := 1) (p := p) (fun g _ => splits_one _ _ _)
    rw [plan_one] at h1
    unfold ReadResult at h1 ⊢
    simp only [runPlan, splitRead]
    cases hb : byteFault false s.plat a p with
    | some r =>
      rw [hb] at h1
      obtain ⟨t, e1, e2⟩ := h1
      simp only [e1, Res.bind_raise]
      exact ⟨t, rfl, e2.inv, e2.kept, e2.ram, fun h => e2.silent (reach_split h).1⟩
    | none =>
      rw [hb] at h1
      obtain ⟨bs, t, e1, e2⟩ := h1
      have h2 := ih e2.inv (a + 1) p
      rw [e2.kept.plat] at h2
      unfold ReadResult at h2
      simp only [e1, Res.bind_ok]
      cases hr : (runPlan false s.plat p (a + 1) n).2 with
      | some r =>
        rw [hr] at h2
        obtain ⟨u, f1, f2⟩ := h2
        simp only [f1, Res.bind_raise]
        refine ⟨u, rfl, f2.inv, e2.kept.trans f2.kept, e2.ram.trans f2.ram, fun h => ?_⟩
        obtain ⟨r1, r2⟩ := reach_split h
        rcases Nat.eq_zero_or_pos n with rfl | hn
        · simp [runPlan] at hr
        · exact (e2.silent r1).trans e2.kept.plat (f2.silent ((e2.silent r1).noDevice e2.kept.plat (r2 hn)))
      | none =>
        rw [hr] at h2
        obtain ⟨cs, u, f1, f2⟩ := h2
        simp only [f1, Res.bind_ok]
        obtain ⟨b, rfl⟩ := List.length_eq_one_iff.1 e2.length
        refine ⟨_, u, rfl, f2.inv, e2.kept.trans f2.kept, e2.ram.trans f2.ram, ?_, ?_, fun h => ?_⟩
        · simp [f2.length]
        · intro k hk v hv
          rcases k with _ | k
          · simpa using e2.bytes 0 (by omega) v hv
          · have := f2.bytes k (by omega) v (by
              rw [e2.ram, show a + 1 + k = a + (k + 1) by omega]; exact hv)
            simpa using this
        · obtain ⟨r1, r2⟩ := reach_split h
          rcases Nat.eq_zero_or_pos n with rfl | hn
          · simp only [splitRead, Res.ok.injEq] at f1
            rw [← f1.2]
            exact e2.silent r1
          · exact (e2.silent r1).trans e2.kept.plat (f2.silent ((e2.silent r1).noDevice e2.kept.plat (r2 hn)))

theorem splitWrite_spec (bs : List Byte) : ∀ {s : State} (_ : StateInv s) (a : Nat) (p : Bool),
    WriteResult s a bs (runPlan true s.plat p a bs.length) (splitWrite a bs p s) := by
  induction bs with
  | nil => intro s hi a p; exact ⟨s, rfl, hi, .refl s, fun x => by rw [putBytes_nil], fun _ => .refl s⟩
  | cons b bs ih =>
    intro s hi a p
    have h1 := accessWrite_spec hi (a := a) (bs := [b]) (p := p) (fun g _ => splits_one _ _ _)
    simp only [List.length_cons, List.length_nil, Nat.zero_add] at h1
    rw [plan_one] at h1
    unfold WriteResult at h1 ⊢
    simp only [List.length_cons, runPlan, splitWrite]
    cases hb : byteFault true s.plat a p with
    | some r =>
      rw [hb] at h1
      obtain ⟨t, e1, e2⟩ := h1
      simp only [e1, Res.bind_raise]
      exact ⟨t, rfl, e2.inv, e2.kept, e2.ram, fun h => e2.silent (reach_split h).1⟩
    | none =>
      rw [hb] at h1
      obtain ⟨t, e1, e2⟩ := h1
      have h2 := ih e2.inv (a + 1) p
      rw [e2.kept.plat] at h2
      unfold WriteResult at h2
      simp only [e1, Res.bind_ok]
      cases hr : (runPlan true s.plat p (a + 1) bs.length).2 with
      | some r =>
        rw [hr] at h2
        obtain ⟨u, f1, f2⟩ := h2
        simp only [f1]
        have hsil : NoDevice s [(a, bs.length + 1)] → Silent s u := fun h => by
          obtain ⟨r1, r2⟩ := reach_split h
          rcases Nat.eq_zero_or_pos bs.length with hz | hn
          · rw [List.length_eq_zero_iff.1 hz] at f1
            simp only [splitWrite, reduceCtorEq] at f1
          · exact (e2.silent r1).trans e2.kept.plat (f2.silent ((e2.silent r1).noDevice e2.kept.plat (r2 hn)))
        refine ⟨u, rfl, f2.inv, e2.kept.trans f2.kept, fun x => ?_, hsil⟩
        rw [f2.ram x, putBytes_congr e2.ram, List.take_succ_cons, ← putBytes_cons]
      | none =>
        rw [hr] at h2
        obtain ⟨u, f1, f2⟩ := h2
        simp only [f1]
        have hsil : NoDevice s [(a, bs.length + 1)] → Silent s u := fun h => by
          obtain ⟨r1, r2⟩ := reach_split h
          rcases Nat.eq_zero_or_pos bs.length with hz | hn
          · rw [List.length_eq_zero_iff.1 hz] at f1
            simp only [splitWrite, Res.ok.injEq, true_and] at f1
            rw [← f1]
            exact e2.silent r1
          · exact (e2.silent r1).trans e2.kept.plat (f2.silent ((e2.silent r1).noDevice e2.kept.plat (r2 hn)))
        refine ⟨u, rfl, f2.inv, e2.kept.trans f2.kept, fun x => ?_, hsil⟩
        rw [f2.ram x, putBytes_congr e2.ram, ← putBytes_cons]

/-! ### Every access -/

/-- What a read of memory can do, in every state of the invariant. -/
theorem memReadP_spec {s : State} (hi : StateInv s) (a n : Nat) (p : Bool) :
    ReadResult s a n (accessPlan false s.plat a n p) (memReadP a n p s) := by
  cases hg : lookup s.plat.segments a with
  | none =>
    unfold accessPlan memReadP ReadResult
    rw [hg]
    exact ⟨s, rfl, .refl hi _⟩
  | some g =>
    cases hs : splits s.plat g a n with
    | true =>
      have h := splitRead_spec n hi a p
      simpa only [accessPlan, memReadP, hg, hs, if_true] using h
    | false =>
      have h := accessRead_spec hi (a := a) (n := n) (p := p) (fun g' h' => by
        rw [hg] at h'; rw [← Option.some.inj h']; exact hs)
      simpa only [memReadP, hg, hs, Bool.false_eq_true, if_false] using h

/-- What a write of memory can do, in every state of the invariant. -/
theorem memWriteP_spec {s : State} (hi : StateInv s) (a : Nat) (bs : List Byte) (p : Bool) :
    WriteResult s a bs (accessPlan true s.plat a bs.length p) (memWriteP a bs p s) := by
  cases hg : lookup s.plat.segments a with
  | none =>
    unfold accessPlan memWriteP WriteResult
    rw [hg]
    exact ⟨s, rfl, .none hi _ a bs⟩
  | some g =>
    cases hs : splits s.plat g a bs.length with
    | true =>
      have h := splitWrite_spec bs hi a p
      simpa only [accessPlan, memWriteP, hg, hs, if_true] using h
    | false =>
      have h := accessWrite_spec hi (a := a) (bs := bs) (p := p) (fun g' h' => by
        rw [hg] at h'; rw [← Option.some.inj h']; exact hs)
      simpa only [memWriteP, hg, hs, Bool.false_eq_true, if_false] using h

end Sys2Proof.Machine
end

