-- ==== Sys2Proof/Laws/Operands.lean ====
section
/-! SUPPORT. What reading, writing and committing an operand can do, and what each instruction shape can do,
said once over the laws of memory accesses (spec/30_encoding.md R122, R124, R150). -/

namespace Sys2Proof.Machine

/-! ### Passing from one state to the next -/

theorem Passed.trans {s t u : State} {r1 r2 : Reach} (h1 : Passed s r1 t) (h2 : Passed t r2 u) :
    Passed s (r1 ++ r2) u :=
  ⟨h2.inv, h1.kept.trans h2.kept, h1.ram.trans h2.ram, fun h =>
    have hs := h1.silent h.append.1
    hs.trans h1.kept.plat (h2.silent (hs.noDevice h1.kept.plat h.append.2))⟩

theorem Passed.mono {s t : State} {r1 r2 : Reach} (h : Passed s r1 t) (hr : ∀ x, Reaches r1 x → Reaches r2 x) :
    Passed s r2 t := ⟨h.inv, h.kept, h.ram, fun hn => h.silent (hn.mono hr)⟩

theorem ReadDone.passed {s t : State} {a n : Nat} {bs : List Byte} (h : ReadDone s a n bs t) :
    Passed s [(a, n)] t := ⟨h.inv, h.kept, h.ram, h.silent⟩

/-- The view of RAM, as a function, is what it was. -/
theorem Passed.ram_eq {s t : State} {r : Reach} (h : Passed s r t) : ramView t = ramView s := funext h.ram

theorem StateInv.with_ip {s : State} (h : StateInv s) (x : Word) : StateInv { s with ip := x } := h.congr rfl rfl rfl

/-! ### Values of a width (spec/20_memory.md R66) -/

theorem Width.bits_eq (w : Width) : w.bits = 8 * w.bytes := by cases w <;> rfl

theorem leNat_lt (bs : List Byte) : leNat bs < 2 ^ (8 * bs.length) := by
  induction bs with
  | nil => simp [leNat]
  | cons b bs ih =>
    have := b.isLt
    rw [leNat, List.length_cons, show 8 * (bs.length + 1) = 8 * bs.length + 8 by ring, pow_add]
    omega

theorem leBytes_length (n v : Nat) : (leBytes n v).length = n := by
  induction n generalizing v with
  | zero => rfl
  | succ n ih => simp [leBytes, ih]

/-- Bytes that agree with a view make its number. -/
theorem leNat_of_view {v : Nat → Option Byte} : ∀ (bs : List Byte) (a m : Nat),
    (∀ k, k < bs.length → ∀ b, v (a + k) = some b → bs.getD k 0 = b) → viewNum v a bs.length = some m →
    leNat bs = m := by
  intro bs
  induction bs with
  | nil => intro a m _ h; simpa [viewNum, leNat] using h
  | cons b bs ih =>
    intro a m hb hm
    simp only [List.length_cons, viewNum] at hm
    cases hva : v a with
    | none => simp [hva] at hm
    | some c =>
      cases hvr : viewNum v (a + 1) bs.length with
      | none => simp [hva, hvr] at hm
      | some r =>
        simp only [hva, hvr, Option.some.injEq] at hm
        have h1 : b = c := by simpa using hb 0 (by simp) c (by simpa using hva)
        have h2 : leNat bs = r := by
          refine ih (a + 1) r ?_ hvr
          intro k hk d hd
          have := hb (k + 1) (by simp; omega) d (by rw [← hd]; congr 1; omega)
          simpa using this
        rw [leNat, h1, h2, hm]

theorem memRead_ok {s : State} (hi : StateInv s) (w : Width) (a : Word) (p : Bool)
    (h : (accessPlan false s.plat a.toNat w.bytes p).2 = none) :
    ∃ v t, memRead w a p s = .ok v t ∧ Passed s [(a.toNat, w.bytes)] t ∧
      ∀ m, viewNum (ramView s) a.toNat w.bytes = some m → v.toNat = m := by
  have := memReadP_spec hi a.toNat w.bytes p
  unfold ReadResult at this
  rw [h] at this
  obtain ⟨bs, t, h1, h2⟩ := this
  refine ⟨BitVec.ofNat w.bits (leNat bs), t, by simp [memRead, h1], h2.passed, ?_⟩
  intro m hm
  have h3 : leNat bs = m := leNat_of_view bs a.toNat m (by rw [h2.length]; exact h2.bytes)
    (by rw [h2.length]; exact hm)
  have h4 := leNat_lt bs
  rw [h2.length, ← Width.bits_eq] at h4
  rw [BitVec.toNat_ofNat, Nat.mod_eq_of_lt h4, h3]

theorem memRead_fault {s : State} (hi : StateInv s) (w : Width) (a : Word) (p : Bool) {r : Fault}
    (h : (accessPlan false s.plat a.toNat w.bytes p).2 = some r) :
    ∃ t, memRead w a p s = .raise r t ∧ Passed s [(a.toNat, w.bytes)] t := by
  have := memReadP_spec hi a.toNat w.bytes p
  unfold ReadResult at this
  rw [h] at this
  obtain ⟨t, h1, h2⟩ := this
  exact ⟨t, by simp [memRead, h1], h2⟩

theorem memWrite_ok {s : State} (hi : StateInv s) (w : Width) (a : Word) (v : BitVec w.bits) (p : Bool)
    (h : (accessPlan true s.plat a.toNat w.bytes p).2 = none) :
    ∃ t, memWrite w a v p s = .ok () t ∧
      WriteDone s [(a.toNat, w.bytes)] a.toNat (leBytes w.bytes v.toNat) t := by
  have := memWriteP_spec hi a.toNat (leBytes w.bytes v.toNat) p
  unfold WriteResult at this
  rw [leBytes_length, h] at this
  exact this

theorem memWrite_fault {s : State} (hi : StateInv s) (w : Width) (a : Word) (v : BitVec w.bits) (p : Bool)
    {r : Fault} (h : (accessPlan true s.plat a.toNat w.bytes p).2 = some r) :
    ∃ t, memWrite w a v p s = .raise r t ∧
      WriteDone s [(a.toNat, w.bytes)] a.toNat
        ((leBytes w.bytes v.toNat).take (accessPlan true s.plat a.toNat w.bytes p).1) t := by
  have := memWriteP_spec hi a.toNat (leBytes w.bytes v.toNat) p
  unfold WriteResult at this
  rw [leBytes_length, h] at this
  exact this

/-! ### Locations -/

theorem locPlan_congr {s t : State} (hp : t.plat = s.plat) (hv : t.pv = s.pv) (write : Bool) {w : Width}
    (l : Loc w) : locPlan write t l = locPlan write s l := by
  cases l with
  | reg n => rfl
  | imm v => rfl
  | mem a => simp only [locPlan, hp, hv]

theorem readable_congr {s t : State} {w : Width} {l : Loc w} (hp : t.plat = s.plat) (hv : t.pv = s.pv)
    (h : Readable s l) : Readable t l := by
  unfold Readable at *
  rw [locPlan_congr hp hv]
  exact h

theorem writable_congr {s t : State} {w : Width} {l : Loc w} (hp : t.plat = s.plat) (hv : t.pv = s.pv)
    (h : Writable s l) : Writable t l := by
  unfold Writable at *
  rw [locPlan_congr hp hv]
  exact h

theorem Kept.readReg {s t : State} (h : Kept s t) (w : Width) (n : Fin w.regs) :
    readReg w n t = readReg w n s := by
  have ha : t.rA = s.rA := congrArg Regs.a h.regs
  have hb : t.rB = s.rB := congrArg Regs.b h.regs
  have hc : t.rC = s.rC := congrArg Regs.c h.regs
  have hd : t.rD = s.rD := congrArg Regs.d h.regs
  have hi : t.rI = s.rI := congrArg Regs.i h.regs
  have hj : t.rJ = s.rJ := congrArg Regs.j h.regs
  have hk : t.rK = s.rK := congrArg Regs.k h.regs
  have hl : t.rL = s.rL := congrArg Regs.l h.regs
  cases w <;> simp only [Machine.readReg, reg8, reg16, reg32, ha, hb, hc, hd, hi, hj, hk, hl, h.sp, h.bp]

theorem valueOf_congr {s t : State} {r : Reach} (h : Passed s r t) {w : Width} {l : Loc w} {v : BitVec w.bits}
    (hv : ValueOf t l v) : ValueOf s l v := by
  cases l with
  | reg n => exact hv.trans (h.kept.readReg w n)
  | imm c => exact hv
  | mem a => unfold ValueOf at *; rw [h.ram_eq] at hv; exact hv

/-- A readable location is read: the value is its own, and RAM reads as before. -/
theorem readLoc_ok {s : State} (hi : StateInv s) {w : Width} (l : Loc w) (h : Readable s l) :
    ∃ v t, readLoc l s = .ok v t ∧ Passed s (locReach l) t ∧ ValueOf s l v := by
  cases l with
  | reg n => exact ⟨_, s, rfl, .refl hi _, rfl⟩
  | imm c => exact ⟨c, s, rfl, .refl hi _, rfl⟩
  | mem a => exact memRead_ok hi w a s.pv h

/-- A location that cannot be read raises its access's fault. -/
theorem readLoc_fault {s : State} (hi : StateInv s) {w : Width} {l : Loc w} {r : Fault} (h : ReadFaults s l r) :
    ∃ t, readLoc l s = .raise r t ∧ Passed s (locReach l) t := by
  cases l with
  | reg n => cases h
  | imm c => cases h
  | mem a => exact memRead_fault hi w a s.pv h

/-! ### Registers written through a location -/

theorem regsOf_writeReg_congr {s t : State} (h : regsOf t = regsOf s) (w : Width) (n : Fin w.regs)
    (v : BitVec w.bits) : regsOf (writeReg w n v t) = regsOf (writeReg w n v s) := by
  have ha : t.rA = s.rA := congrArg Regs.a h
  have hb : t.rB = s.rB := congrArg Regs.b h
  have hc : t.rC = s.rC := congrArg Regs.c h
  have hd : t.rD = s.rD := congrArg Regs.d h
  have hi : t.rI = s.rI := congrArg Regs.i h
  have hj : t.rJ = s.rJ := congrArg Regs.j h
  have hk : t.rK = s.rK := congrArg Regs.k h
  have hl : t.rL = s.rL := congrArg Regs.l h
  have h1 : t.ip = s.ip := congrArg Regs.ip h
  have h2 : t.sp = s.sp := congrArg Regs.sp h
  have h3 : t.bp = s.bp := congrArg Regs.bp h
  have h4 : t.isp = s.isp := congrArg Regs.isp h
  have h5 : t.f = s.f := congrArg Regs.f h
  have h6 : t.ie = s.ie := congrArg Regs.ie h
  have h7 : t.pv = s.pv := congrArg Regs.pv h
  have h8 : t.ii = s.ii := congrArg Regs.ii h
  cases w <;> fin_cases n <;>
    simp only [writeReg, setReg8, setReg16, setReg32, regsOf, ha, hb, hc, hd, hi, hj, hk, hl, h1, h2, h3, h4, h5,
      h6, h7, h8]

theorem regsOf_writeReg_ip (s : State) (x : Word) (w : Width) (n : Fin w.regs) (v : BitVec w.bits) :
    regsOf (writeReg w n v { s with ip := x }) = { regsOf (writeReg w n v s) with ip := x } := by
  cases w <;> fin_cases n <;> rfl

/-- Two states differ in registers alone. -/
structure SameButRegs (t u : State) : Prop where
  mem : u.mem = t.mem
  cache : u.cache = t.cache
  plat : u.plat = t.plat
  win : u.win = t.win
  winBase : u.winBase = t.winBase
  winValid : u.winValid = t.winValid
  devLog : u.devLog = t.devLog
  devCount : u.devCount = t.devCount
  halted : u.halted = t.halted
  pend : u.pend = t.pend
  pendVec : u.pendVec = t.pendVec

theorem writeReg_same (s : State) (w : Width) (n : Fin w.regs) (v : BitVec w.bits) :
    SameButRegs s (writeReg w n v s) := by
  cases w <;> fin_cases n <;> exact ⟨rfl, rfl, rfl, rfl, rfl, rfl, rfl, rfl, rfl, rfl, rfl⟩

theorem writeReg_f_ip (s : State) (w : Width) (n : Fin w.regs) (v : BitVec w.bits) :
    (writeReg w n v s).f = s.f ∧ (writeReg w n v s).ip = s.ip := by
  cases w <;> fin_cases n <;> exact ⟨rfl, rfl⟩

/-! ### What an action leaves -/

theorem WriteDone.leaves {s : State} {r : Reach} {a : Nat} {bs : List Byte} {t : State} (h : WriteDone s r a bs t) :
    Leaves s (regsOf s) r a bs t := ⟨fun _ => h.inv, h.kept.regs, h.kept.rest, h.ram, h.silent⟩

theorem Passed.leaves {s t : State} {r : Reach} (h : Passed s r t) : Leaves s (regsOf s) r 0 [] t :=
  ⟨fun _ => h.inv, h.kept.regs, h.kept.rest, fun x => by rw [putBytes_nil]; exact h.ram x, h.silent⟩

theorem Leaves.refl (s : State) (r : Reach) : Leaves s (regsOf s) r 0 [] s :=
  ⟨id, rfl, .refl s, fun x => by rw [putBytes_nil], fun _ => .refl s⟩

theorem Leaves.mono {s t : State} {r : Regs} {r1 r2 : Reach} {a : Nat} {bs : List Byte} (h : Leaves s r r1 a bs t)
    (hr : ∀ x, Reaches r1 x → Reaches r2 x) : Leaves s r r2 a bs t :=
  ⟨h.inv, h.regs, h.rest, h.ram, fun hn => h.silent (hn.mono hr)⟩

/-- Registers written at the end of an action. -/
theorem Leaves.set {s t u : State} {r : Regs} {reach : Reach} {a : Nat} {bs : List Byte}
    (h : Leaves s r reach a bs t) (hu : SameButRegs t u) : Leaves s (regsOf u) reach a bs u := by
  refine ⟨fun hi => (h.inv hi).congr hu.mem hu.cache hu.plat, rfl, ⟨hu.win.trans h.rest.win,
    hu.winBase.trans h.rest.winBase, hu.winValid.trans h.rest.winValid, hu.plat.trans h.rest.plat, ?_⟩,
    fun x => ?_, fun hn => (h.silent hn).of_fields hu.devLog hu.devCount hu.halted hu.pend hu.pendVec hu.cache⟩
  · obtain ⟨c, h1, h2⟩ := h.rest.device
    refine ⟨c, hu.devLog.trans h1, fun hc => ?_⟩
    obtain ⟨q1, q2, q3, q4⟩ := h2 hc
    exact ⟨hu.halted.trans q1, hu.pend.trans q2, hu.pendVec.trans q3, hu.devCount.trans q4⟩
  · rw [← h.ram x]
    exact ramView_congr hu.mem hu.cache hu.plat x

/-- Registers alone written. -/
theorem Leaves.of_set {s u : State} (hu : SameButRegs s u) (r : Reach) : Leaves s (regsOf u) r 0 [] u :=
  (Leaves.refl s r).set hu

/-- What an action leaves of a state with IP advanced is left of the state itself. -/
theorem Leaves.of_ip {s t : State} {x : Word} {r : Regs} {reach : Reach} {a : Nat} {bs : List Byte}
    (h : Leaves { s with ip := x } r reach a bs t) : Leaves s r reach a bs t := by
  refine ⟨fun hi => h.inv (hi.with_ip x), h.regs,
    ⟨h.rest.win, h.rest.winBase, h.rest.winValid, h.rest.plat, h.rest.device⟩, h.ram, fun hn => ?_⟩
  have hs := h.silent hn
  exact ⟨hs.devLog, hs.devCount, hs.halted, hs.pend, hs.pendVec, hs.lines⟩

/-- What an action leaves of the state the operands' reads left, IP advanced, is left of the instruction's own first
state. -/
theorem Leaves.after {s s1 : State} {r1 r2 : Reach} (hp : Passed s r1 s1) {next : Word} {r : Regs} {a : Nat}
    {bs : List Byte} {t : State} (h : Leaves { s1 with ip := next } r r2 a bs t) : Leaves s r (r1 ++ r2) a bs t := by
  refine ⟨fun _ => h.inv (hp.inv.with_ip next), h.regs, hp.kept.rest.trans ⟨h.rest.win, h.rest.winBase,
    h.rest.winValid, h.rest.plat, h.rest.device⟩, fun x => ?_, fun hn => ?_⟩
  · rw [h.ram x]
    refine putBytes_congr (fun y => ?_) _ _ _
    rw [← hp.ram y]
    exact ramView_congr (s := s1) (t := { s1 with ip := next }) rfl rfl rfl y
  · have hs : Silent s { s1 with ip := next } := (hp.silent hn.append.1).of_fields rfl rfl rfl rfl rfl rfl
    have hplat : ({ s1 with ip := next } : State).plat = s.plat := hp.kept.plat
    exact hs.trans hplat (h.silent (hs.noDevice hplat hn.append.2))

/-- The registers after a value is written to a location. -/
def locRegs {w : Width} (l : Loc w) (v : BitVec w.bits) (s : State) : Regs :=
  match l with
  | .reg n => regsOf (writeReg w n v s)
  | .imm _ => regsOf s
  | .mem _ => regsOf s

/-- A writable location is written: a register, or the bytes of memory, and nothing else changes. -/
theorem writeLoc_ok {s : State} (hi : StateInv s) {w : Width} (l : Loc w) (v : BitVec w.bits) (h : Writable s l) :
    ∃ t, writeLoc l v s = .ok () t ∧
      Leaves s (locRegs l v s) (locReach l) (storeAddr l) (storeBytes l (moved v)) t := by
  cases l with
  | reg n => exact ⟨_, rfl, Leaves.of_set (writeReg_same s w n v) _⟩
  | imm c => exact ⟨s, rfl, Leaves.refl s _⟩
  | mem a =>
    obtain ⟨t, h1, h2⟩ := memWrite_ok hi w a v s.pv h
    exact ⟨t, h1, h2.leaves⟩

/-- A location that cannot be written raises its access's fault, after the bytes before the faulting one. -/
theorem writeLoc_fault {s : State} (hi : StateInv s) {w : Width} {l : Loc w} (v : BitVec w.bits) {r : Fault}
    (h : WriteFaults s l r) :
    ∃ t, writeLoc l v s = .raise r t ∧ Leaves s (regsOf s) (locReach l) (storeAddr l)
      ((storeBytes l (moved v)).take (locPlan true s l).1) t := by
  cases l with
  | reg n => cases h
  | imm c => cases h
  | mem a =>
    obtain ⟨t, h1, h2⟩ := memWrite_fault hi w a v s.pv h
    exact ⟨t, h1, h2.leaves⟩

/-! ### The ends of an instruction -/

/-- An outcome is a completion: `Completes` of a meaning's own answer. -/
def Ends (o : Out) (s : State) (r : Regs) (reach : Reach) (a : Nat) (bs : List Byte) : Prop :=
  ∃ t, o = .next t ∧ Leaves s r reach a bs t

/-- An outcome is a fault taken: `Traps` of a meaning's own answer. -/
def Raises (o : Out) (s : State) (e : Fault) (reach : Reach) (a : Nat) (bs : List Byte) : Prop :=
  ∃ u, o = .next (takeFault e s.ip u) ∧ Leaves s (regsOf s) reach a bs u

/-- `Commits` of a meaning's own answer. -/
def EndsAt (o : Out) (s : State) (reads : Reach) {w : Width} (dst : Loc w) (out : AluOut w.bits) (r : Regs) : Prop :=
  (out.result.isSome = true → ∀ e, WriteFaults s dst e →
    Raises o s e (reads ++ locReach dst) (storeAddr dst) ((storeBytes dst out).take (locPlan true s dst).1)) ∧
  ((out.result.isSome = true → Writable s dst) →
    Ends o s r (reads ++ if out.result.isSome then locReach dst else []) (storeAddr dst) (storeBytes dst out))

theorem completes_iff (i : Instr) (s : State) (r : Regs) (reach : Reach) (a : Nat) (bs : List Byte) :
    Completes i s r reach a bs ↔ Ends (exec i s) s r reach a bs := Iff.rfl

theorem traps_iff (i : Instr) (s : State) (e : Fault) (reach : Reach) (a : Nat) (bs : List Byte) :
    Traps i s e reach a bs ↔ Raises (exec i s) s e reach a bs := Iff.rfl

theorem commits_iff (i : Instr) (s : State) (reads : Reach) {w : Width} (dst : Loc w) (out : AluOut w.bits)
    (r : Regs) : Commits i s reads dst out r ↔ EndsAt (exec i s) s reads dst out r := Iff.rfl

/-- A fault raised where only IP had moved. -/
theorem raises_of {s u : State} {e : Fault} {x : Word} {reach : Reach} {a : Nat} {bs : List Byte}
    (h : Leaves s { regsOf s with ip := x } reach a bs u) : Raises (complete s (.raise e u)) s e reach a bs := by
  refine ⟨{ u with ip := s.ip }, rfl, ?_⟩
  have h2 := h.set (u := { u with ip := s.ip }) ⟨rfl, rfl, rfl, rfl, rfl, rfl, rfl, rfl, rfl, rfl, rfl⟩
  have e : regsOf { u with ip := s.ip } = regsOf s := by
    change { regsOf u with ip := s.ip } = regsOf s
    rw [h.regs]
    rfl
  rwa [e] at h2

/-- A fault of an operand's read. -/
theorem raises_of_passed {s u : State} {e : Fault} {reach : Reach} (h : Passed s reach u) :
    Raises (complete s (.raise e u)) s e reach 0 [] := raises_of (x := s.ip) h.leaves

/-! ### Committing an outcome -/

/-- The registers after an outcome depend on the registers before it alone. -/
theorem regsAfter_congr {s u : State} {w : Width} (l : Loc w) (out : AluOut w.bits) (next : Word)
    (h : regsOf u = { regsOf s with ip := next }) : regsAfter l out next u = regsAfter l out next s := by
  have hu : regsOf u = regsOf { s with ip := next } := h
  have hf : u.f = s.f := congrArg Regs.f h
  unfold regsAfter
  rw [hf]
  cases l with
  | imm c => cases out.result <;> simp only [h]
  | mem a => cases out.result <;> simp only [h]
  | reg n =>
    cases out.result with
    | none => simp only [h]
    | some v => simp only [regsOf_writeReg_congr hu, regsOf_writeReg_ip]

/-- An outcome committed where it can be: a register destination or the bytes of memory written, then the
flags. -/
theorem commit_here {u : State} (hi : StateInv u) {w : Width} (l : Loc w) (out : AluOut w.bits)
    (h : out.result.isSome = true → Writable u l) :
    ∃ t, commit l out u = .ok () t ∧ Leaves u (regsAfter l out u.ip u)
      (if out.result.isSome then locReach l else []) (storeAddr l) (storeBytes l out) t := by
  have finish : ∀ t, Leaves u { regsAfter l out u.ip u with f := u.f }
      (if out.result.isSome then locReach l else []) (storeAddr l) (storeBytes l out) t →
      Leaves u (regsAfter l out u.ip u) (if out.result.isSome then locReach l else []) (storeAddr l)
        (storeBytes l out)
        (match out.flags with
          | some f => { t with f := f }
          | none => t) := by
    intro t ht
    cases hf : out.flags with
    | none =>
      have : regsAfter l out u.ip u = { regsAfter l out u.ip u with f := u.f } := by
        simp only [regsAfter, hf, Option.getD_none]
      rw [this]
      exact ht
    | some f =>
      have e : regsOf { t with f := f } = regsAfter l out u.ip u := by
        change { regsOf t with f := f } = _
        rw [ht.regs]
        simp only [regsAfter, hf, Option.getD_some]
      rw [← e]
      exact ht.set ⟨rfl, rfl, rfl, rfl, rfl, rfl, rfl, rfl, rfl, rfl, rfl⟩
  cases hr : out.result with
  | none =>
    refine ⟨_, by simp only [commit, hr, Res.bind_ok] <;> rfl, ?_⟩
    have := finish u ?_
    · simp only [hr] at this
      exact this
    · have e1 : storeBytes l out = [] := by cases l <;> simp only [storeBytes, hr]
      have e2 : ({ regsAfter l out u.ip u with f := u.f } : Regs) = regsOf u := by
        cases l <;> simp only [regsAfter, hr] <;> rfl
      rw [e1, e2]
      refine ⟨id, rfl, .refl u, fun x => by rw [putBytes_nil], fun _ => .refl u⟩
  | some v =>
    obtain ⟨t, h1, h2⟩ := writeLoc_ok hi l v (h (by simp [hr]))
    refine ⟨_, by simp only [commit, hr, h1, Res.bind_ok] <;> rfl, ?_⟩
    have := finish t ?_
    · simp only [hr] at this
      exact this
    · have e1 : storeBytes l out = storeBytes l (moved v) := by cases l <;> simp only [storeBytes, moved, hr]
      have e2 : ({ regsAfter l out u.ip u with f := u.f } : Regs) = locRegs l v u := by
        cases l with
        | reg n =>
          have e := writeReg_f_ip u w n v
          have e1 : (regsOf (writeReg w n v u)).f = u.f := e.1
          have e2 : (regsOf (writeReg w n v u)).ip = u.ip := e.2
          simp only [regsAfter, hr, locRegs]
          rw [← e1, ← e2]
        | imm c => rfl
        | mem a => rfl
      rw [e1, e2]
      simpa only [hr, Option.isSome_some, if_true] using h2

/-- The outcome of an operation committed after its operands were read and IP was advanced. -/
theorem commit_ok {s s2 : State} {reads : Reach} (hp : Passed s reads s2) {w : Width} (l : Loc w)
    (out : AluOut w.bits) (next : Word) (h : out.result.isSome = true → Writable s l) :
    ∃ t, commit l out { s2 with ip := next } = .ok () t ∧
      Leaves s (regsAfter l out next s) (reads ++ if out.result.isSome then locReach l else []) (storeAddr l)
        (storeBytes l out) t := by
  obtain ⟨t, h1, h2⟩ := commit_here (hp.inv.with_ip next) l out
    (fun hr => writable_congr (t := { s2 with ip := next }) hp.kept.plat hp.kept.pv (h hr))
  refine ⟨t, h1, ?_⟩
  have e : regsAfter l out next { s2 with ip := next } = regsAfter l out next s :=
    regsAfter_congr l out next (by rw [← hp.kept.regs]; rfl)
  rw [← e]
  exact h2.after hp

/-- The same where the destination refuses the result. -/
theorem commit_fault {s s2 : State} {reads : Reach} (hp : Passed s reads s2) {w : Width} (l : Loc w)
    (out : AluOut w.bits) (next : Word) (hr : out.result.isSome = true) {e : Fault} (h : WriteFaults s l e) :
    ∃ u, commit l out { s2 with ip := next } = .raise e u ∧
      Leaves s { regsOf s with ip := next } (reads ++ locReach l) (storeAddr l)
        ((storeBytes l out).take (locPlan true s l).1) u := by
  obtain ⟨v, hv⟩ := Option.isSome_iff_exists.1 hr
  have hplan : locPlan true { s2 with ip := next } l = locPlan true s l :=
    locPlan_congr (t := { s2 with ip := next }) hp.kept.plat hp.kept.pv true l
  obtain ⟨u, h1, h2⟩ := writeLoc_fault (hp.inv.with_ip next) v (show WriteFaults { s2 with ip := next } l e by
    unfold WriteFaults; rw [hplan]; exact h)
  refine ⟨u, by simp only [commit, hv, h1, Res.bind_raise], ?_⟩
  rw [hplan, show storeBytes l (moved v) = storeBytes l out by cases l <;> simp only [storeBytes, moved, hv]] at h2
  rw [show ({ regsOf s with ip := next } : Regs) = regsOf { s2 with ip := next } by rw [← hp.kept.regs]; rfl]
  exact h2.after hp

/-- The end of an instruction that commits an outcome. -/
theorem commit_ends {s s2 : State} {reads : Reach} (hp : Passed s reads s2) {w : Width} (l : Loc w)
    (out : AluOut w.bits) (next : Word) :
    EndsAt (complete s (commit l out { s2 with ip := next })) s reads l out (regsAfter l out next s) := by
  constructor
  · intro hr e he
    obtain ⟨u, h1, h2⟩ := commit_fault hp l out next hr he
    rw [h1]
    exact raises_of h2
  · intro hw
    obtain ⟨t, h1, h2⟩ := commit_ok hp l out next hw
    rw [h1]
    exact ⟨t, rfl, h2⟩

/-! ### The shapes of instructions -/

/-- What an instruction of the two-operand shape that reads its destination can do. -/
theorem rim2Read_spec {s : State} (hi : StateInv s) {wd ws : Width} (extra : Nat) (o : Rim2 wd ws)
    (op : BitVec wd.bits → BitVec ws.bits → Option (AluOut wd.bits)) :
    let next := nextIp s (2 + extra + o.tail)
    let src := rim2Src o next s
    let dst := rim2Dst o next s
    let r := rim2Read extra o op s
    (∀ e, ReadFaults s src e → Raises r s e (locReach src) 0 []) ∧
    (Readable s src → ∀ e, ReadFaults s dst e → Raises r s e (locReach src ++ locReach dst) 0 []) ∧
    (Readable s src → Readable s dst → ∃ a b, ValueOf s dst a ∧ ValueOf s src b ∧
      match op a b with
      | none => Raises r s .division (locReach src ++ locReach dst) 0 []
      | some out => EndsAt r s (locReach src ++ locReach dst) dst out (regsAfter dst out next s)) := by
  intro next src dst r
  refine ⟨fun e he => ?_, fun h1 e he => ?_, fun h1 h2 => ?_⟩
  · obtain ⟨t, e1, p1⟩ := readLoc_fault hi he
    have : r = complete s (.raise e t) := by simp only [r, rim2Read, src, next, e1, Res.bind_raise] at *
    rw [this]
    exact raises_of_passed p1
  · obtain ⟨b, s1, e1, p1, _⟩ := readLoc_ok hi _ h1
    obtain ⟨t, e2, p2⟩ := readLoc_fault p1.inv (l := dst) (r := e) (by
      unfold ReadFaults; rw [locPlan_congr p1.kept.plat p1.kept.pv]; exact he)
    have : r = complete s (.raise e t) := by
      simp only [r, rim2Read, src, dst, next] at e1 e2 ⊢
      simp only [e1, e2, Res.bind_ok, Res.bind_raise]
    rw [this]
    exact raises_of_passed (p1.trans p2)
  · obtain ⟨b, s1, e1, p1, v1⟩ := readLoc_ok hi _ h1
    obtain ⟨a, s2, e2, p2, v2⟩ := readLoc_ok p1.inv _ (readable_congr (s := s) p1.kept.plat p1.kept.pv h2)
    have p := p1.trans p2
    have hr : r = complete s (commitOrFault dst (op a b) { s2 with ip := next }) := by
      simp only [r, rim2Read, src, dst, next] at e1 e2 ⊢
      simp only [e1, e2, Res.bind_ok]
    refine ⟨a, b, valueOf_congr p1 v2, v1, ?_⟩
    cases hop : op a b with
    | none =>
      rw [hr, hop]
      refine raises_of (x := next) ?_
      have := p.leaves.set (u := { s2 with ip := next }) ⟨rfl, rfl, rfl, rfl, rfl, rfl, rfl, rfl, rfl, rfl, rfl⟩
      rwa [show regsOf { s2 with ip := next } = { regsOf s with ip := next } by rw [← p.kept.regs]; rfl] at this
    | some out =>
      rw [hr, hop]
      exact commit_ends p dst out next

/-- What an instruction of the two-operand shape with a write-only destination can do. -/
theorem rim2Write_spec {s : State} (hi : StateInv s) {wd ws : Width} (extra : Nat) (o : Rim2 wd ws)
    (op : BitVec ws.bits → Option (BitVec wd.bits)) :
    let next := nextIp s (2 + extra + o.tail)
    let src := rim2Src o next s
    let dst := rim2Dst o next s
    let r := rim2Write extra o op s
    (∀ e, ReadFaults s src e → Raises r s e (locReach src) 0 []) ∧
    (Readable s src → ∃ b, ValueOf s src b ∧
      EndsAt r s (locReach src) dst { result := op b, flags := none }
        (regsAfter dst { result := op b, flags := none } next s)) := by
  intro next src dst r
  refine ⟨fun e he => ?_, fun h1 => ?_⟩
  · obtain ⟨t, e1, p1⟩ := readLoc_fault hi he
    have : r = complete s (.raise e t) := by simp only [r, rim2Write, src, next, e1, Res.bind_raise] at *
    rw [this]
    exact raises_of_passed p1
  · obtain ⟨b, s1, e1, p1, v1⟩ := readLoc_ok hi _ h1
    refine ⟨b, v1, ?_⟩
    have hr : r = complete s (commit dst { result := op b, flags := none } { s1 with ip := next }) := by
      simp only [r, rim2Write, src, dst, next] at e1 ⊢
      simp only [e1, Res.bind_ok]
    rw [hr]
    exact commit_ends p1 dst _ next

/-- What an instruction of the one-operand shape that reads its destination can do. -/
theorem rimDstRead_spec {s : State} (hi : StateInv s) {w : Width} (extra : Nat) (o : RimDst w)
    (op : BitVec w.bits → AluOut w.bits) :
    let next := nextIp s (2 + extra + o.tail)
    let dst := rimDstLoc o next s
    let r := rimDstRead extra o op s
    (∀ e, ReadFaults s dst e → Raises r s e (locReach dst) 0 []) ∧
    (Readable s dst → ∃ a, ValueOf s dst a ∧
      EndsAt r s (locReach dst) dst (op a) (regsAfter dst (op a) next s)) := by
  intro next dst r
  refine ⟨fun e he => ?_, fun h1 => ?_⟩
  · obtain ⟨t, e1, p1⟩ := readLoc_fault hi he
    have : r = complete s (.raise e t) := by simp only [r, rimDstRead, dst, next, e1, Res.bind_raise] at *
    rw [this]
    exact raises_of_passed p1
  · obtain ⟨a, s1, e1, p1, v1⟩ := readLoc_ok hi _ h1
    refine ⟨a, v1, ?_⟩
    have hr : r = complete s (commit dst (op a) { s1 with ip := next }) := by
      simp only [r, rimDstRead, dst, next] at e1 ⊢
      simp only [e1, Res.bind_ok]
    rw [hr]
    exact commit_ends p1 dst _ next

/-- What an instruction of the source-only shape can do: its source's fault, or its action on the value, from a
state with IP past the instruction. -/
theorem rimSrcThen_spec {s : State} (hi : StateInv s) {w : Width} (o : RimSrc w)
    (act : BitVec w.bits → State → Res Unit) :
    let next := nextIp s (2 + o.tail)
    let src := rimSrcLoc o next s
    let r := rimSrcThen o act s
    (∀ e, ReadFaults s src e → Raises r s e (locReach src) 0 []) ∧
    (Readable s src → ∃ v s1, ValueOf s src v ∧ Passed s (locReach src) s1 ∧
      r = complete s (act v { s1 with ip := next })) := by
  intro next src r
  refine ⟨fun e he => ?_, fun h1 => ?_⟩
  · obtain ⟨t, e1, p1⟩ := readLoc_fault hi he
    have : r = complete s (.raise e t) := by simp only [r, rimSrcThen, src, next, e1, Res.bind_raise] at *
    rw [this]
    exact raises_of_passed p1
  · obtain ⟨v, s1, e1, p1, v1⟩ := readLoc_ok hi _ h1
    refine ⟨v, s1, v1, p1, ?_⟩
    simp only [r, rimSrcThen, src, next] at e1 ⊢
    simp only [e1, Res.bind_ok]

/-! ### The stack (spec/42_stack.md R250) -/

/-- A push: the value below SP, SP moved, nothing else. -/
theorem push_ok {s : State} (hi : StateInv s) {w : Width} (v : BitVec w.bits)
    (h : Writable s (Loc.mem (s.sp - BitVec.ofNat 32 w.bytes) : Loc w)) :
    ∃ t, push w v s = .ok () t ∧ Leaves s { regsOf s with sp := s.sp - BitVec.ofNat 32 w.bytes }
      [((s.sp - BitVec.ofNat 32 w.bytes).toNat, w.bytes)] (s.sp - BitVec.ofNat 32 w.bytes).toNat
      (leBytes w.bytes v.toNat) t := by
  obtain ⟨t, h1, h2⟩ := memWrite_ok hi w (s.sp - BitVec.ofNat 32 w.bytes) v s.pv h
  refine ⟨{ t with sp := s.sp - BitVec.ofNat 32 w.bytes }, by simp only [push, h1, Res.bind_ok], ?_⟩
  rw [← h2.kept.regs]
  exact h2.leaves.set (u := { t with sp := s.sp - BitVec.ofNat 32 w.bytes })
    ⟨rfl, rfl, rfl, rfl, rfl, rfl, rfl, rfl, rfl, rfl, rfl⟩

/-- A push that cannot write its bytes raises the access's fault, and SP has not moved. -/
theorem push_fault {s : State} (hi : StateInv s) {w : Width} (v : BitVec w.bits) {r : Fault}
    (h : WriteFaults s (Loc.mem (s.sp - BitVec.ofNat 32 w.bytes) : Loc w) r) :
    ∃ t, push w v s = .raise r t ∧ Leaves s (regsOf s) [((s.sp - BitVec.ofNat 32 w.bytes).toNat, w.bytes)]
      (s.sp - BitVec.ofNat 32 w.bytes).toNat ((leBytes w.bytes v.toNat).take
        (locPlan true s (Loc.mem (s.sp - BitVec.ofNat 32 w.bytes) : Loc w)).1) t := by
  obtain ⟨t, h1, h2⟩ := memWrite_fault hi w (s.sp - BitVec.ofNat 32 w.bytes) v s.pv h
  exact ⟨t, by simp only [push, h1, Res.bind_raise], h2.leaves⟩

/-- A pop: the value at SP, SP moved, nothing else. -/
theorem pop_ok {s : State} (hi : StateInv s) (w : Width) (h : Readable s (Loc.mem s.sp : Loc w)) :
    ∃ v t, pop w s = .ok v t ∧ ValueOf s (Loc.mem s.sp : Loc w) v ∧
      Leaves s { regsOf s with sp := s.sp + BitVec.ofNat 32 w.bytes } [(s.sp.toNat, w.bytes)] 0 [] t := by
  obtain ⟨v, t, h1, h2, h3⟩ := memRead_ok hi w s.sp s.pv h
  refine ⟨v, { t with sp := t.sp + BitVec.ofNat 32 w.bytes }, by simp only [pop, h1, Res.bind_ok], h3, ?_⟩
  have e : regsOf { t with sp := t.sp + BitVec.ofNat 32 w.bytes } =
      { regsOf s with sp := s.sp + BitVec.ofNat 32 w.bytes } := by
    rw [← h2.kept.regs, ← h2.kept.sp]
    rfl
  rw [← e]
  exact h2.leaves.set ⟨rfl, rfl, rfl, rfl, rfl, rfl, rfl, rfl, rfl, rfl, rfl⟩

/-- A pop that cannot read its bytes raises the access's fault, and SP has not moved. -/
theorem pop_fault {s : State} (hi : StateInv s) (w : Width) {r : Fault}
    (h : ReadFaults s (Loc.mem s.sp : Loc w) r) :
    ∃ t, pop w s = .raise r t ∧ Passed s [(s.sp.toNat, w.bytes)] t := by
  obtain ⟨t, h1, h2⟩ := memRead_fault hi w s.sp s.pv h
  exact ⟨t, by simp only [pop, h1, Res.bind_raise], h2⟩

end Sys2Proof.Machine
end

