-- ==== Sys2Proof/Laws/Entry.lean ====
section
/-! SUPPORT. What taking an exception and returning from one can do, said once (spec/60_exceptions.md R389 to
R395, spec/47_system.md R373). -/

namespace Sys2Proof.Machine

@[simp] theorem Res.bind_assoc {α β γ : Type} (r : Res α) (f : α → State → Res β) (g : β → State → Res γ) :
    (r.bind f).bind g = r.bind fun v s => (f v s).bind g := by cases r <;> rfl

theorem vectorAddr_toNat (v : BitVec 8) : (vectorAddr v).toNat = 4 * v.toNat := by
  have := v.isLt
  simp only [vectorAddr, Config.vectorBase, Config.vectorStride, BitVec.toNat_ofNat]
  omega

/-- Frame words written in order. -/
def writeFrame (s : State) : List (Nat × Word) → State → Res Unit
  | [], u => .ok () u
  | (k, w) :: ws, u =>
    (memWrite .b32 (entryStack s - BitVec.ofNat 32 k) w true u).bind fun _ u1 => writeFrame s ws u1

/-- An entry writes the frame words and then reads the vector (R392). -/
theorem entryAccesses_eq (v : BitVec 8) (ipSave : Word) (s : State) :
    entryAccesses v ipSave s =
      (writeFrame s (frameWords s ipSave) s).bind fun _ u => memRead .b32 (vectorAddr v) true u := by
  simp only [writeFrame, frameWords, Res.bind_assoc, Res.bind_ok]
  rfl

/-- What the accesses of an entry have left so far: registers and the rest as before, RAM as given. -/
structure EntrySoFar (v : BitVec 8) (s : State) (ram : Nat → Option Byte) (u : State) : Prop where
  inv : StateInv u
  kept : Kept s u
  ram : ramView u = ram
  silent : NoDevice s (entryReach v s) → Silent s u

theorem EntrySoFar.start {s : State} (hi : StateInv s) (v : BitVec 8) : EntrySoFar v s (ramView s) s :=
  ⟨hi, .refl s, rfl, fun _ => .refl s⟩

/-- One more access inside the entry's reach. -/
theorem EntrySoFar.silent_step {v : BitVec 8} {s u t : State} {ram : Nat → Option Byte} (h : EntrySoFar v s ram u)
    {e : Nat × Nat} (he : e ∈ entryReach v s) (hs : NoDevice u [e] → Silent u t)
    (hn : NoDevice s (entryReach v s)) : Silent s t := by
  have h1 := h.silent hn
  refine h1.trans h.kept.plat (hs (h1.noDevice h.kept.plat (hn.mono fun x hx => ?_)))
  obtain ⟨e', he', hx⟩ := hx
  rw [List.mem_singleton.1 he'] at hx
  exact ⟨e, he, hx⟩

theorem frame_reach {v : BitVec 8} {s : State} {k : Nat} (hk : k ∈ [4, 8, 12, 16]) :
    ((entryStack s - BitVec.ofNat 32 k).toNat, 4) ∈ entryReach v s :=
  List.mem_append.2 (.inl (List.mem_map.2 ⟨k, hk, rfl⟩))

/-- The frame words of an entry: all written where all are permitted, otherwise up to the first that is
refused (R395). -/
theorem writeFrame_spec (v : BitVec 8) (s : State) : ∀ (ws : List (Nat × Word)) {ram : Nat → Option Byte} {u : State},
    (∀ e ∈ ws, e.1 ∈ [4, 8, 12, 16]) → EntrySoFar v s ram u →
    ((∀ e ∈ ws, (accessPlan true s.plat (entryStack s - BitVec.ofNat 32 e.1).toNat 4 true).2 = none) ∧
      ∃ t, writeFrame s ws u = .ok () t ∧ EntrySoFar v s (frameView s ram ws) t) ∨
    ((∃ e ∈ ws, (accessPlan true s.plat (entryStack s - BitVec.ofNat 32 e.1).toNat 4 true).2 ≠ none) ∧
      ∃ r t, writeFrame s ws u = .raise r t ∧ EntrySoFar v s (frameView s ram ws) t) := by
  intro ws
  induction ws with
  | nil => intro ram u _ h; exact .inl ⟨by simp, u, rfl, h⟩
  | cons e ws ih =>
    obtain ⟨k, w⟩ := e
    intro ram u hk h
    have hkk : k ∈ [4, 8, 12, 16] := hk (k, w) (by simp)
    cases hp : (accessPlan true s.plat (entryStack s - BitVec.ofNat 32 k).toNat 4 true).2 with
    | none =>
      obtain ⟨t, h1, h2⟩ := memWrite_ok h.inv .b32 (entryStack s - BitVec.ofNat 32 k) w true (by
        rw [h.kept.plat]; exact hp)
      have ht : EntrySoFar v s (putBytes ram (entryStack s - BitVec.ofNat 32 k).toNat (leBytes 4 w.toNat)) t :=
        ⟨h2.inv, h.kept.trans h2.kept, by rw [← h.ram]; exact funext h2.ram,
          h.silent_step (frame_reach hkk) h2.silent⟩
      have hrun : writeFrame s ((k, w) :: ws) u = writeFrame s ws t := by simp only [writeFrame, h1, Res.bind_ok]
      have hview : frameView s ram ((k, w) :: ws) =
          frameView s (putBytes ram (entryStack s - BitVec.ofNat 32 k).toNat (leBytes 4 w.toNat)) ws := by
        simp only [frameView, hp]
      rw [hrun, hview]
      rcases ih (fun e he => hk e (by simp [he])) ht with ⟨g1, g2⟩ | ⟨⟨e, he, g1⟩, g2⟩
      · refine .inl ⟨fun e he => ?_, g2⟩
        rcases List.mem_cons.1 he with rfl | he
        · exact hp
        · exact g1 e he
      · exact .inr ⟨⟨e, by simp [he], g1⟩, g2⟩
    | some r =>
      obtain ⟨t, h1, h2⟩ := memWrite_fault h.inv .b32 (entryStack s - BitVec.ofNat 32 k) w true (r := r) (by
        rw [h.kept.plat]; exact hp)
      refine .inr ⟨⟨(k, w), by simp, fun hn => by rw [hp] at hn; cases hn⟩, r, t, by simp only [writeFrame, h1, Res.bind_raise], ?_⟩
      refine ⟨h2.inv, h.kept.trans h2.kept, ?_, h.silent_step (frame_reach hkk) h2.silent⟩
      rw [h.kept.plat] at h2
      rw [← h.ram]
      funext x
      rw [h2.ram x]
      simp only [frameView, hp]

theorem frameWords_offsets (s : State) (ipSave : Word) : ∀ e ∈ frameWords s ipSave, e.1 ∈ [4, 8, 12, 16] := by
  simp [frameWords]

/-- With every word permitted the frame is written whole. -/
theorem frameView_all {s : State} {v : BitVec 8} (h : EntryPermitted v s) (ipSave : Word) :
    frameView s (ramView s) (frameWords s ipSave) = viewWithFrame s ipSave := by
  have h1 := h.1 4 (by simp)
  have h2 := h.1 8 (by simp)
  have h3 := h.1 12 (by simp)
  have h4 := h.1 16 (by simp)
  simp only [frameView, frameWords, h1, h2, h3, h4]
  rfl

/-- An entry whose accesses are permitted reaches its handler. -/
theorem dispatch_ok {s : State} (hi : StateInv s) (v : BitVec 8) (ipSave : Word) (h : EntryPermitted v s) :
    Entered v ipSave [] s (dispatch v ipSave s) := by
  rcases writeFrame_spec v s (frameWords s ipSave) (frameWords_offsets s ipSave) (.start hi v) with
    ⟨_, u, e1, f⟩ | ⟨⟨e, he, g⟩, _⟩
  · rw [frameView_all h ipSave] at f
    obtain ⟨w, t, e2, p, hv⟩ := memRead_ok f.inv .b32 (vectorAddr v) true (by
      rw [f.kept.plat, vectorAddr_toNat]; exact h.2)
    have hk := f.kept.trans p.kept
    have hrun : dispatch v ipSave s =
        { t with
          sp := entryStack s - BitVec.ofNat 32 Config.frameBytes, pv := true, ii := true, ie := false, ip := w
          winValid := false } := by
      simp only [dispatch, entryAccesses_eq, e1, e2, Res.bind_ok]
    have hram : ramView (dispatch v ipSave s) = ramView u := by
      rw [hrun, ← p.ram_eq]
      exact funext (ramView_congr (s := t) rfl rfl rfl)
    have hr : regsOf (dispatch v ipSave s) =
        { regsOf s with sp := entryStack s - 16, pv := true, ii := true, ie := false, ip := w } := by
      rw [hrun, ← hk.regs]
      rfl
    refine ⟨fun _ => ?_, ⟨w, ?_, hr⟩, ?_, ?_, ?_, fun x => ?_, fun hn => ?_⟩
    · rw [hrun]
      exact p.inv.congr rfl rfl rfl
    · intro m hm
      rw [hram] at hm
      exact hv m (by rw [vectorAddr_toNat]; exact hm)
    · rw [hrun]
    · rw [hrun]
      exact hk.plat
    · rw [hrun]
      exact hk.rest.device
    · rw [hram, f.ram]
    · rw [List.nil_append] at hn
      rw [hrun]
      refine (f.silent_step (e := (4 * v.toNat, 4)) (by simp [entryReach]) (fun h' => ?_) hn).of_fields
        (t := t) rfl rfl rfl rfl rfl rfl
      exact p.silent (by rw [vectorAddr_toNat]; exact h')
  · exact absurd (h.1 e.1 (frameWords_offsets s ipSave e he)) g

/-- An entry with an access that is refused is a double fault: HALTED, and no register changed (R395). -/
theorem dispatch_double_fault {s : State} (hi : StateInv s) (v : BitVec 8) (ipSave : Word)
    (h : ¬ EntryPermitted v s) : DoubleFaulted v ipSave s (dispatch v ipSave s) (regsOf s) := by
  rcases writeFrame_spec v s (frameWords s ipSave) (frameWords_offsets s ipSave) (.start hi v) with
    ⟨g, u, e1, f⟩ | ⟨_, r, u, e1, f⟩
  · cases hp : (accessPlan false s.plat (4 * v.toNat) 4 true).2 with
    | none =>
      refine absurd ⟨fun k hk => ?_, hp⟩ h
      have g4 := g (4, ipSave) (by simp [frameWords])
      have g8 := g (8, s.bp) (by simp [frameWords])
      have g12 := g (12, s.sp) (by simp [frameWords])
      have g16 := g (16, flagsWord s) (by simp [frameWords])
      simp only [List.mem_cons, List.not_mem_nil, or_false] at hk
      rcases hk with rfl | rfl | rfl | rfl <;> assumption
    | some r =>
      obtain ⟨t, e2, p⟩ := memRead_fault f.inv .b32 (vectorAddr v) true (r := r) (by
        rw [f.kept.plat, vectorAddr_toNat]; exact hp)
      refine ⟨t, by simp only [dispatch, entryAccesses_eq, e1, e2, Res.bind_ok], fun _ => p.inv,
        (f.kept.trans p.kept).regs, (f.kept.trans p.kept).rest, fun x => ?_, ?_⟩
      · rw [p.ram x, f.ram]
      · refine f.silent_step (e := (4 * v.toNat, 4)) (by simp [entryReach]) (fun h' => ?_)
        exact p.silent (by rw [vectorAddr_toNat]; exact h')
  · exact ⟨u, by simp only [dispatch, entryAccesses_eq, e1, Res.bind_raise], fun _ => f.inv, f.kept.regs, f.kept.rest,
      fun x => by rw [f.ram], f.silent⟩

/-- Taking an exception keeps the invariant, whatever happens inside the entry. -/
theorem dispatch_inv {s : State} (hi : StateInv s) (v : BitVec 8) (ipSave : Word) : StateInv (dispatch v ipSave s) := by
  by_cases h : EntryPermitted v s
  · exact (dispatch_ok hi v ipSave h).inv hi
  · obtain ⟨t, h1, h2⟩ := dispatch_double_fault hi v ipSave h
    rw [h1]
    exact (h2.inv hi).congr rfl rfl rfl

theorem takeFault_inv {s : State} (hi : StateInv s) (r : Fault) (ip0 : Word) : StateInv (takeFault r ip0 s) :=
  dispatch_inv (hi.with_ip ip0) _ _

/-- The entry of a fault whose accesses are permitted. -/
theorem takeFault_ok {s : State} (hi : StateInv s) (r : Fault) (ip0 : Word) (h : EntryPermitted (faultVector r) s) :
    Entered (faultVector r) ip0 [] s (takeFault r ip0 s) := by
  have e := dispatch_ok (hi.with_ip ip0) (faultVector r) ip0 h
  obtain ⟨w, h1, h2⟩ := e.regs
  refine ⟨fun _ => e.inv (hi.with_ip ip0), ⟨w, h1, h2⟩, e.winValid, e.plat, e.device, e.ram, fun hn => ?_⟩
  have hs := e.silent hn
  exact ⟨hs.devLog, hs.devCount, hs.halted, hs.pend, hs.pendVec, hs.lines⟩

/-- The entry of a fault that an instruction raised after accesses that left RAM as it reads. -/
theorem takeFault_after {s u : State} {reads : Reach} (hi : StateInv s) (r : Fault) (ip0 : Word)
    (hl : Leaves s (regsOf s) reads 0 [] u) (h : EntryPermitted (faultVector r) s) :
    Entered (faultVector r) ip0 reads s (takeFault r ip0 u) := by
  have hk : Kept s u := ⟨hl.regs, hl.rest⟩
  have hst : entryStack u = entryStack s := by simp only [entryStack, hk.ii, hk.sp, hk.isp]
  have hflags : flagsWord u = flagsWord s := by simp only [flagsWord, pfImage, hk.ii, hk.pv, hk.ie, hk.f]
  have hram : ramView u = ramView s := by
    funext x
    rw [hl.ram x, putBytes_nil]
  have hp : EntryPermitted (faultVector r) u := by
    unfold EntryPermitted at *
    rw [hst, hk.plat]
    exact h
  have e := takeFault_ok (hl.inv hi) r ip0 hp
  obtain ⟨w, h1, h2⟩ := e.regs
  refine ⟨fun _ => e.inv (hl.inv hi), ⟨w, h1, ?_⟩, e.winValid, e.plat.trans hk.plat, hk.rest.device.trans e.device,
    fun x => ?_, fun hn => ?_⟩
  · rw [h2, hk.regs, hst]
  · rw [e.ram x]
    simp only [viewWithFrame, hst, hflags, hram, hk.bp, hk.sp]
  · have hs := hl.silent hn.append.1
    refine hs.trans hk.plat (e.silent ?_)
    rw [List.nil_append]
    have hre : entryReach (faultVector r) u = entryReach (faultVector r) s := by simp only [entryReach, hst]
    rw [hre]
    exact hs.noDevice hk.plat hn.append.2

/-- One read of a return. -/
theorem returnRead {s u : State} {reads : Reach} (hp : Passed s reads u) (k : Nat) :
    (∀ e, ReadFaults s (Loc.mem (s.sp + BitVec.ofNat 32 k) : Loc .b32) e →
      ∃ t, memRead .b32 (s.sp + BitVec.ofNat 32 k) s.pv u = .raise e t ∧
        Passed s (reads ++ [((s.sp + BitVec.ofNat 32 k).toNat, 4)]) t) ∧
    (Readable s (Loc.mem (s.sp + BitVec.ofNat 32 k) : Loc .b32) →
      ∃ v t, memRead .b32 (s.sp + BitVec.ofNat 32 k) s.pv u = .ok v t ∧
        ValueOf s (Loc.mem (s.sp + BitVec.ofNat 32 k) : Loc .b32) v ∧
        Passed s (reads ++ [((s.sp + BitVec.ofNat 32 k).toNat, 4)]) t) := by
  constructor
  · intro e he
    obtain ⟨t, h1, h2⟩ := memRead_fault hp.inv .b32 (s.sp + BitVec.ofNat 32 k) s.pv (r := e) (by
      rw [hp.kept.plat]; exact he)
    exact ⟨t, h1, hp.trans h2⟩
  · intro he
    obtain ⟨v, t, h1, h2, h3⟩ := memRead_ok hp.inv .b32 (s.sp + BitVec.ofNat 32 k) s.pv (by
      rw [hp.kept.plat]; exact he)
    refine ⟨v, t, h1, fun m hm => h3 m ?_, hp.trans h2⟩
    rw [hp.ram_eq]
    exact hm

/-- A return as its four reads at their offsets. -/
theorem returnFromEntry_eq (s : State) :
    returnFromEntry s =
      (memRead .b32 (s.sp + BitVec.ofNat 32 0) s.pv s).bind fun w s1 =>
      (memRead .b32 (s.sp + BitVec.ofNat 32 4) s.pv s1).bind fun sp' s2 =>
      (memRead .b32 (s.sp + BitVec.ofNat 32 8) s.pv s2).bind fun bp' s3 =>
      (memRead .b32 (s.sp + BitVec.ofNat 32 12) s.pv s3).bind fun ip' s4 =>
      .ok () { setPf (highHalf w) { s4 with sp := sp', bp := bp', ip := ip' } with f := lowHalf w } := by
  have h : s.sp + BitVec.ofNat 32 0 = s.sp := by simp
  rw [h]
  rfl

/-- A return whose four reads are permitted restores SP, BP, IP, PF and F from them. -/
theorem returnFromEntry_ok {s : State} (hi : StateInv s)
    (h : ∀ k ∈ [0, 4, 8, 12], Readable s (Loc.mem (s.sp + BitVec.ofNat 32 k) : Loc .b32)) :
    ∃ w sp bp ip : Word, ∃ t, returnFromEntry s = .ok () t ∧
      ValueOf s (Loc.mem (s.sp + BitVec.ofNat 32 0) : Loc .b32) w ∧
      ValueOf s (Loc.mem (s.sp + BitVec.ofNat 32 4) : Loc .b32) sp ∧
      ValueOf s (Loc.mem (s.sp + BitVec.ofNat 32 8) : Loc .b32) bp ∧
      ValueOf s (Loc.mem (s.sp + BitVec.ofNat 32 12) : Loc .b32) ip ∧
      Leaves s { regsOf s with
        sp := sp, bp := bp, ip := ip, f := lowHalf w
        ie := w.getLsbD 16, pv := w.getLsbD 17, ii := w.getLsbD 18 } (returnReads s) 0 [] t := by
  obtain ⟨w, s1, e1, v1, p1⟩ := (returnRead (.refl hi []) 0).2 (h 0 (by simp))
  obtain ⟨sp, s2, e2, v2, p2⟩ := (returnRead p1 4).2 (h 4 (by simp))
  obtain ⟨bp, s3, e3, v3, p3⟩ := (returnRead p2 8).2 (h 8 (by simp))
  obtain ⟨ip, s4, e4, v4, p4⟩ := (returnRead p3 12).2 (h 12 (by simp))
  refine ⟨w, sp, bp, ip,
    { setPf (highHalf w) { s4 with sp := sp, bp := bp, ip := ip } with f := lowHalf w },
    by simp only [returnFromEntry_eq, e1, e2, e3, e4, Res.bind_ok], v1, v2, v3, v4, ?_⟩
  have hw : (highHalf w).getLsbD 0 = w.getLsbD 16 ∧ (highHalf w).getLsbD 1 = w.getLsbD 17 ∧
      (highHalf w).getLsbD 2 = w.getLsbD 18 := by
    refine ⟨?_, ?_, ?_⟩ <;> rw [highHalf, BitVec.getLsbD_extractLsb'] <;> rfl
  rw [← p4.kept.regs, ← hw.1, ← hw.2.1, ← hw.2.2]
  exact p4.leaves.set (u := { setPf (highHalf w) { s4 with sp := sp, bp := bp, ip := ip } with f := lowHalf w })
    ⟨rfl, rfl, rfl, rfl, rfl, rfl, rfl, rfl, rfl, rfl, rfl⟩

/-- A return with a read that is refused raises the first such fault, and nothing is restored. -/
theorem returnFromEntry_fault {s : State} (hi : StateInv s) {e : Fault} (h : returnFault s = some e) :
    ∃ t, returnFromEntry s = .raise e t ∧ Passed s (returnReads s) t := by
  have grow : ∀ {r : Reach} {t : State}, Passed s r t → (∀ c ∈ r, c ∈ returnReads s) → Passed s (returnReads s) t :=
    fun hp hr => hp.mono fun x ⟨c, hc, hx⟩ => ⟨c, hr c hc, hx⟩
  have mem : ∀ k ∈ [0, 4, 8, 12], ((s.sp + BitVec.ofNat 32 k).toNat, 4) ∈ returnReads s := fun k hk =>
    List.mem_map.2 ⟨k, hk, rfl⟩
  have m0 := mem 0 (by simp)
  have m1 := mem 4 (by simp)
  have m2 := mem 8 (by simp)
  have plan : ∀ k, (locPlan false s (Loc.mem (s.sp + BitVec.ofNat 32 k) : Loc .b32)).2 = none ∨
      ∃ r, (locPlan false s (Loc.mem (s.sp + BitVec.ofNat 32 k) : Loc .b32)).2 = some r := fun k => by
    cases (locPlan false s (Loc.mem (s.sp + BitVec.ofNat 32 k) : Loc .b32)).2 with
    | none => exact .inl rfl
    | some r => exact .inr ⟨r, rfl⟩
  unfold returnFault at h
  rw [returnFromEntry_eq]
  have h0 := returnRead (.refl hi []) 0
  rcases plan 0 with q0 | ⟨r, q0⟩
  · obtain ⟨w, s1, e1, _, p1⟩ := h0.2 q0
    have h1 := returnRead p1 4
    rcases plan 4 with q1 | ⟨r, q1⟩
    · obtain ⟨sp, s2, e2, _, p2⟩ := h1.2 q1
      have h2 := returnRead p2 8
      rcases plan 8 with q2 | ⟨r, q2⟩
      · obtain ⟨bp, s3, e3, _, p3⟩ := h2.2 q2
        have h3 := returnRead p3 12
        rcases plan 12 with q3 | ⟨r, q3⟩
        · simp only [List.findSome?_cons, q0, q1, q2, q3, List.findSome?_nil] at h
          cases h
        · simp only [List.findSome?_cons, q0, q1, q2, q3] at h
          rw [← Option.some.inj h]
          obtain ⟨t, e4, p4⟩ := h3.1 r q3
          exact ⟨t, by simp only [e1, e2, e3, e4, Res.bind_ok, Res.bind_raise], p4⟩
      · simp only [List.findSome?_cons, q0, q1, q2] at h
        rw [← Option.some.inj h]
        obtain ⟨t, e3, p3⟩ := h2.1 r q2
        exact ⟨t, by simp only [e1, e2, e3, Res.bind_ok, Res.bind_raise], grow p3 fun c hc => by
          simp only [List.nil_append, List.cons_append, List.mem_cons, List.not_mem_nil, or_false] at hc
          rcases hc with rfl | rfl | rfl <;> assumption⟩
    · simp only [List.findSome?_cons, q0, q1] at h
      rw [← Option.some.inj h]
      obtain ⟨t, e2, p2⟩ := h1.1 r q1
      exact ⟨t, by simp only [e1, e2, Res.bind_ok, Res.bind_raise], grow p2 fun c hc => by
          simp only [List.nil_append, List.cons_append, List.mem_cons, List.not_mem_nil, or_false] at hc
          rcases hc with rfl | rfl <;> assumption⟩
  · simp only [List.findSome?_cons, q0] at h
    rw [← Option.some.inj h]
    obtain ⟨t, e1, p1⟩ := h0.1 r q0
    exact ⟨t, by simp only [e1, Res.bind_raise], grow p1 fun c hc => by
      simp only [List.nil_append, List.mem_cons, List.not_mem_nil, or_false] at hc
      subst hc
      exact m0⟩

end Sys2Proof.Machine
end

