-- ==== Sys2Proof/Laws/Fetch.lean ====
section
/-! SUPPORT. What a refill of the fetch window can do, said once (spec/20_memory.md R90 to R97): which bytes it
keeps, which it reads, and what a fetch fault leaves. -/

namespace Sys2Proof.Machine

/-! ### The window as a list -/

theorem Window.byte_ofList (l : List Byte) {k : Nat} (hk : k < 8) : (Window.ofList l).byte k = l.getD k 0 := by
  rcases k with _ | _ | _ | _ | _ | _ | _ | _ | k
  all_goals first | rfl | omega

theorem Window.toList_getD (w : Window) {k : Nat} (hk : k < 8) : w.toList.getD k 0 = w.byte k := by
  rcases k with _ | _ | _ | _ | _ | _ | _ | _ | k
  all_goals rfl

theorem Window.toList_length (w : Window) : w.toList.length = 8 := rfl

/-! ### A permitted access stays below the top of the address space -/

theorem runPlan_top {write : Bool} {pl : Platform} (hv : segmentsValid pl.segments = true) {p : Bool} (n : Nat) :
    ∀ a, (runPlan write pl p a n).2 = none → ∀ k, k < n → a + k < 2 ^ 32 := by
  induction n with
  | zero => intro a _ k hk; omega
  | succ n ih =>
    intro a h k hk
    simp only [runPlan] at h
    cases hb : byteFault write pl a p with
    | some r => simp [hb] at h
    | none =>
      rw [hb] at h
      rcases k with _ | k
      · unfold byteFault at hb
        cases hg : lookup pl.segments a with
        | none => simp [hg] at hb
        | some g =>
          obtain ⟨h1, h2⟩ := lookup_some hg
          have h3 := (segmentOk_iff g).1 (segmentOk_of_mem hv h1)
          have := h2.2
          omega
      · have := ih (a + 1) h k (by omega)
        omega

theorem accessPlan_top {write : Bool} {pl : Platform} (hv : segmentsValid pl.segments = true) {a n : Nat} {p : Bool}
    (h : (accessPlan write pl a n p).2 = none) : ∀ k, k < n → a + k < 2 ^ 32 := by
  intro k hk
  unfold accessPlan at h
  cases hg : lookup pl.segments a with
  | none => simp [hg] at h
  | some g =>
    simp only [hg] at h
    split at h
    · exact runPlan_top hv n a h k hk
    · split at h
      · simp at h
      · obtain ⟨h1, h2⟩ := lookup_some hg
        have h3 := (segmentOk_iff g).1 (segmentOk_of_mem hv h1)
        omega

/-! ### Runs -/

/-- Where reads reach. -/
def readsReach (l : List (Word × Nat)) : Reach := l.map fun e => (e.1.toNat, e.2)

/-- Bytes fetched for `k` addresses from `a` on, modulo `2^32`. -/
structure Fetched (s : State) (a : Word) (k : Nat) (r : Reach) (bs : List Byte) (t : State) : Prop where
  passed : Passed s r t
  length : bs.length = k
  bytes : ∀ j, j < k → ∀ v, ramView s (a + BitVec.ofNat 32 j).toNat = some v → bs.getD j 0 = v

theorem fetchRead_ok {s : State} (hi : StateInv s) (a : Word) (n : Nat)
    (h : (accessPlan false s.plat a.toNat n s.pv).2 = none) :
    ∃ bs t, fetchRead a n s.pv s = .ok bs t ∧ Fetched s a n [(a.toNat, n)] bs t := by
  have := memReadP_spec hi a.toNat n s.pv
  unfold ReadResult at this
  rw [h] at this
  obtain ⟨bs, t, h1, h2⟩ := this
  refine ⟨bs, t, h1, h2.passed, h2.length, ?_⟩
  intro j hj v hv
  have htop := accessPlan_top hi.segments h j hj
  refine h2.bytes j hj v ?_
  rw [BitVec.toNat_add, BitVec.toNat_ofNat, Nat.mod_eq_of_lt (show j < 2 ^ 32 by omega),
    Nat.mod_eq_of_lt htop] at hv
  exact hv

theorem fetchRead_fault {s : State} (hi : StateInv s) (a : Word) (n : Nat) {r : Fault}
    (h : (accessPlan false s.plat a.toNat n s.pv).2 = some r) :
    ∃ t, fetchRead a n s.pv s = .raise r t ∧ Passed s [(a.toNat, n)] t := by
  have := memReadP_spec hi a.toNat n s.pv
  unfold ReadResult at this
  rw [h] at this
  exact this

theorem readsReach_short (a : Word) {k : Nat} (hk : k ≤ 4) : readsReach (runReads a k) = [(a.toNat, k)] := by
  simp only [readsReach, runReads, if_pos hk, List.map_cons, List.map_nil]

theorem readsReach_long (a : Word) {k : Nat} (hk : ¬ k ≤ 4) :
    readsReach (runReads a k) = [(a.toNat, 4), ((a + 4).toNat, k - 4)] := by
  simp only [readsReach, runReads, if_neg hk, List.map_cons, List.map_nil]

theorem fetchRun_ok {s : State} (hi : StateInv s) (a : Word) (k : Nat)
    (h : ∀ e ∈ runReads a k, (accessPlan false s.plat e.1.toNat e.2 s.pv).2 = none) :
    ∃ bs t, fetchRun a k s.pv s = .ok bs t ∧ Fetched s a k (readsReach (runReads a k)) bs t := by
  unfold runReads at h
  unfold fetchRun
  by_cases hk : k ≤ 4
  · rw [if_pos hk] at h ⊢
    rw [readsReach_short a hk]
    exact fetchRead_ok hi a k (h (a, k) (by simp))
  · rw [if_neg hk] at h ⊢
    rw [readsReach_long a hk]
    obtain ⟨xs, s1, e1, f1⟩ := fetchRead_ok hi a 4 (h (a, 4) (by simp))
    have h2 := h (a + 4, k - 4) (by simp)
    rw [← f1.passed.kept.plat, ← f1.passed.kept.pv] at h2
    obtain ⟨ys, s2, e2, f2⟩ := fetchRead_ok f1.passed.inv (a + 4) (k - 4) h2
    rw [f1.passed.kept.pv] at e2
    refine ⟨xs ++ ys, s2, ?_, f1.passed.trans f2.passed, by simp [f1.length, f2.length]; omega, ?_⟩
    · have : BitVec.ofNat 32 Config.maxAccess = (4 : Word) := rfl
      simp only [Config.maxAccess] at this ⊢
      simp only [e1, Res.bind_ok, this, e2]
    · intro j hj v hv
      by_cases hj4 : j < 4
      · rw [List.getD_eq_getElem?_getD, List.getElem?_append_left (by rw [f1.length]; exact hj4),
          ← List.getD_eq_getElem?_getD]
        exact f1.bytes j hj4 v hv
      · rw [List.getD_eq_getElem?_getD, List.getElem?_append_right (by rw [f1.length]; omega),
          ← List.getD_eq_getElem?_getD, f1.length]
        refine f2.bytes (j - 4) (by omega) v ?_
        rw [f1.passed.ram_eq, ← hv]
        congr 2
        apply BitVec.eq_of_toNat_eq
        have : (4 : Word).toNat = 4 := rfl
        simp only [BitVec.toNat_add, BitVec.toNat_ofNat, this]
        omega

/-- The first fault of a list of reads, found where one read may fault. -/
def readsFault (s : State) (l : List (Word × Nat)) : Option Fault :=
  l.findSome? fun e => (accessPlan false s.plat e.1.toNat e.2 s.pv).2

theorem fetchRun_fault {s : State} (hi : StateInv s) (a : Word) (k : Nat) {r : Fault}
    (h : readsFault s (runReads a k) = some r) :
    ∃ t, fetchRun a k s.pv s = .raise r t ∧ Passed s (readsReach (runReads a k)) t := by
  unfold readsFault runReads at h
  unfold fetchRun
  by_cases hk : k ≤ 4
  · rw [if_pos hk] at h ⊢
    rw [readsReach_short a hk]
    exact fetchRead_fault hi a k (by simpa using h)
  · rw [if_neg hk] at h ⊢
    rw [readsReach_long a hk]
    cases hp : (accessPlan false s.plat a.toNat 4 s.pv).2 with
    | some q =>
      obtain ⟨t, h1, h2⟩ := fetchRead_fault hi a 4 hp
      have hq : q = r := by simpa [List.findSome?_cons, hp] using h
      subst hq
      exact ⟨t, by simp only [Config.maxAccess, h1, Res.bind_raise], h2.mono fun x ⟨c, hc, hx⟩ =>
        ⟨c, by rw [List.mem_singleton.1 hc]; simp, hx⟩⟩
    | none =>
      obtain ⟨xs, s1, e1, f1⟩ := fetchRead_ok hi a 4 hp
      have hq : (accessPlan false s.plat (a + 4).toNat (k - 4) s.pv).2 = some r := by
        cases hp2 : (accessPlan false s.plat (a + 4).toNat (k - 4) s.pv).2 with
        | none => simp only [List.findSome?_cons, hp, hp2, List.findSome?_nil] at h; cases h
        | some q => simpa only [List.findSome?_cons, hp, hp2] using h
      rw [← f1.passed.kept.plat, ← f1.passed.kept.pv] at hq
      obtain ⟨t, h1, h2⟩ := fetchRead_fault f1.passed.inv (a + 4) (k - 4) hq
      rw [f1.passed.kept.pv] at h1
      refine ⟨t, ?_, f1.passed.trans h2⟩
      have : BitVec.ofNat 32 Config.maxAccess = (4 : Word) := rfl
      simp only [Config.maxAccess] at this ⊢
      simp only [e1, Res.bind_ok, this, h1, Res.bind_raise]

/-! ### The refill -/

/-- The byte a refill leaves for an address: the kept one, or one that a read of it answers. -/
def FreshByte (s : State) (x : Word) (b : Byte) : Prop :=
  match keptByte s x with
  | some c => b = c
  | none => ∀ v, ramView s x.toNat = some v → b = v

theorem delta_toNat {x : Word} {d : Int} (h : x.toInt = d) (h1 : -7 ≤ d) (h2 : d ≤ 7) :
    (0 ≤ d → (x.toNat : Int) = d) ∧ (d < 0 → (x.toNat : Int) = 2 ^ 32 + d) := by
  rw [BitVec.toInt_eq_toNat_cond] at h
  have := x.isLt
  constructor <;> intro hd <;> split at h <;> omega

/-- Where an address of the new window lies in the old one. -/
theorem window_index (s : State) (k : Nat) (hk : k < 8) :
    ((s.ip + BitVec.ofNat 32 k) - s.winBase).toNat = ((s.ip - s.winBase).toNat + k) % 2 ^ 32 := by
  rw [show (s.ip + BitVec.ofNat 32 k) - s.winBase = (s.ip - s.winBase) + BitVec.ofNat 32 k by ring,
    BitVec.toNat_add, BitVec.toNat_ofNat, Nat.mod_eq_of_lt (show k < 2 ^ 32 by omega)]

theorem keptByte_none_of {s : State} (h : s.winValid = false ∨ (s.ip - s.winBase).toInt < -7 ∨
    7 < (s.ip - s.winBase).toInt) (x : Word) : keptByte s x = none := by
  unfold keptByte
  rcases h with h | h | h
  · simp [h]
  · rw [if_neg]
    simp only [Bool.and_eq_true, decide_eq_true_eq]
    omega
  · rw [if_neg]
    simp only [Bool.and_eq_true, decide_eq_true_eq]
    omega

theorem keptByte_in {s : State} (hw : s.winValid = true) (h1 : -7 ≤ (s.ip - s.winBase).toInt)
    (h2 : (s.ip - s.winBase).toInt ≤ 7) {k : Nat} (hk : k < 8) :
    keptByte s (s.ip + BitVec.ofNat 32 k) =
      if ((s.ip - s.winBase).toNat + k) % 2 ^ 32 < 8 then
        some (s.win.byte (((s.ip - s.winBase).toNat + k) % 2 ^ 32)) else none := by
  have hc : (true && decide (-7 ≤ (s.ip - s.winBase).toInt ∧ (s.ip - s.winBase).toInt ≤ 7) : Bool) = true := by
    rw [Bool.true_and, decide_eq_true_eq]
    exact ⟨h1, h2⟩
  unfold keptByte
  rw [window_index s k hk, hw, hc, Bool.true_and]
  simp only [decide_eq_true_eq]

/-- The bytes a refill puts into the window. -/
structure Refilled (s : State) (bs : List Byte) (t : State) : Prop where
  passed : Passed s (refillReach s) t
  bytes : ∀ k, k < 8 → FreshByte s (s.ip + BitVec.ofNat 32 k) (bs.getD k 0)

theorem refill_full {s : State} (hi : StateInv s)
    (hno : s.winValid = false ∨ (s.ip - s.winBase).toInt < -7 ∨ 7 < (s.ip - s.winBase).toInt)
    (hr : readsReach (runReads s.ip 8) = refillReach s)
    (h : ∀ e ∈ runReads s.ip 8, (accessPlan false s.plat e.1.toNat e.2 s.pv).2 = none) :
    ∃ bs t, fullRefill s.ip s.pv s = .ok bs t ∧ Refilled s bs t := by
  obtain ⟨bs, t, h1, h2⟩ := fetchRun_ok hi s.ip 8 h
  refine ⟨bs, t, h1, hr ▸ h2.passed, ?_⟩
  intro k hk
  unfold FreshByte
  rw [keptByte_none_of hno]
  exact h2.bytes k hk

theorem refillBytes_ok {s : State} (hi : StateInv s) (h : FetchPermitted s) :
    ∃ bs t, refillBytes s = .ok bs t ∧ Refilled s bs t := by
  have hr : readsReach (refillReads s) = refillReach s := rfl
  unfold FetchPermitted at h
  unfold refillReads at h hr
  unfold refillBytes
  simp only [Config.maxShift]
  cases hw : s.winValid with
  | false =>
    simp only [hw, Bool.false_eq_true, if_false] at h hr ⊢
    exact refill_full hi (.inl hw) hr h
  | true =>
    simp only [hw, if_true] at h hr ⊢
    by_cases h0 : (s.ip - s.winBase).toInt = 0
    · rw [if_pos h0]
      refine ⟨s.win.toList, s, rfl, .refl hi _, ?_⟩
      intro k hk
      unfold FreshByte
      have hd := (delta_toNat h0 (by omega) (by omega)).1 (le_refl _)
      have hz : (s.ip - s.winBase).toNat = 0 := by omega
      rw [keptByte_in hw (by omega) (by omega) hk, hz, Nat.zero_add, Nat.mod_eq_of_lt (by omega), if_pos hk]
      exact Window.toList_getD s.win hk
    · rw [if_neg h0] at h hr ⊢
      by_cases h1 : 1 ≤ (s.ip - s.winBase).toInt ∧ (s.ip - s.winBase).toInt ≤ 7
      · rw [if_pos h1] at h hr ⊢
        have hd := (delta_toNat (x := s.ip - s.winBase) rfl (by omega) (by omega)).1 (by omega)
        obtain ⟨d, hdn⟩ : ∃ d : Nat, (s.ip - s.winBase).toInt = d :=
          ⟨(s.ip - s.winBase).toInt.toNat, by omega⟩
        rw [hdn] at h hr h1 hd ⊢
        have hd7 : 1 ≤ d ∧ d ≤ 7 := by omega
        rw [Int.toNat_natCast] at h hr ⊢
        have ha : BitVec.ofInt 32 (8 - (d : Int)) = BitVec.ofNat 32 (8 - d) := by
          rw [← BitVec.ofInt_natCast]
          congr 1
          omega
        rw [ha] at h hr
        obtain ⟨bs, t, e1, f1⟩ := fetchRun_ok hi (s.ip + BitVec.ofNat 32 (8 - d)) d h
        refine ⟨s.win.toList.drop d ++ bs, t, ?_, hr ▸ f1.passed, ?_⟩
        · simp only [Config.windowBytes, e1, Res.map_ok]
        · intro k hk
          have hdt : (s.ip - s.winBase).toNat = d := by omega
          unfold FreshByte
          rw [keptByte_in hw (by omega) (by omega) hk, hdt, Nat.mod_eq_of_lt (by omega)]
          by_cases hkd : d + k < 8
          · rw [if_pos hkd]
            simp only
            rw [List.getD_eq_getElem?_getD, List.getElem?_append_left (by
              rw [List.length_drop, Window.toList_length]; omega), List.getElem?_drop,
              ← List.getD_eq_getElem?_getD]
            exact Window.toList_getD s.win hkd
          · rw [if_neg hkd]
            intro v hv
            rw [List.getD_eq_getElem?_getD, List.getElem?_append_right (by
              rw [List.length_drop, Window.toList_length]; omega), ← List.getD_eq_getElem?_getD,
              List.length_drop, Window.toList_length]
            refine f1.bytes (k - (8 - d)) (by omega) v ?_
            rw [← hv]
            congr 2
            apply BitVec.eq_of_toNat_eq
            simp only [BitVec.toNat_add, BitVec.toNat_ofNat]
            omega
      · rw [if_neg h1] at h hr ⊢
        by_cases h2 : -7 ≤ (s.ip - s.winBase).toInt ∧ (s.ip - s.winBase).toInt ≤ -1
        · rw [if_pos h2] at h hr ⊢
          have hd := (delta_toNat (x := s.ip - s.winBase) rfl (by omega) (by omega)).2 (by omega)
          obtain ⟨d, hdn⟩ : ∃ d : Nat, (s.ip - s.winBase).toInt = -(d : Int) :=
            ⟨(-(s.ip - s.winBase).toInt).toNat, by omega⟩
          rw [hdn] at h hr h2 hd ⊢
          have hd7 : 1 ≤ d ∧ d ≤ 7 := by omega
          rw [neg_neg, Int.toNat_natCast] at h hr ⊢
          obtain ⟨bs, t, e1, f1⟩ := fetchRun_ok hi s.ip d h
          refine ⟨bs ++ s.win.toList.take (8 - d), t, ?_, hr ▸ f1.passed, ?_⟩
          · simp only [Config.windowBytes, e1, Res.map_ok]
          · intro k hk
            have hdt : (s.ip - s.winBase).toNat = 2 ^ 32 - d := by omega
            unfold FreshByte
            rw [keptByte_in hw (by omega) (by omega) hk, hdt]
            by_cases hkd : k < d
            · rw [if_neg (by omega)]
              intro v hv
              rw [List.getD_eq_getElem?_getD, List.getElem?_append_left (by rw [f1.length]; exact hkd),
                ← List.getD_eq_getElem?_getD]
              exact f1.bytes k hkd v hv
            · have hm : (2 ^ 32 - d + k) % 2 ^ 32 = k - d := by omega
              rw [hm, if_pos (by omega)]
              simp only
              rw [List.getD_eq_getElem?_getD, List.getElem?_append_right (by rw [f1.length]; omega), f1.length,
                List.getElem?_take_of_lt (by omega), ← List.getD_eq_getElem?_getD]
              exact Window.toList_getD s.win (by omega)
        · rw [if_neg h2] at h hr ⊢
          exact refill_full hi (.inr (by omega)) hr h

theorem refillBytes_fault {s : State} (hi : StateInv s) {r : Fault} (h : fetchFault s = some r) :
    ∃ t, refillBytes s = .raise r t ∧ Passed s (refillReach s) t := by
  change readsFault s (refillReads s) = some r at h
  have hr : readsReach (refillReads s) = refillReach s := rfl
  unfold refillReads at h hr
  unfold refillBytes
  simp only [Config.maxShift]
  cases hw : s.winValid with
  | false =>
    simp only [hw, Bool.false_eq_true, if_false] at h hr ⊢
    exact hr ▸ fetchRun_fault hi s.ip 8 h
  | true =>
    simp only [hw, if_true] at h hr ⊢
    by_cases h0 : (s.ip - s.winBase).toInt = 0
    · rw [if_pos h0] at h
      simp [readsFault] at h
    · rw [if_neg h0] at h hr ⊢
      by_cases h1 : 1 ≤ (s.ip - s.winBase).toInt ∧ (s.ip - s.winBase).toInt ≤ 7
      · rw [if_pos h1] at h hr ⊢
        have ha : BitVec.ofInt 32 (8 - (s.ip - s.winBase).toInt) =
            BitVec.ofNat 32 (8 - (s.ip - s.winBase).toInt.toNat) := by
          rw [← BitVec.ofInt_natCast]
          congr 1
          omega
        rw [ha] at h hr
        obtain ⟨t, e1, f1⟩ := fetchRun_fault hi _ _ h
        exact ⟨t, by simp only [Config.windowBytes, e1, Res.map_raise], hr ▸ f1⟩
      · rw [if_neg h1] at h hr ⊢
        by_cases h2 : -7 ≤ (s.ip - s.winBase).toInt ∧ (s.ip - s.winBase).toInt ≤ -1
        · rw [if_pos h2] at h hr ⊢
          obtain ⟨t, e1, f1⟩ := fetchRun_fault hi _ _ h
          exact ⟨t, by simp only [e1, Res.map_raise], hr ▸ f1⟩
        · rw [if_neg h2] at h hr ⊢
          exact hr ▸ fetchRun_fault hi s.ip 8 h

/-- What a refill leaves: registers, platform and view as before, devices apart. -/
structure RefillLeft (s t : State) : Prop where
  inv : StateInv t
  regs : regsOf t = regsOf s
  plat : t.plat = s.plat
  device : DeviceOnly s t
  ram : SameRam s t
  silent : NoDevice s (refillReach s) → Silent s t

theorem RefillLeft.of_passed {s t : State} (h : Passed s (refillReach s) t) (w : Window) (b : Word) (v : Bool) :
    RefillLeft s { t with win := w, winBase := b, winValid := v } := by
  refine ⟨h.inv.congr rfl rfl rfl, by rw [← h.kept.regs]; rfl, h.kept.plat, h.kept.rest.device, ?_,
    fun hn => (h.silent hn).of_fields (t := t) rfl rfl rfl rfl rfl rfl⟩
  intro x
  rw [← h.ram x]
  exact ramView_congr (s := t) rfl rfl rfl x

/-- A permitted refill: the window stands at IP, each byte kept or read (R91, R92). -/
theorem refill_ok {s : State} (hi : StateInv s) (h : FetchPermitted s) :
    ∃ t, refill s = .ok () t ∧ RefillLeft s t ∧ t.winBase = s.ip ∧ t.winValid = true ∧
      ∀ k, k < 8 → FreshByte s (s.ip + BitVec.ofNat 32 k) (t.win.byte k) := by
  obtain ⟨bs, t, e, f⟩ := refillBytes_ok hi h
  refine ⟨{ t with win := Window.ofList bs, winBase := s.ip, winValid := true }, ?_,
    .of_passed f.passed _ _ _, rfl, rfl, ?_⟩
  · unfold refill
    rw [e]
  intro k hk
  simp only
  rw [Window.byte_ofList bs hk]
  exact f.bytes k hk

/-- A refused refill: the first fault of its reads, and the window is invalid (R95). -/
theorem refill_fault {s : State} (hi : StateInv s) {r : Fault} (h : fetchFault s = some r) :
    ∃ t, refill s = .raise r t ∧ RefillLeft s t ∧ t.winValid = false := by
  obtain ⟨t, e, f⟩ := refillBytes_fault hi h
  refine ⟨{ t with winValid := false }, ?_, .of_passed f t.win t.winBase false, rfl⟩
  unfold refill
  rw [e]

/-- A refill is permitted or has a first fault. -/
theorem fetch_cases (s : State) : FetchPermitted s ∨ ∃ r, fetchFault s = some r := by
  cases h : fetchFault s with
  | some r => exact .inr ⟨r, rfl⟩
  | none => exact .inl fun e he => List.findSome?_eq_none_iff.1 h e he

end Sys2Proof.Machine
end

