-- ==== Sys2Proof/Laws/PerInstr.lean ====
section
/-! SUPPORT. Statements about every instruction, one lemma per constructor of `Instr`. -/

namespace Sys2Proof.Laws

/-! ### Lengths of the operand forms' encodings -/

theorem leField_length (w : Width) (v : BitVec w.bits) : (leField w v).length = w.bytes := by cases w <;> rfl

theorem encodeMem_length (m : MemOp) : (encodeMem m).length = m.tail := by cases m <;> rfl

theorem encodeRim2_length {wd ws : Width} (s : Bool) (o : Rim2 wd ws) : (encodeRim2 s o).length = 1 + o.tail := by
  cases o <;> simp [encodeRim2, Rim2.tail, encodeMem_length, leField_length, Nat.add_comm]

theorem encodeRimSrc_length {w : Width} (s : Bool) (o : RimSrc w) : (encodeRimSrc s o).length = 1 + o.tail := by
  cases o <;> simp [encodeRimSrc, RimSrc.tail, encodeMem_length, leField_length, Nat.add_comm]

theorem encodeRimDst_length {w : Width} (s : Bool) (o : RimDst w) : (encodeRimDst s o).length = 1 + o.tail := by
  cases o <;> simp [encodeRimDst, RimDst.tail, encodeMem_length, Nat.add_comm]

theorem encodeRim2Sz_length (o : Rim2Sz) : (encodeRim2Sz o).length = 1 + o.tail := by
  cases o <;> exact encodeRim2_length _ _

theorem encodeRim2Prom_length (o : Rim2Prom) : (encodeRim2Prom o).length = 1 + o.tail := by
  cases o <;> exact encodeRim2_length _ _

theorem encodeRimSrcSz_length (o : RimSrcSz) : (encodeRimSrcSz o).length = 1 + o.tail := by
  cases o <;> exact encodeRimSrc_length _ _

theorem encodeRimDstSz_length (o : RimDstSz) : (encodeRimDstSz o).length = 1 + o.tail := by
  cases o <;> exact encodeRimDst_length _ _

/-- An opcode byte before an operand form. -/
theorem opcode_length {op : Byte} {l : List Byte} {k : Nat} (h : l.length = 1 + k) : (op :: l).length = 2 + k := by
  rw [List.length_cons, h]
  omega

/-- An opcode byte before an operand form and EI8 after it. -/
theorem opcode_ei8_length {op x : Byte} {l : List Byte} {k : Nat} (h : l.length = 1 + k) :
    (op :: (l ++ [x])).length = 3 + k := by
  rw [List.length_cons, List.length_append, h, List.length_singleton]
  omega

/-! ### The length of every encoding (spec/30_encoding.md R126) -/

/-- An instruction's encoding has the instruction's length. -/
def EncodeLength.Statement (i : Instr) : Prop := (encode i).length = i.len

theorem EncodeLength.nop : EncodeLength.Statement .nop := rfl

theorem EncodeLength.hlt : EncodeLength.Statement .hlt := rfl

theorem EncodeLength.ret : EncodeLength.Statement .ret := rfl

theorem EncodeLength.iret : EncodeLength.Statement .iret := rfl

theorem EncodeLength.int (v : BitVec 8) : EncodeLength.Statement (.int v) := rfl

theorem EncodeLength.movToIsp (o : RimSrc .b32) : EncodeLength.Statement (.movToIsp o) :=
  opcode_length (encodeRimSrc_length _ o)

theorem EncodeLength.movFromIsp (o : RimDst .b32) : EncodeLength.Statement (.movFromIsp o) :=
  opcode_length (encodeRimDst_length _ o)

theorem EncodeLength.movToPf (o : RimSrc .b16) : EncodeLength.Statement (.movToPf o) :=
  opcode_length (encodeRimSrc_length _ o)

theorem EncodeLength.movFromPf (o : RimDst .b16) : EncodeLength.Statement (.movFromPf o) :=
  opcode_length (encodeRimDst_length _ o)

theorem EncodeLength.pushPf : EncodeLength.Statement .pushPf := rfl

theorem EncodeLength.popPf : EncodeLength.Statement .popPf := rfl

theorem EncodeLength.movImmA (imm : BitVec 16) : EncodeLength.Statement (.movImmA imm) := rfl

theorem EncodeLength.movImmB (imm : BitVec 16) : EncodeLength.Statement (.movImmB imm) := rfl

theorem EncodeLength.movImmC (imm : BitVec 16) : EncodeLength.Statement (.movImmC imm) := rfl

theorem EncodeLength.movImmD (imm : BitVec 16) : EncodeLength.Statement (.movImmD imm) := rfl

theorem EncodeLength.movImmI (imm : BitVec 16) : EncodeLength.Statement (.movImmI imm) := rfl

theorem EncodeLength.movImmJ (imm : BitVec 16) : EncodeLength.Statement (.movImmJ imm) := rfl

theorem EncodeLength.movImmK (imm : BitVec 16) : EncodeLength.Statement (.movImmK imm) := rfl

theorem EncodeLength.movImmL (imm : BitVec 16) : EncodeLength.Statement (.movImmL imm) := rfl

theorem EncodeLength.mov (o : Rim2Sz) : EncodeLength.Statement (.mov o) :=
  opcode_length (encodeRim2Sz_length o)

theorem EncodeLength.movw (o : Rim2 .b32 .b32) : EncodeLength.Statement (.movw o) :=
  opcode_length (encodeRim2_length _ o)

theorem EncodeLength.movs (o : Rim2Prom) : EncodeLength.Statement (.movs o) :=
  opcode_length (encodeRim2Prom_length o)

theorem EncodeLength.movz (o : Rim2Prom) : EncodeLength.Statement (.movz o) :=
  opcode_length (encodeRim2Prom_length o)

theorem EncodeLength.cmov (o : Rim2Sz) (cc : BitVec 8) : EncodeLength.Statement (.cmov o cc) :=
  opcode_ei8_length (encodeRim2Sz_length o)

theorem EncodeLength.pcmov (l : Lane) (o : Rim2 .b16 .b16) (cc : BitVec 8) : EncodeLength.Statement (.pcmov l o cc) :=
  opcode_ei8_length (encodeRim2_length _ o)

theorem EncodeLength.pushA : EncodeLength.Statement .pushA := rfl

theorem EncodeLength.pushB : EncodeLength.Statement .pushB := rfl

theorem EncodeLength.pushC : EncodeLength.Statement .pushC := rfl

theorem EncodeLength.pushD : EncodeLength.Statement .pushD := rfl

theorem EncodeLength.pushI : EncodeLength.Statement .pushI := rfl

theorem EncodeLength.pushJ : EncodeLength.Statement .pushJ := rfl

theorem EncodeLength.pushK : EncodeLength.Statement .pushK := rfl

theorem EncodeLength.pushL : EncodeLength.Statement .pushL := rfl

theorem EncodeLength.popA : EncodeLength.Statement .popA := rfl

theorem EncodeLength.popB : EncodeLength.Statement .popB := rfl

theorem EncodeLength.popC : EncodeLength.Statement .popC := rfl

theorem EncodeLength.popD : EncodeLength.Statement .popD := rfl

theorem EncodeLength.popI : EncodeLength.Statement .popI := rfl

theorem EncodeLength.popJ : EncodeLength.Statement .popJ := rfl

theorem EncodeLength.popK : EncodeLength.Statement .popK := rfl

theorem EncodeLength.popL : EncodeLength.Statement .popL := rfl

theorem EncodeLength.pushBp : EncodeLength.Statement .pushBp := rfl

theorem EncodeLength.pushSp : EncodeLength.Statement .pushSp := rfl

theorem EncodeLength.popBp : EncodeLength.Statement .popBp := rfl

theorem EncodeLength.popSp : EncodeLength.Statement .popSp := rfl

theorem EncodeLength.push (o : RimSrcSz) : EncodeLength.Statement (.push o) :=
  opcode_length (encodeRimSrcSz_length o)

theorem EncodeLength.pop (o : RimDstSz) : EncodeLength.Statement (.pop o) :=
  opcode_length (encodeRimDstSz_length o)

theorem EncodeLength.pushw (o : RimSrc .b32) : EncodeLength.Statement (.pushw o) :=
  opcode_length (encodeRimSrc_length _ o)

theorem EncodeLength.popw (o : RimDst .b32) : EncodeLength.Statement (.popw o) :=
  opcode_length (encodeRimDst_length _ o)

theorem EncodeLength.add (o : Rim2Sz) : EncodeLength.Statement (.add o) :=
  opcode_length (encodeRim2Sz_length o)

theorem EncodeLength.adc (o : Rim2Sz) : EncodeLength.Statement (.adc o) :=
  opcode_length (encodeRim2Sz_length o)

theorem EncodeLength.sub (o : Rim2Sz) : EncodeLength.Statement (.sub o) :=
  opcode_length (encodeRim2Sz_length o)

theorem EncodeLength.sbb (o : Rim2Sz) : EncodeLength.Statement (.sbb o) :=
  opcode_length (encodeRim2Sz_length o)

theorem EncodeLength.cmp (o : Rim2Sz) : EncodeLength.Statement (.cmp o) :=
  opcode_length (encodeRim2Sz_length o)

theorem EncodeLength.cmpi (o : RimDstSz) (imm : BitVec 8) : EncodeLength.Statement (.cmpi o imm) :=
  opcode_ei8_length (encodeRimDstSz_length o)

theorem EncodeLength.addw (o : Rim2 .b32 .b32) : EncodeLength.Statement (.addw o) :=
  opcode_length (encodeRim2_length _ o)

theorem EncodeLength.adcw (o : Rim2 .b32 .b32) : EncodeLength.Statement (.adcw o) :=
  opcode_length (encodeRim2_length _ o)

theorem EncodeLength.subw (o : Rim2 .b32 .b32) : EncodeLength.Statement (.subw o) :=
  opcode_length (encodeRim2_length _ o)

theorem EncodeLength.sbbw (o : Rim2 .b32 .b32) : EncodeLength.Statement (.sbbw o) :=
  opcode_length (encodeRim2_length _ o)

theorem EncodeLength.cmpw (o : Rim2 .b32 .b32) : EncodeLength.Statement (.cmpw o) :=
  opcode_length (encodeRim2_length _ o)

theorem EncodeLength.padd (l : Lane) (o : Rim2 .b16 .b16) : EncodeLength.Statement (.padd l o) :=
  opcode_length (encodeRim2_length _ o)

theorem EncodeLength.padc (l : Lane) (o : Rim2 .b16 .b16) : EncodeLength.Statement (.padc l o) :=
  opcode_length (encodeRim2_length _ o)

theorem EncodeLength.psub (l : Lane) (o : Rim2 .b16 .b16) : EncodeLength.Statement (.psub l o) :=
  opcode_length (encodeRim2_length _ o)

theorem EncodeLength.psbb (l : Lane) (o : Rim2 .b16 .b16) : EncodeLength.Statement (.psbb l o) :=
  opcode_length (encodeRim2_length _ o)

theorem EncodeLength.pcmp (l : Lane) (o : Rim2 .b16 .b16) : EncodeLength.Statement (.pcmp l o) :=
  opcode_length (encodeRim2_length _ o)

theorem EncodeLength.mul (o : Rim2Sz) : EncodeLength.Statement (.mul o) :=
  opcode_length (encodeRim2Sz_length o)

theorem EncodeLength.mulh (o : Rim2Prom) : EncodeLength.Statement (.mulh o) :=
  opcode_length (encodeRim2Prom_length o)

theorem EncodeLength.mulsh (o : Rim2Prom) : EncodeLength.Statement (.mulsh o) :=
  opcode_length (encodeRim2Prom_length o)

theorem EncodeLength.div (o : Rim2Sz) : EncodeLength.Statement (.div o) :=
  opcode_length (encodeRim2Sz_length o)

theorem EncodeLength.divs (o : Rim2Sz) : EncodeLength.Statement (.divs o) :=
  opcode_length (encodeRim2Sz_length o)

theorem EncodeLength.divm (o : Rim2Prom) : EncodeLength.Statement (.divm o) :=
  opcode_length (encodeRim2Prom_length o)

theorem EncodeLength.divms (o : Rim2Prom) : EncodeLength.Statement (.divms o) :=
  opcode_length (encodeRim2Prom_length o)

theorem EncodeLength.pmul (l : Lane) (o : Rim2 .b16 .b16) : EncodeLength.Statement (.pmul l o) :=
  opcode_length (encodeRim2_length _ o)

theorem EncodeLength.pmulh (l : Lane) (o : Rim2 .b32 .b16) : EncodeLength.Statement (.pmulh l o) :=
  opcode_length (encodeRim2_length _ o)

theorem EncodeLength.pmulsh (l : Lane) (o : Rim2 .b32 .b16) : EncodeLength.Statement (.pmulsh l o) :=
  opcode_length (encodeRim2_length _ o)

theorem EncodeLength.pdiv (l : Lane) (o : Rim2 .b16 .b16) : EncodeLength.Statement (.pdiv l o) :=
  opcode_length (encodeRim2_length _ o)

theorem EncodeLength.pdivs (l : Lane) (o : Rim2 .b16 .b16) : EncodeLength.Statement (.pdivs l o) :=
  opcode_length (encodeRim2_length _ o)

theorem EncodeLength.pdivm (l : Lane) (o : Rim2 .b32 .b16) : EncodeLength.Statement (.pdivm l o) :=
  opcode_length (encodeRim2_length _ o)

theorem EncodeLength.pdivms (l : Lane) (o : Rim2 .b32 .b16) : EncodeLength.Statement (.pdivms l o) :=
  opcode_length (encodeRim2_length _ o)

theorem EncodeLength.and (o : Rim2Sz) : EncodeLength.Statement (.and o) :=
  opcode_length (encodeRim2Sz_length o)

theorem EncodeLength.or (o : Rim2Sz) : EncodeLength.Statement (.or o) :=
  opcode_length (encodeRim2Sz_length o)

theorem EncodeLength.xor (o : Rim2Sz) : EncodeLength.Statement (.xor o) :=
  opcode_length (encodeRim2Sz_length o)

theorem EncodeLength.not (o : RimDstSz) : EncodeLength.Statement (.not o) :=
  opcode_length (encodeRimDstSz_length o)

theorem EncodeLength.shl (o : Rim2Sz) : EncodeLength.Statement (.shl o) :=
  opcode_length (encodeRim2Sz_length o)

theorem EncodeLength.shr (o : Rim2Sz) : EncodeLength.Statement (.shr o) :=
  opcode_length (encodeRim2Sz_length o)

theorem EncodeLength.sar (o : Rim2Sz) : EncodeLength.Statement (.sar o) :=
  opcode_length (encodeRim2Sz_length o)

theorem EncodeLength.rol (o : Rim2Sz) : EncodeLength.Statement (.rol o) :=
  opcode_length (encodeRim2Sz_length o)

theorem EncodeLength.ror (o : Rim2Sz) : EncodeLength.Statement (.ror o) :=
  opcode_length (encodeRim2Sz_length o)

theorem EncodeLength.rcl (o : Rim2Sz) : EncodeLength.Statement (.rcl o) :=
  opcode_length (encodeRim2Sz_length o)

theorem EncodeLength.rcr (o : Rim2Sz) : EncodeLength.Statement (.rcr o) :=
  opcode_length (encodeRim2Sz_length o)

theorem EncodeLength.shl1 (o : RimDstSz) : EncodeLength.Statement (.shl1 o) :=
  opcode_length (encodeRimDstSz_length o)

theorem EncodeLength.shr1 (o : RimDstSz) : EncodeLength.Statement (.shr1 o) :=
  opcode_length (encodeRimDstSz_length o)

theorem EncodeLength.sar1 (o : RimDstSz) : EncodeLength.Statement (.sar1 o) :=
  opcode_length (encodeRimDstSz_length o)

theorem EncodeLength.rol1 (o : RimDstSz) : EncodeLength.Statement (.rol1 o) :=
  opcode_length (encodeRimDstSz_length o)

theorem EncodeLength.ror1 (o : RimDstSz) : EncodeLength.Statement (.ror1 o) :=
  opcode_length (encodeRimDstSz_length o)

theorem EncodeLength.rcl1 (o : RimDstSz) : EncodeLength.Statement (.rcl1 o) :=
  opcode_length (encodeRimDstSz_length o)

theorem EncodeLength.rcr1 (o : RimDstSz) : EncodeLength.Statement (.rcr1 o) :=
  opcode_length (encodeRimDstSz_length o)

theorem EncodeLength.jmpRel8 (d : BitVec 8) : EncodeLength.Statement (.jmpRel8 d) := rfl

theorem EncodeLength.jmpRel16 (d : BitVec 16) : EncodeLength.Statement (.jmpRel16 d) := rfl

theorem EncodeLength.jmpRel32 (d : BitVec 32) : EncodeLength.Statement (.jmpRel32 d) := rfl

theorem EncodeLength.jmpa (o : RimSrc .b32) : EncodeLength.Statement (.jmpa o) :=
  opcode_length (encodeRimSrc_length _ o)

theorem EncodeLength.callRel16 (d : BitVec 16) : EncodeLength.Statement (.callRel16 d) := rfl

theorem EncodeLength.callRel32 (d : BitVec 32) : EncodeLength.Statement (.callRel32 d) := rfl

theorem EncodeLength.calla (o : RimSrc .b32) : EncodeLength.Statement (.calla o) :=
  opcode_length (encodeRimSrc_length _ o)

theorem EncodeLength.jccRel8 (cc : BitVec 8) (d : BitVec 8) : EncodeLength.Statement (.jccRel8 cc d) := rfl

theorem EncodeLength.jccRel16 (cc : BitVec 8) (d : BitVec 16) : EncodeLength.Statement (.jccRel16 cc d) := rfl

end Sys2Proof.Laws
end

