-- ==== Sys2Proof/Laws/State.lean ====
section
/-! SUPPORT. What each named update of a state leaves of each field, so that no proof unfolds a record update:
registers (`setReg16`, `setReg8`, `setReg32`), PF (`setPf`), the latch (`fireNonMaskable`), a cache line
(`setLine`). -/

namespace Sys2Proof.Machine

/-! ### Updates true by unfolding -/

@[simp] theorem setPf_rA (v : Half) (s : State) : (setPf v s).rA = s.rA := rfl
@[simp] theorem setPf_rB (v : Half) (s : State) : (setPf v s).rB = s.rB := rfl
@[simp] theorem setPf_rC (v : Half) (s : State) : (setPf v s).rC = s.rC := rfl
@[simp] theorem setPf_rD (v : Half) (s : State) : (setPf v s).rD = s.rD := rfl
@[simp] theorem setPf_rI (v : Half) (s : State) : (setPf v s).rI = s.rI := rfl
@[simp] theorem setPf_rJ (v : Half) (s : State) : (setPf v s).rJ = s.rJ := rfl
@[simp] theorem setPf_rK (v : Half) (s : State) : (setPf v s).rK = s.rK := rfl
@[simp] theorem setPf_rL (v : Half) (s : State) : (setPf v s).rL = s.rL := rfl
@[simp] theorem setPf_ip (v : Half) (s : State) : (setPf v s).ip = s.ip := rfl
@[simp] theorem setPf_sp (v : Half) (s : State) : (setPf v s).sp = s.sp := rfl
@[simp] theorem setPf_bp (v : Half) (s : State) : (setPf v s).bp = s.bp := rfl
@[simp] theorem setPf_isp (v : Half) (s : State) : (setPf v s).isp = s.isp := rfl
@[simp] theorem setPf_f (v : Half) (s : State) : (setPf v s).f = s.f := rfl
@[simp] theorem setPf_ie (v : Half) (s : State) : (setPf v s).ie = v.getLsbD 0 := rfl
@[simp] theorem setPf_pv (v : Half) (s : State) : (setPf v s).pv = v.getLsbD 1 := rfl
@[simp] theorem setPf_ii (v : Half) (s : State) : (setPf v s).ii = v.getLsbD 2 := rfl
@[simp] theorem setPf_halted (v : Half) (s : State) : (setPf v s).halted = s.halted := rfl
@[simp] theorem setPf_pend (v : Half) (s : State) : (setPf v s).pend = s.pend := rfl
@[simp] theorem setPf_pendVec (v : Half) (s : State) : (setPf v s).pendVec = s.pendVec := rfl
@[simp] theorem setPf_win (v : Half) (s : State) : (setPf v s).win = s.win := rfl
@[simp] theorem setPf_winBase (v : Half) (s : State) : (setPf v s).winBase = s.winBase := rfl
@[simp] theorem setPf_winValid (v : Half) (s : State) : (setPf v s).winValid = s.winValid := rfl
@[simp] theorem setPf_cache (v : Half) (s : State) : (setPf v s).cache = s.cache := rfl
@[simp] theorem setPf_mem (v : Half) (s : State) : (setPf v s).mem = s.mem := rfl
@[simp] theorem setPf_plat (v : Half) (s : State) : (setPf v s).plat = s.plat := rfl
@[simp] theorem setPf_devLog (v : Half) (s : State) : (setPf v s).devLog = s.devLog := rfl
@[simp] theorem setPf_devCount (v : Half) (s : State) : (setPf v s).devCount = s.devCount := rfl

@[simp] theorem fireNonMaskable_rA (v : BitVec 8) (s : State) : (fireNonMaskable v s).rA = s.rA := rfl
@[simp] theorem fireNonMaskable_rB (v : BitVec 8) (s : State) : (fireNonMaskable v s).rB = s.rB := rfl
@[simp] theorem fireNonMaskable_rC (v : BitVec 8) (s : State) : (fireNonMaskable v s).rC = s.rC := rfl
@[simp] theorem fireNonMaskable_rD (v : BitVec 8) (s : State) : (fireNonMaskable v s).rD = s.rD := rfl
@[simp] theorem fireNonMaskable_rI (v : BitVec 8) (s : State) : (fireNonMaskable v s).rI = s.rI := rfl
@[simp] theorem fireNonMaskable_rJ (v : BitVec 8) (s : State) : (fireNonMaskable v s).rJ = s.rJ := rfl
@[simp] theorem fireNonMaskable_rK (v : BitVec 8) (s : State) : (fireNonMaskable v s).rK = s.rK := rfl
@[simp] theorem fireNonMaskable_rL (v : BitVec 8) (s : State) : (fireNonMaskable v s).rL = s.rL := rfl
@[simp] theorem fireNonMaskable_ip (v : BitVec 8) (s : State) : (fireNonMaskable v s).ip = s.ip := rfl
@[simp] theorem fireNonMaskable_sp (v : BitVec 8) (s : State) : (fireNonMaskable v s).sp = s.sp := rfl
@[simp] theorem fireNonMaskable_bp (v : BitVec 8) (s : State) : (fireNonMaskable v s).bp = s.bp := rfl
@[simp] theorem fireNonMaskable_isp (v : BitVec 8) (s : State) : (fireNonMaskable v s).isp = s.isp := rfl
@[simp] theorem fireNonMaskable_f (v : BitVec 8) (s : State) : (fireNonMaskable v s).f = s.f := rfl
@[simp] theorem fireNonMaskable_ie (v : BitVec 8) (s : State) : (fireNonMaskable v s).ie = s.ie := rfl
@[simp] theorem fireNonMaskable_pv (v : BitVec 8) (s : State) : (fireNonMaskable v s).pv = s.pv := rfl
@[simp] theorem fireNonMaskable_ii (v : BitVec 8) (s : State) : (fireNonMaskable v s).ii = s.ii := rfl
@[simp] theorem fireNonMaskable_halted (v : BitVec 8) (s : State) : (fireNonMaskable v s).halted = s.halted := rfl
@[simp] theorem fireNonMaskable_pend (v : BitVec 8) (s : State) : (fireNonMaskable v s).pend = true := rfl
@[simp] theorem fireNonMaskable_pendVec (v : BitVec 8) (s : State) : (fireNonMaskable v s).pendVec = v := rfl
@[simp] theorem fireNonMaskable_win (v : BitVec 8) (s : State) : (fireNonMaskable v s).win = s.win := rfl
@[simp] theorem fireNonMaskable_winBase (v : BitVec 8) (s : State) : (fireNonMaskable v s).winBase = s.winBase := rfl
@[simp] theorem fireNonMaskable_winValid (v : BitVec 8) (s : State) : (fireNonMaskable v s).winValid = s.winValid := rfl
@[simp] theorem fireNonMaskable_cache (v : BitVec 8) (s : State) : (fireNonMaskable v s).cache = s.cache := rfl
@[simp] theorem fireNonMaskable_mem (v : BitVec 8) (s : State) : (fireNonMaskable v s).mem = s.mem := rfl
@[simp] theorem fireNonMaskable_plat (v : BitVec 8) (s : State) : (fireNonMaskable v s).plat = s.plat := rfl
@[simp] theorem fireNonMaskable_devLog (v : BitVec 8) (s : State) : (fireNonMaskable v s).devLog = s.devLog := rfl
@[simp] theorem fireNonMaskable_devCount (v : BitVec 8) (s : State) : (fireNonMaskable v s).devCount = s.devCount := rfl

@[simp] theorem setLine_rA (i : Nat) (ln : CacheLine) (s : State) : (setLine i ln s).rA = s.rA := rfl
@[simp] theorem setLine_rB (i : Nat) (ln : CacheLine) (s : State) : (setLine i ln s).rB = s.rB := rfl
@[simp] theorem setLine_rC (i : Nat) (ln : CacheLine) (s : State) : (setLine i ln s).rC = s.rC := rfl
@[simp] theorem setLine_rD (i : Nat) (ln : CacheLine) (s : State) : (setLine i ln s).rD = s.rD := rfl
@[simp] theorem setLine_rI (i : Nat) (ln : CacheLine) (s : State) : (setLine i ln s).rI = s.rI := rfl
@[simp] theorem setLine_rJ (i : Nat) (ln : CacheLine) (s : State) : (setLine i ln s).rJ = s.rJ := rfl
@[simp] theorem setLine_rK (i : Nat) (ln : CacheLine) (s : State) : (setLine i ln s).rK = s.rK := rfl
@[simp] theorem setLine_rL (i : Nat) (ln : CacheLine) (s : State) : (setLine i ln s).rL = s.rL := rfl
@[simp] theorem setLine_ip (i : Nat) (ln : CacheLine) (s : State) : (setLine i ln s).ip = s.ip := rfl
@[simp] theorem setLine_sp (i : Nat) (ln : CacheLine) (s : State) : (setLine i ln s).sp = s.sp := rfl
@[simp] theorem setLine_bp (i : Nat) (ln : CacheLine) (s : State) : (setLine i ln s).bp = s.bp := rfl
@[simp] theorem setLine_isp (i : Nat) (ln : CacheLine) (s : State) : (setLine i ln s).isp = s.isp := rfl
@[simp] theorem setLine_f (i : Nat) (ln : CacheLine) (s : State) : (setLine i ln s).f = s.f := rfl
@[simp] theorem setLine_ie (i : Nat) (ln : CacheLine) (s : State) : (setLine i ln s).ie = s.ie := rfl
@[simp] theorem setLine_pv (i : Nat) (ln : CacheLine) (s : State) : (setLine i ln s).pv = s.pv := rfl
@[simp] theorem setLine_ii (i : Nat) (ln : CacheLine) (s : State) : (setLine i ln s).ii = s.ii := rfl
@[simp] theorem setLine_halted (i : Nat) (ln : CacheLine) (s : State) : (setLine i ln s).halted = s.halted := rfl
@[simp] theorem setLine_pend (i : Nat) (ln : CacheLine) (s : State) : (setLine i ln s).pend = s.pend := rfl
@[simp] theorem setLine_pendVec (i : Nat) (ln : CacheLine) (s : State) : (setLine i ln s).pendVec = s.pendVec := rfl
@[simp] theorem setLine_win (i : Nat) (ln : CacheLine) (s : State) : (setLine i ln s).win = s.win := rfl
@[simp] theorem setLine_winBase (i : Nat) (ln : CacheLine) (s : State) : (setLine i ln s).winBase = s.winBase := rfl
@[simp] theorem setLine_winValid (i : Nat) (ln : CacheLine) (s : State) : (setLine i ln s).winValid = s.winValid := rfl
@[simp] theorem setLine_cache (i : Nat) (ln : CacheLine) (s : State) : (setLine i ln s).cache = linePut s.cache i ln := rfl
@[simp] theorem setLine_mem (i : Nat) (ln : CacheLine) (s : State) : (setLine i ln s).mem = s.mem := rfl
@[simp] theorem setLine_plat (i : Nat) (ln : CacheLine) (s : State) : (setLine i ln s).plat = s.plat := rfl
@[simp] theorem setLine_devLog (i : Nat) (ln : CacheLine) (s : State) : (setLine i ln s).devLog = s.devLog := rfl
@[simp] theorem setLine_devCount (i : Nat) (ln : CacheLine) (s : State) : (setLine i ln s).devCount = s.devCount := rfl

/-! ### Writes of a numbered register -/

@[simp] theorem setReg16_ip (n : Fin 8) (v : Half) (s : State) : (setReg16 n v s).ip = s.ip := by
  fin_cases n <;> rfl
@[simp] theorem setReg16_sp (n : Fin 8) (v : Half) (s : State) : (setReg16 n v s).sp = s.sp := by
  fin_cases n <;> rfl
@[simp] theorem setReg16_bp (n : Fin 8) (v : Half) (s : State) : (setReg16 n v s).bp = s.bp := by
  fin_cases n <;> rfl
@[simp] theorem setReg16_isp (n : Fin 8) (v : Half) (s : State) : (setReg16 n v s).isp = s.isp := by
  fin_cases n <;> rfl
@[simp] theorem setReg16_f (n : Fin 8) (v : Half) (s : State) : (setReg16 n v s).f = s.f := by
  fin_cases n <;> rfl
@[simp] theorem setReg16_ie (n : Fin 8) (v : Half) (s : State) : (setReg16 n v s).ie = s.ie := by
  fin_cases n <;> rfl
@[simp] theorem setReg16_pv (n : Fin 8) (v : Half) (s : State) : (setReg16 n v s).pv = s.pv := by
  fin_cases n <;> rfl
@[simp] theorem setReg16_ii (n : Fin 8) (v : Half) (s : State) : (setReg16 n v s).ii = s.ii := by
  fin_cases n <;> rfl
@[simp] theorem setReg16_halted (n : Fin 8) (v : Half) (s : State) : (setReg16 n v s).halted = s.halted := by
  fin_cases n <;> rfl
@[simp] theorem setReg16_pend (n : Fin 8) (v : Half) (s : State) : (setReg16 n v s).pend = s.pend := by
  fin_cases n <;> rfl
@[simp] theorem setReg16_pendVec (n : Fin 8) (v : Half) (s : State) : (setReg16 n v s).pendVec = s.pendVec := by
  fin_cases n <;> rfl
@[simp] theorem setReg16_win (n : Fin 8) (v : Half) (s : State) : (setReg16 n v s).win = s.win := by
  fin_cases n <;> rfl
@[simp] theorem setReg16_winBase (n : Fin 8) (v : Half) (s : State) : (setReg16 n v s).winBase = s.winBase := by
  fin_cases n <;> rfl
@[simp] theorem setReg16_winValid (n : Fin 8) (v : Half) (s : State) : (setReg16 n v s).winValid = s.winValid := by
  fin_cases n <;> rfl
@[simp] theorem setReg16_cache (n : Fin 8) (v : Half) (s : State) : (setReg16 n v s).cache = s.cache := by
  fin_cases n <;> rfl
@[simp] theorem setReg16_mem (n : Fin 8) (v : Half) (s : State) : (setReg16 n v s).mem = s.mem := by
  fin_cases n <;> rfl
@[simp] theorem setReg16_plat (n : Fin 8) (v : Half) (s : State) : (setReg16 n v s).plat = s.plat := by
  fin_cases n <;> rfl
@[simp] theorem setReg16_devLog (n : Fin 8) (v : Half) (s : State) : (setReg16 n v s).devLog = s.devLog := by
  fin_cases n <;> rfl
@[simp] theorem setReg16_devCount (n : Fin 8) (v : Half) (s : State) : (setReg16 n v s).devCount = s.devCount := by
  fin_cases n <;> rfl

@[simp] theorem setReg8_rI (n : Fin 8) (v : Byte) (s : State) : (setReg8 n v s).rI = s.rI := by
  fin_cases n <;> rfl
@[simp] theorem setReg8_rJ (n : Fin 8) (v : Byte) (s : State) : (setReg8 n v s).rJ = s.rJ := by
  fin_cases n <;> rfl
@[simp] theorem setReg8_rK (n : Fin 8) (v : Byte) (s : State) : (setReg8 n v s).rK = s.rK := by
  fin_cases n <;> rfl
@[simp] theorem setReg8_rL (n : Fin 8) (v : Byte) (s : State) : (setReg8 n v s).rL = s.rL := by
  fin_cases n <;> rfl
@[simp] theorem setReg8_ip (n : Fin 8) (v : Byte) (s : State) : (setReg8 n v s).ip = s.ip := by
  fin_cases n <;> rfl
@[simp] theorem setReg8_sp (n : Fin 8) (v : Byte) (s : State) : (setReg8 n v s).sp = s.sp := by
  fin_cases n <;> rfl
@[simp] theorem setReg8_bp (n : Fin 8) (v : Byte) (s : State) : (setReg8 n v s).bp = s.bp := by
  fin_cases n <;> rfl
@[simp] theorem setReg8_isp (n : Fin 8) (v : Byte) (s : State) : (setReg8 n v s).isp = s.isp := by
  fin_cases n <;> rfl
@[simp] theorem setReg8_f (n : Fin 8) (v : Byte) (s : State) : (setReg8 n v s).f = s.f := by
  fin_cases n <;> rfl
@[simp] theorem setReg8_ie (n : Fin 8) (v : Byte) (s : State) : (setReg8 n v s).ie = s.ie := by
  fin_cases n <;> rfl
@[simp] theorem setReg8_pv (n : Fin 8) (v : Byte) (s : State) : (setReg8 n v s).pv = s.pv := by
  fin_cases n <;> rfl
@[simp] theorem setReg8_ii (n : Fin 8) (v : Byte) (s : State) : (setReg8 n v s).ii = s.ii := by
  fin_cases n <;> rfl
@[simp] theorem setReg8_halted (n : Fin 8) (v : Byte) (s : State) : (setReg8 n v s).halted = s.halted := by
  fin_cases n <;> rfl
@[simp] theorem setReg8_pend (n : Fin 8) (v : Byte) (s : State) : (setReg8 n v s).pend = s.pend := by
  fin_cases n <;> rfl
@[simp] theorem setReg8_pendVec (n : Fin 8) (v : Byte) (s : State) : (setReg8 n v s).pendVec = s.pendVec := by
  fin_cases n <;> rfl
@[simp] theorem setReg8_win (n : Fin 8) (v : Byte) (s : State) : (setReg8 n v s).win = s.win := by
  fin_cases n <;> rfl
@[simp] theorem setReg8_winBase (n : Fin 8) (v : Byte) (s : State) : (setReg8 n v s).winBase = s.winBase := by
  fin_cases n <;> rfl
@[simp] theorem setReg8_winValid (n : Fin 8) (v : Byte) (s : State) : (setReg8 n v s).winValid = s.winValid := by
  fin_cases n <;> rfl
@[simp] theorem setReg8_cache (n : Fin 8) (v : Byte) (s : State) : (setReg8 n v s).cache = s.cache := by
  fin_cases n <;> rfl
@[simp] theorem setReg8_mem (n : Fin 8) (v : Byte) (s : State) : (setReg8 n v s).mem = s.mem := by
  fin_cases n <;> rfl
@[simp] theorem setReg8_plat (n : Fin 8) (v : Byte) (s : State) : (setReg8 n v s).plat = s.plat := by
  fin_cases n <;> rfl
@[simp] theorem setReg8_devLog (n : Fin 8) (v : Byte) (s : State) : (setReg8 n v s).devLog = s.devLog := by
  fin_cases n <;> rfl
@[simp] theorem setReg8_devCount (n : Fin 8) (v : Byte) (s : State) : (setReg8 n v s).devCount = s.devCount := by
  fin_cases n <;> rfl

@[simp] theorem setReg32_ip (n : Fin 6) (v : Word) (s : State) : (setReg32 n v s).ip = s.ip := by
  fin_cases n <;> rfl
@[simp] theorem setReg32_isp (n : Fin 6) (v : Word) (s : State) : (setReg32 n v s).isp = s.isp := by
  fin_cases n <;> rfl
@[simp] theorem setReg32_f (n : Fin 6) (v : Word) (s : State) : (setReg32 n v s).f = s.f := by
  fin_cases n <;> rfl
@[simp] theorem setReg32_ie (n : Fin 6) (v : Word) (s : State) : (setReg32 n v s).ie = s.ie := by
  fin_cases n <;> rfl
@[simp] theorem setReg32_pv (n : Fin 6) (v : Word) (s : State) : (setReg32 n v s).pv = s.pv := by
  fin_cases n <;> rfl
@[simp] theorem setReg32_ii (n : Fin 6) (v : Word) (s : State) : (setReg32 n v s).ii = s.ii := by
  fin_cases n <;> rfl
@[simp] theorem setReg32_halted (n : Fin 6) (v : Word) (s : State) : (setReg32 n v s).halted = s.halted := by
  fin_cases n <;> rfl
@[simp] theorem setReg32_pend (n : Fin 6) (v : Word) (s : State) : (setReg32 n v s).pend = s.pend := by
  fin_cases n <;> rfl
@[simp] theorem setReg32_pendVec (n : Fin 6) (v : Word) (s : State) : (setReg32 n v s).pendVec = s.pendVec := by
  fin_cases n <;> rfl
@[simp] theorem setReg32_win (n : Fin 6) (v : Word) (s : State) : (setReg32 n v s).win = s.win := by
  fin_cases n <;> rfl
@[simp] theorem setReg32_winBase (n : Fin 6) (v : Word) (s : State) : (setReg32 n v s).winBase = s.winBase := by
  fin_cases n <;> rfl
@[simp] theorem setReg32_winValid (n : Fin 6) (v : Word) (s : State) : (setReg32 n v s).winValid = s.winValid := by
  fin_cases n <;> rfl
@[simp] theorem setReg32_cache (n : Fin 6) (v : Word) (s : State) : (setReg32 n v s).cache = s.cache := by
  fin_cases n <;> rfl
@[simp] theorem setReg32_mem (n : Fin 6) (v : Word) (s : State) : (setReg32 n v s).mem = s.mem := by
  fin_cases n <;> rfl
@[simp] theorem setReg32_plat (n : Fin 6) (v : Word) (s : State) : (setReg32 n v s).plat = s.plat := by
  fin_cases n <;> rfl
@[simp] theorem setReg32_devLog (n : Fin 6) (v : Word) (s : State) : (setReg32 n v s).devLog = s.devLog := by
  fin_cases n <;> rfl
@[simp] theorem setReg32_devCount (n : Fin 6) (v : Word) (s : State) : (setReg32 n v s).devCount = s.devCount := by
  fin_cases n <;> rfl

/-- A 16-bit register reads as written, every other as before (spec/10_state.md R21). -/
@[simp] theorem reg16_setReg16 (n k : Fin 8) (v : Half) (s : State) :
    reg16 k (setReg16 n v s) = if k = n then v else reg16 k s := by
  fin_cases n <;> fin_cases k <;> rfl

/-- A 32-bit register reads as written (spec/10_state.md R23, R24). -/
@[simp] theorem reg32_setReg32 (n : Fin 6) (v : Word) (s : State) : reg32 n (setReg32 n v s) = v := by
  fin_cases n
  any_goals rfl
  all_goals
    simp only [reg32, setReg32, highHalf, lowHalf]
    apply BitVec.eq_of_getLsbD_eq
    intro i hi
    simp only [BitVec.getLsbD_append, BitVec.getLsbD_extractLsb']
    by_cases h : i < 16
    · simp [h]
    · have h1 : i - 16 < 16 := by omega
      have h2 : 16 + (i - 16) = i := by omega
      simp [h, h1, h2]

/-- An 8-bit register reads as written (spec/10_state.md R22). -/
@[simp] theorem reg8_setReg8 (n : Fin 8) (v : Byte) (s : State) : reg8 n (setReg8 n v s) = v := by
  fin_cases n
  all_goals
    simp only [reg8, setReg8, lowByte, highByte]
    apply BitVec.eq_of_getLsbD_eq
    intro i hi
    simp only [BitVec.getLsbD_append, BitVec.getLsbD_extractLsb']
    simp [hi]

end Sys2Proof.Machine
end

