-- ==== Sys2Proof/Tests/Slice0.lean ====
section
/-! SUPPORT. The model's own tests: ill-formed terms that WellFormed refuses; for every constructor a word
written out from spec/30_encoding.md that decodes to it; single steps with the numbers of
spec/95_test_vectors.md; and for every statement with hypotheses a concrete state and operands that meet
them. Each is a named theorem. -/

open Sys2Proof Sys2Proof.Machine

namespace Sys2Proof.Tests

/-! ### WellFormed refuses -/

/-- Bit 7 of a condition byte is not 0 (R157). -/
theorem wellFormed_refuses_bit7 :
    condReservedBitClear 0x80 = false ∧ wellFormed (.jccRel8 0x80 4) = false := by decide

/-- Base conditions 14 and 15 (R157). -/
theorem wellFormed_refuses_base :
    condBaseDefined 0x0E = false ∧ wellFormed (.cmov (.w16 (.rr 0 1)) 0x0E) = false ∧
      wellFormed (.jccRel16 0x0F 4) = false := by decide

/-- Lane mode 3 (R157). -/
theorem wellFormed_refuses_lane_mode :
    condLaneModeDefined 0x30 = false ∧ wellFormed (.jccRel8 0x30 4) = false := by decide

/-- The combine bit without lanes (R157). -/
theorem wellFormed_refuses_combine :
    condCombineNeedsLanes 0x46 = false ∧ wellFormed (.cmov (.w8 (.rr 0 1)) 0x46) = false := by decide

/-- A lane mode in PCMOV (R157). -/
theorem wellFormed_refuses_pcmov_lanes :
    laneCondWellFormed 0x16 = false ∧ wellFormed (.pcmov .byte (.rr 0 1) 0x16) = false := by decide

/-! ### Decoding, from the encodings of spec/30_encoding.md R125 to R160 and the words of R172 -/

/-- Whether decode reads the instruction from the bytes. -/
def decodesTo (e : List Byte × Instr) : Bool :=
  match decode (Window.ofList e.1) with
  | .ok j => decide (e.2 = j)
  | .error _ => false

/-- Whether decode refuses the bytes by the name. -/
def refusedAs (e : List Byte × DecodeReject) : Bool :=
  match decode (Window.ofList e.1) with
  | .ok _ => false
  | .error r => decide (e.2 = r)


theorem decode_system : [([0x00], Instr.nop),
    ([0x01], .hlt),
    ([0x02], .ret),
    ([0x03], .iret),
    ([0x04, 0x20], .int 0x20),
    ([0x08, 0x00], .movToIsp (.reg 0)),
    ([0x09, 0x04], .movFromIsp (.reg 4)),
    ([0x0A, 0x40, 0x02, 0x00], .movToPf (.imm 2)),
    ([0x0B, 0x46, 0x28], .movFromPf (.mem (.plain .sp))),
    ([0x0C], .pushPf),
    ([0x0D], .popPf)].all decodesTo = true := by decide

theorem decode_moves : [([0x10, 0x34, 0x12], Instr.movImmA 0x1234),
    ([0x11, 0xDC, 0xFE], .movImmB 0xFEDC),
    ([0x12, 0xAD, 0xDE], .movImmC 0xDEAD),
    ([0x13, 0x01, 0x80], .movImmD 0x8001),
    ([0x14, 0x02, 0x00], .movImmI 2),
    ([0x15, 0x03, 0x00], .movImmJ 3),
    ([0x16, 0x04, 0x00], .movImmK 4),
    ([0x17, 0x05, 0x00], .movImmL 5),
    ([0x18, 0x45, 0x00, 0x20, 0x00, 0x00], .mov (.w16 (.mr (.abs 0x2000) 0))),
    ([0x18, 0xC0, 0x7F], .mov (.w8 (.ri 0 0x7F))),
    ([0x19, 0x43, 0x30, 0x04], .movw (.rm 0 (.off8 .ip 4))),
    ([0x1A, 0x81], .movs (.w8 (.rr 0 1))),
    ([0x1B, 0x29], .movz (.w16 (.rr 5 1))),
    ([0x1C, 0x01, 0x06], .cmov (.w16 (.rr 0 1)) 0x06),
    ([0x1D, 0x81, 0x07], .pcmov .nibble (.rr 0 1) 0x07)].all decodesTo = true := by decide

theorem decode_stack : [([0x20], Instr.pushA),
    ([0x21], .pushB),
    ([0x22], .pushC),
    ([0x23], .pushD),
    ([0x24], .pushI),
    ([0x25], .pushJ),
    ([0x26], .pushK),
    ([0x27], .pushL),
    ([0x28], .popA),
    ([0x29], .popB),
    ([0x2A], .popC),
    ([0x2B], .popD),
    ([0x2C], .popI),
    ([0x2D], .popJ),
    ([0x2E], .popK),
    ([0x2F], .popL),
    ([0x30], .pushBp),
    ([0x31], .pushSp),
    ([0x32], .popBp),
    ([0x33], .popSp),
    ([0x34, 0xC1, 0x00, 0x20, 0x00, 0x00], .push (.w8 (.mem (.abs 0x2000)))),
    ([0x35, 0x46, 0x28], .pop (.w16 (.mem (.plain .sp)))),
    ([0x36, 0x40, 0x78, 0x56, 0x34, 0x12], .pushw (.imm 0x12345678)),
    ([0x37, 0x05], .popw (.reg 5))].all decodesTo = true := by decide

theorem decode_arithmetic : [([0x40, 0x43, 0xA4, 0x10, 0x00, 0x00, 0x00], Instr.add (.w16 (.rm 0 (.indexedOff .bp ⟨4, .x2⟩ 0x10)))),
    ([0x41, 0x01], .adc (.w16 (.rr 0 1))),
    ([0x42, 0x81], .sub (.w8 (.rr 0 1))),
    ([0x43, 0x0A], .sbb (.w16 (.rr 1 2))),
    ([0x44, 0x40, 0x00, 0x80], .cmp (.w16 (.ri 0 0x8000))),
    ([0x45, 0x80, 0xFF], .cmpi (.w8 (.reg 0)) 0xFF),
    ([0x48, 0x68, 0x10, 0x00, 0x00, 0x00], .addw (.ri 5 0x10)),
    ([0x49, 0x01], .adcw (.rr 0 1)),
    ([0x4A, 0x13], .subw (.rr 2 3)),
    ([0x4B, 0x25], .sbbw (.rr 4 5)),
    ([0x4C, 0x01], .cmpw (.rr 0 1)),
    ([0x50, 0x81], .padd .nibble (.rr 0 1)),
    ([0x51, 0x01], .padc .byte (.rr 0 1)),
    ([0x52, 0x42, 0xA4], .psub .byte (.rm 0 (.indexed .bp ⟨4, .x2⟩))),
    ([0x53, 0x81], .psbb .nibble (.rr 0 1)),
    ([0x54, 0x11], .pcmp .byte (.rr 2 1))].all decodesTo = true := by decide

theorem decode_mul_div : [([0x60, 0x81], Instr.mul (.w8 (.rr 0 1))),
    ([0x61, 0x01], .mulh (.w16 (.rr 0 1))),
    ([0x62, 0x81], .mulsh (.w8 (.rr 0 1))),
    ([0x63, 0x01], .div (.w16 (.rr 0 1))),
    ([0x64, 0x40, 0xFE, 0xFF], .divs (.w16 (.ri 0 0xFFFE))),
    ([0x65, 0x28], .divm (.w16 (.rr 5 0))),
    ([0x66, 0xC0, 0x02], .divms (.w8 (.ri 0 2))),
    ([0x68, 0x01], .pmul .byte (.rr 0 1)),
    ([0x69, 0x81], .pmulh .nibble (.rr 0 1)),
    ([0x6A, 0x01], .pmulsh .byte (.rr 0 1)),
    ([0x6B, 0x81], .pdiv .nibble (.rr 0 1)),
    ([0x6C, 0x01], .pdivs .byte (.rr 0 1)),
    ([0x6D, 0x0B], .pdivm .byte (.rr 1 3)),
    ([0x6E, 0x81], .pdivms .nibble (.rr 0 1))].all decodesTo = true := by decide

theorem decode_logic : [([0x70, 0x01], Instr.and (.w16 (.rr 0 1))),
    ([0x71, 0x81], .or (.w8 (.rr 0 1))),
    ([0x72, 0x40, 0xFF, 0xFF], .xor (.w16 (.ri 0 0xFFFF))),
    ([0x73, 0x80], .not (.w8 (.reg 0))),
    ([0x80, 0x40, 0x11, 0x00], .shl (.w16 (.ri 0 17))),
    ([0x81, 0xC0, 0x07], .shr (.w8 (.ri 0 7))),
    ([0x82, 0x01], .sar (.w16 (.rr 0 1))),
    ([0x83, 0xC0, 0x04], .rol (.w8 (.ri 0 4))),
    ([0x84, 0x01], .ror (.w16 (.rr 0 1))),
    ([0x85, 0x81], .rcl (.w8 (.rr 0 1))),
    ([0x86, 0xC0, 0x09], .rcr (.w8 (.ri 0 9))),
    ([0x88, 0x45, 0x00, 0x20, 0x00, 0x00], .shl1 (.w16 (.mem (.abs 0x2000)))),
    ([0x89, 0x07], .shr1 (.w16 (.reg 7))),
    ([0x8A, 0x80], .sar1 (.w8 (.reg 0))),
    ([0x8B, 0x04], .rol1 (.w16 (.reg 4))),
    ([0x8C, 0x84], .ror1 (.w8 (.reg 4))),
    ([0x8D, 0x00], .rcl1 (.w16 (.reg 0))),
    ([0x8E, 0xC7, 0x20, 0xFF], .rcr1 (.w8 (.mem (.off8 .bp 0xFF))))].all decodesTo = true := by decide

theorem decode_control : [([0x90, 0xFE], Instr.jmpRel8 0xFE),
    ([0x91, 0xFD, 0xFF], .jmpRel16 0xFFFD),
    ([0x92, 0xF7, 0xFF, 0xFF, 0xFF], .jmpRel32 0xFFFFFFF7),
    ([0x93, 0x00], .jmpa (.reg 0)),
    ([0x94, 0xFD, 0xFF], .callRel16 0xFFFD),
    ([0x95, 0x01, 0x02, 0x03, 0x04], .callRel32 0x04030201),
    ([0x96, 0x41, 0x00, 0x20, 0x00, 0x00], .calla (.mem (.abs 0x2000))),
    ([0x98, 0x07, 0xFB], .jccRel8 0x07 0xFB),
    ([0x99, 0x6D, 0x00, 0x80], .jccRel16 0x6D 0x8000)].all decodesTo = true := by decide

theorem decode_addressing : [([0x18, 0x42, 0x10], Instr.mov (.w16 (.rm 0 (.plain .ji)))),
    ([0x18, 0x42, 0x56], .mov (.w16 (.rm 0 (.indexed .ji ⟨6, .x1⟩)))),
    ([0x18, 0x43, 0x28, 0xFE], .mov (.w16 (.rm 0 (.off8 .sp 0xFE)))),
    ([0x18, 0x43, 0x21, 0x00, 0x01], .mov (.w16 (.rm 0 (.off16 .bp 0x100)))),
    ([0x18, 0x43, 0x23, 0x00, 0xF0, 0xFF, 0xFF], .mov (.w16 (.rm 0 (.off32 .bp 0xFFFFF000)))),
    ([0x18, 0x43, 0x39, 0x00, 0x20], .mov (.w16 (.rm 0 (.off16 .zero 0x2000)))),
    ([0x18, 0x43, 0xFC, 0x00, 0x00, 0x00, 0x00], .mov (.w16 (.rm 0 (.indexedOff .zero ⟨4, .x4⟩ 0)))),
    ([0x18, 0x43, 0x08, 0x02], .mov (.w16 (.rm 0 (.off8 .bc 2)))),
    ([0x18, 0x42, 0x98], .mov (.w16 (.rm 0 (.indexed .lk ⟨0, .x2⟩)))),
    ([0x1C, 0x43, 0xB4, 0x04, 0x00, 0x00, 0x00, 0x07], .cmov (.w16 (.rm 0 (.indexedOff .ip ⟨4, .x2⟩ 4))) 7)].all decodesTo = true := by decide

/-- Every cause of a DecodingFault. -/
theorem decode_refuses : [([0x05], DecodeReject.reservedOpcode),
    ([0xFF], .reservedOpcode),
    ([0x19, 0x80], .sizeBitSet),
    ([0x19, 0x30], .wideRegister),
    ([0x61, 0x3B], .wideRegister),
    ([0x40, 0xC4, 0x01], .immediateDestination),
    ([0x18, 0x44, 0xEF, 0xBE], .immediateDestination),
    ([0x34, 0x08], .registerFieldNonzero),
    ([0x34, 0x45], .oneSidedShape),
    ([0x35, 0x40], .oneSidedShape),
    ([0x35, 0x44], .oneSidedShape),
    ([0x18, 0x42, 0x01], .bioCode),
    ([0x18, 0x43, 0x02], .bioCode),
    ([0x1C, 0x01, 0x0E], .conditionByte),
    ([0x1D, 0x01, 0x16], .conditionByte),
    ([0x98, 0x46, 0x04], .conditionByte),
    ([0x98, 0x30, 0x04], .conditionByte),
    ([0x99, 0x80, 0x04], .conditionByte)].all refusedAs = true := by decide

/-! ### Single steps -/

/-- The start state of the vectors: one RAM segment up to 0xFFFF, IP, SP and ISP set. -/
def start : State := { State.reset with ip := 0x1000, sp := 0x3000, isp := 0x8000 }

/-- Bytes in RAM from an address on. -/
def poke (a : Nat) (bs : List Byte) (s : State) : State :=
  { s with mem := (bs.foldl (fun (p : Nat × Memory) b => (p.1 + 1, memPut p.2 p.1 b)) (a, s.mem)).2 }

/-- `n` bytes of the RAM controllers. -/
def peek (a n : Nat) (s : State) : List Byte := (List.range n).map fun i => memGet s.mem (a + i)

/-- `n` bytes as a core access reads them (R84). -/
def seen (a n : Nat) (s : State) : List (Option Byte) := (List.range n).map fun i => view s (a + i)

/-- What one sees after one step with the code at IP. -/
def after {α : Type} (code : List Byte) (s : State) (see : State → α) : Option α :=
  match step (poke s.ip.toNat code s) with
  | .next t => some (see t)
  | _ => none

/-- `ADD AL, BL`, ok. -/
theorem test_add_byte :
    after [0x40, 0x81] { start with rA := 0x80, rB := 0x80 }
      (fun t => (t.rA, t.f)) = some (0, 0xB) := by decide

/-- `ADDW D:A, B:C`, ok. -/
theorem test_addw_overflow :
    after [0x48, 0x01] { start with rD := 0x7FFF, rA := 0xFFFF, rC := 1 }
      (fun t => (t.rD, t.rA, t.f)) = some (0x8000, 0, 6) := by decide

/-- `ADDW SP, 0x00000010`, ok. -/
theorem test_addw_sp :
    after [0x48, 0x68, 0x10, 0x00, 0x00, 0x00] start
      (fun t => (t.sp, t.f)) = some (0x3010, 0) := by decide

/-- `ADC A, B`, ok. -/
theorem test_adc_carry_in :
    after [0x41, 0x01] { start with rA := 0xFFFF, f := 8 }
      (fun t => (t.rA, t.f)) = some (0, 9) := by decide

/-- `ADC A, B`, ok. -/
theorem test_adc_carry_both :
    after [0x41, 0x01] { start with rA := 0xFFFF, rB := 0xFFFF, f := 8 }
      (fun t => (t.rA, t.f)) = some (0xFFFF, 0xC) := by decide

/-- `SUB A, B`, ok. -/
theorem test_sub_overflow :
    after [0x42, 0x01] { start with rA := 0x7FFF, rB := 0xFFFF }
      (fun t => (t.rA, t.f)) = some (0x8000, 0xE) := by decide

/-- `SUB AL, BL`, ok. -/
theorem test_sub_byte :
    after [0x42, 0x81] { start with rA := 0x1280, rB := 1 }
      (fun t => (t.rA, t.f)) = some (0x127F, 2) := by decide

/-- `SBB A, B`, ok. -/
theorem test_sbb_borrow_in :
    after [0x43, 0x01] { start with rB := 0xFFFF, f := 8 }
      (fun t => (t.rA, t.f)) = some (0, 9) := by decide

/-- `SUBW D:A, B:C`, ok. -/
theorem test_subw_borrow :
    after [0x4A, 0x01] { start with rC := 1 }
      (fun t => (t.rD, t.rA, t.f)) = some (0xFFFF, 0xFFFF, 0xC) := by decide

/-- `SBBW D:A, B:C`, ok. -/
theorem test_sbbw_borrow_in :
    after [0x4B, 0x01] { start with rD := 1, f := 8 }
      (fun t => (t.rD, t.rA, t.f)) = some (0, 0xFFFF, 0) := by decide

/-- `CMP A, 0x8000`, ok. -/
theorem test_cmp_immediate :
    after [0x44, 0x40, 0x00, 0x80] { start with rA := 0x7FFF }
      (fun t => (t.rA, t.f)) = some (0x7FFF, 0xE) := by decide

/-- `CMPW D:A, B:C`, ok. -/
theorem test_cmpw_equal :
    after [0x4C, 0x01] { start with rD := 1, rB := 1 }
      (fun t => (t.rD, t.rA, t.f)) = some (1, 0, 1) := by decide

/-- `CMPI A, -1`, ok. -/
theorem test_cmpi_sign_extends :
    after [0x45, 0x00, 0xFF] { start with rA := 0xFF }
      (fun t => (t.rA, t.f)) = some (0xFF, 8) := by decide

/-- `ADD [0x00002000], A`, ok. -/
theorem test_add_memory :
    after [0x40, 0x45, 0x00, 0x20, 0x00, 0x00] (poke 0x2000 [0xFF, 0xFF] { start with rA := 1 })
      (fun t => (t.f, t.ip, peek 0x2000 2 t)) = some (9, 0x1006, [0x00, 0x00]) := by decide

/-- `PADD.n A, B`, ok. -/
theorem test_padd_nibbles :
    after [0x50, 0x81] { start with rA := 0xF871, rB := 0x1891 }
      (fun t => (t.rA, t.f)) = some (2, 0x9B90) := by decide

/-- `PSUB.b A, B`, ok. -/
theorem test_psub_bytes :
    after [0x52, 0x01] { start with rA := 0x80, rB := 0x101 }
      (fun t => (t.rA, t.f)) = some (0xFF7F, 0xC2) := by decide

/-- `PADC.b A, B`, ok. -/
theorem test_padc_lane_carry :
    after [0x51, 0x01] { start with rA := 0xFF, f := 0x80 }
      (fun t => (t.rA, t.f)) = some (0x1FF, 4) := by decide

/-- `PSBB.n A, B`, ok. -/
theorem test_psbb_lane_borrow :
    after [0x53, 0x81] { start with f := 0x8008 }
      (fun t => (t.rA, t.f)) = some (0xF00F, 0xC11C) := by decide

/-- `PCMP.b A, B`, ok. -/
theorem test_pcmp_bytes :
    after [0x54, 0x01] { start with rA := 0x1234, rB := 0x1235 }
      (fun t => (t.rA, t.f)) = some (0x1234, 0x1C) := by decide

/-- `PADD.b A, [0x00002000]`, ok. -/
theorem test_padd_bytes_memory :
    after [0x50, 0x41, 0x00, 0x20, 0x00, 0x00] (poke 0x2000 [0xFF, 0x7F] { start with rA := 0x101 })
      (fun t => (t.rA, t.f)) = some (0x8000, 0x69) := by decide

/-- `MUL AL, BL`, ok. -/
theorem test_mul_byte :
    after [0x60, 0x81] { start with rA := 0x1210, rB := 0x10 }
      (fun t => (t.rA, t.f)) = some (0x1200, 0xB) := by decide

/-- `MULH A, BL`, ok. -/
theorem test_mulh_byte :
    after [0x61, 0x81] { start with rA := 0x12FF, rB := 0xFF }
      (fun t => (t.rA, t.f)) = some (0xFE01, 0xE) := by decide

/-- `MULSH D:A, B`, ok. -/
theorem test_mulsh_min :
    after [0x62, 0x01] { start with rA := 0x8000, rB := 0x8000 }
      (fun t => (t.rD, t.rA, t.f)) = some (0x4000, 0, 0xA) := by decide

/-- `MULSH D:A, B`, ok. -/
theorem test_mulsh_negative :
    after [0x62, 0x01] { start with rA := 0xFFFF, rB := 2 }
      (fun t => (t.rD, t.rA, t.f)) = some (0xFFFF, 0xFFFE, 4) := by decide

/-- `DIV A, B`, ok. -/
theorem test_div_word :
    after [0x63, 0x01] (poke 0x34 [0x00, 0x05, 0x00, 0x00] { start with rA := 0xFFFF, rB := 0x10 })
      (fun t => (t.rA, t.f)) = some (0xFFF, 0) := by decide

/-- `DIV A, B`, fault Division. -/
theorem test_div_by_zero :
    after [0x63, 0x01] (poke 0x34 [0x00, 0x05, 0x00, 0x00] { start with rA := 0x1234, f := 5 })
      (fun t => (t.f, t.ip, pfImage t, peek 0x7FF0 16 t)) =
        some (5, 0x500, 6, [0x05, 0x00, 0x02, 0x00, 0x00, 0x30, 0x00, 0x00, 0x00, 0x00, 0x00, 0x00, 0x00, 0x10,
          0x00, 0x00]) := by decide

/-- `DIVS A, B`, ok. -/
theorem test_divs_toward_zero :
    after [0x64, 0x01] (poke 0x34 [0x00, 0x05, 0x00, 0x00] { start with rA := 7, rB := 0xFFFE })
      (fun t => (t.rA, t.f)) = some (0xFFFD, 4) := by decide

/-- `DIVS A, B`, fault Division. -/
theorem test_divs_overflow :
    after [0x64, 0x01] (poke 0x34 [0x00, 0x05, 0x00, 0x00] { start with rA := 0x8000, rB := 0xFFFF })
      (fun t => (t.rA, t.ip)) = some (0x8000, 0x500) := by decide

/-- `DIVM D:A, B`, ok. -/
theorem test_divm_word :
    after [0x65, 0x01] (poke 0x34 [0x00, 0x05, 0x00, 0x00] { start with rD := 2, rA := 5, rB := 3 })
      (fun t => (t.rD, t.rA, t.f)) = some (1, 0xAAAC, 4) := by decide

/-- `DIVM A, BL`, fault Division. -/
theorem test_divm_overflow :
    after [0x65, 0x81] (poke 0x34 [0x00, 0x05, 0x00, 0x00] { start with rA := 0x203, rB := 2 })
      (fun t => (t.rA, t.ip)) = some (0x203, 0x500) := by decide

/-- `DIVMS D:A, B`, ok. -/
theorem test_divms_min_quotient :
    after [0x66, 0x01] (poke 0x34 [0x00, 0x05, 0x00, 0x00] { start with rD := 0xFFFF, rA := 0x8000, rB := 1 })
      (fun t => (t.rD, t.rA, t.f)) = some (0, 0x8000, 4) := by decide

/-- `DIVMS D:A, B`, fault Division. -/
theorem test_divms_overflow :
    after [0x66, 0x01] (poke 0x34 [0x00, 0x05, 0x00, 0x00] { start with rA := 0x8000, rB := 1 })
      (fun t => (t.rD, t.rA, t.ip)) = some (0, 0x8000, 0x500) := by decide

/-- `PMUL.b A, B`, ok. -/
theorem test_pmul_bytes :
    after [0x68, 0x01] (poke 0x34 [0x00, 0x05, 0x00, 0x00] { start with rA := 0x1003, rB := 0x1005 })
      (fun t => (t.rA, t.f)) = some (0xF, 0xB0) := by decide

/-- `PDIV.b A, B`, fault Division. -/
theorem test_pdiv_zero_lane :
    after [0x6B, 0x01] (poke 0x34 [0x00, 0x05, 0x00, 0x00] { start with rA := 0x6409, rB := 0xA00 })
      (fun t => (t.rA, t.ip)) = some (0x6409, 0x500) := by decide

/-- `PDIV.n A, B`, ok. -/
theorem test_pdiv_nibbles :
    after [0x6B, 0x81] (poke 0x34 [0x00, 0x05, 0x00, 0x00] { start with rA := 0xF963, rB := 0x3321 })
      (fun t => (t.rA, t.f)) = some (0x5333, 0) := by decide

/-- `PDIVS.b A, B`, fault Division. -/
theorem test_pdivs_overflow_lane :
    after [0x6C, 0x01] (poke 0x34 [0x00, 0x05, 0x00, 0x00] { start with rA := 0x8009, rB := 0xFF02 })
      (fun t => (t.rA, t.ip)) = some (0x8009, 0x500) := by decide

/-- `PDIVM.b D:A, B`, fault Division. -/
theorem test_pdivm_overflow_lane :
    after [0x6D, 0x01] (poke 0x34 [0x00, 0x05, 0x00, 0x00] { start with rA := 0x64, rD := 0x200, rB := 0x207 })
      (fun t => (t.rD, t.rA, t.ip)) = some (0x200, 0x64, 0x500) := by decide

/-- `AND A, B`, ok. -/
theorem test_and_zero :
    after [0x70, 0x01] { start with rA := 0xF0F0, rB := 0xF0F, f := 0xA }
      (fun t => (t.rA, t.f)) = some (0, 1) := by decide

/-- `OR AL, BL`, ok. -/
theorem test_or_byte :
    after [0x71, 0x81] { start with rA := 0x1200, f := 0xFFFF }
      (fun t => (t.rA, t.f)) = some (0x1200, 1) := by decide

/-- `XOR A, 0xFFFF`, ok. -/
theorem test_xor_immediate :
    after [0x72, 0x40, 0xFF, 0xFF] { start with rA := 0xFF }
      (fun t => (t.rA, t.f)) = some (0xFF00, 4) := by decide

/-- `NOT AL`, ok. -/
theorem test_not_byte :
    after [0x73, 0x80] { start with rA := 0x12FF }
      (fun t => (t.rA, t.f)) = some (0x1200, 1) := by decide

/-- `SHL A, 17`, ok. -/
theorem test_shl_past_width :
    after [0x80, 0x40, 0x11, 0x00] { start with rA := 0x8001 }
      (fun t => (t.rA, t.f)) = some (0, 1) := by decide

/-- `SHL A, B`, ok. -/
theorem test_shl_count_low_bits :
    after [0x80, 0x01] { start with rA := 1, rB := 0x20, f := 8 }
      (fun t => (t.rA, t.f)) = some (1, 8) := by decide

/-- `SHR AL, 7`, ok. -/
theorem test_shr_byte :
    after [0x81, 0xC0, 0x07] { start with rA := 0xC0 }
      (fun t => (t.rA, t.f)) = some (1, 8) := by decide

/-- `SAR A, 31`, ok. -/
theorem test_sar_long :
    after [0x82, 0x40, 0x1F, 0x00] { start with rA := 0x8000 }
      (fun t => (t.rA, t.f)) = some (0xFFFF, 0xC) := by decide

/-- `ROL AL, 4`, ok. -/
theorem test_rol_byte :
    after [0x83, 0xC0, 0x04] { start with rA := 0xA5 }
      (fun t => (t.rA, t.f)) = some (0x5A, 0) := by decide

/-- `ROR A, 0`, ok. -/
theorem test_ror_count_zero :
    after [0x84, 0x40, 0x00, 0x00] { start with f := 8 }
      (fun t => (t.rA, t.f)) = some (0, 9) := by decide

/-- `RCL A, 16`, ok. -/
theorem test_rcl_sixteen :
    after [0x85, 0x40, 0x10, 0x00] { start with rA := 0x8000 }
      (fun t => (t.rA, t.f)) = some (0x4000, 0) := by decide

/-- `RCR AL, 9`, ok. -/
theorem test_rcr_byte_nine :
    after [0x86, 0xC0, 0x09] { start with rA := 0x81 }
      (fun t => (t.rA, t.f)) = some (0x81, 4) := by decide

/-- `SHL1 [0x00002000]`, ok. -/
theorem test_shl1_memory :
    after [0x88, 0x45, 0x00, 0x20, 0x00, 0x00] (poke 0x2000 [0x00, 0xC0] start)
      (fun t => (t.f, peek 0x2000 2 t)) = some (0xC, [0x00, 0x80]) := by decide

/-- `SAR1 AL`, ok. -/
theorem test_sar1_byte :
    after [0x8A, 0x80] { start with rA := 0x81 }
      (fun t => (t.rA, t.f)) = some (0xC0, 0xC) := by decide

/-- `MOV [0x00002000], AL`, ok. -/
theorem test_mov_byte_store :
    after [0x18, 0xC5, 0x00, 0x20, 0x00, 0x00] { start with rA := 0x12AB }
      (fun t => peek 0x2000 2 t) = some [0xAB, 0x00] := by decide

/-- `MOVW B:C, D:A`, ok. -/
theorem test_movw_pairs :
    after [0x19, 0x08] { start with rD := 0x1234, rA := 0x5678 }
      (fun t => (t.rB, t.rC)) = some (0x1234, 0x5678) := by decide

/-- `MOVW D:A, 0x12345678`, ok. -/
theorem test_movw_immediate :
    after [0x19, 0x40, 0x78, 0x56, 0x34, 0x12] start
      (fun t => (t.rD, t.rA, t.ip)) = some (0x1234, 0x5678, 0x1006) := by decide

/-- `MOVS D:A, B`, ok. -/
theorem test_movs_word :
    after [0x1A, 0x01] { start with rB := 0x8000 }
      (fun t => (t.rD, t.rA)) = some (0xFFFF, 0x8000) := by decide

/-- `MOVZ A, [0x00002000]`, ok. -/
theorem test_movz_byte_memory :
    after [0x1B, 0xC1, 0x00, 0x20, 0x00, 0x00] (poke 0x2000 [0x80] { start with rA := 0xFFFF })
      (fun t => t.rA) = some 0x80 := by decide

/-- `CMOV.Z [0x00012000], A`, ok. -/
theorem test_cmov_not_taken :
    after [0x1C, 0x45, 0x00, 0x20, 0x01, 0x00, 0x06] { start with rA := 7 }
      (fun t => t.ip) = some 0x1007 := by decide

/-- `CMOV.Z [0x00012000], A`, fault Memory. -/
theorem test_cmov_taken_faults :
    after [0x1C, 0x45, 0x00, 0x20, 0x01, 0x00, 0x06] (poke 0x20 [0x00, 0x07, 0x00, 0x00]
        { start with rA := 7, f := 1 })
      (fun t => t.ip) = some 0x700 := by decide

/-- `PCMOV.n.NZ A, B`, ok. -/
theorem test_pcmov_nibbles :
    after [0x1D, 0x81, 0x07] { start with rA := 0x1234, rB := 0xABCD, f := 0x101 }
      (fun t => (t.rA, t.f)) = some (0xA2C4, 0x101) := by decide

/-- `MOV PF, A (privileged)`, ok. -/
theorem test_mov_to_pf :
    after [0x0A, 0x00] { start with rA := 1 }
      (fun t => pfImage t) = some 1 := by decide

/-- `MOV ISP, D:A (PV = 0)`, fault GP. -/
theorem test_mov_to_isp_unprivileged :
    after [0x08, 0x00] (poke 0x40 [0x00, 0x07, 0x00, 0x00] { start with pv := false, isp := 0x8000 })
      (fun t => (t.isp, t.ip)) = some (0x8000, 0x700) := by decide

/-- `MOV A, PF (PV = 0)`, fault GP. -/
theorem test_mov_from_pf_unprivileged :
    after [0x0B, 0x00] (poke 0x40 [0x00, 0x07, 0x00, 0x00] { start with pv := false })
      (fun t => (t.rA, t.ip)) = some (0, 0x700) := by decide

/-- `MOV A, [IP + I*2 + 0x00000004]`, ok. -/
theorem test_mov_ip_relative :
    after [0x18, 0x43, 0xB4, 0x04, 0x00, 0x00, 0x00] (poke 0x100F [0xEF, 0xBE] { start with rI := 2 })
      (fun t => (t.rA, t.ip)) = some (0xBEEF, 0x1007) := by decide

/-- `PUSH SP`, ok. -/
theorem test_push_sp :
    after [0x31] start
      (fun t => (t.sp, peek 0x2FFC 4 t)) = some (0x2FFC, [0x00, 0x30, 0x00, 0x00]) := by decide

/-- `POP SP`, ok. -/
theorem test_pop_sp :
    after [0x33] (poke 0x2000 [0x00, 0x40, 0x00, 0x00] { start with sp := 0x2000 })
      (fun t => t.sp) = some 0x4000 := by decide

/-- `POPW SP`, ok. -/
theorem test_popw_sp :
    after [0x37, 0x05] (poke 0x2000 [0x00, 0x40, 0x00, 0x00] { start with sp := 0x2000 })
      (fun t => t.sp) = some 0x4000 := by decide

/-- `POP BP`, ok. -/
theorem test_pop_bp :
    after [0x32] (poke 0x2000 [0x78, 0x56, 0x34, 0x12] { start with sp := 0x2000 })
      (fun t => (t.bp, t.sp)) = some (0x12345678, 0x2004) := by decide

/-- `PUSH A (SP = 0)`, fault Memory. -/
theorem test_push_a_fault :
    after [0x20] (poke 0x20 [0x00, 0x07, 0x00, 0x00] { start with sp := 0, rA := 1 })
      (fun t => (t.sp, t.ip, peek 0x7FF0 16 t)) =
        some (0x7FF0, 0x700, [0x00, 0x00, 0x02, 0x00, 0x00, 0x00, 0x00, 0x00, 0x00, 0x00, 0x00, 0x00, 0x00, 0x10,
          0x00, 0x00]) := by decide

/-- `PUSH byte [0x00002000]`, ok. -/
theorem test_push_byte :
    after [0x34, 0xC1, 0x00, 0x20, 0x00, 0x00] (poke 0x2000 [0x5A] start)
      (fun t => (t.sp, peek 0x2FFF 1 t)) = some (0x2FFF, [0x5A]) := by decide

/-- `POP [SP]`, ok. -/
theorem test_pop_at_sp :
    after [0x35, 0x46, 0x28] (poke 0x2FFE [0xCD, 0xAB] { start with sp := 0x2FFE })
      (fun t => (t.sp, peek 0x2FFE 2 t)) = some (0x3000, [0xCD, 0xAB]) := by decide

/-- `PUSHW 0x12345678`, ok. -/
theorem test_pushw_immediate :
    after [0x36, 0x40, 0x78, 0x56, 0x34, 0x12] start
      (fun t => (t.sp, peek 0x2FFC 4 t)) = some (0x2FFC, [0x78, 0x56, 0x34, 0x12]) := by decide

/-- `PUSH PF`, ok. -/
theorem test_push_pf :
    after [0x0C] { start with ie := true }
      (fun t => (t.sp, peek 0x2FFE 2 t)) = some (0x2FFE, [0x03, 0x00]) := by decide

/-- `POP PF`, ok. -/
theorem test_pop_pf :
    after [0x0D] (poke 0x2FFE [0xFD, 0xFF] { start with sp := 0x2FFE })
      (fun t => (t.sp, pfImage t)) = some (0x3000, 5) := by decide

/-- `JMP -128`, ok. -/
theorem test_jmp_rel8_back :
    after [0x90, 0x80] start
      (fun t => t.ip) = some 0xF82 := by decide

/-- `JMP rel16 -3`, ok. -/
theorem test_jmp_rel16_back :
    after [0x91, 0xFD, 0xFF] start
      (fun t => t.ip) = some 0x1000 := by decide

/-- `JMP rel32 at 0x00000004`, ok. -/
theorem test_jmp_rel32_wide :
    after [0x92, 0xF7, 0xFF, 0xFF, 0xFF] { start with ip := 4 }
      (fun t => t.ip) = some 0 := by decide

/-- `JMPA [BP + 4]`, ok. -/
theorem test_jmpa_memory :
    after [0x93, 0x43, 0x20, 0x04] (poke 0x2004 [0x00, 0x40, 0x00, 0x00] { start with bp := 0x2000 })
      (fun t => t.ip) = some 0x4000 := by decide

/-- `CALL rel16 -3`, ok. -/
theorem test_call_rel16 :
    after [0x94, 0xFD, 0xFF] start
      (fun t => (t.ip, t.sp, peek 0x2FFC 4 t)) = some (0x1000, 0x2FFC, [0x03, 0x10, 0x00, 0x00]) := by decide

/-- `CALLA [0x00002000]`, ok. -/
theorem test_calla_memory :
    after [0x96, 0x41, 0x00, 0x20, 0x00, 0x00] (poke 0x2000 [0x00, 0x40, 0x00, 0x00] start)
      (fun t => (t.ip, t.sp, peek 0x2FFC 4 t)) = some (0x4000, 0x2FFC, [0x06, 0x10, 0x00, 0x00]) := by decide

/-- `RET`, ok. -/
theorem test_ret :
    after [0x02] (poke 0x2FFC [0x00, 0x40, 0x00, 0x00] { start with sp := 0x2FFC })
      (fun t => (t.ip, t.sp)) = some (0x4000, 0x3000) := by decide

/-- `JCC.Z.all2 +4`, ok. -/
theorem test_jcc_all2_not_taken :
    after [0x98, 0x56, 0x04] { start with f := 0x10 }
      (fun t => t.ip) = some 0x1003 := by decide

/-- `JCC.Z.any4 +4`, ok. -/
theorem test_jcc_any4_taken :
    after [0x98, 0x26, 0x04] { start with f := 0x1000 }
      (fun t => t.ip) = some 0x1007 := by decide

/-- `NOP`, ok. -/
theorem test_nop :
    after [0x00] { start with f := 0x1234 }
      (fun t => (t.ip, t.f)) = some (0x1001, 0x1234) := by decide

/-- `HLT (PV = 0)`, ok. -/
theorem test_hlt_unprivileged :
    after [0x01] { start with pv := false }
      (fun t => (t.ip, t.halted)) = some (0x1001, true) := by decide

/-- `INT 0x20 (PV = 0)`, ok. -/
theorem test_int_syscall :
    after [0x04, 0x20] (poke 0x80 [0x00, 0x09, 0x00, 0x00]
        { start with pv := false, ie := true, f := 9, bp := 0x3010 })
      (fun t => (t.ip, t.sp, pfImage t, peek 0x7FF0 16 t)) =
        some (0x900, 0x7FF0, 6, [0x09, 0x00, 0x01, 0x00, 0x00, 0x30, 0x00, 0x00, 0x10, 0x30, 0x00, 0x00, 0x02,
          0x10, 0x00, 0x00]) := by decide

/-- `INT 0x30 (II = 1, nested)`, ok. -/
theorem test_int_nested :
    after [0x04, 0x30] (poke 0xC0 [0x00, 0x0B, 0x00, 0x00] { start with ii := true })
      (fun t => (t.ip, t.sp, pfImage t, peek 0x2FF0 16 t)) =
        some (0xB00, 0x2FF0, 6, [0x00, 0x00, 0x06, 0x00, 0x00, 0x30, 0x00, 0x00, 0x00, 0x00, 0x00, 0x00, 0x02,
          0x10, 0x00, 0x00]) := by decide

/-- `IRET (PV = 0)`, fault GP. -/
theorem test_iret_unprivileged :
    after [0x03] (poke 0x40 [0x00, 0x07, 0x00, 0x00] { start with pv := false })
      (fun t => (t.ip, t.sp, pfImage t)) = some (0x700, 0x7FF0, 6) := by decide

/-- `reserved opcode 0x05`, fault Decoding. -/
theorem test_reserved_opcode :
    after [0x05] (poke 0x3C [0x00, 0x06, 0x00, 0x00] start)
      (fun t => (t.ip, t.sp, peek 0x7FFC 4 t)) = some (0x600, 0x7FF0, [0x00, 0x10, 0x00, 0x00]) := by decide

/-- `DIV A, B with ISP = 0 (double fault)`, fault Division. -/
theorem test_double_fault :
    after [0x63, 0x01] { start with rA := 1, isp := 0 }
      (fun t => (t.rA, t.ip, t.sp, pfImage t, t.halted)) = some (1, 0x1000, 0x3000, 2, true) := by decide

/-- ADCW (R287): -1 + 0 + 1. -/
theorem test_adcw_carry_in :
    after [0x49, 0x01] { start with rD := 0xFFFF, rA := 0xFFFF, f := 8 }
      (fun t => (t.rD, t.rA, t.f)) = some (0, 0, 9) := by decide

/-- PMULH, the example of R308. -/
theorem test_pmulh_bytes :
    after [0x69, 0x01] { start with rA := 0xFF, rD := 2, rB := 0x03FF }
      (fun t => (t.rA, t.rD, t.f)) = some (0xFE01, 6, 0xE) := by decide

/-- PMULSH, the example of R309. -/
theorem test_pmulsh_bytes :
    after [0x6A, 0x01] { start with rA := 0xFF, rD := 2, rB := 0x03FF }
      (fun t => (t.rA, t.rD, t.f)) = some (1, 6, 0) := by decide

/-- PDIVS, the example of R311. -/
theorem test_pdivs_bytes :
    after [0x6C, 0x01] { start with rA := 0xF909, rB := 0x0202 }
      (fun t => (t.rA, t.f)) = some (0xFD04, 0x40) := by decide

/-- PDIVM, the example of R312. -/
theorem test_pdivm_bytes :
    after [0x6D, 0x01] { start with rA := 0x64, rD := 0xC8, rB := 0x0907 }
      (fun t => (t.rA, t.rD, t.f)) = some (0x020E, 0x0216, 0) := by decide

/-- PDIVMS, the example of R313. -/
theorem test_pdivms_bytes :
    after [0x6E, 0x01] { start with rA := 0xFF9C, rD := 0x64, rB := 0xF907 }
      (fun t => (t.rA, t.rD, t.f)) = some (0xFEF2, 0x02F2, 0x44) := by decide

/-- SHR1, ROL1, ROR1, RCL1 and RCR1 by R208. -/
theorem test_shifts_by_one :
    after [0x89, 0x00] { start with rA := 1 } (fun t => (t.rA, t.f)) = some (0, 9) ∧
    after [0x8B, 0x80] { start with rA := 0x81 } (fun t => (t.rA, t.f)) = some (3, 8) ∧
    after [0x8C, 0x00] { start with rA := 1 } (fun t => (t.rA, t.f)) = some (0x8000, 0xC) ∧
    after [0x8D, 0x00] { start with rA := 0x8000, f := 8 } (fun t => (t.rA, t.f)) = some (1, 8) ∧
    after [0x8E, 0x80] { start with rA := 0x1201 } (fun t => (t.rA, t.f)) = some (0x1200, 9) := by decide

/-- MOV of an immediate to each of the eight registers (R221). -/
theorem test_mov_immediate :
    after [0x10, 0x34, 0x12] start (fun t => (t.rA, t.ip)) = some (0x1234, 0x1003) ∧
    after [0x11, 0x34, 0x12] start (fun t => t.rB) = some 0x1234 ∧
    after [0x12, 0x34, 0x12] start (fun t => t.rC) = some 0x1234 ∧
    after [0x13, 0x34, 0x12] start (fun t => t.rD) = some 0x1234 ∧
    after [0x14, 0x34, 0x12] start (fun t => t.rI) = some 0x1234 ∧
    after [0x15, 0x34, 0x12] start (fun t => t.rJ) = some 0x1234 ∧
    after [0x16, 0x34, 0x12] start (fun t => t.rK) = some 0x1234 ∧
    after [0x17, 0x34, 0x12] start (fun t => t.rL) = some 0x1234 := by decide

/-- PUSH of each register (R252, R254). -/
theorem test_push_registers :
    let s : State := { start with
      rA := 0x0101, rB := 0x0202, rC := 0x0303, rD := 0x0404, rI := 0x0505, rJ := 0x0606, rK := 0x0707
      rL := 0x0808, bp := 0x04030201 }
    ([0x20, 0x21, 0x22, 0x23, 0x24, 0x25, 0x26, 0x27].map fun c => after [c] s fun t => (peek 0x2FFE 2 t, t.sp)) =
      ([1, 2, 3, 4, 5, 6, 7, 8].map fun b => some ([b, b], 0x2FFE)) ∧
    after [0x30] s (fun t => (peek 0x2FFC 4 t, t.sp)) = some ([1, 2, 3, 4], 0x2FFC) := by decide

/-- POP of each register (R253). -/
theorem test_pop_registers :
    let s := poke 0x3000 [0x34, 0x12] start
    after [0x28] s (fun t => (t.rA, t.sp)) = some (0x1234, 0x3002) ∧
    after [0x29] s (fun t => (t.rB, t.sp)) = some (0x1234, 0x3002) ∧
    after [0x2A] s (fun t => (t.rC, t.sp)) = some (0x1234, 0x3002) ∧
    after [0x2B] s (fun t => (t.rD, t.sp)) = some (0x1234, 0x3002) ∧
    after [0x2C] s (fun t => (t.rI, t.sp)) = some (0x1234, 0x3002) ∧
    after [0x2D] s (fun t => (t.rJ, t.sp)) = some (0x1234, 0x3002) ∧
    after [0x2E] s (fun t => (t.rK, t.sp)) = some (0x1234, 0x3002) ∧
    after [0x2F] s (fun t => (t.rL, t.sp)) = some (0x1234, 0x3002) := by decide

/-- MOV ISP and MOV from ISP and PF in privileged mode (R236, R237, R239). -/
theorem test_protected_moves :
    after [0x08, 0x00] { start with rD := 1, rA := 2 } (fun t => t.isp) = some 0x10002 ∧
    after [0x09, 0x00] { start with rD := 1 } (fun t => (t.rD, t.rA)) = some (0, 0x8000) ∧
    after [0x0B, 0x00] { start with ie := true } (fun t => t.rA) = some 3 := by decide

/-- CALL rel32 pushes the address after its five bytes (R355). -/
theorem test_call_rel32 :
    after [0x95, 0xFB, 0xFF, 0xFF, 0xFF] start (fun t => (t.ip, t.sp, peek 0x2FFC 4 t)) =
      some (0x1000, 0x2FFC, [0x05, 0x10, 0, 0]) := by decide

/-- JCC rel16 counts from its four bytes (R359). -/
theorem test_jcc_rel16 :
    after [0x99, 0x06, 0xFC, 0xFF] { start with f := 1 } (fun t => t.ip) = some 0x1000 ∧
    after [0x99, 0x06, 0xFC, 0xFF] start (fun t => t.ip) = some 0x1004 := by decide

/-- The IRET of scenario T9. -/
theorem test_iret :
    after [0x03] (poke 0x7FF0 [9, 0, 3, 0, 0, 0x30, 0, 0, 0x10, 0x30, 0, 0, 0, 0x10, 0, 0]
        { start with sp := 0x7FF0, ii := true, ip := 0x900 })
      (fun t => (t.sp, t.bp, t.ip, pfImage t, t.f)) = some (0x3000, 0x3010, 0x1000, 3, 9) := by decide

/-- The request of scenario T9, served instead of the instruction. -/
theorem test_pending_request :
    after [0x10, 0x34, 0x12] (poke 0x100 [0, 9, 0, 0] { start with ie := true, pend := true, pendVec := 0x40 })
      (fun t => (t.rA, t.ip, t.sp, pfImage t, t.pend)) = some (0, 0x900, 0x7FF0, 6, false) := by decide

/-- The latch of section 3.5: the later of two requests, and none with IE = 0. -/
theorem test_latch :
    (fireMaskable 0x41 (fireMaskable 0x40 { start with ie := true }).2).2.pendVec = 0x41 ∧
    (fireMaskable 0x40 start).1 = false ∧ (fireNonMaskable 0x40 start).pend = true := by decide

/-- Program P6: a window kept by delta 6 hides the store to 0x100A. -/
theorem test_stale_window :
    after [0x11, 0x01, 0x11] { start with
        ip := 0x1009, winBase := 0x1003, winValid := true
        win := { b0 := 0x18, b1 := 0xC5, b2 := 0x0A, b3 := 0x10, b4 := 0, b5 := 0, b6 := 0x11, b7 := 0x11 } }
      (fun t => (t.rB, t.winBase)) = some (0x1111, 0x1009) := by decide

/-- The segment table of section 3.3 with its caching manager. -/
def cachedPlatform : Platform :=
  { segments := [⟨0, 0x10000, .ram, false, false, true⟩, ⟨0x10000, 0x1000, .ram, false, true, true⟩,
      ⟨0x20000, 0x1000, .ram, true, true, true⟩]
    cacheEnabled := true, lineBits := 8, resetIp := 0x400 }

/-- The start state on that table. -/
def cached : State := { start with plat := cachedPlatform }

/-- Section 3.2: a store across the lines of two segments leaves the bytes before the faulting one. -/
theorem test_partial_store :
    after [0x19, 0x45, 0xFE, 0xFF, 0, 0]
        (poke 0x44 [0, 8, 0, 0] { cached with rD := 0x6666, rA := 0x5555, pv := false })
      (fun t => (seen 0xFFFE 4 t, t.ip)) = some ([some 0x55, some 0x55, some 0, some 0], 0x800) := by decide

/-- Section 3.4, steps 2 and 3: an allocated line is dirty and RAM unchanged until it is evicted. -/
theorem test_write_back :
    after [0x18, 0x45, 0x00, 0x20, 0, 0] { cached with rA := 0x1234 }
      (fun t => (peek 0x2000 2 t, seen 0x2000 2 t)) = some ([0, 0], [some 0x34, some 0x12]) ∧
    after [0x19, 0x49, 0x00, 0x40, 0, 0] (poke 0x4000 [0x78, 0x56, 0x34, 0x12]
        { cached with cache := [(0, ⟨1, true, false, false, 0x34 :: 0x12 :: List.replicate 30 0⟩)] })
      (fun t => (t.rB, t.rC, peek 0x2000 2 t)) = some (0x1234, 0x5678, [0x34, 0x12]) := by decide

/-- Section 3.3: reads and writes of the privileged segments. -/
theorem test_privileged_segments :
    let s := poke 0x44 [0, 8, 0, 0] (poke 0x10000 [0xCD, 0xAB] { cached with rA := 0x5555, pv := false })
    after [0x18, 0x41, 0, 0, 1, 0] s (fun t => t.rA) = some 0xABCD ∧
    after [0x18, 0x45, 0, 0, 1, 0] s (fun t => (t.ip, seen 0x10000 1 t)) = some (0x800, [some 0xCD]) ∧
    after [0x18, 0x41, 0, 0, 2, 0] s (fun t => (t.ip, t.rA)) = some (0x800, 0x5555) := by decide

/-- RESET_IP is the platform's (R6): a reset of the core and of the machine go to it. -/
theorem test_reset_ip :
    let s : State := { start with plat := { start.plat with resetIp := 0x2000 } }
    (resetCore s).ip = 0x2000 ∧ (resetMachine s).ip = 0x2000 ∧ State.reset.ip = 0x400 := by decide

/-- `View` (R84) of a device behind the cache is the valid line's byte, and none without one. -/
theorem test_view_device :
    let s : State := { start with
      cache := [(0, ⟨8, false, false, false, 7 :: List.replicate 31 0⟩)]
      plat := { cachedPlatform with segments := [⟨0x10000, 0x4000, .device, false, false, true⟩] } }
    view s 0x10000 = some 7 ∧ view s 0x10020 = none ∧ view s 0x12000 = none := by decide

/-! ### Witnesses: for every statement with hypotheses, a state and operands that meet them -/

/-- Whether an access to a location is permitted. -/
def permits (write : Bool) (s : State) {w : Width} (l : Loc w) : Bool := decide ((locPlan write s l).2 = none)

theorem readable_of_permits {s : State} {w : Width} {l : Loc w} (h : permits false s l = true) : Readable s l :=
  of_decide_eq_true (p := (locPlan false s l).2 = none) h

theorem writable_of_permits {s : State} {w : Width} {l : Loc w} (h : permits true s l = true) : Writable s l :=
  of_decide_eq_true (p := (locPlan true s l).2 = none) h

/-- A state on the table of section 3.3, unprivileged: 0x10000 can be read and not written, 0x21000 neither. -/
def restricted (s : State) : State := { s with plat := cachedPlatform, cache := [], pv := false }

theorem cachedPlatform_valid : segmentsValid cachedPlatform.segments = true := by decide

theorem regs_pos (w : Width) : 0 < w.regs := by cases w <;> decide

/-- What the two addresses say of accesses of a width. -/
theorem restricted_plans (w : Width) :
    (∀ write p, (accessPlan write cachedPlatform (0x21000 : Word).toNat w.bytes p).2 = some .memory) ∧
    (accessPlan false cachedPlatform (0x10000 : Word).toNat w.bytes false).2 = none ∧
    (accessPlan true cachedPlatform (0x10000 : Word).toNat w.bytes false).2 = some .unprivilegedAccess := by
  cases w <;> decide

theorem restricted_inv {s : State} (h : StateInv s) : StateInv (restricted s) :=
  ⟨cachedPlatform_valid, h.2.1, rfl, rfl, fun _ => rfl⟩

theorem privileged_inv {s : State} (h : StateInv s) : StateInv { restricted s with pv := true } :=
  ⟨cachedPlatform_valid, h.2.1, rfl, rfl, fun _ => rfl⟩

/-- Where every segment is RAM, no access may call a device. -/
theorem noDevice_of_ram {s : State} (h : (s.plat.segments.all fun g => decide (g.kind = .ram)) = true) (r : Reach) :
    NoDevice s r := by
  have hr : ∀ x g, lookup s.plat.segments x = some g → g.kind ≠ .device := fun x g hg hk => by
    have := of_decide_eq_true (List.all_eq_true.mp h g (lookup_some hg).1)
    rw [hk] at this
    cases this
  rintro x _ ⟨g, hg, hk | ⟨_, ln, _, g', hg', hk⟩⟩
  · exact hr x g hg hk
  · exact hr _ g' hg' hk

/-- The hypotheses of a two-operand rule where nothing is refused. -/
def Rim2Meets (s : State) {wd ws : Width} (i : Instr) (o : Rim2 wd ws) : Prop :=
  StateInv s ∧ Readable s (rim2Src o (nextOf i s) s) ∧ Readable s (rim2Dst o (nextOf i s) s) ∧
    Writable s (rim2Dst o (nextOf i s) s)

/-- The hypotheses of the clauses of a two-operand rule: none refused, with each of the forms; the source's
read, the destination's read, the destination's write refused. -/
def Rim2Met (s : State) {wd ws : Width} (i : Rim2 wd ws → Instr) (os : List (Rim2 wd ws)) : Prop :=
  (∀ o ∈ os, Rim2Meets s (i o) o) ∧ StateInv (restricted s) ∧ (∀ r, NoDevice (restricted s) r) ∧
    let src := fun o => rim2Src o (nextOf (i o) (restricted s)) (restricted s)
    let dst := fun o => rim2Dst o (nextOf (i o) (restricted s)) (restricted s)
    (∃ o e, ReadFaults (restricted s) (src o) e) ∧
    (∃ o e, Readable (restricted s) (src o) ∧ ReadFaults (restricted s) (dst o) e) ∧
    ∃ o e, Readable (restricted s) (src o) ∧ Readable (restricted s) (dst o) ∧ WriteFaults (restricted s) (dst o) e

theorem rim2_meets (s : State) {wd ws : Width} (i : Rim2 wd ws → Instr) (os : List (Rim2 wd ws)) (hi : StateInv s)
    (h : (os.all fun o => permits false s (rim2Src o (nextOf (i o) s) s) &&
      permits false s (rim2Dst o (nextOf (i o) s) s) && permits true s (rim2Dst o (nextOf (i o) s) s)) = true) :
    Rim2Met s i os := by
  refine ⟨fun o ho => ?_, restricted_inv hi, noDevice_of_ram rfl, ?_, ?_, ?_⟩
  · have := List.all_eq_true.mp h o ho
    simp only [Bool.and_eq_true] at this
    exact ⟨hi, readable_of_permits this.1.1, readable_of_permits this.1.2, writable_of_permits this.2⟩
  · exact ⟨.rm ⟨0, regs_pos wd⟩ (.abs 0x21000), .memory, (restricted_plans ws).1 false false⟩
  · exact ⟨.mr (.abs 0x21000) ⟨0, regs_pos ws⟩, .memory, rfl, (restricted_plans wd).1 false false⟩
  · exact ⟨.mr (.abs 0x10000) ⟨0, regs_pos ws⟩, .unprivilegedAccess, rfl, (restricted_plans wd).2⟩

/-- The hypotheses of a rule with a destination alone where nothing is refused. -/
def DstMeets (s : State) {w : Width} (i : Instr) (o : RimDst w) : Prop :=
  StateInv s ∧ s.pv = true ∧ Readable s (rimDstLoc o (nextOf i s) s) ∧ Writable s (rimDstLoc o (nextOf i s) s)

/-- The hypotheses of the clauses of a rule with a destination alone: none refused, with each of the forms; its
read or its write refused to unprivileged code, its write to privileged code. -/
def DstMet (s : State) {w : Width} (i : RimDst w → Instr) (os : List (RimDst w)) : Prop :=
  (∀ o ∈ os, DstMeets s (i o) o) ∧ StateInv (restricted s) ∧ StateInv { restricted s with pv := true } ∧
    let dst := fun o => rimDstLoc o (nextOf (i o) (restricted s)) (restricted s)
    (∃ o e, ReadFaults (restricted s) (dst o) e) ∧
    (∃ o e, Readable (restricted s) (dst o) ∧ WriteFaults (restricted s) (dst o) e) ∧
    ∃ o e, WriteFaults { restricted s with pv := true } (dst o) e

theorem dst_meets (s : State) {w : Width} (i : RimDst w → Instr) (os : List (RimDst w)) (hi : StateInv s ∧ s.pv = true)
    (h : (os.all fun o => permits false s (rimDstLoc o (nextOf (i o) s) s) &&
      permits true s (rimDstLoc o (nextOf (i o) s) s)) = true) : DstMet s i os := by
  refine ⟨fun o ho => ?_, restricted_inv hi.1, privileged_inv hi.1,
    ⟨.mem (.abs 0x21000), .memory, (restricted_plans w).1 false false⟩,
    ⟨.mem (.abs 0x10000), .unprivilegedAccess, (restricted_plans w).2⟩,
    .mem (.abs 0x21000), .memory, (restricted_plans w).1 true true⟩
  have := List.all_eq_true.mp h o ho
  simp only [Bool.and_eq_true] at this
  exact ⟨hi.1, hi.2, readable_of_permits this.1, writable_of_permits this.2⟩

/-- The hypotheses of a rule with a source alone where nothing is refused. -/
def SrcMeets (s : State) {w : Width} (i : Instr) (o : RimSrc w) : Prop :=
  StateInv s ∧ Readable s (rimSrcLoc o (nextOf i s) s)

/-- The hypotheses of the clauses of a rule with a source alone: none refused, with each of the forms; its read
refused, in either mode. -/
def SrcMet (s : State) {w : Width} (i : RimSrc w → Instr) (os : List (RimSrc w)) : Prop :=
  (∀ o ∈ os, SrcMeets s (i o) o) ∧ StateInv (restricted s) ∧ StateInv { restricted s with pv := true } ∧
    let src := fun o => rimSrcLoc o (nextOf (i o) (restricted s)) (restricted s)
    ∃ o e, ReadFaults (restricted s) (src o) e ∧ ReadFaults { restricted s with pv := true } (src o) e

theorem src_meets (s : State) {w : Width} (i : RimSrc w → Instr) (os : List (RimSrc w)) (hi : StateInv s)
    (h : (os.all fun o => permits false s (rimSrcLoc o (nextOf (i o) s) s)) = true) : SrcMet s i os :=
  ⟨fun o ho => ⟨hi, readable_of_permits (List.all_eq_true.mp h o ho)⟩, restricted_inv hi, privileged_inv hi,
    .mem (.abs 0x21000), .memory, (restricted_plans w).1 false false, (restricted_plans w).1 false true⟩

/-- The four shapes of a two-operand form, the memory operand at the last bytes of RAM. -/
def forms8 : List (Rim2 .b8 .b8) := [.rr 7 0, .ri 0 0xFF, .rm 3 (.abs 0xFFFF), .mr (.abs 0xFFFF) 4]
/-- The same at 16 bits. -/
def forms16 : List (Rim2 .b16 .b16) := [.rr 7 0, .ri 0 0x8000, .rm 3 (.abs 0xFFFE), .mr (.abs 0xFFFE) 4]
/-- The same at 32 bits. -/
def forms32 : List (Rim2 .b32 .b32) := [.rr 5 0, .ri 4 1, .rm 3 (.abs 0xFFFC), .mr (.abs 0xFFFC) 5]
/-- The same with a destination of twice the width. -/
def forms16by8 : List (Rim2 .b16 .b8) := [.rr 7 0, .ri 0 0xFF, .rm 3 (.abs 0xFFFF), .mr (.abs 0xFFFE) 4]
/-- The same with a destination of twice the width. -/
def forms32by16 : List (Rim2 .b32 .b16) := [.rr 5 0, .ri 4 1, .rm 3 (.abs 0xFFFE), .mr (.abs 0xFFFC) 4]
/-- The shapes of a destination. -/
def dsts (w : Width) (n : Fin w.regs) (a : Word) : List (RimDst w) := [.reg n, .mem (.abs a)]
/-- The shapes of a source. -/
def srcs (w : Width) (n : Fin w.regs) (v : BitVec w.bits) (a : Word) : List (RimSrc w) :=
  [.reg n, .imm v, .mem (.abs a)]

theorem start_inv : StateInv start := by decide

theorem cached_inv : StateInv cached := by decide

/-- A step that ends in a state with the property. -/
theorem step_to {s : State} {p : State → Bool}
    (h : (match step s with | .next t => p t | _ => false) = true) : ∃ t, step s = .next t ∧ p t = true := by
  cases hs : step s with
  | next t => rw [hs] at h; exact ⟨t, rfl, h⟩
  | fault r => rw [hs] at h; cases h
  | refused r => rw [hs] at h; cases h

/-- A refill that succeeds with the property. -/
theorem refill_to {s : State} {p : State → Bool}
    (h : (match refill s with | .ok _ t => p t | .raise _ _ => false) = true) :
    ∃ t, refill s = .ok () t ∧ p t = true := by
  cases hs : refill s with
  | ok v t => rw [hs] at h; exact ⟨t, rfl, h⟩
  | raise r t => rw [hs] at h; cases h

theorem witness_DecodeOfEncode : wellFormed (.cmov (.w16 (.rm 0 (.indexedOff .ip ⟨4, .x2⟩ 4))) 0x6D) = true ∧
    wellFormed (.pcmov .nibble (.rr 7 7) 0x0D) = true ∧ wellFormed .nop = true := by decide

theorem witness_DecodeIsCanonical :
    decode (Window.ofList [0x1C, 0x43, 0xB4, 4, 0, 0, 0, 7]) =
      .ok (.cmov (.w16 (.rm 0 (.indexedOff .ip ⟨4, .x2⟩ 4))) 7) ∧
    decode (Window.ofList [0]) = .ok .nop := ⟨rfl, rfl⟩

theorem witness_ReservedOpcodes : ∀ c ∈ ([0x05, 0x07, 0x0E, 0x0F, 0x3F, 0x97, 0x9A, 0xFF] : List Byte),
    Running (poke 0x1000 [c] start) ∧
    ∃ t, refill (poke 0x1000 [c] start) = .ok () t ∧ reservedByte t.win.b0.toNat = true := by
  intro c hc
  have h : (([0x05, 0x07, 0x0E, 0x0F, 0x3F, 0x97, 0x9A, 0xFF] : List Byte).all fun c =>
    match refill (poke 0x1000 [c] start) with
    | .ok _ t => reservedByte t.win.b0.toNat
    | .raise _ _ => false) = true := by decide
  exact ⟨⟨rfl, rfl⟩, refill_to (List.all_eq_true.mp h c hc)⟩

theorem witness_RefusedFields :
    (0x19 ∈ wideOpcodes ∧ 0x80 / 128 = 1) ∧
    (0x40 ∈ twoOperandOpcodes ∧ ¬ 0x40 ∈ wideOpcodes ∧ 0xC4 / 64 % 2 = 1 ∧ 0xC4 % 8 = 4) ∧
    (0x48 ∈ twoOperandOpcodes ∧ 0x48 ∈ wideOpcodes ∧ 0x7C / 128 = 0 ∧ 0x7C / 64 % 2 = 1 ∧ 0x7C % 8 = 4) ∧
    (0x08 ∈ sourceOpcodes ++ destinationOpcodes ∧ 0x08 ∈ wideOpcodes ∧ 0x08 / 128 = 0 ∧ 0x08 / 8 % 8 ≠ 0) ∧
    (0x8E ∈ sourceOpcodes ++ destinationOpcodes ∧ ¬ 0x8E ∈ wideOpcodes ∧ 0xB8 / 8 % 8 ≠ 0) ∧
    (0x34 ∈ sourceOpcodes ∧ ¬ 0x34 ∈ wideOpcodes ∧ 0xC4 / 8 % 16 = 8 ∧ 4 ≤ 0xC4 % 8) ∧
    (0x96 ∈ sourceOpcodes ∧ 0x96 ∈ wideOpcodes ∧ 0x47 / 128 = 0 ∧ 0x47 / 8 % 16 = 8 ∧ 4 ≤ 0x47 % 8) ∧
    (0x35 ∈ destinationOpcodes ∧ ¬ 0x35 ∈ wideOpcodes ∧ 0x44 / 8 % 16 = 8 ∧ 0x44 % 8 ≤ 4) ∧
    (0x37 ∈ destinationOpcodes ∧ 0x37 ∈ wideOpcodes ∧ 0x40 / 128 = 0 ∧ 0x40 / 8 % 16 = 8 ∧ 0x40 % 8 ≤ 4) := by decide

theorem witness_StepRunsDecoded :
    Running start ∧ (∃ t, refill start = .ok () t ∧ decide (t.win = Window.ofList []) = true) ∧
    decode (Window.ofList []) = .ok .nop ∧
    Running (poke 0x1000 [5] start) ∧
    (∃ t, refill (poke 0x1000 [5] start) = .ok () t ∧ decide (t.win = Window.ofList [5]) = true) ∧
    decode (Window.ofList [5]) = .error .reservedOpcode :=
  ⟨⟨rfl, rfl⟩, refill_to (by decide), rfl, ⟨rfl, rfl⟩, refill_to (by decide), rfl⟩

/-- The hypotheses of `StepFetches`, in a form that is decided. -/
theorem fetches_of {s : State} {w : Window}
    (h : ((List.range 8).all fun k =>
      match keptByte s (s.ip + BitVec.ofNat 32 k) with
      | some b => decide (w.byte k = b)
      | none => decide (ramView s (s.ip + BitVec.ofNat 32 k).toNat = some (w.byte k))) = true) :
    (∀ k, k < 8 → ∀ b, keptByte s (s.ip + BitVec.ofNat 32 k) = some b → w.byte k = b) ∧
    (∀ k, k < 8 → keptByte s (s.ip + BitVec.ofNat 32 k) = none →
      ramView s (s.ip + BitVec.ofNat 32 k).toNat = some (w.byte k)) := by
  constructor
  · intro k hk b hb
    have := List.all_eq_true.mp h k (List.mem_range.mpr hk)
    rw [hb] at this
    exact of_decide_eq_true this
  · intro k hk hb
    have := List.all_eq_true.mp h k (List.mem_range.mpr hk)
    rw [hb] at this
    exact of_decide_eq_true this

/-- The state of program P6 at its third step: two bytes of the window kept, six read. -/
def stale : State := poke 0x1009 [0x11, 0x01, 0x11] { start with
  ip := 0x1009, winBase := 0x1003, winValid := true
  win := { b0 := 0x18, b1 := 0xC5, b2 := 0x0A, b3 := 0x10, b4 := 0, b5 := 0, b6 := 0x11, b7 := 0x11 } }

theorem witness_StepFetches :
    (∀ s ∈ [start, stale], StateInv s ∧ Running s ∧ FetchPermitted s) ∧
    (∀ r, NoDevice start r ∧ NoDevice stale r) ∧
    (∀ k, k < 8 → ∀ b, keptByte stale (stale.ip + BitVec.ofNat 32 k) = some b →
      (Window.ofList [0x11, 0x11, 0x11]).byte k = b) ∧
    (∀ k, k < 8 → keptByte stale (stale.ip + BitVec.ofNat 32 k) = none →
      ramView stale (stale.ip + BitVec.ofNat 32 k).toNat = some ((Window.ofList [0x11, 0x11, 0x11]).byte k)) ∧
    (∀ k, k < 8 → keptByte start (start.ip + BitVec.ofNat 32 k) = none →
      ramView start (start.ip + BitVec.ofNat 32 k).toNat = some ((Window.ofList []).byte k)) := by
  refine ⟨?_, fun r => ⟨noDevice_of_ram rfl r, noDevice_of_ram rfl r⟩, (fetches_of (by decide)).1, (fetches_of (by decide)).2, (fetches_of (by decide)).2⟩
  unfold Running FetchPermitted
  decide

theorem witness_FetchFaultTaken :
    (StateInv { start with ip := 0xFFFD } ∧ Running { start with ip := 0xFFFD } ∧
      fetchFault { start with ip := 0xFFFD } = some .memory) ∧
    (StateInv { cached with ip := 0x20000, pv := false } ∧ Running { cached with ip := 0x20000, pv := false } ∧
      fetchFault { cached with ip := 0x20000, pv := false } = some .unprivilegedAccess) := by
  unfold Running
  decide

theorem witness_HaltedStaysPut : { start with halted := true, pend := true }.halted = true := rfl

theorem witness_PendingRequestServed :
    StateInv { start with pend := true, pendVec := 0xFF } ∧ { start with pend := true }.halted = false ∧
    { start with pend := true }.pend = true ∧ EntryPermitted 0xFF { start with pend := true, pendVec := 0xFF } := by
  unfold EntryPermitted
  decide

theorem witness_StepKeepsInvariant : (StateInv start ∧ ∃ t, step start = .next t) ∧
    (StateInv cached ∧ ∃ t, step cached = .next t) := ⟨⟨start_inv, _, rfl⟩, cached_inv, _, rfl⟩

theorem witness_StepKeepsPlatform : StateInv cached ∧ ∃ t, step cached = .next t := ⟨cached_inv, _, rfl⟩

theorem witness_FaultEntersHandler : StateInv start ∧
    (∀ v ∈ ([0x08, 0x0D, 0x0F, 0x10, 0x11] : List (BitVec 8)), EntryPermitted v start) ∧
    StateInv { start with isp := 16 } ∧ EntryPermitted 0x08 { start with isp := 16 } := by
  unfold EntryPermitted
  decide

theorem witness_DoubleFaultHalts :
    (StateInv { start with isp := 0 } ∧ ¬ EntryPermitted 0x20 { start with isp := 0 }) ∧
    (StateInv { start with isp := 4, pv := false } ∧ ¬ EntryPermitted 0x20 { start with isp := 4, pv := false }) ∧
    (StateInv { start with isp := 15, pend := true, pendVec := 0x40 } ∧
      ¬ EntryPermitted 0x40 { start with isp := 15, pend := true, pendVec := 0x40 } ∧
      { start with isp := 15, pend := true, pendVec := 0x40 }.halted = false) ∧
    (faultVector .division = 0x0D ∧ ¬ EntryPermitted 0x0D { start with isp := 0x10001 }) := by
  unfold EntryPermitted
  decide

/-- A source that is the zero register B, a zero immediate or a byte of memory that reads 0: a divisor that can
be nothing but zero. -/
def ZeroForms {wd ws : Width} (i : Rim2 wd ws → Instr) (zero : BitVec ws.bits → Prop) (os : List (Rim2 wd ws)) :
    Prop :=
  ∀ o ∈ os, Readable start (rim2Src o (nextOf (i o) start) start) ∧
    Readable start (rim2Dst o (nextOf (i o) start) start) ∧
    ∀ b, ValueOf start (rim2Src o (nextOf (i o) start) start) b → zero b

/-- The one value a read of a location may answer, where there is one. -/
def onlyValue {w : Width} (l : Loc w) (s : State) : Option (BitVec w.bits) :=
  match l with
  | .reg n => some (readReg w n s)
  | .imm c => some c
  | .mem a => (viewNum (ramView s) a.toNat w.bytes).map fun m => BitVec.ofNat w.bits m

theorem valueOf_only {w : Width} {l : Loc w} {s : State} {v b : BitVec w.bits} (h : onlyValue l s = some v)
    (hb : ValueOf s l b) : b = v := by
  cases l with
  | reg n => exact hb.trans (Option.some.inj h)
  | imm c => exact hb.trans (Option.some.inj h)
  | mem a =>
    obtain ⟨m, h1, rfl⟩ := Option.map_eq_some_iff.1 h
    exact BitVec.eq_of_toNat_eq (by rw [BitVec.toNat_ofNat, ← hb m h1, Nat.mod_eq_of_lt b.isLt])

theorem zero_forms {wd ws : Width} (i : Rim2 wd ws → Instr) (zero : BitVec ws.bits → Prop) (dec : DecidablePred zero)
    (os : List (Rim2 wd ws)) (h : (os.all fun o =>
      permits false start (rim2Src o (nextOf (i o) start) start) &&
      permits false start (rim2Dst o (nextOf (i o) start) start) &&
      match onlyValue (rim2Src o (nextOf (i o) start) start) start with
      | some v => decide (zero v)
      | none => false) = true) : ZeroForms i zero os := fun o ho => by
  have := List.all_eq_true.mp h o ho
  simp only [Bool.and_eq_true] at this
  refine ⟨readable_of_permits this.1.1, readable_of_permits this.1.2, fun b hb => ?_⟩
  cases hv : onlyValue (rim2Src o (nextOf (i o) start) start) start with
  | none => rw [hv] at this; cases this.2
  | some v =>
    rw [hv] at this
    rw [valueOf_only hv hb]
    exact of_decide_eq_true this.2

theorem witness_DivisionByZeroHandled : StateInv start ∧ EntryPermitted 0x0D start ∧
    (∀ i ∈ [Instr.div, Instr.divs],
      ZeroForms (fun o : Rim2 .b16 .b16 => i (.w16 o)) (· = 0)
        [.rr 0 1, .ri 0 0, .rm 3 (.abs 0xFFFE), .mr (.abs 0xFFFE) 1] ∧
      ZeroForms (fun o : Rim2 .b8 .b8 => i (.w8 o)) (· = 0)
        [.rr 0 1, .ri 0 0, .rm 3 (.abs 0xFFFF), .mr (.abs 0xFFFF) 1]) ∧
    (∀ i ∈ [Instr.divm, Instr.divms],
      ZeroForms (fun o : Rim2 .b32 .b16 => i (.w16 o)) (· = 0)
        [.rr 5 1, .ri 0 0, .rm 3 (.abs 0xFFFE), .mr (.abs 0xFFFC) 1] ∧
      ZeroForms (fun o : Rim2 .b16 .b8 => i (.w8 o)) (· = 0)
        [.rr 0 1, .ri 0 0, .rm 3 (.abs 0xFFFF), .mr (.abs 0xFFFE) 1]) ∧
    -- one zero lane among lanes that are not zero
    ZeroForms (wd := .b16) (ws := .b16) (.pdiv .byte) (fun b => ∃ k, k < 2 ∧ laneOf 8 b k = 0)
      [.ri 0 0x0100, .rr 0 1, .rm 3 (.abs 0xFFFE)] ∧
    ZeroForms (wd := .b32) (ws := .b16) (.pdivms .nibble) (fun b => ∃ k, k < 4 ∧ laneOf 4 b k = 0)
      [.ri 0 0x1011, .rr 5 1, .rm 3 (.abs 0xFFFE)] := by
  refine ⟨start_inv, by unfold EntryPermitted; decide, ?_, ?_, zero_forms _ _ inferInstance _ (by decide),
    zero_forms _ _ inferInstance _ (by decide)⟩
  · intro i hi
    simp only [List.mem_cons, List.not_mem_nil, or_false] at hi
    rcases hi with rfl | rfl <;>
      exact ⟨zero_forms _ _ inferInstance _ (by decide), zero_forms _ _ inferInstance _ (by decide)⟩
  · intro i hi
    simp only [List.mem_cons, List.not_mem_nil, or_false] at hi
    rcases hi with rfl | rfl <;>
      exact ⟨zero_forms _ _ inferInstance _ (by decide), zero_forms _ _ inferInstance _ (by decide)⟩

theorem witness_IntEnters :
    (StateInv start ∧ start.pv = true ∧ EntryPermitted 0x00 start ∧ EntryPermitted 0xFF start) ∧
    (StateInv { start with pv := false, ii := true } ∧ EntryPermitted 0x20 { start with pv := false, ii := true }) := by
  unfold EntryPermitted
  decide

theorem witness_PrivilegedRefused :
    { start with pv := false }.pv = false ∧ (0x21 : BitVec 8) ≠ 0x20 ∧ (0x1F : BitVec 8) ≠ 0x20 ∧
    SrcMet { start with pv := false } .movToIsp (srcs .b32 5 1 0xFFFC) ∧
    SrcMet { start with pv := false } .movToPf (srcs .b16 7 1 0xFFFE) :=
  ⟨rfl, by decide, by decide, src_meets _ _ _ (by decide) (by decide), src_meets _ _ _ (by decide) (by decide)⟩

theorem witness_IretRestores : (StateInv { start with sp := 0xFFF0 } ∧ { start with sp := 0xFFF0 }.pv = true ∧
    ∀ k ∈ [0, 4, 8, 12], Readable { start with sp := 0xFFF0 } (Loc.mem (0xFFF0 + BitVec.ofNat 32 k) : Loc .b32)) ∧
    (StateInv { start with sp := 0xFFF4 } ∧ returnFault { start with sp := 0xFFF4 } = some .memory) ∧
    ∀ r, NoDevice { start with sp := 0xFFF0 } r := by
  refine ⟨⟨by decide, rfl, ?_⟩, by decide, noDevice_of_ram rfl⟩
  unfold Readable
  decide

theorem witness_EntryThenReturn : ∀ s ∈ [start, { start with ii := true, sp := 0x10000 }, { start with pv := false }],
    StateInv s ∧ EntryPermitted 0x20 s ∧
    ∀ k ∈ [4, 8, 12, 16],
      (accessPlan false s.plat (entryStack s - BitVec.ofNat 32 k).toNat 4 true).2 = none ∧
      ∀ j < 4, (ramView s ((entryStack s - BitVec.ofNat 32 k).toNat + j)).isSome = true := by
  unfold EntryPermitted
  decide

theorem witness_UnprivilegedStep :
    (StateInv { start with pv := false } ∧ { start with pv := false }.pv = false ∧
      ∃ t, step { start with pv := false } = .next t ∧ (!t.pv) = true) ∧
    (StateInv (poke 0x1000 [0x03] { start with pv := false }) ∧
      ∃ t, step (poke 0x1000 [0x03] { start with pv := false }) = .next t ∧ t.pv = true) ∧
    (StateInv { start with pv := false, pend := true, pendVec := 0x40 } ∧
      ∃ t, step { start with pv := false, pend := true, pendVec := 0x40 } = .next t ∧ t.pv = true) :=
  ⟨⟨by decide, rfl, step_to (by decide)⟩, ⟨by decide, step_to (by decide)⟩, by decide, step_to (by decide)⟩

theorem witness_UnprivilegedMemory :
    StateInv (poke 0x1000 [0x20] { cached with pv := false }) ∧
    (∃ t, step (poke 0x1000 [0x20] { cached with pv := false }) = .next t ∧ (!t.pv && !t.halted) = true) ∧
    lookup cached.plat.segments 0x10000 = some ⟨0x10000, 0x1000, .ram, false, true, true⟩ ∧
    lookup cached.plat.segments 0x20FFF = some ⟨0x20000, 0x1000, .ram, true, true, true⟩ :=
  ⟨by decide, step_to (by decide), by decide, by decide⟩

theorem witness_FlagsKept : StateInv { start with f := 0x1234 } ∧ writesF (.pop (.w16 (.reg 0))) = false ∧
    writesF (.jccRel16 6 1) = false ∧ writesF (.int 0x20) = false ∧
    ∃ t, exec (.pop (.w16 (.reg 0))) { start with f := 0x1234 } = .next t := ⟨by decide, rfl, rfl, rfl, _, rfl⟩

theorem witness_RegisterViews : (3 : Fin 8).val = (7 : Fin 8).val % 4 ∧ (0 : Fin 8).val = (4 : Fin 8).val % 4 ∧
    (0 : Fin 8).val = (0 : Fin 8).val % 4 := by decide

theorem witness_Move : Rim2Met start (fun o => .mov (.w16 o)) forms16 ∧
    Rim2Met start (fun o => .mov (.w8 o)) forms8 ∧ Rim2Met start (.movw) forms32 :=
  ⟨rim2_meets start (fun o => .mov (.w16 o)) _ start_inv (by decide),
    rim2_meets start (fun o => .mov (.w8 o)) _ start_inv (by decide), rim2_meets start _ _ start_inv (by decide)⟩

/-- The hypotheses of the instructions of width kind PROM. -/
def PromMeets (i : Rim2Prom → Instr) : Prop :=
  (Rim2Met start (fun o => i (.w16 o)) forms32by16) ∧ Rim2Met start (fun o => i (.w8 o)) forms16by8

/-- The hypotheses of the instructions of width kind SZ. -/
def SzMeets (i : Rim2Sz → Instr) : Prop :=
  (Rim2Met start (fun o => i (.w16 o)) forms16) ∧ Rim2Met start (fun o => i (.w8 o)) forms8

/-- The hypotheses of the one-operand instructions of width kind SZ. -/
def SzDstMeets (i : RimDstSz → Instr) : Prop :=
  (DstMet start (fun o => i (.w16 o)) (dsts .b16 7 0xFFFE)) ∧ DstMet start (fun o => i (.w8 o)) (dsts .b8 7 0xFFFF)

theorem prom_meets (i : Rim2Prom → Instr) (h : ∀ o, (i o).len = 2 + o.tail) : PromMeets i := by
  have e : ∀ o s, nextOf (i o) s = s.ip + BitVec.ofNat 32 (2 + o.tail) := fun o s => by rw [nextOf, h]
  constructor
  · refine rim2_meets start (fun o => i (.w16 o)) _ start_inv ?_
    simp only [e]
    decide
  · refine rim2_meets start (fun o => i (.w8 o)) _ start_inv ?_
    simp only [e]
    decide

theorem sz_meets (i : Rim2Sz → Instr) (h : ∀ o, (i o).len = 2 + o.tail) : SzMeets i := by
  have e : ∀ o s, nextOf (i o) s = s.ip + BitVec.ofNat 32 (2 + o.tail) := fun o s => by rw [nextOf, h]
  constructor
  · refine rim2_meets start (fun o => i (.w16 o)) _ start_inv ?_
    simp only [e]
    decide
  · refine rim2_meets start (fun o => i (.w8 o)) _ start_inv ?_
    simp only [e]
    decide

theorem sz_dst_meets (i : RimDstSz → Instr) (n : Nat) (h : ∀ o, (i o).len = n + o.tail) : SzDstMeets i := by
  have e : ∀ o s, nextOf (i o) s = s.ip + BitVec.ofNat 32 (n + o.tail) := fun o s => by rw [nextOf, h]
  constructor
  · refine dst_meets start (fun o => i (.w16 o)) _ ⟨start_inv, rfl⟩ ?_
    simp only [e]
    rfl
  · refine dst_meets start (fun o => i (.w8 o)) _ ⟨start_inv, rfl⟩ ?_
    simp only [e]
    rfl

/-- The hypotheses of the packed instructions at one lane width. -/
theorem packed_meets (i : Rim2 .b16 .b16 → Instr) (h : ∀ o, (i o).len = 2 + o.tail) :
    Rim2Met start i forms16 := by
  have e : ∀ o s, nextOf (i o) s = s.ip + BitVec.ofNat 32 (2 + o.tail) := fun o s => by rw [nextOf, h]
  refine rim2_meets start i _ start_inv ?_
  simp only [e]
  decide

/-- The hypotheses of the packed instructions with a wide destination. -/
theorem packed_wide_meets (i : Rim2 .b32 .b16 → Instr) (h : ∀ o, (i o).len = 2 + o.tail) :
    Rim2Met start i forms32by16 := by
  have e : ∀ o s, nextOf (i o) s = s.ip + BitVec.ofNat 32 (2 + o.tail) := fun o s => by rw [nextOf, h]
  refine rim2_meets start i _ start_inv ?_
  simp only [e]
  decide

theorem witness_MoveExtended : PromMeets .movs ∧ PromMeets .movz :=
  ⟨prom_meets _ fun _ => rfl, prom_meets _ fun _ => rfl⟩

/-- Whether a condition holds of a group, decided. -/
def groupDecidable (f : Half) (bc i : Nat) : Decidable (groupHolds bc f i) := by
  delta groupHolds
  infer_instance

/-- Whether a condition holds of F, decided. -/
def condDecidable (cc : BitVec 8) (f : Half) : Decidable (condHolds cc f) := by
  have : ∀ bc i, Decidable (groupHolds bc f i) := groupDecidable f
  delta condHolds
  infer_instance

theorem holds_of {cc : BitVec 8} {f : Half} (h : @decide _ (condDecidable cc f) = true) : condHolds cc f :=
  @of_decide_eq_true _ (condDecidable cc f) h

theorem not_holds_of {cc : BitVec 8} {f : Half} (h : @decide _ (condDecidable cc f) = false) : ¬ condHolds cc f :=
  @of_decide_eq_false _ (condDecidable cc f) h

theorem witness_ConditionalMove :
    (condWellFormed 0x0D = true ∧ condHolds 0x0D 0x0001 ∧ ¬ condHolds 0x0D 0x0000) ∧
    (condWellFormed 0x66 = true ∧ condHolds 0x66 0x1111 ∧ ¬ condHolds 0x66 0x0111) ∧
    Rim2Met { start with f := 0x0001 } (fun o => .cmov (.w16 o) 0x0D) forms16 ∧
    Rim2Met { start with f := 0x0111 } (fun o => .cmov (.w8 o) 0x66) forms8 :=
  ⟨⟨by decide, holds_of rfl, not_holds_of rfl⟩, ⟨by decide, holds_of rfl, not_holds_of rfl⟩,
    rim2_meets _ (fun o => .cmov (.w16 o) 0x0D) _ (by decide) (by decide),
    rim2_meets _ (fun o => .cmov (.w8 o) 0x66) _ (by decide) (by decide)⟩

theorem witness_PackedConditionalMove :
    laneCondWellFormed 0x06 = true ∧
    (∀ i, i < 4 → (decide (i = 3) = true ↔ groupHolds ((0x06 : BitVec 8).toNat % 16) 0x1000 i)) ∧
    Rim2Met { start with f := 0x1000 } (fun o => .pcmov .nibble o 0x06) forms16 := by
  refine ⟨rfl, ?_, rim2_meets _ _ _ (by decide) (by decide)⟩
  intro i hi
  match i, hi with
  | 0, _ => exact ⟨nofun, fun h => absurd h (@of_decide_eq_false _ (groupDecidable _ _ _) rfl)⟩
  | 1, _ => exact ⟨nofun, fun h => absurd h (@of_decide_eq_false _ (groupDecidable _ _ _) rfl)⟩
  | 2, _ => exact ⟨nofun, fun h => absurd h (@of_decide_eq_false _ (groupDecidable _ _ _) rfl)⟩
  | 3, _ => exact ⟨fun _ => @of_decide_eq_true _ (groupDecidable _ _ _) rfl, fun _ => rfl⟩

theorem witness_ProtectedMoves :
    start.pv = true ∧ SrcMet start .movToIsp (srcs .b32 5 1 0xFFFC) ∧
    SrcMet start .movToPf (srcs .b16 7 1 0xFFFE) ∧
    DstMet start .movFromIsp (dsts .b32 5 0xFFFC) ∧
    DstMet start .movFromPf (dsts .b16 7 0xFFFE) :=
  ⟨rfl, src_meets _ _ _ start_inv (by decide), src_meets _ _ _ start_inv (by decide),
    dst_meets _ _ _ ⟨start_inv, rfl⟩ (by decide), dst_meets _ _ _ ⟨start_inv, rfl⟩ (by decide)⟩

theorem witness_PushRegister :
    (StateInv { start with sp := 3 } ∧
      WriteFaults { start with sp := 3 } (Loc.mem (3 - BitVec.ofNat 32 4) : Loc .b32) .memory ∧
      WriteFaults { start with sp := 0x10001 } (Loc.mem (0x10001 - BitVec.ofNat 32 2) : Loc .b16) .memory) ∧
    (StateInv { start with sp := 2 } ∧ Writable { start with sp := 2 } (Loc.mem (2 - BitVec.ofNat 32 2) : Loc .b16)) ∧
    (StateInv { start with sp := 0x10000 } ∧
      Writable { start with sp := 0x10000 } (Loc.mem (0x10000 - BitVec.ofNat 32 4) : Loc .b32)) := by
  unfold Writable WriteFaults
  decide

theorem witness_PopRegister :
    (StateInv { start with sp := 0xFFFF } ∧
      ReadFaults { start with sp := 0xFFFF } (Loc.mem 0xFFFF : Loc .b16) .memory ∧
      ReadFaults { start with sp := 0xFFFD } (Loc.mem 0xFFFD : Loc .b32) .memory) ∧
    (StateInv { start with sp := 0xFFFE } ∧ Readable { start with sp := 0xFFFE } (Loc.mem 0xFFFE : Loc .b16)) ∧
    (StateInv { start with sp := 0xFFFC } ∧ Readable { start with sp := 0xFFFC } (Loc.mem 0xFFFC : Loc .b32)) := by
  unfold Readable ReadFaults
  decide

theorem witness_PushOperand :
    SrcMet { start with sp := 2 } (fun o => .push (.w16 o)) (srcs .b16 7 1 0xFFFE) ∧
    Writable { start with sp := 2 } (Loc.mem (2 - BitVec.ofNat 32 2) : Loc .b16) ∧
    SrcMet { start with sp := 1 } (fun o => .push (.w8 o)) (srcs .b8 7 1 0xFFFF) ∧
    Writable { start with sp := 1 } (Loc.mem (1 - BitVec.ofNat 32 1) : Loc .b8) ∧
    SrcMet { start with sp := 4 } .pushw (srcs .b32 5 1 0xFFFC) ∧
    Writable { start with sp := 4 } (Loc.mem (4 - BitVec.ofNat 32 4) : Loc .b32) ∧
    -- readable sources whose push is refused
    SrcMet { start with sp := 1 } (fun o => .push (.w16 o)) (srcs .b16 7 1 0xFFFE) ∧
    WriteFaults { start with sp := 1 } (Loc.mem (1 - BitVec.ofNat 32 2) : Loc .b16) .memory ∧
    SrcMet { start with sp := 0 } (fun o => .push (.w8 o)) (srcs .b8 7 1 0xFFFF) ∧
    WriteFaults { start with sp := 0 } (Loc.mem (0 - BitVec.ofNat 32 1) : Loc .b8) .memory ∧
    SrcMet { start with sp := 3 } .pushw (srcs .b32 5 1 0xFFFC) ∧
    WriteFaults { start with sp := 3 } (Loc.mem (3 - BitVec.ofNat 32 4) : Loc .b32) .memory :=
  ⟨src_meets _ (fun o => .push (.w16 o)) _ (by decide) (by decide), writable_of_permits (by decide),
    src_meets _ (fun o => .push (.w8 o)) _ (by decide) (by decide), writable_of_permits (by decide),
    src_meets _ _ _ (by decide) (by decide), writable_of_permits (by decide),
    src_meets _ (fun o => .push (.w16 o)) _ (by decide) (by decide), rfl,
    src_meets _ (fun o => .push (.w8 o)) _ (by decide) (by decide), rfl,
    src_meets _ _ _ (by decide) (by decide), rfl⟩

theorem witness_PopOperand :
    DstMet { start with sp := 0xFFFE } (fun o => .pop (.w16 o)) (dsts .b16 7 0xFFFE) ∧
    Readable { start with sp := 0xFFFE } (Loc.mem 0xFFFE : Loc .b16) ∧
    DstMet { start with sp := 0xFFFF } (fun o => .pop (.w8 o)) (dsts .b8 7 0xFFFF) ∧
    Readable { start with sp := 0xFFFF } (Loc.mem 0xFFFF : Loc .b8) ∧
    DstMet { start with sp := 0xFFFC } .popw (dsts .b32 5 0xFFFC) ∧
    Readable { start with sp := 0xFFFC } (Loc.mem 0xFFFC : Loc .b32) ∧
    -- a stack that cannot be read, and a readable one with a destination that cannot be written
    (StateInv { start with sp := 0xFFFF } ∧
      ReadFaults { start with sp := 0xFFFF } (Loc.mem 0xFFFF : Loc .b16) .memory) ∧
    ReadFaults { start with sp := 0x10000 } (Loc.mem 0x10000 : Loc .b8) .memory ∧
    ReadFaults { start with sp := 0xFFFD } (Loc.mem 0xFFFD : Loc .b32) .memory ∧
    (WriteFaults { start with sp := 0xFFFE } (Loc.mem 0xFFFF : Loc .b16) .memory ∧
      WriteFaults { start with sp := 0xFFFF } (Loc.mem 0x10000 : Loc .b8) .memory ∧
      WriteFaults { start with sp := 0xFFFC } (Loc.mem 0xFFFF : Loc .b32) .memory) :=
  ⟨dst_meets _ (fun o => .pop (.w16 o)) _ (by decide) (by decide), readable_of_permits (by decide),
    dst_meets _ (fun o => .pop (.w8 o)) _ (by decide) (by decide), readable_of_permits (by decide),
    dst_meets _ _ _ (by decide) (by decide), readable_of_permits (by decide), ⟨by decide, rfl⟩, rfl, rfl, rfl, rfl, rfl⟩

theorem witness_PushPopFlags : StateInv start ∧ start.pv = true ∧
    WriteFaults { start with sp := 1 } (Loc.mem (1 - BitVec.ofNat 32 2) : Loc .b16) .memory ∧
    ReadFaults { start with sp := 0xFFFF } (Loc.mem 0xFFFF : Loc .b16) .memory ∧
    Writable { start with sp := 2 } (Loc.mem (2 - BitVec.ofNat 32 2) : Loc .b16) ∧
    Readable { start with sp := 0xFFFE } (Loc.mem 0xFFFE : Loc .b16) :=
  ⟨start_inv, rfl, rfl, rfl, writable_of_permits (by decide), readable_of_permits (by decide)⟩

theorem witness_PushPopInverse : StateInv { start with sp := 4 } ∧ 2 * [(0 : Fin 8), 7].length ≤ 4 ∧
    (∀ k, k < 2 → (accessPlan true start.plat (4 - 2 * (k + 1)) 2 true).2 = none ∧
      (accessPlan false start.plat (4 - 2 * (k + 1)) 2 true).2 = none) ∧
    (∀ x, 0 ≤ x → x < 4 → (ramView { start with sp := 4 } x).isSome = true) := by decide

/-- A store's address and its plan, from the operands. -/
def storePlan (i : Instr) (m : MemOp) (n : Nat) (s : State) : Nat × Option Fault :=
  accessPlan true s.plat (effectiveAddr m (nextOf i s) s).toNat n s.pv

/-- A load's address and its fault, from the operands. -/
def loadFault (i : Instr) (m : MemOp) (n : Nat) (s : State) : Option Fault :=
  (accessPlan false s.plat (effectiveAddr m (nextOf i s) s).toNat n s.pv).2

/-- Each kind of store, with none, one or two bytes before the faulting one. -/
theorem witness_StoreFaults :
    let user : State := { cached with pv := false, sp := 0x21002 }
    StateInv start ∧ StateInv cached ∧ StateInv user ∧
    storePlan (.mov (.w16 (.mr (.abs 0xFFFF) 0))) (.abs 0xFFFF) 2 start = (0, some .memory) ∧
    storePlan (.mov (.w16 (.mr (.abs 0x20FFF) 0))) (.abs 0x20FFF) 2 cached = (1, some .memory) ∧
    storePlan (.movw (.mr (.abs 0xFFFE) 5)) (.abs 0xFFFE) 4 user = (2, some .unprivilegedAccess) ∧
    (loadFault (.add (.w16 (.mr (.abs 0xFFFF) 7))) (.abs 0xFFFF) 2 user = none ∧
      storePlan (.add (.w16 (.mr (.abs 0xFFFF) 7))) (.abs 0xFFFF) 2 user = (1, some .unprivilegedAccess)) ∧
    (loadFault (.add (.w16 (.mr (.abs 0x10000) 7))) (.abs 0x10000) 2 user = none ∧
      storePlan (.add (.w16 (.mr (.abs 0x10000) 7))) (.abs 0x10000) 2 user = (0, some .unprivilegedAccess)) ∧
    (StateInv { start with sp := 2 } ∧ accessPlan true start.plat ((2 : Word) - 4).toNat 4 true = (0, some .memory)) ∧
    accessPlan true user.plat (user.sp - 4).toNat 4 user.pv = (0, some .unprivilegedAccess) ∧
    accessPlan true cached.plat ((0x21002 : Word) - 4).toNat 4 true = (2, some .memory) := by decide

theorem witness_LoadFaults :
    let user : State := { cached with pv := false, sp := 0x20000 }
    StateInv start ∧ StateInv user ∧
    loadFault (.add (.w16 (.rm 0 (.abs 0xFFFF)))) (.abs 0xFFFF) 2 start = some .memory ∧
    loadFault (.add (.w16 (.rm 0 (.abs 0x20FFE)))) (.abs 0x20FFE) 2 user = some .unprivilegedAccess ∧
    loadFault (.div (.w8 (.mr (.abs 0x10000) 0))) (.abs 0x10000) 1 start = some .memory ∧
    loadFault (.movToIsp (.mem (.abs 0xFFFD))) (.abs 0xFFFD) 4 start = some .memory ∧
    loadFault (.movToIsp (.mem (.abs 0x20000))) (.abs 0x20000) 4 user = some .unprivilegedAccess ∧
    (StateInv { start with sp := 0xFFFF } ∧ (accessPlan false start.plat (0xFFFF : Word).toNat 2 true).2 = some .memory) ∧
    (accessPlan false user.plat user.sp.toNat 2 user.pv).2 = some .unprivilegedAccess ∧
    (accessPlan false user.plat user.sp.toNat 4 user.pv).2 = some .unprivilegedAccess ∧
    (accessPlan false start.plat (0xFFFD : Word).toNat 4 true).2 = some .memory := by decide

/-- A table with a device at 0x10000, not cached, and the stack at the end of RAM. -/
def deviceState : State := { start with
  sp := 0xFFFC
  plat := { cachedPlatform with
    segments := [⟨0, 0x10000, .ram, false, false, true⟩, ⟨0x10000, 0x10, .device, true, false, false⟩] } }

/-- A table with a device of two lines of index 0 behind the cache, and the second of them dirty in it. -/
def deviceCached : State := { start with
  cache := [(0, ⟨9, true, false, false, List.replicate 31 0 ++ [7]⟩)]
  plat := { cachedPlatform with
    segments := [⟨0, 0x10000, .ram, false, false, true⟩, ⟨0x10000, 0x4000, .device, false, false, true⟩] } }

/-- Both accesses of a width are served at an address. -/
def Served (s : State) (g : Segment) (a n : Nat) : Prop := DeviceServes false s g a n ∧ DeviceServes true s g a n

theorem witness_DeviceAccess :
    let g : Segment := ⟨0x10000, 0x10, .device, true, false, false⟩
    let last := fun k : Nat => MemOp.abs (BitVec.ofNat 32 (0x10010 - k))
    (StateInv deviceState ∧ deviceState.pv = true ∧ ∀ k ∈ [1, 2, 4],
      0x10010 - k = (effectiveAddr (last k) (nextOf (.mov (.w8 (.rm 0 (last k)))) deviceState) deviceState).toNat ∧
      Served deviceState g (0x10010 - k) k) ∧
    -- the stack of the pops
    (∀ w : Width, Readable deviceState (Loc.mem deviceState.sp : Loc w) ∧
      NoDevice deviceState [(deviceState.sp.toNat, w.bytes)]) ∧
    -- behind the cache: a line that is valid, one that is not and evicts a device's dirty line
    (StateInv deviceCached ∧
      lookup deviceCached.plat.segments 0x1201F = some ⟨0x10000, 0x4000, .device, false, false, true⟩ ∧
      lookup deviceCached.plat.segments 0x1001F = some ⟨0x10000, 0x4000, .device, false, false, true⟩ ∧
      throughCache deviceCached.plat ⟨0x10000, 0x4000, .device, false, false, true⟩ = true ∧
      view deviceCached 0x1201F = some 7 ∧ view deviceCached 0x1001F = none ∧
      evictCalls deviceCached (lineIndex deviceCached.plat 0x1001F) ≠ []) := by
  refine ⟨⟨by decide, rfl, ?_⟩, fun w => ⟨?_, ?_⟩, by decide⟩
  · unfold Served DeviceServes
    decide
  · cases w <;> rfl
  · rintro x ⟨e, he, hx⟩ ⟨g, hg, h⟩
    have hx : 0xFFFC ≤ x ∧ x < 0x10000 := by
      rw [List.mem_singleton.1 he] at hx
      have : (deviceState.sp).toNat = 0xFFFC := rfl
      cases w <;> simp only [this, Width.bytes] at hx <;> omega
    have hl : ∀ k < 4, lookup deviceState.plat.segments (0xFFFC + k) = some ⟨0, 0x10000, .ram, false, false, true⟩ := by
      decide
    have hl := hl (x - 0xFFFC) (by omega)
    rw [show 0xFFFC + (x - 0xFFFC) = x by omega] at hl
    rw [hl] at hg
    cases hg
    rcases h with h | ⟨_, ln, h, _⟩ <;> cases h

theorem witness_AddSubtract : SzMeets .add ∧ SzMeets .adc ∧ SzMeets .sub ∧ SzMeets .sbb ∧
    Rim2Met start (.addw) forms32 ∧ Rim2Met start (.adcw) forms32 ∧
    Rim2Met start (.subw) forms32 ∧ Rim2Met start (.sbbw) forms32 :=
  ⟨sz_meets _ fun _ => rfl, sz_meets _ fun _ => rfl, sz_meets _ fun _ => rfl, sz_meets _ fun _ => rfl,
    rim2_meets _ _ _ start_inv (by decide), rim2_meets _ _ _ start_inv (by decide),
    rim2_meets _ _ _ start_inv (by decide), rim2_meets _ _ _ start_inv (by decide)⟩

theorem witness_Compare : SzMeets .cmp ∧ SzDstMeets (fun o => .cmpi o 0x80) ∧
    Rim2Met start (.cmpw) forms32 :=
  ⟨sz_meets _ fun _ => rfl, sz_dst_meets _ 3 fun _ => rfl, rim2_meets _ _ _ start_inv (by decide)⟩

theorem witness_PackedAddSubtract : ∀ l : Lane,
    Rim2Met start (.padd l) forms16 ∧ Rim2Met start (.padc l) forms16 ∧
    Rim2Met start (.psub l) forms16 ∧ Rim2Met start (.psbb l) forms16 ∧
    Rim2Met start (.pcmp l) forms16 := fun _ =>
  ⟨packed_meets _ fun _ => rfl, packed_meets _ fun _ => rfl, packed_meets _ fun _ => rfl,
    packed_meets _ fun _ => rfl, packed_meets _ fun _ => rfl⟩

theorem witness_Multiply : SzMeets .mul ∧ PromMeets .mulh ∧ PromMeets .mulsh :=
  ⟨sz_meets _ fun _ => rfl, prom_meets _ fun _ => rfl, prom_meets _ fun _ => rfl⟩

/-- With operands that have a quotient and operands that have none, at the edges of both. -/
theorem witness_Divide : (SzMeets .div ∧ SzMeets .divs ∧ PromMeets .divm ∧ PromMeets .divms) ∧
    (quotientU (5 : Half) 0 = none ∧ (quotientU (5 : Half) 1).isSome = true) ∧
    (quotientS (0x80 : Byte) 0xFF = none ∧ (quotientS (0x81 : Byte) 0xFF).isSome = true) ∧
    (divModU (0x0200 : Half) (2 : Byte) = none ∧ (divModU (0x01FF : Half) (2 : Byte)).isSome = true) ∧
    (divModS (0x80 : Half) (1 : Byte) = none ∧ (divModS (0xFF80 : Half) (1 : Byte)).isSome = true ∧
      (divModS (0x7F : Half) (1 : Byte)).isSome = true ∧ divModS (0xFF7F : Half) (1 : Byte) = none) :=
  ⟨⟨sz_meets _ fun _ => rfl, sz_meets _ fun _ => rfl, prom_meets _ fun _ => rfl, prom_meets _ fun _ => rfl⟩,
    by decide, by decide, by decide, by decide⟩

theorem witness_PackedMultiply : ∀ l : Lane, Rim2Met start (.pmul l) forms16 ∧
    Rim2Met start (.pmulh l) forms32by16 ∧ Rim2Met start (.pmulsh l) forms32by16 :=
  fun _ => ⟨packed_meets _ fun _ => rfl, packed_wide_meets _ fun _ => rfl, packed_wide_meets _ fun _ => rfl⟩

/-- With lanes that all have a quotient, and with one that has none. -/
theorem witness_PackedDivide : (∀ l : Lane,
    Rim2Met start (.pdiv l) forms16 ∧ Rim2Met start (.pdivs l) forms16 ∧
    Rim2Met start (.pdivm l) forms32by16 ∧ Rim2Met start (.pdivms l) forms32by16) ∧
    ((packedMaybe 16 2 fun i => quotientU (laneOf 8 (0x6409 : Half) i) (laneOf 8 (0x0A00 : Half) i)) = none ∧
      (packedMaybe 16 2 fun i => quotientU (laneOf 8 (0x6409 : Half) i) (laneOf 8 (0x0A02 : Half) i)).isSome = true) :=
  ⟨fun _ => ⟨packed_meets _ fun _ => rfl, packed_meets _ fun _ => rfl, packed_wide_meets _ fun _ => rfl,
    packed_wide_meets _ fun _ => rfl⟩, by decide⟩

theorem witness_Logic : SzMeets .and ∧ SzMeets .or ∧ SzMeets .xor ∧ SzDstMeets .not :=
  ⟨sz_meets _ fun _ => rfl, sz_meets _ fun _ => rfl, sz_meets _ fun _ => rfl, sz_dst_meets _ 2 fun _ => rfl⟩

theorem witness_Shifts : SzMeets .shl ∧ SzMeets .shr ∧ SzMeets .sar ∧ SzMeets .rol ∧ SzMeets .ror ∧ SzMeets .rcl ∧
    SzMeets .rcr :=
  ⟨sz_meets _ fun _ => rfl, sz_meets _ fun _ => rfl, sz_meets _ fun _ => rfl, sz_meets _ fun _ => rfl,
    sz_meets _ fun _ => rfl, sz_meets _ fun _ => rfl, sz_meets _ fun _ => rfl⟩

theorem witness_ShiftsByOne : SzDstMeets .shl1 ∧ SzDstMeets .shr1 ∧ SzDstMeets .sar1 ∧ SzDstMeets .rol1 ∧
    SzDstMeets .ror1 ∧ SzDstMeets .rcl1 ∧ SzDstMeets .rcr1 :=
  ⟨sz_dst_meets _ 2 fun _ => rfl, sz_dst_meets _ 2 fun _ => rfl, sz_dst_meets _ 2 fun _ => rfl,
    sz_dst_meets _ 2 fun _ => rfl, sz_dst_meets _ 2 fun _ => rfl, sz_dst_meets _ 2 fun _ => rfl,
    sz_dst_meets _ 2 fun _ => rfl⟩

theorem witness_Jumps : SrcMet start .jmpa (srcs .b32 5 1 0xFFFC) :=
  src_meets _ _ _ start_inv (by decide)

theorem witness_ConditionalJumps :
    (condWellFormed 0x56 = true ∧ condHolds 0x56 0x0011 ∧ ¬ condHolds 0x56 0x0010) ∧
    (condWellFormed 0x16 = true ∧ condHolds 0x16 0x0010 ∧ ¬ condHolds 0x16 0x1100) ∧
    (condWellFormed 0x2D = true ∧ condHolds 0x2D 0x4000 ∧ ¬ condHolds 0x2D 0x0000) ∧
    (condWellFormed 0x00 = true ∧ condHolds 0x00 0x0008 ∧ ¬ condHolds 0x00 0x0080) :=
  ⟨⟨by decide, holds_of rfl, not_holds_of rfl⟩, ⟨by decide, holds_of rfl, not_holds_of rfl⟩,
    ⟨by decide, holds_of rfl, not_holds_of rfl⟩, by decide, holds_of rfl, not_holds_of rfl⟩

theorem witness_CallsAndReturn :
    (StateInv { start with sp := 4 } ∧ Writable { start with sp := 4 } (Loc.mem (4 - 4) : Loc .b32)) ∧
    SrcMet { start with sp := 0x10000 } .calla (srcs .b32 5 1 0xFFFC) ∧
    Writable { start with sp := 0x10000 } (Loc.mem (0x10000 - 4) : Loc .b32) ∧
    Readable { start with sp := 0xFFFC } (Loc.mem 0xFFFC : Loc .b32) ∧
    (StateInv { start with sp := 3 } ∧ WriteFaults { start with sp := 3 } (Loc.mem (3 - 4) : Loc .b32) .memory) ∧
    SrcMet { start with sp := 3 } .calla (srcs .b32 5 1 0xFFFC) ∧
    ReadFaults { start with sp := 0xFFFD } (Loc.mem 0xFFFD : Loc .b32) .memory :=
  ⟨⟨by decide, writable_of_permits (by decide)⟩, src_meets _ _ _ (by decide) (by decide),
    writable_of_permits (by decide), readable_of_permits (by decide), ⟨by decide, rfl⟩,
    src_meets _ _ _ (by decide) (by decide), rfl⟩

theorem witness_RequestsLatched : start.ie = false ∧ { start with ie := true }.ie = true ∧
    StateInv { start with ie := true } ∧ { start with ie := true }.halted = false ∧
    EntryPermitted 0xFF { start with ie := true } ∧
    StateInv { start with ie := true, isp := 15 } ∧ ¬ EntryPermitted 0xFF { start with ie := true, isp := 15 } := by
  unfold EntryPermitted
  decide

theorem witness_ResetMode : resetMachine start ∈ [State.reset, resetCore start, resetMachine start] := by simp

theorem witness_ResetValues : resetCore start ∈ [State.reset, resetCore start, resetMachine start] := by simp

theorem witness_Registration :
    segmentsValid start.plat.segments = true ∧
    -- refused: no size, past the end, misaligned, one shared address
    (⟨0x10000, 0, .ram, false, false, false⟩ : Segment).size = 0 ∧
    2 ^ 32 < (⟨0xFFFFFFE0, 0x21, .ram, false, false, false⟩ : Segment).start + 0x21 ∧
    (0x10010 % 32 ≠ 0 ∧ 0x10 % 32 ≠ 0) ∧
    (⟨0, 0x10000, .ram, false, false, true⟩ ∈ start.plat.segments ∧
      segContains ⟨0xFFFF, 0x11, .device, false, false, false⟩ 0xFFFF = true ∧
      segContains ⟨0, 0x10000, .ram, false, false, true⟩ 0xFFFF = true) ∧
    -- accepted: the next address, and the last one of the address space
    (∃ t, registerSegment ⟨0x10000, 1, .device, false, false, false⟩ start = some t) ∧
    (∃ t, registerSegment ⟨0xFFFFFFE0, 0x20, .ram, true, true, true⟩ start = some t) :=
  ⟨by decide, rfl, by decide, by decide, by decide, ⟨_, rfl⟩, _, rfl⟩

theorem witness_HostMemory :
    (StateInv start ∧ (accessPlan true start.plat 0xFFFE 2 true).2 = none ∧
      ∀ k, k < 2 → (ramView start (0xFFFE + k)).isSome = true) ∧
    (StateInv cached ∧ (accessPlan true cached.plat 0xFFFE 4 true).2 = none ∧
      ∀ k, k < 4 → (ramView cached (0xFFFE + k)).isSome = true) := by decide

end Sys2Proof.Tests
end

/-! The register views of spec/10_state.md R21 to R24 as arithmetic: a half and a pair are read from 16-bit registers, and
a write of one is a write of the 16-bit registers it lies in. -/

namespace Sys2Proof.Machine

/-! ### Halves as numbers -/

theorem toNat_append_eq_add {m n : Nat} (x : BitVec m) (y : BitVec n) :
    (x ++ y).toNat = x.toNat * 2 ^ n + y.toNat := by
  rw [BitVec.toNat_append, ← Nat.shiftLeft_add_eq_or_of_lt y.isLt, Nat.shiftLeft_eq]

theorem lowByte_toNat (v : Half) : (lowByte v).toNat = v.toNat % 256 := by
  simp [lowByte]

theorem highByte_toNat (v : Half) : (highByte v).toNat = v.toNat / 256 := by
  have := v.isLt
  simp only [highByte, BitVec.extractLsb'_toNat, Nat.shiftRight_eq_div_pow]
  omega

theorem lowHalf_toNat (v : Word) : (lowHalf v).toNat = v.toNat % 65536 := by
  simp [lowHalf]

theorem highHalf_toNat (v : Word) : (highHalf v).toNat = v.toNat / 65536 := by
  have := v.isLt
  simp only [highHalf, BitVec.extractLsb'_toNat, Nat.shiftRight_eq_div_pow]
  omega

/-! ### Views as 16-bit registers -/

/-- A 16-bit register with one of its halves replaced: the low one for the half registers 0 to 3 (R22). -/
def withHalf (n : Fin 8) (v : Byte) (r : Half) : Half := if n.val < 4 then highByte r ++ v else v ++ lowByte r

theorem withHalf_toNat (n : Fin 8) (v : Byte) (r : Half) :
    (withHalf n v r).toNat =
      if n.val < 4 then r.toNat / 256 * 256 + v.toNat else v.toNat * 256 + r.toNat % 256 := by
  unfold withHalf
  split
  · rw [toNat_append_eq_add, highByte_toNat, show 2 ^ 8 = 256 from rfl]
  · rw [toNat_append_eq_add, lowByte_toNat, show 2 ^ 8 = 256 from rfl]

/-- The 16-bit register a half lies in: AL and AH in A, BL and BH in B, and so on (R22). -/
def holder (n : Fin 8) : Fin 8 := ⟨n.val % 4, by omega⟩

theorem reg8_eq_reg16 (n : Fin 8) (s : State) :
    reg8 n s = if n.val < 4 then lowByte (reg16 (holder n) s) else highByte (reg16 (holder n) s) := by
  fin_cases n <;> rfl

theorem setReg8_eq_setReg16 (n : Fin 8) (v : Byte) (s : State) :
    setReg8 n v s = setReg16 (holder n) (withHalf n v (reg16 (holder n) s)) s := by
  fin_cases n <;> rfl

theorem reg32_eq_reg16 (n : Fin 4) (s : State) :
    reg32 (n.castLE (by decide)) s = reg16 (pairHigh n) s ++ reg16 (pairLow n) s := by
  fin_cases n <;> rfl

theorem setReg32_eq_setReg16 (n : Fin 4) (v : Word) (s : State) :
    setReg32 (n.castLE (by decide)) v s =
      setReg16 (pairHigh n) (highHalf v) (setReg16 (pairLow n) (lowHalf v) s) := by
  fin_cases n <;> rfl

/-! ### What a write of a view leaves -/

theorem SameButGenerals.trans {s t u : State} (h1 : SameButGenerals s t) (h2 : SameButGenerals t u) :
    SameButGenerals s u := by
  unfold SameButGenerals at *
  rw [← h2] at h1
  exact h1

theorem setReg16_sameButGenerals (n : Fin 8) (v : Half) (s : State) : SameButGenerals s (setReg16 n v s) := by
  fin_cases n <;> rfl

theorem setReg8_sameButGenerals (n : Fin 8) (v : Byte) (s : State) : SameButGenerals s (setReg8 n v s) := by
  rw [setReg8_eq_setReg16]
  exact setReg16_sameButGenerals _ _ s

theorem setReg32_sameButGenerals (n : Fin 4) (v : Word) (s : State) :
    SameButGenerals s (setReg32 (n.castLE (by decide)) v s) := by
  rw [setReg32_eq_setReg16]
  exact (setReg16_sameButGenerals _ _ s).trans (setReg16_sameButGenerals _ _ _)

/-! ### Each view against the eight registers -/

theorem reg8_toNat (n : Fin 8) (s : State) :
    (reg8 n s).toNat =
      if n.val < 4 then (reg16 (holder n) s).toNat % 256 else (reg16 (holder n) s).toNat / 256 := by
  rw [reg8_eq_reg16, apply_ite BitVec.toNat, lowByte_toNat, highByte_toNat]

theorem reg16_setReg8_toNat (n : Fin 8) (v : Byte) (s : State) (j : Fin 8) :
    (reg16 j (setReg8 n v s)).toNat =
      if j = holder n then
        (if n.val < 4 then (reg16 (holder n) s).toNat / 256 * 256 + v.toNat
          else v.toNat * 256 + (reg16 (holder n) s).toNat % 256)
      else (reg16 j s).toNat := by
  rw [setReg8_eq_setReg16, reg16_setReg16, apply_ite BitVec.toNat, withHalf_toNat]

theorem reg32_toNat (n : Fin 4) (s : State) :
    (reg32 (n.castLE (by decide)) s).toNat =
      (reg16 (pairHigh n) s).toNat * 65536 + (reg16 (pairLow n) s).toNat := by
  rw [reg32_eq_reg16, toNat_append_eq_add, show 2 ^ 16 = 65536 from rfl]

theorem reg16_setReg32_toNat (n : Fin 4) (v : Word) (s : State) (j : Fin 8) :
    (reg16 j (setReg32 (n.castLE (by decide)) v s)).toNat =
      if j = pairHigh n then v.toNat / 65536 else if j = pairLow n then v.toNat % 65536 else (reg16 j s).toNat := by
  rw [setReg32_eq_setReg16, reg16_setReg16, reg16_setReg16, apply_ite BitVec.toNat, apply_ite BitVec.toNat,
    highHalf_toNat, lowHalf_toNat]

/-- Settles O25: each view through the 16-bit registers it lies in; BP and SP are fields of their own. -/
theorem registerViews : Obligations.RegisterViews := by
  intro s
  refine ⟨fun n k v hk => ?_,
    fun n v j => ⟨rfl, reg16_setReg16 n j v s⟩,
    fun n v u => ⟨setReg8_sameButGenerals n v s, setReg16_sameButGenerals n u s⟩,
    fun n v => setReg32_sameButGenerals n v s,
    fun n v => ⟨reg32_toNat n s, reg16_setReg32_toNat n v s⟩,
    fun v => ⟨rfl, rfl, rfl, rfl⟩⟩
  obtain rfl : k = holder n := Fin.ext hk
  exact ⟨reg8_toNat n s, reg16_setReg8_toNat n v s⟩

end Sys2Proof.Machine

/-! What an instruction and a step can do to the invariant, the platform, F and the privilege registers, said once by
a rule per state operation; with it the statements of spec/10_state.md about steps. -/

namespace Sys2Proof.Machine

/-! ### An instruction under way -/

/-- Where an instruction that began in `s` may stand before its last action, and where it may raise a fault: its
accesses have kept the invariant and the platform, and no register but IP has moved (spec/60_exceptions.md R384). -/
structure Underway (s u : State) : Prop where
  inv : StateInv u
  plat : u.plat = s.plat
  regs : regsOf u = { regsOf s with ip := u.ip }

theorem Underway.refl {s : State} (hi : StateInv s) : Underway s s := ⟨hi, rfl, rfl⟩

theorem Underway.set_ip {s u : State} (h : Underway s u) (x : Word) : Underway s { u with ip := x } := by
  refine ⟨h.inv.with_ip x, h.plat, ?_⟩
  change { regsOf u with ip := x } = { regsOf s with ip := x }
  rw [h.regs]

theorem Underway.kept {s u t : State} (h : Underway s u) (hi : StateInv t) (hk : Kept u t) : Underway s t :=
  ⟨hi, hk.plat.trans h.plat, by rw [hk.regs, h.regs, hk.ip]⟩

theorem Underway.pv {s u : State} (h : Underway s u) : u.pv = s.pv := congrArg Regs.pv h.regs
theorem Underway.ie {s u : State} (h : Underway s u) : u.ie = s.ie := congrArg Regs.ie h.regs
theorem Underway.ii {s u : State} (h : Underway s u) : u.ii = s.ii := congrArg Regs.ii h.regs
theorem Underway.isp {s u : State} (h : Underway s u) : u.isp = s.isp := congrArg Regs.isp h.regs
theorem Underway.sp {s u : State} (h : Underway s u) : u.sp = s.sp := congrArg Regs.sp h.regs
theorem Underway.f {s u : State} (h : Underway s u) : u.f = s.f := congrArg Regs.f h.regs

theorem Underway.entryStack {s u : State} (h : Underway s u) : entryStack u = entryStack s := by
  simp only [Machine.entryStack, h.ii, h.sp, h.isp]

/-- What is under way from a state itself under way. -/
theorem Underway.trans {s u t : State} (h : Underway s u) (h' : Underway u t) : Underway s t :=
  ⟨h'.inv, h'.plat.trans h.plat, by rw [h'.regs, h.regs]⟩

/-- A refill leaves the instruction under way. -/
theorem RefillLeft.underway {s t : State} (h : RefillLeft s t) : Underway s t := by
  refine ⟨h.inv, h.plat, ?_⟩
  rw [h.regs, show t.ip = s.ip from congrArg Regs.ip h.regs]
  rfl

/-! ### An instruction executed -/

/-- What the completion of an instruction that began in `s` may have changed: F only where the instruction sets it
(spec/10_state.md R32), the privilege flags and ISP only where PV was 1 (R29, R35). -/
structure Executed (setsF : Bool) (s t : State) : Prop where
  inv : StateInv t
  plat : t.plat = s.plat
  f : setsF = false → t.f = s.f
  user : s.pv = false → t.pv = false ∧ t.ie = s.ie ∧ t.ii = s.ii ∧ t.isp = s.isp

/-- Two states differ in nothing that an unprivileged move may not write. -/
structure UserUpdate (t u : State) : Prop where
  mem : u.mem = t.mem
  cache : u.cache = t.cache
  plat : u.plat = t.plat
  f : u.f = t.f
  pv : u.pv = t.pv
  ie : u.ie = t.ie
  ii : u.ii = t.ii
  isp : u.isp = t.isp

theorem writeReg_userUpdate (w : Width) (n : Fin w.regs) (v : BitVec w.bits) (s : State) :
    UserUpdate s (writeReg w n v s) := by
  cases w with
  | b8 | b16 | b32 => constructor <;> simp [writeReg]

theorem Underway.executed {s u : State} (h : Underway s u) (setsF : Bool) : Executed setsF s u :=
  ⟨h.inv, h.plat, fun _ => h.f, fun hp => ⟨h.pv.trans hp, h.ie, h.ii, h.isp⟩⟩

theorem Executed.weaken {s t : State} (h : Executed false s t) (setsF : Bool) : Executed setsF s t :=
  ⟨h.inv, h.plat, fun _ => h.f rfl, h.user⟩

theorem Executed.forget_f {setsF : Bool} {s t : State} (h : Executed setsF s t) : Executed true s t :=
  ⟨h.inv, h.plat, by simp, h.user⟩

theorem Executed.update {setsF : Bool} {s t u : State} (h : Executed setsF s t) (hu : UserUpdate t u) :
    Executed setsF s u := by
  refine ⟨h.inv.congr hu.mem hu.cache hu.plat, hu.plat.trans h.plat, fun hf => hu.f.trans (h.f hf), fun hp => ?_⟩
  obtain ⟨hpv, hie, hii, hisp⟩ := h.user hp
  exact ⟨hu.pv.trans hpv, hu.ie.trans hie, hu.ii.trans hii, hu.isp.trans hisp⟩

theorem Executed.set_f {s t : State} (h : Executed false s t) (f : Half) : Executed true s { t with f := f } :=
  ⟨h.inv.congr rfl rfl rfl, h.plat, by simp, h.user⟩

/-- Privileged code may write PF and ISP. -/
theorem Executed.of_privileged {setsF : Bool} {s t : State} (hp : s.pv = true) (hi : StateInv t)
    (hplat : t.plat = s.plat) (hf : setsF = false → t.f = s.f) : Executed setsF s t :=
  ⟨hi, hplat, hf, fun h => by rw [hp] at h; cases h⟩

/-- What a completion after the refill is, seen from the step's first state. -/
theorem Executed.after {setsF : Bool} {s u t : State} (hu : Underway s u) (h : Executed setsF u t) :
    Executed setsF s t := by
  refine ⟨h.inv, h.plat.trans hu.plat, fun hf => (h.f hf).trans hu.f, fun hp => ?_⟩
  obtain ⟨hpv, hie, hii, hisp⟩ := h.user (hu.pv.trans hp)
  exact ⟨hpv, hie.trans hu.ie, hii.trans hu.ii, hisp.trans hu.isp⟩

/-! ### Actions: a rule per operation -/

/-- An action of an instruction that began in `s`: a success leaves a state that is `good`, and a fault is raised with
the instruction still under way. -/
def Acts {α : Type} (s : State) (good : State → Prop) : Res α → Prop
  | .ok _ t => good t
  | .raise _ u => Underway s u

theorem Acts.bind {α β : Type} {s : State} {P Q : State → Prop} {r : Res α} {k : α → State → Res β}
    (h : Acts s P r) (hk : ∀ v t, P t → Acts s Q (k v t)) : Acts s Q (r.bind k) := by
  cases r with
  | ok v t => exact hk v t h
  | raise e u => exact h

theorem Acts.mono {α : Type} {s : State} {P Q : State → Prop} {r : Res α} (h : Acts s P r)
    (hpq : ∀ t, P t → Q t) : Acts s Q r := by
  cases r with
  | ok v t => exact hpq t h
  | raise e u => exact h

theorem memRead_acts {s u : State} (h : Underway s u) (w : Width) (a : Word) (p : Bool) :
    Acts s (Underway s) (memRead w a p u) := by
  cases hp : (accessPlan false u.plat a.toNat w.bytes p).2 with
  | none =>
    obtain ⟨v, t, ht, hpass, _⟩ := memRead_ok h.inv w a p hp
    rw [ht]
    exact h.kept hpass.inv hpass.kept
  | some r =>
    obtain ⟨t, ht, hpass⟩ := memRead_fault h.inv w a p hp
    rw [ht]
    exact h.kept hpass.inv hpass.kept

theorem memWrite_acts {s u : State} (h : Underway s u) (w : Width) (a : Word) (v : BitVec w.bits) (p : Bool) :
    Acts s (Underway s) (memWrite w a v p u) := by
  cases hp : (accessPlan true u.plat a.toNat w.bytes p).2 with
  | none =>
    obtain ⟨t, ht, hdone⟩ := memWrite_ok h.inv w a v p hp
    rw [ht]
    exact h.kept hdone.inv hdone.kept
  | some r =>
    obtain ⟨t, ht, hdone⟩ := memWrite_fault h.inv w a v p hp
    rw [ht]
    exact h.kept hdone.inv hdone.kept

theorem readLoc_acts {s u : State} (h : Underway s u) {w : Width} (l : Loc w) :
    Acts s (Underway s) (readLoc l u) := by
  cases l with
  | reg n => exact h
  | imm v => exact h
  | mem a => exact memRead_acts h w a u.pv

theorem writeLoc_acts {s u : State} (h : Underway s u) {w : Width} (l : Loc w) (v : BitVec w.bits) :
    Acts s (Executed false s) (writeLoc l v u) := by
  cases l with
  | reg n => exact (h.executed false).update (writeReg_userUpdate w n v u)
  | imm c => exact h.executed false
  | mem a => exact (memWrite_acts h w a v u.pv).mono fun t ht => ht.executed false

theorem commit_acts {setsF : Bool} {s u : State} (h : Underway s u) {w : Width} (dst : Loc w) (out : AluOut w.bits)
    (hf : setsF = false → out.flags = none) : Acts s (Executed setsF s) (commit dst out u) := by
  have hwrite : Acts s (Executed false s) (match out.result with
      | some v => writeLoc dst v u
      | none => .ok () u) := by
    cases out.result with
    | none => exact h.executed false
    | some v => exact writeLoc_acts h dst v
  refine Acts.bind hwrite fun _ t ht => ?_
  cases hfl : out.flags with
  | none => exact ht.weaken setsF
  | some f =>
    cases setsF with
    | false => rw [hf rfl] at hfl; cases hfl
    | true => exact ht.set_f f

theorem commitOrFault_acts {setsF : Bool} {s u : State} (h : Underway s u) {w : Width} (dst : Loc w)
    (out : Option (AluOut w.bits)) (hf : setsF = false → ∀ o, out = some o → o.flags = none) :
    Acts s (Executed setsF s) (commitOrFault dst out u) := by
  cases out with
  | none => exact h
  | some o => exact commit_acts h dst o fun hk => hf hk o rfl

theorem push_acts {s u : State} (h : Underway s u) (w : Width) (v : BitVec w.bits) :
    Acts s (Executed false s) (push w v u) :=
  (memWrite_acts h w _ v u.pv).bind fun _ _ ht =>
    (ht.executed false).update ⟨rfl, rfl, rfl, rfl, rfl, rfl, rfl, rfl⟩

theorem pop_acts {s u : State} (h : Underway s u) (w : Width) : Acts s (Executed false s) (pop w u) :=
  (memRead_acts h w u.sp u.pv).bind fun _ _ ht =>
    (ht.executed false).update ⟨rfl, rfl, rfl, rfl, rfl, rfl, rfl, rfl⟩

/-- A pop whose value goes where unprivileged code may write. -/
theorem pop_then_acts {s u : State} (h : Underway s u) (w : Width) {put : BitVec w.bits → State → State}
    (hput : ∀ v t, UserUpdate t (put v t)) :
    Acts s (Executed false s) ((pop w u).bind fun v t => .ok () (put v t)) :=
  (pop_acts h w).bind fun v t ht => ht.update (hput v t)

theorem popTo_acts {s u : State} (h : Underway s u) {w : Width} (l : Loc w) :
    Acts s (Executed false s) (popTo l u) :=
  (memRead_acts h w u.sp u.pv).bind fun v _ ht =>
    (writeLoc_acts ht l v).bind fun _ _ ht' => ht'.update ⟨rfl, rfl, rfl, rfl, rfl, rfl, rfl, rfl⟩

theorem popWideTo_acts {s u : State} (h : Underway s u) (l : Loc .b32) :
    Acts s (Executed false s) (popWideTo l u) := by
  unfold popWideTo
  split
  · exact (memRead_acts h .b32 u.sp u.pv).bind fun _ _ ht =>
      (ht.executed false).update ⟨rfl, rfl, rfl, rfl, rfl, rfl, rfl, rfl⟩
  · exact popTo_acts h l

theorem callTo_acts {s u : State} (h : Underway s u) (target : Word) :
    Acts s (Executed false s) (callTo target u) :=
  (push_acts h .b32 u.ip).bind fun _ _ ht => ht.update ⟨rfl, rfl, rfl, rfl, rfl, rfl, rfl, rfl⟩

theorem jumpBy_acts {s u : State} (h : Underway s u) (d : Word) : Acts s (Executed false s) (jumpBy d u) :=
  (h.set_ip _).executed false

theorem jumpIf_acts {s u : State} (h : Underway s u) (cc : BitVec 8) (d : Word) :
    Acts s (Executed false s) (jumpIf cc d u) := by
  unfold jumpIf
  split
  · exact jumpBy_acts h d
  · exact h.executed false

/-- A privileged action of unprivileged code is a fault (spec/60_exceptions.md R401). -/
theorem needPrivilege_acts {α : Type} {s u : State} (h : Underway s u) {good : State → Prop} {k : Res α}
    (hk : s.pv = true → Acts s good k) : Acts s good (needPrivilege u k) := by
  unfold needPrivilege
  split
  · next hp => exact hk (h.pv.symm.trans hp)
  · exact h

theorem returnFromEntry_acts {s u : State} (h : Underway s u) (hp : s.pv = true) :
    Acts s (Executed true s) (returnFromEntry u) :=
  (memRead_acts h .b32 _ _).bind fun _ _ h1 =>
  (memRead_acts h1 .b32 _ _).bind fun _ _ h2 =>
  (memRead_acts h2 .b32 _ _).bind fun _ _ h3 =>
  (memRead_acts h3 .b32 _ _).bind fun _ _ h4 =>
    .of_privileged hp (h4.inv.congr rfl rfl rfl) h4.plat (by simp)

/-! ### Shapes of instructions -/

/-- A meaning's answer is the completion of an action that keeps what `Executed` says. -/
def Answers (setsF : Bool) (s : State) (o : Out) : Prop := ∃ r, o = complete s r ∧ Acts s (Executed setsF s) r

theorem Answers.weaken {s : State} {o : Out} (h : Answers false s o) (setsF : Bool) : Answers setsF s o := by
  obtain ⟨r, ho, hr⟩ := h
  exact ⟨r, ho, hr.mono fun _ ht => ht.weaken setsF⟩

theorem bare_answers {setsF : Bool} {s : State} (hi : StateInv s) (len : Nat) {act : State → Res Unit}
    (h : ∀ u, Underway s u → Acts s (Executed setsF s) (act u)) : Answers setsF s (bare len act s) :=
  ⟨_, rfl, h _ ((Underway.refl hi).set_ip _)⟩

theorem rimSrcThen_answers {setsF : Bool} {s : State} (hi : StateInv s) {w : Width} (o : RimSrc w)
    {act : BitVec w.bits → State → Res Unit} (h : ∀ v u, Underway s u → Acts s (Executed setsF s) (act v u)) :
    Answers setsF s (rimSrcThen o act s) :=
  ⟨_, rfl, (readLoc_acts (.refl hi) _).bind fun v _ ht => h v _ (ht.set_ip _)⟩

theorem rimDstThen_answers {setsF : Bool} {s : State} (hi : StateInv s) {w : Width} (o : RimDst w)
    {act : Loc w → State → Res Unit} (h : ∀ l u, Underway s u → Acts s (Executed setsF s) (act l u)) :
    Answers setsF s (rimDstThen o act s) :=
  ⟨_, rfl, h _ _ ((Underway.refl hi).set_ip _)⟩

theorem rim2Read_answers {setsF : Bool} {s : State} (hi : StateInv s) {wd ws : Width} (extra : Nat) (o : Rim2 wd ws)
    (op : BitVec wd.bits → BitVec ws.bits → Option (AluOut wd.bits))
    (hf : setsF = false → ∀ a b out, op a b = some out → out.flags = none) :
    Answers setsF s (rim2Read extra o op s) :=
  ⟨_, rfl, (readLoc_acts (.refl hi) _).bind fun b _ h1 => (readLoc_acts h1 _).bind fun a _ h2 =>
    commitOrFault_acts (h2.set_ip _) _ _ fun hk => hf hk a b⟩

theorem rim2Write_answers {s : State} (hi : StateInv s) {wd ws : Width} (extra : Nat) (o : Rim2 wd ws)
    (op : BitVec ws.bits → Option (BitVec wd.bits)) : Answers false s (rim2Write extra o op s) :=
  ⟨_, rfl, (readLoc_acts (.refl hi) _).bind fun _ _ h1 => commit_acts (h1.set_ip _) _ _ fun _ => rfl⟩

theorem rimDstRead_answers {s : State} (hi : StateInv s) {w : Width} (extra : Nat) (o : RimDst w)
    (op : BitVec w.bits → AluOut w.bits) : Answers true s (rimDstRead extra o op s) :=
  ⟨_, rfl, (readLoc_acts (.refl hi) _).bind fun _ _ h1 => commit_acts (h1.set_ip _) _ _ (by simp)⟩

/-- A two-operand instruction that sets F. -/
theorem rim2Read_sets {s : State} (hi : StateInv s) {wd ws : Width} (o : Rim2 wd ws)
    (op : BitVec wd.bits → BitVec ws.bits → Option (AluOut wd.bits)) : Answers true s (rim2Read 0 o op s) :=
  rim2Read_answers hi 0 o op (by simp)

theorem szRead_answers {s : State} (hi : StateInv s) (o : Rim2Sz)
    (op : (w : Nat) → BitVec w → BitVec w → Option (AluOut w)) : Answers true s (szRead o op s) := by
  cases o with
  | w16 o => exact rim2Read_sets hi o (op 16)
  | w8 o => exact rim2Read_sets hi o (op 8)

theorem szWrite_answers {s : State} (hi : StateInv s) (extra : Nat) (o : Rim2Sz)
    (op : (w : Nat) → BitVec w → Option (BitVec w)) : Answers false s (szWrite extra o op s) := by
  cases o with
  | w16 o => exact rim2Write_answers hi extra o (op 16)
  | w8 o => exact rim2Write_answers hi extra o (op 8)

theorem szDstRead_answers {s : State} (hi : StateInv s) (extra : Nat) (o : RimDstSz)
    (op : (w : Nat) → BitVec w → AluOut w) : Answers true s (szDstRead extra o op s) := by
  cases o with
  | w16 o => exact rimDstRead_answers hi extra o (op 16)
  | w8 o => exact rimDstRead_answers hi extra o (op 8)

theorem promRead_answers {s : State} (hi : StateInv s) (o : Rim2Prom)
    (op : (w w2 : Nat) → BitVec w2 → BitVec w → Option (AluOut w2)) : Answers true s (promRead o op s) := by
  cases o with
  | w16 o => exact rim2Read_sets hi o (op 16 32)
  | w8 o => exact rim2Read_sets hi o (op 8 16)

theorem promWrite_answers {s : State} (hi : StateInv s) (o : Rim2Prom)
    (op : (w w2 : Nat) → BitVec w → BitVec w2) : Answers false s (promWrite o op s) := by
  cases o with
  | w16 o => exact rim2Write_answers hi 0 o fun v => some (op 16 32 v)
  | w8 o => exact rim2Write_answers hi 0 o fun v => some (op 8 16 v)

theorem shiftBy_answers {s : State} (hi : StateInv s) (k : ShiftKind) (o : Rim2Sz) :
    Answers true s (shiftBy k o s) := szRead_answers hi o _

theorem shiftOne_answers {s : State} (hi : StateInv s) (k : ShiftKind) (o : RimDstSz) :
    Answers true s (shiftOne k o s) := szDstRead_answers hi 0 o _

theorem movImm_answers {s : State} (hi : StateInv s) (n : Fin 8) (imm : BitVec 16) :
    Answers false s (movImm n imm s) :=
  bare_answers hi 3 fun u h => (h.executed false).update (writeReg_userUpdate .b16 n imm u)

theorem pushReg16_answers {s : State} (hi : StateInv s) (n : Fin 8) : Answers false s (pushReg16 n s) :=
  bare_answers hi 1 fun u h => push_acts h .b16 (reg16 n u)

theorem popReg16_answers {s : State} (hi : StateInv s) (n : Fin 8) : Answers false s (popReg16 n s) :=
  bare_answers hi 1 fun _ h => pop_then_acts h .b16 (writeReg_userUpdate .b16 n)

theorem execPush_answers {s : State} (hi : StateInv s) (o : RimSrcSz) : Answers false s (execPush o s) := by
  cases o with
  | w16 o => exact rimSrcThen_answers hi o fun v _ h => push_acts h .b16 v
  | w8 o => exact rimSrcThen_answers hi o fun v _ h => push_acts h .b8 v

theorem execPop_answers {s : State} (hi : StateInv s) (o : RimDstSz) : Answers false s (execPop o s) := by
  cases o with
  | w16 o => exact rimDstThen_answers hi o fun l _ h => popTo_acts h l
  | w8 o => exact rimDstThen_answers hi o fun l _ h => popTo_acts h l

/-! ### Every instruction -/

/-- Every instruction but INT completes or faults as its shape allows, and sets F only where R32 says so. -/
theorem exec_answers {s : State} (hi : StateInv s) (i : Instr) (hint : ∀ v, i ≠ .int v) :
    Answers (writesF i) s (exec i s) := by
  cases i with dsimp only [exec]
  | int v => exact absurd rfl (hint v)
  -- the instructions that set F
  | add o | adc o | sub o | sbb o | cmp o | mul o | div o | divs o | and o | or o | xor o =>
    exact szRead_answers hi o _
  | shl o | shr o | sar o | rol o | ror o | rcl o | rcr o => exact shiftBy_answers hi _ o
  | addw o | adcw o | subw o | sbbw o | cmpw o => exact rim2Read_sets hi o _
  | padd l o | padc l o | psub l o | psbb l o | pcmp l o | pmul l o | pmulh l o | pmulsh l o | pdiv l o | pdivs l o
  | pdivm l o | pdivms l o => exact rim2Read_sets hi o _
  | mulh o | mulsh o | divm o | divms o => exact promRead_answers hi o _
  | cmpi o imm => exact szDstRead_answers hi 1 o _
  | not o => exact szDstRead_answers hi 0 o _
  | shl1 o | shr1 o | sar1 o | rol1 o | ror1 o | rcl1 o | rcr1 o => exact shiftOne_answers hi _ o
  | iret => exact bare_answers hi 1 fun _ h => needPrivilege_acts h (returnFromEntry_acts h)
  -- moves
  | movImmA imm | movImmB imm | movImmC imm | movImmD imm | movImmI imm | movImmJ imm | movImmK imm | movImmL imm =>
    exact movImm_answers hi _ imm
  | mov o => exact szWrite_answers hi 0 o _
  | cmov o cc => exact szWrite_answers hi 1 o _
  | movw o => exact rim2Write_answers hi 0 o _
  | movs o | movz o => exact promWrite_answers hi o _
  | pcmov l o cc => exact rim2Read_answers hi 1 o _ (by rintro - a b out ⟨⟩; rfl)
  -- moves of ISP and PF
  | movToIsp o =>
    exact rimSrcThen_answers hi o fun _ _ h => needPrivilege_acts h fun hp =>
      Executed.of_privileged hp (h.inv.congr rfl rfl rfl) h.plat fun _ => h.f
  | movToPf o =>
    exact rimSrcThen_answers hi o fun _ _ h => needPrivilege_acts h fun hp =>
      Executed.of_privileged hp (h.inv.congr rfl rfl rfl) h.plat fun _ => h.f
  | movFromIsp o | movFromPf o =>
    exact rimDstThen_answers hi o fun l _ h => needPrivilege_acts h fun _ => writeLoc_acts h l _
  -- the stack
  | pushA | pushB | pushC | pushD | pushI | pushJ | pushK | pushL => exact pushReg16_answers hi _
  | popA | popB | popC | popD | popI | popJ | popK | popL => exact popReg16_answers hi _
  | pushBp | pushSp => exact bare_answers hi 1 fun _ h => push_acts h .b32 _
  | popBp | popSp =>
    exact bare_answers hi 1 fun _ h => pop_then_acts h .b32 fun _ _ => ⟨rfl, rfl, rfl, rfl, rfl, rfl, rfl, rfl⟩
  | push o => exact execPush_answers hi o
  | pop o => exact execPop_answers hi o
  | pushw o => exact rimSrcThen_answers hi o fun v _ h => push_acts h .b32 v
  | popw o => exact rimDstThen_answers hi o fun l _ h => popWideTo_acts h l
  | pushPf => exact bare_answers hi 1 fun _ h => needPrivilege_acts h fun _ => push_acts h .b16 _
  | popPf =>
    exact bare_answers hi 1 fun _ h => needPrivilege_acts h fun hp => (pop_acts h .b16).bind fun _ _ ht =>
      Executed.of_privileged hp (ht.inv.congr rfl rfl rfl) ht.plat ht.f
  -- jumps, calls and returns
  | jmpRel8 d | jmpRel16 d | jmpRel32 d => exact bare_answers hi _ fun _ h => jumpBy_acts h _
  | jccRel8 cc d | jccRel16 cc d => exact bare_answers hi _ fun _ h => jumpIf_acts h cc _
  | jmpa o => exact rimSrcThen_answers hi o fun v _ h => (h.set_ip v).executed _
  | callRel16 d | callRel32 d => exact bare_answers hi _ fun _ h => callTo_acts h _
  | calla o => exact rimSrcThen_answers hi o fun v _ h => callTo_acts h v
  | ret =>
    exact bare_answers hi 1 fun _ h => pop_then_acts h .b32 fun _ _ => ⟨rfl, rfl, rfl, rfl, rfl, rfl, rfl, rfl⟩
  -- the rest
  | nop => exact bare_answers hi 1 fun _ h => h.executed _
  | hlt => exact bare_answers hi 1 fun _ h => (h.executed _).update ⟨rfl, rfl, rfl, rfl, rfl, rfl, rfl, rfl⟩

/-! ### What an exception leaves -/

/-- An entry goes to a handler of the vector table or, as a double fault, leaves every register (R392, R395). -/
theorem dispatch_regs {u : State} (hi : StateInv u) (v : BitVec 8) (ipSave : Word) :
    (∃ h : Word, (∀ m, viewNum (ramView (dispatch v ipSave u)) (4 * v.toNat) 4 = some m → h.toNat = m) ∧
      regsOf (dispatch v ipSave u) =
        { regsOf u with sp := entryStack u - 16, pv := true, ii := true, ie := false, ip := h } ∧
      (dispatch v ipSave u).winValid = false) ∨
    regsOf (dispatch v ipSave u) = regsOf u := by
  by_cases hp : EntryPermitted v u
  · have he := dispatch_ok hi v ipSave hp
    obtain ⟨h, hview, hregs⟩ := he.regs
    exact .inl ⟨h, hview, hregs, he.winValid⟩
  · obtain ⟨t, ht, hf⟩ := dispatch_double_fault hi v ipSave hp
    rw [ht]
    exact .inr hf.regs

theorem dispatch_plat {u : State} (hi : StateInv u) (v : BitVec 8) (ipSave : Word) :
    (dispatch v ipSave u).plat = u.plat := by
  by_cases hp : EntryPermitted v u
  · exact (dispatch_ok hi v ipSave hp).plat
  · obtain ⟨t, ht, hf⟩ := dispatch_double_fault hi v ipSave hp
    rw [ht]
    exact hf.rest.plat

theorem dispatch_f {u : State} (hi : StateInv u) (v : BitVec 8) (ipSave : Word) :
    (dispatch v ipSave u).f = u.f := by
  rcases dispatch_regs hi v ipSave with ⟨h, _, hregs, _⟩ | hregs
  · exact congrArg Regs.f hregs
  · exact congrArg Regs.f hregs

/-! ### What an instruction and a step can end in -/

/-- A step that began in `s` ends in the entry of a vector, which for unprivileged code is one of `vs`, every register
but IP having been kept until then. -/
def EntersFrom (s : State) (vs : BitVec 8 → Prop) (t : State) : Prop :=
  ∃ v ipSave u, Underway s u ∧ t = dispatch v ipSave u ∧ (s.pv = false → vs v)

/-- The vectors of the faults and of the syscall (spec/60_exceptions.md R381, R402). -/
def OwnVector (v : BitVec 8) : Prop := v ∈ [0x08, 0x0D, 0x0F, 0x10, 0x11, 0x20]

theorem faultVector_own (e : Fault) : OwnVector (faultVector e) := by
  cases e <;> simp [OwnVector, faultVector]

/-- What an unprivileged step may enter: a vector of its own, or the pending one. -/
def StepVector (s : State) (v : BitVec 8) : Prop := OwnVector v ∨ (s.pend = true ∧ v = s.pendVec)

theorem EntersFrom.mono {s t : State} {P Q : BitVec 8 → Prop} (h : EntersFrom s P t) (hpq : ∀ v, P v → Q v) :
    EntersFrom s Q t := by
  obtain ⟨v, x, u, hu, ht, hv⟩ := h
  exact ⟨v, x, u, hu, ht, fun hp => hpq v (hv hp)⟩

theorem EntersFrom.after {s u t : State} {P : BitVec 8 → Prop} (hu : Underway s u) (h : EntersFrom u P t) :
    EntersFrom s P t := by
  obtain ⟨v, x, w, hw, ht, hv⟩ := h
  exact ⟨v, x, w, hu.trans hw, ht, fun hp => hv (hu.pv.trans hp)⟩

/-- A fault taken with the instruction still under way is an entry of its own vector. -/
theorem takeFault_enters {s u : State} (h : Underway s u) (e : Fault) (ip0 : Word) :
    EntersFrom s OwnVector (takeFault e ip0 u) :=
  ⟨faultVector e, ip0, _, h.set_ip ip0, rfl, fun _ => faultVector_own e⟩

/-- INT enters the vector it names, or traps in unprivileged code that names another than the syscall's
(spec/47_system.md R372). -/
theorem int_enters {s t : State} (hi : StateInv s) {v : BitVec 8} (h : exec (.int v) s = .next t) :
    EntersFrom s OwnVector t := by
  have hu : Underway s { s with ip := nextIp s 2 } := (Underway.refl hi).set_ip _
  have hexec : exec (.int v) s = complete s (if !s.pv && decide (v ≠ Config.vecSyscall) then
      .raise .generalProtection { s with ip := nextIp s 2 }
      else .ok () (dispatch v (nextIp s 2) { s with ip := nextIp s 2 })) := rfl
  rw [hexec] at h
  split at h
  · cases h
    exact takeFault_enters hu .generalProtection s.ip
  · next hv =>
    cases h
    refine ⟨v, nextIp s 2, _, hu, rfl, fun hp => ?_⟩
    have : v = Config.vecSyscall := by simpa [hp] using hv
    simp [OwnVector, this]

/-- An instruction completes, or it ends in an entry of a vector of its own. -/
theorem exec_cases {s t : State} (hi : StateInv s) {i : Instr} (h : exec i s = .next t) :
    Executed (writesF i) s t ∨ EntersFrom s OwnVector t := by
  by_cases hint : ∃ v, i = .int v
  · obtain ⟨v, rfl⟩ := hint
    exact .inr (int_enters hi h)
  · obtain ⟨r, hr, hacts⟩ := exec_answers hi i fun v hv => hint ⟨v, hv⟩
    rw [hr] at h
    cases r with
    | ok _ u =>
      cases h
      exact .inl hacts
    | raise e u =>
      cases h
      exact .inr (takeFault_enters hacts e s.ip)

/-- A refill leaves the step under way, also one that faults. -/
theorem refill_underway {s : State} (hi : StateInv s) : Underway s (refill s).state := by
  rcases fetch_cases s with hp | ⟨r, hr⟩
  · obtain ⟨t, ht, hl, _⟩ := refill_ok hi hp
    rw [ht]
    exact hl.underway
  · obtain ⟨t, ht, hl, _⟩ := refill_fault hi hr
    rw [ht]
    exact hl.underway

/-- A halted core stays as it is. -/
theorem step_halted {s : State} (h : s.halted = true) : step s = .next s := by simp [step, h]

/-- A step completes an instruction or does nothing, or it ends in an entry. -/
theorem step_cases {s t : State} (hi : StateInv s) (h : step s = .next t) :
    Executed true s t ∨ EntersFrom s (StepVector s) t := by
  by_cases hh : s.halted = true
  · rw [step_halted hh] at h
    cases h
    exact .inl ((Underway.refl hi).executed true)
  unfold step at h
  rw [if_neg hh] at h
  split at h
  · next hpend =>
    cases h
    exact .inr ⟨s.pendVec, s.ip, { s with pend := false }, ⟨hi.congr rfl rfl rfl, rfl, rfl⟩, rfl,
      fun _ => .inr ⟨hpend, rfl⟩⟩
  have hu := refill_underway hi
  cases hr : refill s with
  | raise r u =>
    simp only [hr, Res.state] at h hu
    cases h
    exact .inr ((takeFault_enters hu r s.ip).mono fun _ => .inl)
  | ok _ u =>
    simp only [hr, Res.state] at h hu
    cases hd : decode u.win with
    | error e =>
      simp only [hd] at h
      cases h
      exact .inr ((takeFault_enters hu .decoding s.ip).mono fun _ => .inl)
    | ok i =>
      simp only [hd] at h
      rcases exec_cases hu.inv h with hx | hx
      · exact .inl (hx.after hu).forget_f
      · exact .inr ((hx.after hu).mono fun _ => .inl)

/-! ### The statements about steps -/

/-- Settles O9. -/
theorem haltedStaysPut : Obligations.HaltedStaysPut := fun _ => step_halted

/-- Settles O14: neither a completion nor an entry touches the platform. -/
theorem stepKeepsPlatform : Obligations.StepKeepsPlatform := by
  intro s t hi h
  rcases step_cases hi h with hx | ⟨v, x, u, hu, rfl, _⟩
  · exact hx.plat
  · exact (dispatch_plat hu.inv v x).trans hu.plat

/-- Settles O24: a completion sets F only where the instruction does, and an entry never. -/
theorem flagsKept : Obligations.FlagsKept := by
  intro i s t hi hf h
  rcases exec_cases hi h with hx | ⟨v, x, u, hu, rfl, _⟩
  · exact hx.f hf
  · exact (dispatch_f hu.inv v x).trans hu.f

/-- Settles O22: a completion of unprivileged code keeps the privilege registers, an entry that succeeds is the second
alternative, and a double fault changes no register. -/
theorem unprivilegedStep : Obligations.UnprivilegedStep := by
  intro s t hi hp h
  rcases step_cases hi h with hx | ⟨v, x, u, hu, rfl, hv⟩
  · exact .inl (hx.user hp)
  rcases dispatch_regs hu.inv v x with ⟨w, hview, hregs, hwin⟩ | hregs
  · refine .inr ⟨v, w, hv hp, ?_, hwin, hview⟩
    rw [hregs, hu.regs, hu.entryStack]
  · exact .inl ⟨(congrArg Regs.pv hregs).trans (hu.pv.trans hp), (congrArg Regs.ie hregs).trans hu.ie,
      (congrArg Regs.ii hregs).trans hu.ii, (congrArg Regs.isp hregs).trans hu.isp⟩

end Sys2Proof.Machine

/-! The invariant along steps, and what unprivileged code leaves of memory whose writes need privilege
(spec/20_memory.md R69, R79, R109). -/

namespace Sys2Proof.Machine

/-- Settles O13: a completed instruction keeps the invariant, and so does every entry. -/
theorem stepKeepsInvariant : Obligations.StepKeepsInvariant := by
  intro s t hi h
  rcases step_cases hi h with hx | ⟨v, x, u, hu, rfl, _⟩
  · exact hx.inv
  · exact dispatch_inv hu.inv v x

/-! ### The branches of a step (spec/60_exceptions.md R380) -/

theorem step_pending {s : State} (hh : ¬ s.halted = true) (hp : s.pend = true) :
    step s = .next (dispatch s.pendVec s.ip { s with pend := false }) := by
  rw [step, if_neg hh, if_pos hp]

theorem step_fetch_fault {s t : State} (hs : Running s) {r : Fault} (h : refill s = .raise r t) :
    step s = .next (takeFault r s.ip t) := by
  simp only [step, hs.1, hs.2, h, Bool.false_eq_true, if_false]

theorem step_refuses {s t : State} (hs : Running s) (h : refill s = .ok () t) {e : DecodeReject}
    (hd : decode t.win = .error e) : step s = .next (takeFault .decoding s.ip t) := by
  simp only [step, hs.1, hs.2, h, hd, Bool.false_eq_true, if_false]

theorem step_executes {s t : State} (hs : Running s) (h : refill s = .ok () t) {i : Instr}
    (hd : decode t.win = .ok i) : step s = exec i t := by
  simp only [step, hs.1, hs.2, h, hd, Bool.false_eq_true, if_false]

/-! ### The bytes a permitted unprivileged write moves -/

theorem runPlan_unprivileged {pl : Platform} (n : Nat) : ∀ a, (runPlan true pl false a n).2 = none →
    ∀ x g, a ≤ x ∧ x < a + n → lookup pl.segments x = some g → g.writeNeedsPriv = false := by
  induction n with
  | zero => intro a _ x g hx; omega
  | succ n ih =>
    intro a h x g hx hg
    simp only [runPlan] at h
    cases hb : byteFault true pl a false with
    | some r => simp [hb] at h
    | none =>
      rw [hb] at h
      by_cases hxa : x = a
      · subst hxa
        simpa [byteFault, hg, needsPriv] using hb
      · exact ih (a + 1) h x g (by omega) hg

/-- No byte of a permitted unprivileged write lies in a segment whose writes need privilege, be the access split or
not. -/
theorem accessPlan_unprivileged {pl : Platform} (hv : segmentsValid pl.segments = true) {a n : Nat}
    (h : (accessPlan true pl a n false).2 = none) {x : Nat} {g : Segment} (hx : a ≤ x ∧ x < a + n)
    (hg : lookup pl.segments x = some g) : g.writeNeedsPriv = false := by
  unfold accessPlan at h
  cases ha : lookup pl.segments a with
  | none => simp [ha] at h
  | some ga =>
    simp only [ha] at h
    split at h
    · exact runPlan_unprivileged n a h x g hx hg
    · split at h
      · cases h
      · split at h
        · cases h
        · next hpriv =>
          have hsame : lookup pl.segments x = some ga :=
            lookup_same hv ha (by have := owns_of_lookup ha; omega) (by omega)
          obtain rfl : ga = g := Option.some.inj (hsame.symm.trans hg)
          simpa [needsPriv] using hpriv

/-! ### Protected memory spared -/

/-- From `s` on, unprivileged code has changed no byte whose writes need privilege, and is unprivileged still. -/
structure Spared (s t : State) : Prop where
  inv : StateInv t
  plat : t.plat = s.plat
  user : t.pv = false
  ram : ∀ a g, lookup s.plat.segments a = some g → g.writeNeedsPriv = true → ramView t a = ramView s a

theorem Spared.refl {s : State} (hi : StateInv s) (hp : s.pv = false) : Spared s s :=
  ⟨hi, rfl, hp, fun _ _ _ _ => rfl⟩

theorem Spared.trans {s t u : State} (h : Spared s t) (h' : Spared t u) : Spared s u :=
  ⟨h'.inv, h'.plat.trans h.plat, h'.user, fun a g hg hw => (h'.ram a g (h.plat ▸ hg) hw).trans (h.ram a g hg hw)⟩

/-- Registers other than PV may be written. -/
theorem Spared.update {s t u : State} (h : Spared s t) (hm : u.mem = t.mem) (hc : u.cache = t.cache)
    (hp : u.plat = t.plat) (hv : u.pv = t.pv) : Spared s u :=
  ⟨h.inv.congr hm hc hp, hp.trans h.plat, hv.trans h.user,
    fun a g hg hw => (ramView_congr hm hc hp a).trans (h.ram a g hg hw)⟩

theorem Spared.user_update {s t u : State} (h : Spared s t) (hu : UserUpdate t u) : Spared s u :=
  h.update hu.mem hu.cache hu.plat hu.pv

theorem Spared.set_ip {s t : State} (h : Spared s t) (x : Word) : Spared s { t with ip := x } :=
  h.update rfl rfl rfl rfl

/-- A refill stores nothing. -/
theorem RefillLeft.spared {s t : State} (h : RefillLeft s t) (hp : s.pv = false) : Spared s t :=
  ⟨h.inv, h.plat, (congrArg Regs.pv h.regs).trans hp, fun a _ _ _ => h.ram a⟩

/-- An action that, where it succeeds, has spared protected memory. A fault ends in an entry, which is privileged. -/
def Spares {α : Type} (s : State) : Res α → Prop
  | .ok _ t => Spared s t
  | .raise _ _ => True

theorem Spares.bind {α β : Type} {s : State} {r : Res α} {k : α → State → Res β} (h : Spares s r)
    (hk : ∀ v t, Spared s t → Spares s (k v t)) : Spares s (r.bind k) := by
  cases r with
  | ok v t => exact hk v t h
  | raise e u => trivial

/-! ### A rule per operation -/

theorem memRead_spares {s u : State} (h : Spared s u) (w : Width) (a : Word) : Spares s (memRead w a u.pv u) := by
  cases hp : (accessPlan false u.plat a.toNat w.bytes u.pv).2 with
  | none =>
    obtain ⟨v, t, ht, hpass, _⟩ := memRead_ok h.inv w a u.pv hp
    rw [ht]
    exact ⟨hpass.inv, hpass.kept.plat.trans h.plat, hpass.kept.pv.trans h.user,
      fun x g hg hw => (hpass.ram x).trans (h.ram x g hg hw)⟩
  | some r =>
    obtain ⟨t, ht, _⟩ := memRead_fault h.inv w a u.pv hp
    rw [ht]
    trivial

theorem memWrite_spares {s u : State} (h : Spared s u) (w : Width) (a : Word) (v : BitVec w.bits) :
    Spares s (memWrite w a v u.pv u) := by
  cases hp : (accessPlan true u.plat a.toNat w.bytes u.pv).2 with
  | none =>
    obtain ⟨t, ht, hdone⟩ := memWrite_ok h.inv w a v u.pv hp
    rw [ht]
    refine ⟨hdone.inv, hdone.kept.plat.trans h.plat, hdone.kept.pv.trans h.user, fun x g hg hw => ?_⟩
    have hout : x < a.toNat ∨ a.toNat + w.bytes ≤ x := by
      by_contra hin
      rw [h.user] at hp
      have := accessPlan_unprivileged h.inv.segments hp (x := x) (by omega) (by rw [h.plat]; exact hg)
      rw [hw] at this
      cases this
    rw [hdone.ram x, putBytes_out (by rwa [leBytes_length])]
    exact h.ram x g hg hw
  | some r =>
    obtain ⟨t, ht, _⟩ := memWrite_fault h.inv w a v u.pv hp
    rw [ht]
    trivial

theorem readLoc_spares {s u : State} (h : Spared s u) {w : Width} (l : Loc w) : Spares s (readLoc l u) := by
  cases l with
  | reg n => exact h
  | imm v => exact h
  | mem a => exact memRead_spares h w a

theorem writeLoc_spares {s u : State} (h : Spared s u) {w : Width} (l : Loc w) (v : BitVec w.bits) :
    Spares s (writeLoc l v u) := by
  cases l with
  | reg n => exact h.user_update (writeReg_userUpdate w n v u)
  | imm c => exact h
  | mem a => exact memWrite_spares h w a v

theorem commit_spares {s u : State} (h : Spared s u) {w : Width} (dst : Loc w) (out : AluOut w.bits) :
    Spares s (commit dst out u) := by
  have hwrite : Spares s (match out.result with
      | some v => writeLoc dst v u
      | none => .ok () u) := by
    cases out.result with
    | none => exact h
    | some v => exact writeLoc_spares h dst v
  refine Spares.bind hwrite fun _ t ht => ?_
  cases out.flags with
  | none => exact ht
  | some f => exact ht.update rfl rfl rfl rfl

theorem commitOrFault_spares {s u : State} (h : Spared s u) {w : Width} (dst : Loc w)
    (out : Option (AluOut w.bits)) : Spares s (commitOrFault dst out u) := by
  cases out with
  | none => trivial
  | some o => exact commit_spares h dst o

theorem push_spares {s u : State} (h : Spared s u) (w : Width) (v : BitVec w.bits) : Spares s (push w v u) :=
  (memWrite_spares h w _ v).bind fun _ _ ht => ht.update rfl rfl rfl rfl

theorem pop_spares {s u : State} (h : Spared s u) (w : Width) : Spares s (pop w u) :=
  (memRead_spares h w u.sp).bind fun _ _ ht => ht.update rfl rfl rfl rfl

theorem pop_then_spares {s u : State} (h : Spared s u) (w : Width) {put : BitVec w.bits → State → State}
    (hput : ∀ v t, UserUpdate t (put v t)) : Spares s ((pop w u).bind fun v t => .ok () (put v t)) :=
  (pop_spares h w).bind fun v t ht => ht.user_update (hput v t)

theorem popTo_spares {s u : State} (h : Spared s u) {w : Width} (l : Loc w) : Spares s (popTo l u) :=
  (memRead_spares h w u.sp).bind fun v _ ht =>
    (writeLoc_spares ht l v).bind fun _ _ ht' => ht'.update rfl rfl rfl rfl

theorem popWideTo_spares {s u : State} (h : Spared s u) (l : Loc .b32) : Spares s (popWideTo l u) := by
  unfold popWideTo
  split
  · exact (memRead_spares h .b32 u.sp).bind fun _ _ ht => ht.update rfl rfl rfl rfl
  · exact popTo_spares h l

theorem callTo_spares {s u : State} (h : Spared s u) (target : Word) : Spares s (callTo target u) :=
  (push_spares h .b32 u.ip).bind fun _ _ ht => ht.set_ip target

theorem jumpIf_spares {s u : State} (h : Spared s u) (cc : BitVec 8) (d : Word) : Spares s (jumpIf cc d u) := by
  unfold jumpIf
  split
  · exact h.set_ip _
  · exact h

/-- Unprivileged code gets no further than the check. -/
theorem needPrivilege_spares {α : Type} {s u : State} (h : Spared s u) (k : Res α) :
    Spares s (needPrivilege u k) := by
  rw [needPrivilege, if_neg (by simp [h.user])]
  trivial

/-! ### Shapes of instructions -/

/-- A meaning's answer is the completion of an action that spares protected memory. -/
def SparingAnswer (s : State) (o : Out) : Prop := ∃ r, o = complete s r ∧ Spares s r

section
variable {s : State} (h : Spared s s)
include h

theorem bare_spares (len : Nat) {act : State → Res Unit} (hact : ∀ u, Spared s u → Spares s (act u)) :
    SparingAnswer s (bare len act s) := ⟨_, rfl, hact _ (h.set_ip _)⟩

theorem rimSrcThen_spares {w : Width} (o : RimSrc w) {act : BitVec w.bits → State → Res Unit}
    (hact : ∀ v u, Spared s u → Spares s (act v u)) : SparingAnswer s (rimSrcThen o act s) :=
  ⟨_, rfl, (readLoc_spares h _).bind fun v _ ht => hact v _ (ht.set_ip _)⟩

theorem rimDstThen_spares {w : Width} (o : RimDst w) {act : Loc w → State → Res Unit}
    (hact : ∀ l u, Spared s u → Spares s (act l u)) : SparingAnswer s (rimDstThen o act s) :=
  ⟨_, rfl, hact _ _ (h.set_ip _)⟩

theorem rim2Read_spares {wd ws : Width} (extra : Nat) (o : Rim2 wd ws)
    (op : BitVec wd.bits → BitVec ws.bits → Option (AluOut wd.bits)) : SparingAnswer s (rim2Read extra o op s) :=
  ⟨_, rfl, (readLoc_spares h _).bind fun _ _ h1 => (readLoc_spares h1 _).bind fun _ _ h2 =>
    commitOrFault_spares (h2.set_ip _) _ _⟩

theorem rim2Write_spares {wd ws : Width} (extra : Nat) (o : Rim2 wd ws)
    (op : BitVec ws.bits → Option (BitVec wd.bits)) : SparingAnswer s (rim2Write extra o op s) :=
  ⟨_, rfl, (readLoc_spares h _).bind fun _ _ h1 => commit_spares (h1.set_ip _) _ _⟩

theorem rimDstRead_spares {w : Width} (extra : Nat) (o : RimDst w) (op : BitVec w.bits → AluOut w.bits) :
    SparingAnswer s (rimDstRead extra o op s) :=
  ⟨_, rfl, (readLoc_spares h _).bind fun _ _ h1 => commit_spares (h1.set_ip _) _ _⟩

theorem szRead_spares (o : Rim2Sz) (op : (w : Nat) → BitVec w → BitVec w → Option (AluOut w)) :
    SparingAnswer s (szRead o op s) := by
  cases o with
  | w16 o => exact rim2Read_spares h 0 o (op 16)
  | w8 o => exact rim2Read_spares h 0 o (op 8)

theorem szWrite_spares (extra : Nat) (o : Rim2Sz) (op : (w : Nat) → BitVec w → Option (BitVec w)) :
    SparingAnswer s (szWrite extra o op s) := by
  cases o with
  | w16 o => exact rim2Write_spares h extra o (op 16)
  | w8 o => exact rim2Write_spares h extra o (op 8)

theorem szDstRead_spares (extra : Nat) (o : RimDstSz) (op : (w : Nat) → BitVec w → AluOut w) :
    SparingAnswer s (szDstRead extra o op s) := by
  cases o with
  | w16 o => exact rimDstRead_spares h extra o (op 16)
  | w8 o => exact rimDstRead_spares h extra o (op 8)

theorem promRead_spares (o : Rim2Prom) (op : (w w2 : Nat) → BitVec w2 → BitVec w → Option (AluOut w2)) :
    SparingAnswer s (promRead o op s) := by
  cases o with
  | w16 o => exact rim2Read_spares h 0 o (op 16 32)
  | w8 o => exact rim2Read_spares h 0 o (op 8 16)

theorem promWrite_spares (o : Rim2Prom) (op : (w w2 : Nat) → BitVec w → BitVec w2) :
    SparingAnswer s (promWrite o op s) := by
  cases o with
  | w16 o => exact rim2Write_spares h 0 o fun v => some (op 16 32 v)
  | w8 o => exact rim2Write_spares h 0 o fun v => some (op 8 16 v)

theorem shiftBy_spares (k : ShiftKind) (o : Rim2Sz) : SparingAnswer s (shiftBy k o s) := szRead_spares h o _

theorem shiftOne_spares (k : ShiftKind) (o : RimDstSz) : SparingAnswer s (shiftOne k o s) := szDstRead_spares h 0 o _

theorem movImm_spares (n : Fin 8) (imm : BitVec 16) : SparingAnswer s (movImm n imm s) :=
  bare_spares h 3 fun u hu => hu.user_update (writeReg_userUpdate .b16 n imm u)

theorem popReg16_spares (n : Fin 8) : SparingAnswer s (popReg16 n s) :=
  bare_spares h 1 fun _ hu => pop_then_spares hu .b16 (writeReg_userUpdate .b16 n)

theorem execPush_spares (o : RimSrcSz) : SparingAnswer s (execPush o s) := by
  cases o with
  | w16 o => exact rimSrcThen_spares h o fun v _ hu => push_spares hu .b16 v
  | w8 o => exact rimSrcThen_spares h o fun v _ hu => push_spares hu .b8 v

theorem execPop_spares (o : RimDstSz) : SparingAnswer s (execPop o s) := by
  cases o with
  | w16 o => exact rimDstThen_spares h o fun l _ hu => popTo_spares hu l
  | w8 o => exact rimDstThen_spares h o fun l _ hu => popTo_spares hu l

/-! ### Every instruction -/

/-- Every instruction but INT, run unprivileged, answers the completion of an action that spares protected memory. -/
theorem exec_spares (i : Instr) (hint : ∀ v, i ≠ .int v) : SparingAnswer s (exec i s) := by
  cases i with dsimp only [exec]
  | int v => exact absurd rfl (hint v)
  -- operations on operands
  | add o | adc o | sub o | sbb o | cmp o | mul o | div o | divs o | and o | or o | xor o =>
    exact szRead_spares h o _
  | shl o | shr o | sar o | rol o | ror o | rcl o | rcr o => exact shiftBy_spares h _ o
  | addw o | adcw o | subw o | sbbw o | cmpw o
  | padd l o | padc l o | psub l o | psbb l o | pcmp l o | pmul l o | pmulh l o | pmulsh l o | pdiv l o | pdivs l o
  | pdivm l o | pdivms l o => exact rim2Read_spares h 0 o _
  | mulh o | mulsh o | divm o | divms o => exact promRead_spares h o _
  | cmpi o imm => exact szDstRead_spares h 1 o _
  | not o => exact szDstRead_spares h 0 o _
  | shl1 o | shr1 o | sar1 o | rol1 o | ror1 o | rcl1 o | rcr1 o => exact shiftOne_spares h _ o
  -- moves
  | movImmA imm | movImmB imm | movImmC imm | movImmD imm | movImmI imm | movImmJ imm | movImmK imm | movImmL imm =>
    exact movImm_spares h _ imm
  | mov o => exact szWrite_spares h 0 o _
  | cmov o cc => exact szWrite_spares h 1 o _
  | movw o => exact rim2Write_spares h 0 o _
  | movs o | movz o => exact promWrite_spares h o _
  | pcmov l o cc => exact rim2Read_spares h 1 o _
  -- privileged instructions
  | movToIsp o | movToPf o => exact rimSrcThen_spares h o fun _ _ hu => needPrivilege_spares hu _
  | movFromIsp o | movFromPf o => exact rimDstThen_spares h o fun _ _ hu => needPrivilege_spares hu _
  | pushPf | popPf | iret => exact bare_spares h 1 fun _ hu => needPrivilege_spares hu _
  -- the stack
  | pushA | pushB | pushC | pushD | pushI | pushJ | pushK | pushL =>
    exact bare_spares h 1 fun _ hu => push_spares hu .b16 _
  | popA | popB | popC | popD | popI | popJ | popK | popL => exact popReg16_spares h _
  | pushBp | pushSp => exact bare_spares h 1 fun _ hu => push_spares hu .b32 _
  | popBp | popSp | ret =>
    exact bare_spares h 1 fun _ hu => pop_then_spares hu .b32 fun _ _ => ⟨rfl, rfl, rfl, rfl, rfl, rfl, rfl, rfl⟩
  | push o => exact execPush_spares h o
  | pop o => exact execPop_spares h o
  | pushw o => exact rimSrcThen_spares h o fun v _ hu => push_spares hu .b32 v
  | popw o => exact rimDstThen_spares h o fun l _ hu => popWideTo_spares hu l
  -- jumps and calls
  | jmpRel8 d | jmpRel16 d | jmpRel32 d => exact bare_spares h _ fun _ hu => hu.set_ip _
  | jccRel8 cc d | jccRel16 cc d => exact bare_spares h _ fun _ hu => jumpIf_spares hu cc _
  | jmpa o => exact rimSrcThen_spares h o fun v _ hu => hu.set_ip v
  | callRel16 d | callRel32 d => exact bare_spares h _ fun _ hu => callTo_spares hu _
  | calla o => exact rimSrcThen_spares h o fun v _ hu => callTo_spares hu v
  -- the rest
  | nop => exact bare_spares h 1 fun _ hu => hu
  | hlt => exact bare_spares h 1 fun _ hu => hu.update rfl rfl rfl rfl

end

/-! ### Entries end privileged or halted -/

/-- An entry leaves PV set or, as a double fault, HALTED set (spec/60_exceptions.md R392, R395). -/
theorem dispatch_privileged_or_halted (v : BitVec 8) (ipSave : Word) (s : State) :
    (dispatch v ipSave s).pv = true ∨ (dispatch v ipSave s).halted = true := by
  unfold dispatch
  split
  · exact .inr rfl
  · exact .inl rfl

/-- A state that is unprivileged and runs is not one an entry leaves. -/
theorem not_dispatched {t : State} (hp : t.pv = false) (hh : t.halted = false) (v : BitVec 8) (ipSave : Word)
    (u : State) : t ≠ dispatch v ipSave u := by
  rintro rfl
  rcases dispatch_privileged_or_halted v ipSave u with h | h
  · rw [hp] at h; cases h
  · rw [hh] at h; cases h

/-- An instruction of unprivileged code that ends in no entry has spared protected memory. -/
theorem exec_spared {s t : State} (hi : StateInv s) (hp : s.pv = false) {i : Instr} (h : exec i s = .next t)
    (hu : t.pv = false) (hh : t.halted = false) : Spared s t := by
  by_cases hint : ∃ v, i = .int v
  · obtain ⟨v, rfl⟩ := hint
    obtain ⟨w, x, u, _, ht, _⟩ := int_enters hi h
    exact absurd ht (not_dispatched hu hh w x u)
  · obtain ⟨r, hr, hs⟩ := exec_spares (.refl hi hp) i fun v hv => hint ⟨v, hv⟩
    rw [hr] at h
    cases r with
    | ok _ u => cases h; exact hs
    | raise e u => cases h; exact absurd rfl (not_dispatched hu hh _ _ _)

/-- Settles O23: the refill stores nothing, the instruction spares protected memory, and a step that ends in an entry
leaves the core privileged or halted. -/
theorem unprivilegedMemory : Obligations.UnprivilegedMemory := by
  intro s t hi hp h hu hh
  refine Spared.ram (?_ : Spared s t)
  by_cases hs : s.halted = true
  · rw [step_halted hs] at h
    cases h
    exact .refl hi hp
  by_cases hpend : s.pend = true
  · rw [step_pending hs hpend] at h
    cases h
    exact absurd rfl (not_dispatched hu hh _ _ _)
  have hrun : Running s := ⟨by simpa using hs, by simpa using hpend⟩
  rcases fetch_cases s with hf | ⟨r, hf⟩
  · obtain ⟨u, hr, hl, _⟩ := refill_ok hi hf
    have hsu := hl.spared hp
    cases hd : decode u.win with
    | error e =>
      rw [step_refuses hrun hr hd] at h
      cases h
      exact absurd rfl (not_dispatched hu hh _ _ _)
    | ok i =>
      rw [step_executes hrun hr hd] at h
      exact hsu.trans (exec_spared hl.inv hsu.user h hu hh)
  · obtain ⟨u, hr, _⟩ := refill_fault hi hf
    rw [step_fetch_fault hrun hr] at h
    cases h
    exact absurd rfl (not_dispatched hu hh _ _ _)

end Sys2Proof.Machine

/-! Fetching, registration of segments and the host's memory access (spec/20_memory.md R61 to R65, R85, R91 to R97). -/

namespace Sys2Proof.Machine

/-! ### Fetch (spec/20_memory.md R91 to R97) -/

theorem Window.ext_byte {v w : Window} (h : ∀ k, k < 8 → v.byte k = w.byte k) : v = w := by
  obtain ⟨v0, v1, v2, v3, v4, v5, v6, v7⟩ := v
  obtain ⟨w0, w1, w2, w3, w4, w5, w6, w7⟩ := w
  rw [Window.mk.injEq]
  exact ⟨h 0 (by omega), h 1 (by omega), h 2 (by omega), h 3 (by omega), h 4 (by omega), h 5 (by omega),
    h 6 (by omega), h 7 (by omega)⟩

/-- Settles O7: each byte of the refilled window is the kept one or the one memory holds, so the window is `w`. -/
theorem stepFetches : Obligations.StepFetches := by
  intro s w hi hrun hperm hkept hread
  obtain ⟨t, hr, hl, hbase, hvalid, hbytes⟩ := refill_ok hi hperm
  have hwin : t.win = w := Window.ext_byte fun k hk => by
    have hfresh := hbytes k hk
    unfold FreshByte at hfresh
    cases hb : keptByte s (s.ip + BitVec.ofNat 32 k) with
    | some b =>
      rw [hb] at hfresh
      exact hfresh.trans (hkept k hk b hb).symm
    | none =>
      rw [hb] at hfresh
      exact hfresh _ (hread k hk hb)
  refine ⟨t, hwin, hbase, hvalid, hl.inv, hl.regs, hl.plat, hl.device, hl.silent, hl.ram, ?_⟩
  cases hd : decode w with
  | ok i => exact step_executes hrun hr (hwin ▸ hd)
  | error e => exact step_refuses hrun hr (hwin ▸ hd)

/-- Settles O8. -/
theorem fetchFaultTaken : Obligations.FetchFaultTaken := by
  intro s r hi hrun hf
  obtain ⟨u, hr, hl, hvalid⟩ := refill_fault hi hf
  exact ⟨u, step_fetch_fault hrun hr, hvalid, hl.inv, hl.regs, hl.plat, hl.device, hl.silent, hl.ram⟩

/-! ### Registration (spec/20_memory.md R61, R64, R65, R77) -/

theorem segContains_iff (g : Segment) (a : Nat) : segContains g a = true ↔ owns g a := by
  simp [segContains, owns]

/-- Two segments with a size are apart exactly when they share no address. -/
theorem segmentsApart_iff {g h : Segment} (hg : 1 ≤ g.size) (hh : 1 ≤ h.size) :
    segmentsApart g h = true ↔ ∀ a, ¬ (owns g a ∧ owns h a) := by
  simp only [segmentsApart, Bool.or_eq_true, decide_eq_true_eq]
  unfold owns segLimit
  constructor
  · intro hapart a ha
    omega
  · intro hnone
    have := hnone (max g.start h.start)
    omega

/-- The lookup in a table with a segment more. -/
theorem lookup_cons {gs : List Segment} {g : Segment} (hv : segmentsValid (g :: gs) = true) (a : Nat) :
    lookup (g :: gs) a = if segContains g a then some g else lookup gs a := by
  obtain ⟨_, _, hgs⟩ := (segmentsValid_cons g gs).1 hv
  split
  · next hin => exact lookup_of_owns hv List.mem_cons_self ((segContains_iff g a).1 hin)
  · next hout =>
    cases hold : lookup gs a with
    | some h =>
      obtain ⟨hmem, hown⟩ := lookup_some hold
      exact lookup_of_owns hv (List.mem_cons_of_mem g hmem) hown
    | none =>
      by_contra hnew
      obtain ⟨h, hh⟩ := Option.ne_none_iff_exists'.1 hnew
      obtain ⟨hmem, hown⟩ := lookup_some hh
      rcases List.mem_cons.1 hmem with rfl | hmem
      · exact hout ((segContains_iff h a).2 hown)
      · rw [lookup_of_owns hgs hmem hown] at hold
        cases hold

/-- A registration is accepted exactly where the longer table is valid. -/
theorem registerSegment_eq {g : Segment} {s : State} (hv : segmentsValid s.plat.segments = true) :
    registerSegment g s =
      if segmentsValid (g :: s.plat.segments) then
        some { s with plat := { s.plat with segments := g :: s.plat.segments } }
      else none := by
  simp only [registerSegment, segmentsValid, hv, Bool.and_true]

/-- A segment is well formed against a valid table: neither malformed nor sharing an address (R61, R77). -/
theorem segmentsValid_cons_iff {gs : List Segment} (hv : segmentsValid gs = true) (g : Segment) :
    segmentsValid (g :: gs) = true ↔
      ¬ (g.size = 0 ∨ 2 ^ 32 < g.start + g.size ∨ (g.cacheable = true ∧ (g.start % 32 ≠ 0 ∨ g.size % 32 ≠ 0))) ∧
        ¬ ∃ h a, h ∈ gs ∧ segContains g a = true ∧ segContains h a = true := by
  have hok : segmentOk g = true ↔
      ¬ (g.size = 0 ∨ 2 ^ 32 < g.start + g.size ∨
        (g.cacheable = true ∧ (g.start % 32 ≠ 0 ∨ g.size % 32 ≠ 0))) := by
    rw [segmentOk_iff, segLimit]
    cases g.cacheable with
    | true => simp only [true_and, forall_const]; omega
    | false => simp only [Bool.false_eq_true, false_and, or_false, IsEmpty.forall_iff, and_true]; omega
  rw [segmentsValid_cons, hok, and_congr_right_iff]
  intro hg
  have hsize : 1 ≤ g.size := by omega
  simp only [hv, and_true, segContains_iff, not_exists]
  constructor
  · rintro hapart h a ⟨hmem, hga, hha⟩
    have hh := ((segmentOk_iff h).1 (segmentOk_of_mem hv hmem)).1
    exact (segmentsApart_iff hsize hh).1 (hapart h hmem) a ⟨hga, hha⟩
  · intro hnone h hmem
    have hh := ((segmentOk_iff h).1 (segmentOk_of_mem hv hmem)).1
    exact (segmentsApart_iff hsize hh).2 fun a ha => hnone h a ⟨hmem, ha⟩

/-- Settles O59: a registration is accepted where the table with the segment in front is valid. -/
theorem registration : Obligations.Registration := by
  intro g s hv
  have hiff := segmentsValid_cons_iff hv g
  refine ⟨fun hbad => ?_, fun hform hover => ?_⟩
  · rw [registerSegment_eq hv, if_neg]
    intro h
    obtain ⟨hform, hover⟩ := hiff.1 h
    exact hbad.elim hform hover
  · have hnew := hiff.2 ⟨hform, hover⟩
    exact ⟨_, by rw [registerSegment_eq hv, if_pos hnew], rfl, hnew, lookup_cons hnew⟩

/-! ### The host's memory access (spec/20_memory.md R70, R80, R85) -/

theorem runPlan_privileged (pl : Platform) (n : Nat) :
    ∀ a, runPlan true pl true a n = runPlan false pl true a n := by
  induction n with
  | zero => intro a; rfl
  | succ n ih =>
    intro a
    have hbyte : byteFault true pl a true = byteFault false pl a true := by
      simp only [byteFault, Bool.not_true, Bool.and_false]
    simp only [runPlan, hbyte, ih]

/-- With the privileged right a write is permitted exactly where a read is. -/
theorem accessPlan_privileged (pl : Platform) (a n : Nat) :
    accessPlan true pl a n true = accessPlan false pl a n true := by
  simp only [accessPlan, runPlan_privileged, Bool.not_true, Bool.and_false]

/-- Bytes seen at their addresses are the bytes themselves. -/
theorem eq_of_getD {bs cs : List Byte} (hl : cs.length = bs.length)
    (h : ∀ k, k < bs.length → cs.getD k 0 = bs.getD k 0) : cs = bs := by
  refine List.ext_getElem hl fun k hc hb => ?_
  have := h k hb
  rwa [List.getD_eq_getElem _ _ hc, List.getD_eq_getElem _ _ hb] at this

/-- Settles O60: the store is a permitted write, and the load of the same run a permitted read that answers the
bytes the store left in view. -/
theorem hostMemory : Obligations.HostMemory := by
  intro a bs s hi hplan hram
  have hstore := memWriteP_spec hi a bs true
  unfold WriteResult at hstore
  rw [hplan] at hstore
  obtain ⟨t, ht, hw⟩ := hstore
  have hload := memReadP_spec hw.inv a bs.length true
  unfold ReadResult at hload
  rw [hw.kept.plat, ← accessPlan_privileged, hplan] at hload
  obtain ⟨cs, u, hu, hr⟩ := hload
  have hcs : cs = bs := eq_of_getD hr.length fun k hk => by
    refine hr.bytes k hk _ ?_
    obtain ⟨v, hv⟩ := Option.isSome_iff_exists.1 (hram k hk)
    rw [hw.ram, putBytes, if_pos (by omega), hv, Option.map_some, Nat.add_sub_cancel_left]
  subst hcs
  exact ⟨t, u, ht, hw.leaves, hu, hw.kept.regs ▸ hr.passed.leaves⟩

end Sys2Proof.Machine

/-! Faulting accesses of instructions: which bytes a refused store leaves, and that a refused read stores nothing
(spec/20_memory.md R69, R81, spec/60_exceptions.md R383 to R385). -/

namespace Sys2Proof.Machine

theorem Raises.mono {o : Out} {s : State} {e : Fault} {r1 r2 : Reach} {a : Nat} {bs : List Byte}
    (h : Raises o s e r1 a bs) (hr : ∀ x, Reaches r1 x → Reaches r2 x) : Raises o s e r2 a bs := by
  obtain ⟨u, ho, hl⟩ := h
  exact ⟨u, ho, hl.mono hr⟩

theorem reaches_append_self {r : Reach} {x : Nat} (h : Reaches (r ++ r) x) : Reaches r x :=
  ((reaches_append r r x).1 h).elim id id

/-! ### Refused stores -/

section
variable {s : State} (hi : StateInv s) {wd ws : Width} {m : MemOp} {x : Fin ws.regs} {extra : Nat} {a : Word}
  (ha : a = effectiveAddr m (nextIp s (2 + extra + m.tail)) s) {k : Nat} {e : Fault}
  (h : accessPlan true s.plat a.toNat wd.bytes s.pv = (k, some e))
include hi ha h

/-- A store of a register's value that is refused leaves the bytes before the faulting one. -/
theorem rim2Write_store_raises {op : BitVec ws.bits → Option (BitVec wd.bits)} {v : BitVec wd.bits}
    (hv : op (readReg ws x s) = some v) :
    Raises (rim2Write extra (.mr m x) op s) s e [(a.toNat, wd.bytes)] a.toNat ((leBytes wd.bytes v.toNat).take k) := by
  subst ha
  obtain rfl := congrArg Prod.fst h
  obtain ⟨b, rfl, hends⟩ := (rim2Write_spec hi extra (.mr m x) op).2 rfl
  rw [hv] at hends
  exact hends.1 rfl e (congrArg Prod.snd h)

/-- The same for an operation on a destination that can be read: the value it read is one RAM may answer. -/
theorem rim2Read_store_raises {op : BitVec wd.bits → BitVec ws.bits → AluOut wd.bits}
    {f : BitVec wd.bits → BitVec wd.bits} (hf : ∀ v, (op v (readReg ws x s)).result = some (f v))
    (hread : (accessPlan false s.plat a.toNat wd.bytes s.pv).2 = none) :
    ∃ v : BitVec wd.bits, ValueOf s (Loc.mem a : Loc wd) v ∧
      Raises (rim2Read extra (.mr m x) (fun p q => some (op p q)) s) s e [(a.toNat, wd.bytes)] a.toNat
        ((leBytes wd.bytes (f v).toNat).take k) := by
  subst ha
  obtain rfl := congrArg Prod.fst h
  obtain ⟨v, b, hv, rfl, hends⟩ := (rim2Read_spec hi extra (.mr m x) fun p q => some (op p q)).2.2 rfl hread
  have hraise := hends.1 (by rw [hf v]; rfl) e (congrArg Prod.snd h)
  have hbytes : ∀ l, storeBytes (Loc.mem l : Loc wd) (op v (readReg ws x s)) = leBytes wd.bytes (f v).toNat :=
    fun l => by simp only [storeBytes, hf v]
  refine ⟨v, hv, ?_⟩
  rw [← hbytes]
  exact hraise.mono fun _ => reaches_append_self

end

/-- A push that is refused, after IP was advanced. -/
theorem push_raises {s : State} (hi : StateInv s) {w : Width} {a : Word} (ha : a = s.sp - BitVec.ofNat 32 w.bytes)
    {k : Nat} {e : Fault} (h : accessPlan true s.plat a.toNat w.bytes s.pv = (k, some e)) (v : BitVec w.bits)
    (next : Word) :
    ∃ t, push w v { s with ip := next } = .raise e t ∧
      Raises (complete s (.raise e t)) s e [(a.toNat, w.bytes)] a.toNat ((leBytes w.bytes v.toNat).take k) := by
  subst ha
  obtain rfl := congrArg Prod.fst h
  obtain ⟨t, ht, hl⟩ := push_fault (hi.with_ip next) v (r := e) (congrArg Prod.snd h)
  exact ⟨t, ht, raises_of (x := next) hl.of_ip⟩

/-- Settles O39: each form's store against its plan. -/
theorem storeFaults : Obligations.StoreFaults := by
  intro m s e hi
  refine ⟨?_, ?_, ?_, ?_⟩
  · rintro x a k rfl h
    exact rim2Write_store_raises (wd := .b16) (ws := .b16) (extra := 0) hi rfl h rfl
  · rintro x a k rfl h
    exact rim2Write_store_raises (wd := .b32) (ws := .b32) (extra := 0) hi rfl h rfl
  · rintro x a k rfl hread h
    refine rim2Read_store_raises (wd := .b16) (ws := .b16) (extra := 0) (f := fun v : Half => v + reg16 x s) hi rfl h
      (op := fun p q => .scalar (aluAdd p q false)) (fun v => ?_) hread
    have : (aluAdd v (reg16 x s) false).1 = v + reg16 x s := by simp [aluAdd, addCore, BitVec.ofNat_add]
    exact congrArg some this
  · rintro a k rfl h
    refine ⟨?_, fun d => ?_⟩
    · obtain ⟨t, ht, hr⟩ := push_raises (w := .b32) hi rfl h s.bp (nextIp s 1)
      rw [traps_iff, show exec .pushBp s = complete s (push .b32 s.bp { s with ip := nextIp s 1 }) from rfl, ht]
      exact hr
    · obtain ⟨t, ht, hr⟩ := push_raises (w := .b32) hi rfl h (s.ip + 5) (nextIp s 5)
      rw [traps_iff, show exec (.callRel32 d) s =
        complete s ((push .b32 (s.ip + 5) { s with ip := nextIp s 5 }).bind fun _ u =>
          .ok () { u with ip := nextIp s 5 + d }) from rfl, ht]
      exact hr

/-! ### Refused reads -/

/-- A read that is refused, after IP was advanced. -/
theorem memRead_raises {s : State} (hi : StateInv s) {w : Width} {a : Word} {e : Fault}
    (h : (accessPlan false s.plat a.toNat w.bytes s.pv).2 = some e) (next : Word) :
    ∃ t, memRead w a s.pv { s with ip := next } = .raise e t ∧
      Raises (complete s (.raise e t)) s e [(a.toNat, w.bytes)] 0 [] := by
  obtain ⟨t, ht, hpass⟩ := memRead_fault (hi.with_ip next) w a s.pv h
  exact ⟨t, ht, raises_of (x := next) hpass.leaves.of_ip⟩

/-- Settles O40: each form's first refused read; the stack forms read at SP before anything else. -/
theorem loadFaults : Obligations.LoadFaults := by
  intro m s e hi
  refine ⟨?_, ?_, ?_, fun h => ?_, fun h => ?_⟩
  · rintro d a rfl h
    exact (rim2Read_spec hi (wd := .b16) (ws := .b16) 0 (.rm d m) _).1 e h
  · rintro x a rfl h
    exact (rim2Read_spec hi (wd := .b8) (ws := .b8) 0 (.mr m x) _).2.1 rfl e h
  · rintro a rfl h
    exact (rimSrcThen_spec hi (w := .b32) (.mem m) fun v t => needPrivilege t (.ok () { t with isp := v })).1 e h
  · obtain ⟨t, ht, hr⟩ := memRead_raises (w := .b16) hi h (nextIp s 1)
    obtain ⟨u, hu, hr'⟩ := memRead_raises (w := .b16) hi h (nextIp s (2 + (RimDst.mem m : RimDst .b16).tail))
    constructor
    · simpa only [traps_iff, exec, execPopA, popReg16, bare, pop, ht, Res.bind_raise] using hr
    · simpa only [traps_iff, exec, execPop, rimDstThen, popTo, hu, Res.bind_raise] using hr'
  · obtain ⟨t, ht, hr⟩ := memRead_raises (w := .b32) hi h (nextIp s 1)
    refine ⟨?_, fun hp => ?_⟩
    · simpa only [traps_iff, exec, execRet, bare, pop, ht, Res.bind_raise] using hr
    · rw [hp] at ht
      simpa only [traps_iff, exec, execIret, bare, needPrivilege, hp, if_true, returnFromEntry, ht,
        Res.bind_raise] using hr

end Sys2Proof.Machine

/-! Condition bytes as the spec's table has them (spec/40_alu.md R210 to R212). -/

namespace Sys2Proof.Machine

theorem groupC_flagsAt (f : Half) (i : Nat) : groupC (flagsAt f i) = f.getLsbD (4 * i + 3) := by
  simp [groupC, flagsAt]

theorem groupS_flagsAt (f : Half) (i : Nat) : groupS (flagsAt f i) = f.getLsbD (4 * i + 2) := by
  simp [groupS, flagsAt]

theorem groupO_flagsAt (f : Half) (i : Nat) : groupO (flagsAt f i) = f.getLsbD (4 * i + 1) := by
  simp [groupO, flagsAt]

theorem groupZ_flagsAt (f : Half) (i : Nat) : groupZ (flagsAt f i) = f.getLsbD (4 * i) := by
  simp [groupZ, flagsAt]

/-- A base condition on one flag group (R211). -/
theorem baseCond_iff (bc : BitVec 4) (f : Half) (i : Nat) :
    baseCond bc (flagsAt f i) = true ↔ groupHolds bc.toNat f i := by
  unfold baseCond groupHolds
  rw [groupC_flagsAt, groupS_flagsAt, groupO_flagsAt, groupZ_flagsAt]
  generalize bc.toNat = n
  rcases n with _ | _ | _ | _ | _ | _ | _ | _ | _ | _ | _ | _ | _ | _ | n
  all_goals simp

/-- The condition of one lane (R212). -/
theorem condLane_iff (cc : BitVec 8) (f : Half) (i : Nat) :
    condLane cc f i = true ↔ groupHolds (cc.toNat % 16) f i := by
  have hbase : (cc.extractLsb' 0 4).toNat = cc.toNat % 16 := by simp
  rw [condLane, baseCond_iff, hbase]

/-- A condition byte over the lanes it names (R210). -/
theorem cond_iff (cc : BitVec 8) (f : Half) : cond cc f = true ↔ condHolds cc f := by
  have hmode : (cc.extractLsb' 4 2).toNat = cc.toNat / 16 % 4 := by
    simp [BitVec.extractLsb'_toNat, Nat.shiftRight_eq_div_pow]
  have hall : cc.getLsbD 6 = true ↔ ¬ cc.toNat / 64 % 2 = 0 := by
    rw [BitVec.getLsbD, Nat.testBit_eq_decide_div_mod_eq, decide_eq_true_eq]
    omega
  unfold cond condHolds
  simp only [hmode]
  split
  · exact condLane_iff cc f 0
  · by_cases h : cc.toNat / 64 % 2 = 0
    · rw [if_neg (mt hall.1 (not_not.2 h)), if_pos h]
      simp only [List.any_eq_true, List.mem_range, condLane_iff]
    · rw [if_pos (hall.2 h), if_neg h]
      simp only [List.all_eq_true, List.mem_range, condLane_iff]

end Sys2Proof.Machine

/-! Device calls (spec/20_memory.md R62, R63, R70, R82, spec/30_encoding.md R150): what an access of a device outside
the cache calls. -/

namespace Sys2Proof.Machine

/-! ### A device outside the cache -/

theorem DeviceServes.congr {write : Bool} {s t : State} {g : Segment} {a n : Nat} (h : DeviceServes write s g a n)
    (hp : t.plat = s.plat) (hv : t.pv = s.pv) : DeviceServes write t g a n := by
  unfold DeviceServes at *
  rwa [hp, hv]

theorem DeviceServes.isDevice {write : Bool} {s : State} {g : Segment} {a n : Nat} (h : DeviceServes write s g a n) :
    g.kind = .device := h.2.1

/-- The check of privilege passes. -/
theorem privilege_passes {need p : Bool} (h : need = true → p = true) : (need && !p) = false := by
  cases need with
  | false => rfl
  | true => rw [h rfl]; rfl

theorem memReadP_device {s : State} {g : Segment} {a n : Nat} (h : DeviceServes false s g a n) :
    memReadP a n s.pv s = .ok (ctrlRead g a n s).1 (ctrlRead g a n s).2 := by
  obtain ⟨hg, _, ht, hl, hpriv⟩ := h
  have hp : (g.readNeedsPriv && !s.pv) = false := privilege_passes hpriv
  simp only [memReadP, accessRead, routerRead, splits, hg, ht, hp, if_neg (Nat.not_lt.2 hl), Bool.false_and,
    Bool.false_eq_true, if_false]

theorem memWriteP_device {s : State} {g : Segment} {a : Nat} {bs : List Byte}
    (h : DeviceServes true s g a bs.length) : memWriteP a bs s.pv s = .ok () (ctrlWrite g a bs s) := by
  obtain ⟨hg, _, ht, hl, hpriv⟩ := h
  have hp : (g.writeNeedsPriv && !s.pv) = false := privilege_passes hpriv
  simp only [memWriteP, accessWrite, routerWrite, splits, hg, ht, hp, if_neg (Nat.not_lt.2 hl), Bool.false_and,
    Bool.false_eq_true, if_false]

/-- A read of a device: a read call a byte, in ascending order, and the number of the answers. -/
theorem memRead_device {s : State} {g : Segment} {w : Width} {a : Word} (h : DeviceServes false s g a.toNat w.bytes) :
    ∃ bs t, memRead w a s.pv s = .ok (BitVec.ofNat w.bits (leNat bs)) t ∧ bs.length = w.bytes ∧ Quiet s t ∧
      t.devLog = s.devLog ++ deviceReads g a.toNat bs := by
  obtain ⟨hq, hlen⟩ := ctrlRead_device g h.isDevice w.bytes a.toNat s
  exact ⟨_, _, by rw [memRead, memReadP_device h, Res.map_ok], hlen, hq, ctrlRead_log g h.isDevice w.bytes a.toNat s⟩

/-- A write of a device: a write call a byte, in ascending order. -/
theorem memWrite_device {s : State} {g : Segment} {w : Width} {a : Word} (h : DeviceServes true s g a.toNat w.bytes)
    (v : BitVec w.bits) :
    ∃ t, memWrite w a v s.pv s = .ok () t ∧ Quiet s t ∧
      t.devLog = s.devLog ++ deviceWrites g a.toNat (leBytes w.bytes v.toNat) := by
  rw [← leBytes_length w.bytes v.toNat] at h
  exact ⟨_, memWriteP_device h, ctrlWrite_device g h.isDevice _ a.toNat s, ctrlWrite_log g h.isDevice _ a.toNat s⟩

theorem readReg_writeReg_same (w : Width) (n : Fin w.regs) (v : BitVec w.bits) (s : State) :
    readReg w n (writeReg w n v s) = v := by
  cases w with
  | b8 => exact reg8_setReg8 n v s
  | b16 => exact (reg16_setReg16 n n v s).trans (if_pos rfl)
  | b32 => exact reg32_setReg32 n v s

theorem toNat_leNat {w : Width} {bs : List Byte} (h : bs.length = w.bytes) :
    (BitVec.ofNat w.bits (leNat bs)).toNat = leNat bs := by
  have hlt := leNat_lt bs
  rw [h, ← Width.bits_eq] at hlt
  rw [BitVec.toNat_ofNat, Nat.mod_eq_of_lt hlt]

/-- A move to a register loads from a device. -/
theorem rim2Write_deviceLoads {w : Width} {i : Fin w.regs → MemOp → Instr}
    (hexec : ∀ x m s, exec (i x m) s = rim2Write 0 (.rm x m : Rim2 w w) some s)
    (hnext : ∀ x m s, nextOf (i x m) s = nextIp s (2 + 0 + m.tail)) : DeviceLoads i := by
  rintro x m s g a rfl h
  rw [hnext] at h ⊢
  obtain ⟨bs, t, ht, hlen, _, hlog⟩ := memRead_device h
  have hread : readLoc (rim2Src (.rm x m : Rim2 w w) (nextIp s (2 + 0 + m.tail)) s) s =
      .ok (BitVec.ofNat w.bits (leNat bs)) t := ht
  refine ⟨writeReg w x (BitVec.ofNat w.bits (leNat bs)) { t with ip := nextIp s (2 + 0 + m.tail) }, bs, ?_, hlen,
    ?_, ?_⟩
  · simp only [hexec, rim2Write, Rim2.tail, hread, Res.bind_ok]
    rfl
  · rw [readReg_writeReg_same, toNat_leNat hlen]
  · rw [(writeReg_same _ w x _).devLog]
    exact hlog

/-- A form that writes a register's value, changed or not, to memory stores to a device. -/
theorem rim2Write_deviceStores {wd ws : Width} {i : Instr} {s : State} {extra : Nat} {m : MemOp} {x : Fin ws.regs}
    {op : BitVec ws.bits → Option (BitVec wd.bits)} {v : BitVec wd.bits}
    (hexec : exec i s = rim2Write extra (.mr m x) op s) (hnext : nextOf i s = nextIp s (2 + extra + m.tail))
    (hv : op (readReg ws x s) = some v) : DeviceStores i s m v := by
  rintro g a rfl h
  rw [hnext] at h ⊢
  obtain ⟨t, ht, hq, hlog⟩ := memWrite_device (s := { s with ip := nextIp s (2 + extra + m.tail) }) h v
  refine ⟨t, ?_, hlog, hq.mem, hq.cache⟩
  have hwrite : writeLoc (rim2Dst (.mr m x : Rim2 wd ws) (nextIp s (2 + extra + m.tail)) s) v
      { s with ip := nextIp s (2 + extra + m.tail) } = .ok () t := ht
  simp only [hexec, rim2Write, rim2Src, readLoc, Rim2.tail, Res.bind_ok, hv, commit, hwrite]
  rfl

theorem needPrivilege_of {α : Type} {s : State} (hp : s.pv = true) (k : Res α) : needPrivilege s k = k := if_pos hp

/-- A privileged form that writes a value to memory stores to a device. -/
theorem rimDstThen_deviceStores {w : Width} {i : Instr} {s : State} {m : MemOp} {value : State → BitVec w.bits}
    {v : BitVec w.bits} (hp : s.pv = true)
    (hexec : exec i s = rimDstThen (.mem m) (fun l t => needPrivilege t (writeLoc l (value t) t)) s)
    (hnext : nextOf i s = nextIp s (2 + m.tail)) (hv : value { s with ip := nextIp s (2 + m.tail) } = v) :
    DeviceStores i s m v := by
  rintro g a rfl h
  rw [hnext] at h ⊢
  obtain ⟨t, ht, hq, hlog⟩ := memWrite_device (s := { s with ip := nextIp s (2 + m.tail) }) h v
  refine ⟨t, ?_, hlog, hq.mem, hq.cache⟩
  have hwrite : needPrivilege { s with ip := nextIp s (2 + m.tail) }
      (writeLoc (rimDstLoc (.mem m : RimDst w) (nextIp s (2 + m.tail)) s) v { s with ip := nextIp s (2 + m.tail) }) =
      .ok () t := (needPrivilege_of (s := { s with ip := nextIp s (2 + m.tail) }) hp _).trans ht
  simp only [hexec, rimDstThen, RimDst.tail, hv, hwrite]
  rfl

/-- A pop to a device: the value at SP is read first. -/
theorem rimDstThen_devicePops {w : Width} {i : Instr} {s : State} {m : MemOp}
    (hexec : exec i s = complete s (popTo (Loc.mem (effectiveAddr m (nextIp s (2 + m.tail)) s) : Loc w)
      { s with ip := nextIp s (2 + m.tail) }))
    (hnext : nextOf i s = nextIp s (2 + m.tail)) : DevicePops (w := w) i s m := by
  rintro g a hi rfl h hread hno
  rw [hnext] at h ⊢
  obtain ⟨v, t, ht, hpass, hv⟩ := memRead_ok (hi.with_ip (nextIp s (2 + m.tail))) w s.sp s.pv hread
  have hk := hpass.kept
  obtain ⟨u, hu, _, hlog⟩ := memWrite_device (h.congr (t := t) hk.plat hk.pv) v
  have hwrite : writeLoc (Loc.mem (effectiveAddr m (nextIp s (2 + m.tail)) s) : Loc w) v t = .ok () u := hu
  refine ⟨{ u with sp := u.sp + BitVec.ofNat 32 w.bytes }, v, ?_, hv, ?_⟩
  · rw [hexec]
    simp only [popTo, ht, Res.bind_ok, hwrite]
    rfl
  · exact hlog.trans (congrArg (· ++ _) (hpass.silent hno).devLog)

/-- An addition to a device: read calls, then write calls. -/
theorem rim2Read_deviceUpdates {w : Width} {i : Instr} {s : State} {m : MemOp} {x : Fin w.regs}
    (hexec : exec i s = rim2Read 0 (.mr m x : Rim2 w w) (fun a b => some (.scalar (aluAdd a b false))) s)
    (hnext : nextOf i s = nextIp s (2 + 0 + m.tail)) :
    DeviceUpdates i s m (fun n => BitVec.ofNat w.bits (n + (readReg w x s).toNat)) := by
  rintro g a rfl hr hw
  rw [hnext] at hr hw ⊢
  obtain ⟨bs, t, ht, hlen, hq, hlog⟩ := memRead_device hr
  obtain ⟨u, hu, _, hlog'⟩ := memWrite_device (s := { t with ip := nextIp s (2 + 0 + m.tail) })
    (hw.congr hq.kept.plat hq.kept.pv) (BitVec.ofNat w.bits (leNat bs + (readReg w x s).toNat))
  have hsrc : readLoc (rim2Src (.mr m x : Rim2 w w) (nextIp s (2 + 0 + m.tail)) s) s = .ok (readReg w x s) s := rfl
  have hread : readLoc (rim2Dst (.mr m x : Rim2 w w) (nextIp s (2 + 0 + m.tail)) s) s =
      .ok (BitVec.ofNat w.bits (leNat bs)) t := ht
  have hwrite : writeLoc (rim2Dst (.mr m x : Rim2 w w) (nextIp s (2 + 0 + m.tail)) s)
      (BitVec.ofNat w.bits (leNat bs + (readReg w x s).toNat)) { t with ip := nextIp s (2 + 0 + m.tail) } =
      .ok () u := hu
  have hsum : (aluAdd (BitVec.ofNat w.bits (leNat bs)) (readReg w x s) false).1 =
      BitVec.ofNat w.bits (leNat bs + (readReg w x s).toNat) := by
    simp [aluAdd, addCore, toNat_leNat hlen]
  have hrun : exec i s = .next
      { u with f := scalarFlags (aluAdd (BitVec.ofNat w.bits (leNat bs)) (readReg w x s) false).2 } := by
    simp only [hexec, rim2Read, Rim2.tail, hsrc, Res.bind_ok, hread, commitOrFault, commit, AluOut.scalar,
      hsum, hwrite]
    rfl
  exact ⟨_, bs, hrun, hlen, hlog'.trans (congrArg (· ++ _) hlog)⟩

end Sys2Proof.Machine

/-! A device behind the cache (spec/20_memory.md R76 to R80): the calls of an eviction and of a line's load, and a byte
read or written in the line; with it the statement on device calls. -/

namespace Sys2Proof.Machine

/-! ### Chunks of a line as one run -/

theorem ctrlRead_plat (g : Segment) (a n : Nat) (s : State) : (ctrlRead g a n s).2.plat = s.plat := by
  cases hk : g.kind with
  | ram => rw [ctrlRead_ram g hk]
  | device => exact (ctrlRead_device g hk n a s).1.kept.plat

theorem ctrlWrite_plat (g : Segment) (a : Nat) (bs : List Byte) (s : State) : (ctrlWrite g a bs s).plat = s.plat := by
  cases hk : g.kind with
  | ram => rw [ctrlWrite_ram g hk]
  | device => exact (ctrlWrite_device g hk bs a s).kept.plat

theorem ctrlRead_add (g : Segment) (n k : Nat) : ∀ (a : Nat) (s : State),
    ctrlRead g a (n + k) s = ((ctrlRead g a n s).1 ++ (ctrlRead g (a + n) k (ctrlRead g a n s).2).1,
      (ctrlRead g (a + n) k (ctrlRead g a n s).2).2) := by
  induction n with
  | zero => intro a s; rw [Nat.zero_add]; rfl
  | succ n ih =>
    intro a s
    rw [Nat.add_right_comm n 1 k, show a + (n + 1) = a + 1 + n by omega]
    simp only [ctrlRead, ih, List.cons_append]

theorem ctrlWrite_append (g : Segment) (xs ys : List Byte) : ∀ (a : Nat) (s : State),
    ctrlWrite g a (xs ++ ys) s = ctrlWrite g (a + xs.length) ys (ctrlWrite g a xs s) := by
  induction xs with
  | nil => intro a s; rfl
  | cons x xs ih =>
    intro a s
    simp only [List.cons_append, ctrlWrite, ih, List.length_cons]
    congr 1
    omega

/-- A victim's flush is one run of writes of its controller (R78). -/
theorem flushChunks_eq {g : Segment} (k : Nat) : ∀ (a : Nat) (data : List Byte) (s : State),
    segmentsValid s.plat.segments = true → g ∈ s.plat.segments → g.start ≤ a → data.length = 4 * k →
    a + 4 * k ≤ segLimit g → flushChunks a data k s = .ok () (ctrlWrite g a data s) := by
  induction k with
  | zero =>
    intro a data s _ _ _ hd _
    rw [List.length_eq_zero_iff.1 hd]
    rfl
  | succ k ih =>
    intro a data s hv hmem hs hd hl
    have hlen : (data.take 4).length = 4 := by rw [List.length_take]; omega
    have hw : routerWrite a (data.take 4) true s = .ok () (ctrlWrite g a (data.take 4) s) :=
      routerWrite_priv (lookup_of_owns hv hmem ⟨hs, by omega⟩) (by omega)
    have hrest := ih (a + 4) (data.drop 4) (ctrlWrite g a (data.take 4) s) (by rwa [ctrlWrite_plat])
      (by rwa [ctrlWrite_plat]) (by omega) (by rw [List.length_drop]; omega) (by omega)
    have hsplit := ctrlWrite_append g (data.take 4) (data.drop 4) a s
    rw [List.take_append_drop, hlen] at hsplit
    rw [hsplit]
    simp only [flushChunks, Config.lineChunk, hw, Res.bind_ok, hrest]

/-- A line's load is one run of reads of its controller (R78). -/
theorem loadChunks_eq {g : Segment} (k : Nat) : ∀ (a : Nat) (s : State),
    segmentsValid s.plat.segments = true → g ∈ s.plat.segments → g.start ≤ a → a + 4 * k ≤ segLimit g →
    loadChunks a k s = .ok (ctrlRead g a (4 * k) s).1 (ctrlRead g a (4 * k) s).2 := by
  induction k with
  | zero => intro a s _ _ _ _; rfl
  | succ k ih =>
    intro a s hv hmem hs hl
    have hr : routerRead a 4 true s = .ok (ctrlRead g a 4 s).1 (ctrlRead g a 4 s).2 :=
      routerRead_priv (lookup_of_owns hv hmem ⟨hs, by omega⟩) (by omega)
    have hrest := ih (a + 4) (ctrlRead g a 4 s).2 (by rwa [ctrlRead_plat]) (by rwa [ctrlRead_plat]) (by omega)
      (by omega)
    rw [show 4 * (k + 1) = 4 + 4 * k by omega, ctrlRead_add]
    simp only [loadChunks, Config.lineChunk, hr, Res.bind_ok, hrest]

/-! ### The calls of a miss -/

/-- A line of the cache lies in its segment. -/
theorem LineOk.in_segment {pl : Platform} {m : Memory} {i : Nat} {ln : CacheLine} {g : Segment}
    (h : LineOk pl m i ln g) (hv : segmentsValid pl.segments = true) :
    g ∈ pl.segments ∧ g.start ≤ lineAddr pl ln.tag i ∧ lineAddr pl ln.tag i + 32 ≤ segLimit g := by
  have hb := line_in_segment hv h.owner h.cacheable
  have hbase : lineBase (lineAddr pl ln.tag i) = lineAddr pl ln.tag i := by
    have := lineAddr_aligned pl ln.tag i
    simp only [lineBase, Config.lineBytes]; omega
  rw [hbase] at hb
  exact ⟨(lookup_some h.owner).1, hb⟩

/-- An eviction calls the device whose dirty line it writes back, and no other (R78). -/
theorem evictLine_log {s t : State} (hi : StateInv s) {idx : Nat} {ln : CacheLine}
    (hl : lineGet s.cache idx = some ln) (h : evictLine idx ln s = .ok () t) :
    t.devLog = s.devLog ++ evictCalls s idx := by
  obtain ⟨g, hg⟩ := hi.line hl
  unfold evictLine at h
  cases hd : ln.dirty with
  | false =>
    simp only [hd, Bool.false_eq_true, if_false] at h
    cases h
    simp only [evictCalls, hl, hg.owner, hd, Bool.false_and, Bool.false_eq_true, if_false, List.append_nil]
  | true =>
    obtain ⟨hmem, hstart, hlimit⟩ := hg.in_segment hi.segments
    have hflush := flushChunks_eq 8 (lineAddr s.plat ln.tag idx) ln.data s hi.segments hmem hstart hg.length hlimit
    simp only [hd, if_true, Config.lineBytes, Config.lineChunk, Nat.reduceDiv, hflush, Res.bind_ok] at h
    cases h
    simp only [evictCalls, hl, hg.owner, hd, Bool.true_and, setLine_devLog, decide_eq_true_eq]
    cases hk : g.kind with
    | ram => rw [ctrlWrite_ram g hk, if_neg (by simp), List.append_nil]
    | device => rw [if_pos rfl, ctrlWrite_log g hk]

/-- A load of a device's line calls it for the 32 bytes (R78). -/
theorem loadLine_log {s t : State} (hi : StateInv s) {a : Nat} {g : Segment} (hg : lookup s.plat.segments a = some g)
    (hk : g.kind = .device) (hc : g.cacheable = true) {ln : CacheLine} (h : loadLine a s = .ok ln t) :
    t.devLog = s.devLog ++ deviceReads g (lineBase a) ln.data := by
  obtain ⟨hstart, hlimit⟩ := line_in_segment hi.segments hg hc
  have hbase := lookup_same hi.segments hg hstart (by omega)
  have hload := loadChunks_eq 8 (lineBase a) s hi.segments (lookup_some hg).1 hstart hlimit
  simp only [loadLine, hbase, Config.lineBytes, Config.lineChunk, Nat.reduceDiv, hload, Res.bind_ok] at h
  cases h
  exact ctrlRead_log g hk _ _ s

/-- A miss calls for the eviction and then for the line (R78). -/
theorem ensureLine_miss_log {s t : State} (hi : StateInv s) {a : Nat} {g : Segment}
    (hg : lookup s.plat.segments a = some g) (hk : g.kind = .device) (hc : g.cacheable = true) {ln : CacheLine}
    (hmiss : ∀ l, lineGet s.cache (lineIndex s.plat a) = some l → l.tag ≠ lineTag s.plat a)
    (h : ensureLine a s = .ok ln t) :
    t.devLog = s.devLog ++ evictCalls s (lineIndex s.plat a) ++ deviceReads g (lineBase a) ln.data := by
  cases hl : lineGet s.cache (lineIndex s.plat a) with
  | none =>
    have hcalls : evictCalls s (lineIndex s.plat a) = [] := by simp only [evictCalls, hl]
    simp only [ensureLine, hl] at h
    rw [hcalls, List.append_nil]
    exact loadLine_log hi hg hk hc h
  | some victim =>
    obtain ⟨u, hu, hiu, hku, _⟩ := evictLine_spec hi hl
    simp only [ensureLine, hl, if_neg (hmiss victim hl), hu, Res.bind_ok] at h
    rw [loadLine_log hiu (by rwa [hku.plat]) hk hc h, evictLine_log hi hl hu]

/-! ### The view of a device's byte -/

/-- The view reads nothing but memory, cache and platform. -/
theorem view_congr {s t : State} (hm : t.mem = s.mem) (hc : t.cache = s.cache) (hp : t.plat = s.plat) (a : Nat) :
    view t a = view s a := by
  simp only [view, ctrlByte, hm, hc, hp]

/-- A byte of a valid line is seen. -/
theorem view_of_line {s : State} {a : Nat} {g : Segment} (hg : lookup s.plat.segments a = some g)
    (ht : throughCache s.plat g = true) {ln : CacheLine} (hl : lineGet s.cache (lineIndex s.plat a) = some ln)
    (htag : ln.tag = lineTag s.plat a) : view s a = some (ln.data.getD (lineOffset a) 0) := by
  simp only [view, hg, ht, hl, htag, if_true]

/-- A device's byte that is seen stands in the valid line of its address. -/
theorem line_of_view {write : Bool} {s : State} {a : Nat} {g : Segment} (h : CachedDevice write s g a) {b : Byte}
    (hb : view s a = some b) :
    ∃ ln, lineGet s.cache (lineIndex s.plat a) = some ln ∧ ln.tag = lineTag s.plat a ∧
      ln.data.getD (lineOffset a) 0 = b := by
  obtain ⟨hg, hk, ht, _⟩ := h
  cases hl : lineGet s.cache (lineIndex s.plat a) with
  | none => simp [view, hg, ht, hl, ctrlByte, hk] at hb
  | some ln =>
    by_cases htag : ln.tag = lineTag s.plat a
    · rw [view_of_line hg ht hl htag] at hb
      exact ⟨ln, rfl, htag, Option.some.inj hb⟩
    · simp [view, hg, ht, hl, htag, ctrlByte, hk] at hb

/-- What `EnsureLine` at a device's byte leaves: its line, found without a call or called for. -/
structure DeviceLineIn (s : State) (g : Segment) (a : Nat) (ln : CacheLine) (t : State) : Prop where
  kept : Kept s t
  line : lineGet t.cache (lineIndex s.plat a) = some ln
  tag : ln.tag = lineTag s.plat a
  ok : LineOk t.plat t.mem (lineIndex s.plat a) ln g
  hit : ∀ b, view s a = some b → t = s ∧ ln.data.getD (lineOffset a) 0 = b
  miss : view s a = none →
    t.devLog = s.devLog ++ evictCalls s (lineIndex s.plat a) ++ deviceReads g (lineBase a) ln.data

/-- The line's byte is then the one seen. -/
theorem DeviceLineIn.seen {write : Bool} {s t : State} {g : Segment} {a : Nat} {ln : CacheLine}
    (hin : DeviceLineIn s g a ln t) (h : CachedDevice write s g a) :
    view t a = some (ln.data.getD (lineOffset a) 0) := by
  obtain ⟨hg, _, ht, _⟩ := h
  have hplat := hin.kept.plat
  exact view_of_line (hplat ▸ hg) (hplat ▸ ht) (hplat ▸ hin.line) (hplat ▸ hin.tag)

theorem ensureLine_device {write : Bool} {s : State} (hi : StateInv s) {a : Nat} {g : Segment}
    (h : CachedDevice write s g a) : ∃ ln t, ensureLine a s = .ok ln t ∧ DeviceLineIn s g a ln t := by
  obtain ⟨hg, hk, ht, _⟩ := id h
  obtain ⟨hen, hc⟩ : s.plat.cacheEnabled = true ∧ g.cacheable = true := by
    simpa only [throughCache, Bool.and_eq_true] using ht
  obtain ⟨ln, t, hrun, _, hkept, _, hline, htag, hok, _⟩ := ensureLine_spec hi hen hg hc
  refine ⟨ln, t, hrun, hkept, hline, htag, hok, fun b hb => ?_, fun hnone => ?_⟩
  · obtain ⟨l, hl, hltag, hbyte⟩ := line_of_view h hb
    simp only [ensureLine, hl, if_pos hltag] at hrun
    cases hrun
    exact ⟨rfl, hbyte⟩
  · refine ensureLine_miss_log hi hg hk hc (fun l hl hltag => ?_) hrun
    rw [view_of_line hg ht hl hltag] at hnone
    cases hnone

/-! ### A byte read and written behind the cache -/

theorem memRead_cached_device {s t : State} {a : Word} {g : Segment} {ln : CacheLine}
    (h : CachedDevice false s g a.toNat) (hrun : ensureLine a.toNat s = .ok ln t)
    (hin : DeviceLineIn s g a.toNat ln t) :
    memRead .b8 a s.pv s = .ok (ln.data.getD (lineOffset a.toNat) 0) t := by
  obtain ⟨hg, _, ht, hpriv⟩ := h
  have hp : (ln.rpriv && !s.pv) = false := privilege_passes (hin.ok.rpriv ▸ hpriv)
  have hoff : lineOffset a.toNat < ln.data.length := by rw [hin.ok.length]; exact lineOffset_lt a.toNat
  have hbyte : (ln.data.drop (lineOffset a.toNat)).take 1 = [ln.data.getD (lineOffset a.toNat) 0] := by
    rw [List.drop_eq_getElem_cons hoff, List.take_succ_cons, List.take_zero, List.getD_eq_getElem _ _ hoff]
  have hread : memReadP a.toNat 1 s.pv s = .ok [ln.data.getD (lineOffset a.toNat) 0] t := by
    simp only [memReadP, accessRead, hg, splits_one, ht, hrun, hp, Res.bind_ok, hbyte, Bool.false_eq_true, if_false,
      if_true]
  simp only [memRead, Width.bytes, hread, Res.map_ok, leNat, Width.bits, Nat.mul_zero, Nat.add_zero,
    BitVec.ofNat_toNat, BitVec.setWidth_eq]

theorem memWrite_cached_device {s t : State} {a : Word} {g : Segment} {ln : CacheLine}
    (h : CachedDevice true s g a.toNat) (hrun : ensureLine a.toNat s = .ok ln t)
    (hin : DeviceLineIn s g a.toNat ln t) (v : Byte) :
    memWrite .b8 a v s.pv s = .ok () (setLine (lineIndex s.plat a.toNat)
      { ln with dirty := true, data := overwrite ln.data (lineOffset a.toNat) [v] } t) := by
  obtain ⟨hg, _, ht, hpriv⟩ := h
  have hp : (ln.wpriv && !s.pv) = false := privilege_passes (hin.ok.wpriv ▸ hpriv)
  have hbytes : leBytes 1 v.toNat = [v] := by simp [leBytes]
  simp only [memWrite, memWriteP, accessWrite, Width.bytes, hbytes, List.length_singleton, hg, splits_one, ht, hrun, hp,
    Res.bind_ok, Bool.false_eq_true, if_false, if_true]

/-- The byte a store leaves in the line is the one seen. -/
theorem view_after_store {s t : State} {a : Nat} {g : Segment} {ln : CacheLine} (h : CachedDevice true s g a)
    (hin : DeviceLineIn s g a ln t) (v : Byte) :
    view (setLine (lineIndex s.plat a)
      { ln with dirty := true, data := overwrite ln.data (lineOffset a) [v] } t) a = some v := by
  have hoff := lineOffset_lt a
  obtain ⟨hg, _, ht, _⟩ := h
  have hplat := hin.kept.plat
  have hline : lineGet (linePut t.cache (lineIndex s.plat a)
      { ln with dirty := true, data := overwrite ln.data (lineOffset a) [v] }) (lineIndex s.plat a) =
      some { ln with dirty := true, data := overwrite ln.data (lineOffset a) [v] } := by
    rw [lineGet_linePut, if_pos rfl]
  have hbyte : (overwrite ln.data (lineOffset a) [v]).getD (lineOffset a) 0 = v := by
    rw [overwrite_getD (by rw [hin.ok.length, List.length_singleton]; omega), if_pos (by simp), Nat.sub_self]
    rfl
  rw [← hplat] at hg ht
  rw [view_of_line (s := setLine _ _ t) hg ht (by rw [setLine_plat, hplat]; exact hline)
    (by rw [setLine_plat, hplat]; exact hin.tag), hbyte]

/-! ### The statement -/

section
variable {m : MemOp} {s : State} {x : Fin 8} {g : Segment} {a : Word}
  (hi : StateInv s)
include hi

/-- A byte load of MOV from a device behind the cache. -/
theorem mov_load_cached_device (ha : a = effectiveAddr m (nextOf (.mov (.w8 (.rm x m))) s) s)
    (h : CachedDevice false s g a.toNat) :
    ∃ ln u, exec (.mov (.w8 (.rm x m))) s = .next (setReg8 x (ln.data.getD (lineOffset a.toNat) 0)
        { u with ip := nextOf (.mov (.w8 (.rm x m))) s }) ∧
      DeviceLineIn s g a.toNat ln u := by
  subst ha
  obtain ⟨ln, u, hrun, hin⟩ := ensureLine_device hi h
  have hread : readLoc (rim2Src (.rm x m : Rim2 .b8 .b8) (nextOf (.mov (.w8 (.rm x m))) s) s) s =
      .ok (ln.data.getD (lineOffset (effectiveAddr m (nextOf (.mov (.w8 (.rm x m))) s) s).toNat) 0) u :=
    memRead_cached_device h hrun hin
  have hexec : exec (.mov (.w8 (.rm x m))) s = complete s
      ((readLoc (rim2Src (.rm x m : Rim2 .b8 .b8) (nextOf (.mov (.w8 (.rm x m))) s) s) s).bind fun b s1 =>
        .ok () (setReg8 x b { s1 with ip := nextOf (.mov (.w8 (.rm x m))) s })) := rfl
  rw [hexec, hread]
  exact ⟨ln, u, rfl, hin⟩

/-- A byte store of MOV to a device behind the cache. -/
theorem mov_store_cached_device (ha : a = effectiveAddr m (nextOf (.mov (.w8 (.mr m x))) s) s)
    (h : CachedDevice true s g a.toNat) :
    ∃ ln u, exec (.mov (.w8 (.mr m x))) s = .next (setLine (lineIndex s.plat a.toNat)
        { ln with dirty := true, data := overwrite ln.data (lineOffset a.toNat) [reg8 x s] } u) ∧
      DeviceLineIn { s with ip := nextOf (.mov (.w8 (.mr m x))) s } g a.toNat ln u := by
  subst ha
  obtain ⟨ln, u, hrun, hin⟩ := ensureLine_device (hi.with_ip (nextOf (.mov (.w8 (.mr m x))) s)) h
  have hwrite := memWrite_cached_device (s := { s with ip := nextOf (.mov (.w8 (.mr m x))) s }) h hrun hin (reg8 x s)
  have hexec : exec (.mov (.w8 (.mr m x))) s = complete s
      ((memWrite .b8 (effectiveAddr m (nextOf (.mov (.w8 (.mr m x))) s) s) (reg8 x s) s.pv
        { s with ip := nextOf (.mov (.w8 (.mr m x))) s }).bind fun _ t => .ok () t) := rfl
  rw [hexec, hwrite]
  exact ⟨ln, u, rfl, hin⟩

end

/-- Zero extension as MOVZ's value in numbers (spec/41_move.md R224). -/
theorem some_setWidth_eq_some_ofNat {w w2 : Nat} (v : BitVec w) :
    some (v.setWidth w2) = some (BitVec.ofNat w2 v.toNat) :=
  congrArg some (BitVec.ofNat_toNat w2 v).symm

/-- Where there is nothing to write, a form with a register source moves IP alone. -/
theorem rim2Write_unwritten {wd ws : Width} {s : State} {extra : Nat} {m : MemOp} {x : Fin ws.regs}
    {op : BitVec ws.bits → Option (BitVec wd.bits)} (h : op (readReg ws x s) = none) :
    rim2Write extra (.mr m x : Rim2 wd ws) op s = .next { s with ip := nextIp s (2 + extra + m.tail) } := by
  simp only [rim2Write, rim2Src, readLoc, Rim2.tail, Res.bind_ok, h, commit]
  rfl

theorem pfImage_eq (s : State) :
    pfImage s = BitVec.ofNat 16 (4 * s.ii.toNat + 2 * s.pv.toNat + s.ie.toNat) := by
  unfold pfImage
  cases s.ii <;> cases s.pv <;> cases s.ie <;> rfl

/-- Settles O41: each form of MOV, POP and ADD through its shape; behind the cache through the line of the address. -/
theorem deviceAccess : Obligations.DeviceAccess := by
  refine ⟨⟨?_, ?_, ?_⟩,
    fun m s x y => ⟨?_, ?_, ?_, ?_, ?_, ?_, ?_, fun cc _ => ?_, fun hp => ?_, ?_, ?_, ?_, ?_, ?_, ?_⟩, ?_, ?_⟩
  -- loads
  · exact rim2Write_deviceLoads (w := .b8) (fun _ _ _ => rfl) fun _ _ _ => rfl
  · exact rim2Write_deviceLoads (w := .b16) (fun _ _ _ => rfl) fun _ _ _ => rfl
  · exact rim2Write_deviceLoads (w := .b32) (fun _ _ _ => rfl) fun _ _ _ => rfl
  -- stores of MOV and MOVW
  · exact rim2Write_deviceStores (wd := .b8) (ws := .b8) (extra := 0) rfl rfl rfl
  · exact rim2Write_deviceStores (wd := .b16) (ws := .b16) (extra := 0) rfl rfl rfl
  · exact rim2Write_deviceStores (wd := .b32) (ws := .b32) (extra := 0) rfl rfl rfl
  -- stores of MOVS and MOVZ
  · exact rim2Write_deviceStores (wd := .b16) (ws := .b8) (extra := 0) rfl rfl rfl
  · exact rim2Write_deviceStores (wd := .b32) (ws := .b16) (extra := 0) rfl rfl rfl
  · exact rim2Write_deviceStores (wd := .b16) (ws := .b8) (extra := 0) rfl rfl (some_setWidth_eq_some_ofNat _)
  · exact rim2Write_deviceStores (wd := .b32) (ws := .b16) (extra := 0) rfl rfl (some_setWidth_eq_some_ofNat _)
  -- CMOV
  · refine ⟨fun hc => ?_, fun hc => ?_⟩
    · have hv := (cond_iff cc s.f).2 hc
      exact ⟨rim2Write_deviceStores (wd := .b8) (ws := .b8) (extra := 1) rfl rfl (if_pos hv),
        rim2Write_deviceStores (wd := .b16) (ws := .b16) (extra := 1) rfl rfl (if_pos hv)⟩
    · have hv : ¬ cond cc s.f = true := mt (cond_iff cc s.f).1 hc
      exact ⟨⟨_, rim2Write_unwritten (wd := .b8) (ws := .b8) (extra := 1) (if_neg hv), rfl⟩,
        _, rim2Write_unwritten (wd := .b16) (ws := .b16) (extra := 1) (if_neg hv), rfl⟩
  -- stores of ISP and PF
  · exact ⟨rimDstThen_deviceStores (w := .b32) (value := State.isp) hp rfl rfl rfl,
      rimDstThen_deviceStores (w := .b16) (value := pfImage) hp rfl rfl (pfImage_eq _)⟩
  -- pops
  · exact rimDstThen_devicePops (w := .b8) rfl rfl
  · exact rimDstThen_devicePops (w := .b16) rfl rfl
  · exact rimDstThen_devicePops (w := .b32) rfl rfl
  -- ADD and ADDW
  · exact rim2Read_deviceUpdates (w := .b8) rfl rfl
  · exact rim2Read_deviceUpdates (w := .b16) rfl rfl
  · exact rim2Read_deviceUpdates (w := .b32) rfl rfl
  -- behind the cache
  · rintro m s x g a hi rfl h
    obtain ⟨ln, u, hexec, hin⟩ := mov_load_cached_device hi rfl h
    refine ⟨fun b hb => ?_, fun hnone => ?_⟩
    · obtain ⟨rfl, rfl⟩ := hin.hit b hb
      exact ⟨_, hexec, reg8_setReg8 _ _ _, by simp, by simp, by simp⟩
    · refine ⟨_, ln.data, hexec, hin.ok.length, reg8_setReg8 _ _ _, ?_, ?_⟩
      · rw [view_congr (s := u) (by simp) (by simp) (by simp)]
        exact hin.seen h
      · simpa using hin.miss hnone
  · rintro m s x g a hi rfl h
    obtain ⟨ln, u, hexec, hin⟩ := mov_store_cached_device hi rfl h
    refine ⟨_, hexec, view_after_store (s := { s with ip := nextOf (.mov (.w8 (.mr m x))) s }) h hin _,
      fun hsome => ?_, fun hnone => ?_⟩
    · obtain ⟨b, hb⟩ := Option.ne_none_iff_exists'.1 hsome
      obtain ⟨rfl, _⟩ := hin.hit b hb
      exact ⟨rfl, rfl⟩
    · exact ⟨ln.data, hin.ok.length, hin.miss hnone⟩

end Sys2Proof.Machine

/-! The encoding of operand forms (spec/30_encoding.md R123 to R146): a decode routine answers an operand exactly where
the window holds the operand's encoding. Each statement is an `↔`, so one proof serves both directions of the round
trip. -/

namespace Sys2Proof

/-! ### Bytes a window holds -/

/-- The window holds `bs` from byte `k` on. -/
def Window.Holds (w : Window) : Nat → List Byte → Prop
  | _, [] => True
  | k, b :: bs => w.byte k = b ∧ w.Holds (k + 1) bs

@[simp] theorem Window.holds_nil (w : Window) (k : Nat) : w.Holds k [] ↔ True := Iff.rfl

@[simp] theorem Window.holds_cons (w : Window) (k : Nat) (b : Byte) (bs : List Byte) :
    w.Holds k (b :: bs) ↔ w.byte k = b ∧ w.Holds (k + 1) bs := Iff.rfl

theorem Window.holds_append (w : Window) (as bs : List Byte) (k : Nat) :
    w.Holds k (as ++ bs) ↔ w.Holds k as ∧ w.Holds (k + as.length) bs := by
  induction as generalizing k with
  | nil => simp
  | cons a as ih => simp [ih, and_assoc, Nat.add_assoc, Nat.add_comm 1]

theorem Window.holds_iff_byte (w : Window) (bs : List Byte) (k : Nat) :
    w.Holds k bs ↔ ∀ j < bs.length, w.byte (k + j) = bs.getD j 0 := by
  induction bs generalizing k with
  | nil => simp
  | cons b bs ih =>
    rw [holds_cons, ih, List.length_cons, Nat.forall_lt_succ_left']
    simp only [Nat.add_zero, Nat.add_assoc, Nat.add_comm 1, List.getD_cons_zero, List.getD_cons_succ]

theorem Window.ofList_holds {bs : List Byte} (rest : List Byte) (h : bs.length ≤ 8) :
    (Window.ofList (bs ++ rest)).Holds 0 bs := by
  rw [holds_iff_byte]
  intro j hj
  rw [Nat.zero_add, Machine.Window.byte_ofList _ (by omega), List.getD_append _ _ _ _ hj]

theorem Window.Holds.eq_take {w : Window} {bs : List Byte} (hw : w.Holds 0 bs) (h : bs.length ≤ 8) :
    bs = w.toList.take bs.length := by
  rw [holds_iff_byte] at hw
  refine List.ext_getElem (by simp [Machine.Window.toList_length, h]) fun j hj hj' => ?_
  have hb := hw j hj
  rw [Nat.zero_add, ← Machine.Window.toList_getD w (by omega)] at hb
  rw [List.getElem_take, ← List.getD_eq_getElem bs 0 hj, ← hb, List.getD_eq_getElem]

/-! ### Answers of a decode routine -/

@[simp] theorem bind_eq_ok_iff {ε α β : Type} {x : Except ε α} {f : α → Except ε β} {b : β} :
    x >>= f = .ok b ↔ ∃ a, x = .ok a ∧ f a = .ok b := by
  cases x <;> simp [bind, Except.bind]

theorem bind_eq_error_iff {ε α β : Type} {x : Except ε α} {f : α → Except ε β} {e : ε} :
    x >>= f = .error e ↔ x = .error e ∨ ∃ a, x = .ok a ∧ f a = .error e := by
  cases x <;> simp [bind, Except.bind]

theorem ite_ok_eq_ok_iff {ε α : Type} {p : Prop} [Decidable p] {x : Except ε α} {y a : α} :
    (if p then .ok y else x) = .ok a ↔ p ∧ y = a ∨ ¬ p ∧ x = .ok a := by
  split <;> simp [*]

/-! ### Fields of bit vectors -/

theorem eq_append_iff {m n : Nat} (v : BitVec (m + n)) (x : BitVec m) (y : BitVec n) :
    v = x ++ y ↔ v.extractLsb' n m = x ∧ v.extractLsb' 0 n = y := by
  constructor
  · rintro rfl
    exact ⟨BitVec.extractLsb'_append_eq_left, BitVec.extractLsb'_append_eq_right⟩
  · rintro ⟨rfl, rfl⟩
    exact BitVec.extractLsb'_append_extractLsb'.symm

theorem extractLsb'_one_eq_ofBool_iff {n : Nat} (v : BitVec n) (i : Nat) (b : Bool) :
    v.extractLsb' i 1 = BitVec.ofBool b ↔ v.getLsbD i = b := by
  rw [BitVec.getLsbD_eq_extractLsb']
  generalize v.extractLsb' i 1 = x
  revert x b
  decide

theorem extractLsb'_extractLsb' {n base len' start len : Nat} (v : BitVec n) (h : start + len ≤ len') :
    (v.extractLsb' base len').extractLsb' start len = v.extractLsb' (base + start) len := by
  ext i hi
  rw [BitVec.getElem_extractLsb', BitVec.getLsbD_extractLsb', BitVec.getElem_extractLsb', Nat.add_assoc]
  simp only [show start + i < len' by omega, decide_true, Bool.true_and]

/-! ### Little-endian fields (R123) -/

theorem Window.field_eq_iff (w : Window) (width : Width) (k : Nat) (v : BitVec width.bits) :
    w.field width k = v ↔ w.Holds k (leField width v) := by
  rw [eq_comm]
  cases width with
  | b8 => simp [Window.field, leField, eq_comm]
  | b16 =>
    refine (eq_append_iff (m := 8) (n := 8) v _ _).trans ?_
    simp only [leField, holds_cons, holds_nil, true_and, @eq_comm _ (w.byte _), and_comm]
  | b32 =>
    refine (eq_append_iff (m := 24) (n := 8) v _ _).trans ?_
    rw [eq_append_iff (m := 16) (n := 8), eq_append_iff (m := 8) (n := 8)]
    simp only [extractLsb'_extractLsb', Nat.reduceAdd, Nat.reduceLeDiff, leField, holds_cons, holds_nil, true_and,
      @eq_comm _ (w.byte _), and_comm, Nat.add_assoc]

/-! ### The RIM byte (R125, R128, R129) -/

@[simp] theorem eq_rimByte_iff (b : Byte) (s m : Bool) (r x : BitVec 3) :
    b = rimByte s m r x ↔ rimS b = s ∧ rimM b = m ∧ rimR b = r ∧ rimX b = x := by
  rw [rimByte, eq_append_iff (m := 5) (n := 3), eq_append_iff (m := 2) (n := 3), eq_append_iff (m := 1) (n := 1)]
  simp only [extractLsb'_extractLsb', Nat.reduceAdd, Nat.reduceLeDiff, extractLsb'_one_eq_ofBool_iff, rimS, rimM,
    rimR, rimX, and_assoc]

theorem rimX_eq_append_iff (b : Byte) (d : Bool) (sh : BitVec 2) :
    rimX b = BitVec.ofBool d ++ sh ↔ rimDir b = d ∧ rimShape b = sh := by
  rw [eq_append_iff (m := 1) (n := 2), rimX]
  simp only [extractLsb'_extractLsb', Nat.reduceAdd, Nat.reduceLeDiff, extractLsb'_one_eq_ofBool_iff, rimDir,
    rimShape]

@[simp] theorem rimX_eq_memField_iff (b : Byte) (dir : Bool) (m : MemOp) :
    rimX b = memField dir m ↔ rimDir b = dir ∧ rimShape b = m.shape := rimX_eq_append_iff b dir m.shape

@[simp] theorem rimX_eq_zero_iff (b : Byte) : rimX b = 0#3 ↔ rimDir b = false ∧ rimShape b = 0#2 :=
  rimX_eq_append_iff b false 0#2

@[simp] theorem rimShape_toNat_eq_zero_iff (b : Byte) : (rimShape b).toNat = 0 ↔ rimShape b = 0#2 :=
  BitVec.toNat_inj (y := 0#2)

@[simp] theorem rimR_toNat_eq_zero_iff (b : Byte) : (rimR b).toNat = 0 ↔ rimR b = 0#3 :=
  BitVec.toNat_inj (y := 0#3)

@[simp] theorem decodeReg_eq_ok_iff (w : Width) (f : BitVec 3) (r : Fin w.regs) :
    decodeReg w f = .ok r ↔ f = encodeReg r := by
  have hr : r.val < 8 := r.isLt.trans_le (by cases w <;> decide)
  have hf : f = encodeReg r ↔ f.toNat = r.val := by
    rw [encodeReg, ← BitVec.toNat_inj, BitVec.toNat_ofNat, Nat.mod_eq_of_lt hr]
  rw [hf, decodeReg]
  split
  next => simp [Fin.ext_iff]
  next h => exact iff_of_false (by simp) fun hfr => h (hfr ▸ r.isLt)

/-! ### The BIO byte (R140 to R143) -/

theorem eq_bio_iff (b : Byte) (ss : BitVec 2) (bbb xxx : BitVec 3) :
    b = ss ++ bbb ++ xxx ↔ b.extractLsb' 6 2 = ss ∧ b.extractLsb' 3 3 = bbb ∧ b.extractLsb' 0 3 = xxx := by
  rw [eq_append_iff (m := 5) (n := 3), eq_append_iff (m := 2) (n := 3)]
  simp only [extractLsb'_extractLsb', Nat.reduceAdd, Nat.reduceLeDiff, and_assoc]

theorem decodeBase_eq_iff (b : BitVec 3) (base : Base) : decodeBase b = base ↔ b = encodeBase base := by
  revert b
  cases base <;> decide

theorem decodeScale_eq_some_iff (ss : BitVec 2) (sc : Scale) : decodeScale ss = some sc ↔ ss = encodeScale sc := by
  revert ss
  cases sc <;> decide

theorem decodeScale_eq_none_iff (ss : BitVec 2) : decodeScale ss = none ↔ ss = 0 := by
  revert ss
  decide

/-- The scale of a BIO byte (R142). -/
def bioScale (bio : Byte) : Option Scale := decodeScale (bio.extractLsb' 6 2)

/-- The base of a BIO byte (R140). -/
def bioBase (bio : Byte) : Base := decodeBase (bio.extractLsb' 3 3)

/-- The last field of a BIO byte: the index, or the code of the offset's width (R142, R143). -/
def bioLow (bio : Byte) : BitVec 3 := bio.extractLsb' 0 3

theorem eq_bioIndexed_iff (bio : Byte) (b : Base) (ix : Index) :
    bio = bioIndexed b ix ↔ bioScale bio = some ix.scale ∧ bioBase bio = b ∧ (bioLow bio).toFin = ix.reg := by
  have hreg : (bioLow bio).toFin = ix.reg ↔ bioLow bio = encodeReg ix.reg := by
    rw [encodeReg, ← BitVec.toFin_inj, BitVec.toFin_ofNat, Fin.ofNat_val_eq_self]
  rw [hreg, bioIndexed, eq_bio_iff, bioScale, bioBase, bioLow, decodeScale_eq_some_iff, decodeBase_eq_iff]

theorem eq_bioCoded_iff (bio : Byte) (b : Base) (code : BitVec 3) :
    bio = bioCoded b code ↔ bioScale bio = none ∧ bioBase bio = b ∧ bioLow bio = code := by
  rw [bioCoded, eq_bio_iff, bioScale, bioBase, bioLow, decodeScale_eq_none_iff, decodeBase_eq_iff]
  rfl

/-! ### Memory operands (R131, R132, R143) -/

theorem decodeMem_one (w : Window) : decodeMem w 1 = .ok (.abs (w.field .b32 2)) := rfl

theorem decodeMem_two_of_scale {w : Window} {sc : Scale} (h : bioScale (w.byte 2) = some sc) :
    decodeMem w 2 = .ok (.indexed (bioBase (w.byte 2)) ⟨(bioLow (w.byte 2)).toFin, sc⟩) := by
  rw [bioScale] at h
  simp only [decodeMem, h]
  rfl

theorem decodeMem_two_of_code {w : Window} (h : bioScale (w.byte 2) = none) :
    decodeMem w 2 = if bioLow (w.byte 2) = 0 then .ok (.plain (bioBase (w.byte 2))) else .error .bioCode := by
  rw [bioScale] at h
  simp only [decodeMem, h, ← BitVec.toNat_inj]
  rfl

theorem decodeMem_three_of_scale {w : Window} {sc : Scale} (h : bioScale (w.byte 2) = some sc) :
    decodeMem w 3 =
      .ok (.indexedOff (bioBase (w.byte 2)) ⟨(bioLow (w.byte 2)).toFin, sc⟩ (w.field .b32 3)) := by
  rw [bioScale] at h
  simp only [decodeMem, h]
  rfl

theorem decodeMem_three_of_code {w : Window} (h : bioScale (w.byte 2) = none) :
    decodeMem w 3 =
      if bioLow (w.byte 2) = 0 then .ok (.off8 (bioBase (w.byte 2)) (w.field .b8 3))
      else if bioLow (w.byte 2) = 1 then .ok (.off16 (bioBase (w.byte 2)) (w.field .b16 3))
      else if bioLow (w.byte 2) = 3 then .ok (.off32 (bioBase (w.byte 2)) (w.field .b32 3))
      else .error .bioCode := by
  rw [bioScale] at h
  simp only [decodeMem, h, ← BitVec.toNat_inj]
  rfl

theorem index_eq_iff (r : Fin 8) (sc : Scale) (ix : Index) : ⟨r, sc⟩ = ix ↔ sc = ix.scale ∧ r = ix.reg := by
  cases ix
  simp [and_comm]

theorem memShape_ne_zero (m : MemOp) : 0#2 ≠ m.shape := by
  cases m <;> simp [MemOp.shape]

/-- A memory operand is answered exactly where its shape is asked for and its bytes follow the RIM byte. -/
theorem decodeMem_eq_ok_iff (w : Window) {sh : BitVec 2} (hsh : sh ≠ 0#2) (m : MemOp) :
    decodeMem w sh = .ok m ↔ sh = m.shape ∧ w.Holds 2 (encodeMem m) := by
  obtain rfl | rfl | rfl : sh = 1 ∨ sh = 2 ∨ sh = 3 := by revert sh; decide
  · rw [decodeMem_one]
    cases m <;> simp [MemOp.shape, encodeMem, w.field_eq_iff .b32]
  · cases h : bioScale (w.byte 2) with
    | some sc =>
      rw [decodeMem_two_of_scale h]
      cases m <;> simp [MemOp.shape, encodeMem, eq_bioIndexed_iff, eq_bioCoded_iff, h, index_eq_iff, and_left_comm]
    | none =>
      rw [decodeMem_two_of_code h]
      cases m <;> simp [MemOp.shape, encodeMem, eq_bioIndexed_iff, eq_bioCoded_iff, h, ite_ok_eq_ok_iff, and_comm]
  · cases h : bioScale (w.byte 2) with
    | some sc =>
      rw [decodeMem_three_of_scale h]
      cases m <;> simp [MemOp.shape, encodeMem, eq_bioIndexed_iff, eq_bioCoded_iff, h, index_eq_iff,
        w.field_eq_iff .b32, and_left_comm, and_assoc]
    | none =>
      rw [decodeMem_three_of_code h]
      cases m with simp [MemOp.shape, encodeMem, eq_bioIndexed_iff, eq_bioCoded_iff, h, ite_ok_eq_ok_iff,
        w.field_eq_iff .b8, w.field_eq_iff .b16, w.field_eq_iff .b32]
      | off8 | off16 | off32 => grind

/-! ### What the RIM forms refuse (R129, R134, R135) -/

theorem decodeRim2_immediateDestination {w : Window} (wd ws : Width) (hm : rimM (w.byte 1) = true)
    (hd : rimDir (w.byte 1) = true) (hs : rimShape (w.byte 1) = 0#2) :
    decodeRim2 w wd ws = .error .immediateDestination := by
  simp [decodeRim2, hm, hd, hs]

theorem decodeRimSrc_registerField {w : Window} (ws : Width) (hr : rimR (w.byte 1) ≠ 0#3) :
    decodeRimSrc w ws = .error .registerFieldNonzero := by
  simp [decodeRimSrc, hr]

theorem decodeRimDst_registerField {w : Window} (wd : Width) (hr : rimR (w.byte 1) ≠ 0#3) :
    decodeRimDst w wd = .error .registerFieldNonzero := by
  simp [decodeRimDst, hr]

theorem decodeRimSrc_direction {w : Window} (ws : Width) (hr : rimR (w.byte 1) = 0#3) (hm : rimM (w.byte 1) = true)
    (hd : rimDir (w.byte 1) = true) : decodeRimSrc w ws = .error .oneSidedShape := by
  simp [decodeRimSrc, hr, hm, hd]

theorem decodeRimDst_shape {w : Window} (wd : Width) (hr : rimR (w.byte 1) = 0#3) (hm : rimM (w.byte 1) = true)
    (h : rimDir (w.byte 1) = false ∨ rimShape (w.byte 1) = 0#2) : decodeRimDst w wd = .error .oneSidedShape := by
  simp [decodeRimDst, hr, hm, h]

/-! ### What the RIM forms answer (R129, R134, R135) -/

theorem encodeRim2_holds_iff (w : Window) {wd ws : Width} (s : Bool) (o : Rim2 wd ws) :
    w.Holds 1 (encodeRim2 s o) ↔ rimS (w.byte 1) = s ∧ decodeRim2 w wd ws = .ok o := by
  cases hm : rimM (w.byte 1) with
  | false => cases o <;> simp [decodeRim2, encodeRim2, hm]
  | true =>
    by_cases hs : rimShape (w.byte 1) = 0#2
    · cases hd : rimDir (w.byte 1) with
      | true =>
        rw [decodeRim2_immediateDestination wd ws hm hd hs]
        cases o <;> simp [encodeRim2, hm, hd, hs, memShape_ne_zero]
      | false => cases o <;> simp [decodeRim2, encodeRim2, hm, hd, hs, memShape_ne_zero, Window.field_eq_iff, and_assoc]
    · cases hd : rimDir (w.byte 1) with
      | true | false => cases o <;> simp [decodeRim2, encodeRim2, hm, hd, hs, decodeMem_eq_ok_iff w hs, and_assoc]

theorem encodeRimSrc_holds_iff (w : Window) {ws : Width} (s : Bool) (o : RimSrc ws) :
    w.Holds 1 (encodeRimSrc s o) ↔ rimS (w.byte 1) = s ∧ decodeRimSrc w ws = .ok o := by
  by_cases hr : rimR (w.byte 1) = 0#3
  case neg =>
    rw [decodeRimSrc_registerField ws hr]
    cases o <;> simp [encodeRimSrc, hr]
  cases hm : rimM (w.byte 1) with
  | false => cases o <;> simp [decodeRimSrc, encodeRimSrc, hr, hm]
  | true =>
    cases hd : rimDir (w.byte 1) with
    | true =>
      rw [decodeRimSrc_direction ws hr hm hd]
      cases o <;> simp [encodeRimSrc, hm, hd]
    | false =>
      by_cases hs : rimShape (w.byte 1) = 0#2
      · cases o <;> simp [decodeRimSrc, encodeRimSrc, hr, hm, hd, hs, memShape_ne_zero, Window.field_eq_iff]
      · cases o <;> simp [decodeRimSrc, encodeRimSrc, hr, hm, hd, hs, decodeMem_eq_ok_iff w hs, and_assoc]

theorem encodeRimDst_holds_iff (w : Window) {wd : Width} (s : Bool) (o : RimDst wd) :
    w.Holds 1 (encodeRimDst s o) ↔ rimS (w.byte 1) = s ∧ decodeRimDst w wd = .ok o := by
  by_cases hr : rimR (w.byte 1) = 0#3
  case neg =>
    rw [decodeRimDst_registerField wd hr]
    cases o <;> simp [encodeRimDst, hr]
  cases hm : rimM (w.byte 1) with
  | false => cases o <;> simp [decodeRimDst, encodeRimDst, hr, hm]
  | true =>
    by_cases h : rimDir (w.byte 1) = false ∨ rimShape (w.byte 1) = 0#2
    · rw [decodeRimDst_shape wd hr hm h]
      obtain hd | hs := h
      · cases o <;> simp [encodeRimDst, hm, hd]
      · cases o <;> simp [encodeRimDst, hm, hs, memShape_ne_zero]
    · obtain ⟨hd, hs⟩ := not_or.1 h
      rw [Bool.not_eq_false] at hd
      cases o <;> simp [decodeRimDst, encodeRimDst, hr, hm, hd, hs, decodeMem_eq_ok_iff w hs, and_assoc]

/-! ### Width kinds (R127) -/

@[simp] theorem decodeRim2Sz_eq_ok_iff (w : Window) (o : Rim2Sz) :
    decodeRim2Sz w = .ok o ↔ w.Holds 1 (encodeRim2Sz o) := by
  unfold decodeRim2Sz
  cases o <;> cases hs : rimS (w.byte 1) <;> simp [encodeRim2Sz, encodeRim2_holds_iff, hs]

@[simp] theorem decodeRim2Prom_eq_ok_iff (w : Window) (o : Rim2Prom) :
    decodeRim2Prom w = .ok o ↔ w.Holds 1 (encodeRim2Prom o) := by
  unfold decodeRim2Prom
  cases o <;> cases hs : rimS (w.byte 1) <;> simp [encodeRim2Prom, encodeRim2_holds_iff, hs]

@[simp] theorem decodeRimSrcSz_eq_ok_iff (w : Window) (o : RimSrcSz) :
    decodeRimSrcSz w = .ok o ↔ w.Holds 1 (encodeRimSrcSz o) := by
  unfold decodeRimSrcSz
  cases o <;> cases hs : rimS (w.byte 1) <;> simp [encodeRimSrcSz, encodeRimSrc_holds_iff, hs]

@[simp] theorem decodeRimDstSz_eq_ok_iff (w : Window) (o : RimDstSz) :
    decodeRimDstSz w = .ok o ↔ w.Holds 1 (encodeRimDstSz o) := by
  unfold decodeRimDstSz
  cases o <;> cases hs : rimS (w.byte 1) <;> simp [encodeRimDstSz, encodeRimDst_holds_iff, hs]

theorem decodeLane_eq_iff (w : Window) (l : Lane) : decodeLane w = l ↔ rimS (w.byte 1) = l.sizeBit := by
  unfold decodeLane
  cases rimS (w.byte 1) <;> cases l <;> simp [Lane.sizeBit]

@[simp] theorem needSizeClear_eq_ok_iff {α : Type} (w : Window) (x : Except DecodeReject α) (a : α) :
    needSizeClear w x = .ok a ↔ rimS (w.byte 1) = false ∧ x = .ok a := by
  unfold needSizeClear
  cases rimS (w.byte 1) <;> simp

/-! ### Condition bytes (R157) -/

theorem condAccepted_eq_wellFormed : ∀ cc : BitVec 8, condAccepted cc = condWellFormed cc := by decide

theorem laneCondAccepted_eq_wellFormed : ∀ cc : BitVec 8, laneCondAccepted cc = laneCondWellFormed cc := by decide

@[simp] theorem needCond_eq_ok_iff (ok : Bool) (i j : Instr) : needCond ok i = .ok j ↔ ok = true ∧ i = j := by
  cases ok <;> simp [needCond]

end Sys2Proof

/-! The round trip of the encoding (spec/30_encoding.md R120, R122, R126, R160, R162, R163): `decode` answers an
instruction exactly where the instruction is well formed and the window begins with its encoding. -/

namespace Sys2Proof

/-! ### The decoding families (R152, R155 to R158) -/

/-- What a row's decoding family makes: the instruction, and its bytes after the opcode byte (R152, R155 to R158). -/
inductive Entry.Makes : Entry → Instr → List Byte → Prop
  | none (i : Instr) : Makes (.none i) i []
  | i8 (k : BitVec 8 → Instr) (v : BitVec 8) : Makes (.i8 k) (k v) (leField .b8 v)
  | i16 (k : BitVec 16 → Instr) (v : BitVec 16) : Makes (.i16 k) (k v) (leField .b16 v)
  | i32 (k : BitVec 32 → Instr) (v : BitVec 32) : Makes (.i32 k) (k v) (leField .b32 v)
  | ccI8 (k : BitVec 8 → BitVec 8 → Instr) (cc v : BitVec 8) (h : condWellFormed cc = true) :
    Makes (.ccI8 k) (k cc v) (cc :: leField .b8 v)
  | ccI16 (k : BitVec 8 → BitVec 16 → Instr) (cc : BitVec 8) (v : BitVec 16) (h : condWellFormed cc = true) :
    Makes (.ccI16 k) (k cc v) (cc :: leField .b16 v)
  | rim2Sz (k : Rim2Sz → Instr) (o : Rim2Sz) : Makes (.rim2Sz k) (k o) (encodeRim2Sz o)
  | rim2SzCc (k : Rim2Sz → BitVec 8 → Instr) (o : Rim2Sz) (cc : BitVec 8) (h : condWellFormed cc = true) :
    Makes (.rim2SzCc k) (k o cc) (encodeRim2Sz o ++ [cc])
  | rim2W32 (k : Rim2 .b32 .b32 → Instr) (o : Rim2 .b32 .b32) : Makes (.rim2W32 k) (k o) (encodeRim2 false o)
  | rim2Prom (k : Rim2Prom → Instr) (o : Rim2Prom) : Makes (.rim2Prom k) (k o) (encodeRim2Prom o)
  | rim2Pk (k : Lane → Rim2 .b16 .b16 → Instr) (l : Lane) (o : Rim2 .b16 .b16) :
    Makes (.rim2Pk k) (k l o) (encodeRim2 l.sizeBit o)
  | rim2PkCc (k : Lane → Rim2 .b16 .b16 → BitVec 8 → Instr) (l : Lane) (o : Rim2 .b16 .b16) (cc : BitVec 8)
      (h : laneCondWellFormed cc = true) :
    Makes (.rim2PkCc k) (k l o cc) (encodeRim2 l.sizeBit o ++ [cc])
  | rim2PkProm (k : Lane → Rim2 .b32 .b16 → Instr) (l : Lane) (o : Rim2 .b32 .b16) :
    Makes (.rim2PkProm k) (k l o) (encodeRim2 l.sizeBit o)
  | srcSz (k : RimSrcSz → Instr) (o : RimSrcSz) : Makes (.srcSz k) (k o) (encodeRimSrcSz o)
  | srcW32 (k : RimSrc .b32 → Instr) (o : RimSrc .b32) : Makes (.srcW32 k) (k o) (encodeRimSrc false o)
  | srcW16 (k : RimSrc .b16 → Instr) (o : RimSrc .b16) : Makes (.srcW16 k) (k o) (encodeRimSrc false o)
  | dstSz (k : RimDstSz → Instr) (o : RimDstSz) : Makes (.dstSz k) (k o) (encodeRimDstSz o)
  | dstSzImm (k : RimDstSz → BitVec 8 → Instr) (o : RimDstSz) (v : BitVec 8) :
    Makes (.dstSzImm k) (k o v) (encodeRimDstSz o ++ [v])
  | dstW32 (k : RimDst .b32 → Instr) (o : RimDst .b32) : Makes (.dstW32 k) (k o) (encodeRimDst false o)
  | dstW16 (k : RimDst .b16 → Instr) (o : RimDst .b16) : Makes (.dstW16 k) (k o) (encodeRimDst false o)

/-- A byte after an operand form (EI8, R136, R156). -/
theorem holds_ei8_iff (w : Window) {form : List Byte} {n : Nat} (h : form.length = 1 + n) (b : Byte) :
    w.Holds 1 (form ++ [b]) ↔ w.Holds 1 form ∧ w.byte (2 + n) = b := by
  rw [Window.holds_append, h, ← Nat.add_assoc]
  simp

/-- A row's routine answers only what the row makes of bytes the window holds. -/
theorem decodeEntry_makes {w : Window} {e : Entry} {i : Instr} (h : decodeEntry w e = .ok i) :
    ∃ bs, e.Makes i bs ∧ w.Holds 1 bs := by
  cases e with simp only [decodeEntry, bind_eq_ok_iff, needSizeClear_eq_ok_iff, needCond_eq_ok_iff, Except.ok.injEq,
    condAccepted_eq_wellFormed, laneCondAccepted_eq_wellFormed, decodeRim2Sz_eq_ok_iff, decodeRim2Prom_eq_ok_iff,
    decodeRimSrcSz_eq_ok_iff, decodeRimDstSz_eq_ok_iff] at h
  | none j => exact h ▸ ⟨_, .none j, trivial⟩
  | i8 k => exact h ▸ ⟨_, .i8 k _, (w.field_eq_iff .b8 1 _).1 rfl⟩
  | i16 k => exact h ▸ ⟨_, .i16 k _, (w.field_eq_iff .b16 1 _).1 rfl⟩
  | i32 k => exact h ▸ ⟨_, .i32 k _, (w.field_eq_iff .b32 1 _).1 rfl⟩
  | ccI8 k =>
    obtain ⟨hc, rfl⟩ := h
    exact ⟨_, .ccI8 k _ _ hc, rfl, (w.field_eq_iff .b8 2 _).1 rfl⟩
  | ccI16 k =>
    obtain ⟨hc, rfl⟩ := h
    exact ⟨_, .ccI16 k _ _ hc, rfl, (w.field_eq_iff .b16 2 _).1 rfl⟩
  | rim2Sz k =>
    obtain ⟨o, ho, rfl⟩ := h
    exact ⟨_, .rim2Sz k o, ho⟩
  | rim2SzCc k =>
    obtain ⟨o, ho, hc, rfl⟩ := h
    exact ⟨_, .rim2SzCc k o _ hc,
      (holds_ei8_iff w (Laws.encodeRim2Sz_length o) _).2 ⟨ho, rfl⟩⟩
  | rim2W32 k =>
    obtain ⟨hs, o, ho, rfl⟩ := h
    exact ⟨_, .rim2W32 k o, (encodeRim2_holds_iff w _ o).2 ⟨hs, ho⟩⟩
  | rim2Prom k =>
    obtain ⟨o, ho, rfl⟩ := h
    exact ⟨_, .rim2Prom k o, ho⟩
  | rim2Pk k =>
    obtain ⟨o, ho, rfl⟩ := h
    exact ⟨_, .rim2Pk k _ o, (encodeRim2_holds_iff w _ o).2 ⟨(decodeLane_eq_iff w _).1 rfl, ho⟩⟩
  | rim2PkCc k =>
    obtain ⟨o, ho, hc, rfl⟩ := h
    exact ⟨_, .rim2PkCc k _ o _ hc, (holds_ei8_iff w (Laws.encodeRim2_length _ o) _).2
      ⟨(encodeRim2_holds_iff w _ o).2 ⟨(decodeLane_eq_iff w _).1 rfl, ho⟩, rfl⟩⟩
  | rim2PkProm k =>
    obtain ⟨o, ho, rfl⟩ := h
    exact ⟨_, .rim2PkProm k _ o, (encodeRim2_holds_iff w _ o).2 ⟨(decodeLane_eq_iff w _).1 rfl, ho⟩⟩
  | srcSz k =>
    obtain ⟨o, ho, rfl⟩ := h
    exact ⟨_, .srcSz k o, ho⟩
  | srcW32 k =>
    obtain ⟨hs, o, ho, rfl⟩ := h
    exact ⟨_, .srcW32 k o, (encodeRimSrc_holds_iff w _ o).2 ⟨hs, ho⟩⟩
  | srcW16 k =>
    obtain ⟨hs, o, ho, rfl⟩ := h
    exact ⟨_, .srcW16 k o, (encodeRimSrc_holds_iff w _ o).2 ⟨hs, ho⟩⟩
  | dstSz k =>
    obtain ⟨o, ho, rfl⟩ := h
    exact ⟨_, .dstSz k o, ho⟩
  | dstSzImm k =>
    obtain ⟨o, ho, rfl⟩ := h
    exact ⟨_, .dstSzImm k o _,
      (holds_ei8_iff w (Laws.encodeRimDstSz_length o) _).2 ⟨ho, rfl⟩⟩
  | dstW32 k =>
    obtain ⟨hs, o, ho, rfl⟩ := h
    exact ⟨_, .dstW32 k o, (encodeRimDst_holds_iff w _ o).2 ⟨hs, ho⟩⟩
  | dstW16 k =>
    obtain ⟨hs, o, ho, rfl⟩ := h
    exact ⟨_, .dstW16 k o, (encodeRimDst_holds_iff w _ o).2 ⟨hs, ho⟩⟩

/-- What a row makes of bytes the window holds, the row's routine answers. -/
theorem Entry.Makes.decodeEntry {w : Window} {e : Entry} {i : Instr} {bs : List Byte} (h : e.Makes i bs)
    (hw : w.Holds 1 bs) : decodeEntry w e = .ok i := by
  cases h with simp only [Sys2Proof.decodeEntry, bind_eq_ok_iff, needSizeClear_eq_ok_iff, needCond_eq_ok_iff,
    Except.ok.injEq, condAccepted_eq_wellFormed, laneCondAccepted_eq_wellFormed, decodeRim2Sz_eq_ok_iff,
    decodeRim2Prom_eq_ok_iff, decodeRimSrcSz_eq_ok_iff, decodeRimDstSz_eq_ok_iff]
  | i8 k v => rw [(w.field_eq_iff .b8 1 v).2 hw]
  | i16 k v => rw [(w.field_eq_iff .b16 1 v).2 hw]
  | i32 k v => rw [(w.field_eq_iff .b32 1 v).2 hw]
  | ccI8 k cc v hc =>
    obtain ⟨rfl, hv⟩ := hw
    exact ⟨hc, by rw [(w.field_eq_iff .b8 2 v).2 hv]⟩
  | ccI16 k cc v hc =>
    obtain ⟨rfl, hv⟩ := hw
    exact ⟨hc, by rw [(w.field_eq_iff .b16 2 v).2 hv]⟩
  | rim2Sz k o => exact ⟨o, hw, rfl⟩
  | rim2SzCc k o cc hc =>
    obtain ⟨ho, rfl⟩ := (holds_ei8_iff w (Laws.encodeRim2Sz_length o) cc).1 hw
    exact ⟨o, ho, hc, rfl⟩
  | rim2W32 k o =>
    obtain ⟨hs, ho⟩ := (encodeRim2_holds_iff w _ o).1 hw
    exact ⟨hs, o, ho, rfl⟩
  | rim2Prom k o => exact ⟨o, hw, rfl⟩
  | rim2Pk k l o | rim2PkProm k l o =>
    obtain ⟨hs, ho⟩ := (encodeRim2_holds_iff w _ o).1 hw
    exact ⟨o, ho, by rw [(decodeLane_eq_iff w l).2 hs]⟩
  | rim2PkCc k l o cc hc =>
    obtain ⟨ho, rfl⟩ := (holds_ei8_iff w (Laws.encodeRim2_length _ o) cc).1 hw
    obtain ⟨hs, ho⟩ := (encodeRim2_holds_iff w _ o).1 ho
    exact ⟨o, ho, hc, by rw [(decodeLane_eq_iff w l).2 hs]⟩
  | srcSz k o => exact ⟨o, hw, rfl⟩
  | srcW32 k o | srcW16 k o =>
    obtain ⟨hs, ho⟩ := (encodeRimSrc_holds_iff w _ o).1 hw
    exact ⟨hs, o, ho, rfl⟩
  | dstSz k o => exact ⟨o, hw, rfl⟩
  | dstSzImm k o v =>
    obtain ⟨ho, rfl⟩ := (holds_ei8_iff w (Laws.encodeRimDstSz_length o) v).1 hw
    exact ⟨o, ho, rfl⟩
  | dstW32 k o | dstW16 k o =>
    obtain ⟨hs, ho⟩ := (encodeRimDst_holds_iff w _ o).1 hw
    exact ⟨hs, o, ho, rfl⟩

theorem memTail_le (m : MemOp) : m.tail ≤ 5 := by
  cases m <;> simp [MemOp.tail]

theorem widthBytes_le (w : Width) : w.bytes ≤ 4 := by
  cases w <;> simp [Width.bytes]

theorem encodeRim2_length_le {wd ws : Width} (s : Bool) (o : Rim2 wd ws) : (encodeRim2 s o).length ≤ 6 := by
  rw [Laws.encodeRim2_length]
  cases o with
  | rr d x => simp [Rim2.tail]
  | ri d v => have := widthBytes_le ws; simp only [Rim2.tail]; omega
  | rm d m | mr m d => have := memTail_le m; simp only [Rim2.tail]; omega

theorem encodeRimSrc_length_le {ws : Width} (s : Bool) (o : RimSrc ws) : (encodeRimSrc s o).length ≤ 6 := by
  rw [Laws.encodeRimSrc_length]
  cases o with
  | reg x => simp [RimSrc.tail]
  | imm v => have := widthBytes_le ws; simp only [RimSrc.tail]; omega
  | mem m => have := memTail_le m; simp only [RimSrc.tail]; omega

theorem encodeRimDst_length_le {wd : Width} (s : Bool) (o : RimDst wd) : (encodeRimDst s o).length ≤ 6 := by
  rw [Laws.encodeRimDst_length]
  cases o with
  | reg x => simp [RimDst.tail]
  | mem m => have := memTail_le m; simp only [RimDst.tail]; omega

theorem encodeRim2Sz_length_le (o : Rim2Sz) : (encodeRim2Sz o).length ≤ 6 := by
  cases o <;> exact encodeRim2_length_le _ _

theorem encodeRim2Prom_length_le (o : Rim2Prom) : (encodeRim2Prom o).length ≤ 6 := by
  cases o <;> exact encodeRim2_length_le _ _

theorem encodeRimSrcSz_length_le (o : RimSrcSz) : (encodeRimSrcSz o).length ≤ 6 := by
  cases o <;> exact encodeRimSrc_length_le _ _

theorem encodeRimDstSz_length_le (o : RimDstSz) : (encodeRimDstSz o).length ≤ 6 := by
  cases o <;> exact encodeRimDst_length_le _ _

theorem Entry.Makes.length_le {e : Entry} {i : Instr} {bs : List Byte} (h : e.Makes i bs) : bs.length ≤ 7 := by
  cases h with
  | none => simp
  | i8 | i16 | i32 | ccI8 | ccI16 => simp [Laws.leField_length, Width.bytes]
  | rim2Sz k o => exact Nat.le_succ_of_le (encodeRim2Sz_length_le o)
  | rim2Prom k o => exact Nat.le_succ_of_le (encodeRim2Prom_length_le o)
  | rim2W32 k o | rim2Pk k l o | rim2PkProm k l o => exact Nat.le_succ_of_le (encodeRim2_length_le _ o)
  | srcSz k o => exact Nat.le_succ_of_le (encodeRimSrcSz_length_le o)
  | srcW32 k o | srcW16 k o => exact Nat.le_succ_of_le (encodeRimSrc_length_le _ o)
  | dstSz k o => exact Nat.le_succ_of_le (encodeRimDstSz_length_le o)
  | dstW32 k o | dstW16 k o => exact Nat.le_succ_of_le (encodeRimDst_length_le _ o)
  | rim2SzCc k o cc => simpa [Nat.lt_succ_iff] using encodeRim2Sz_length_le o
  | rim2PkCc k l o cc => simpa [Nat.lt_succ_iff] using encodeRim2_length_le l.sizeBit o
  | dstSzImm k o v => simpa [Nat.lt_succ_iff] using encodeRimDstSz_length_le o

/-! ### The opcode table (R160) -/

theorem mem_of_findOp {t : List (Nat × Entry)} {n : Nat} {e : Entry} (h : findOp t n = some e) : (n, e) ∈ t := by
  induction t with
  | nil => exact absurd h (by simp [findOp])
  | cons row t ih =>
    obtain ⟨m, f⟩ := row
    rw [findOp] at h
    split at h
    next hn =>
      obtain rfl := Option.some.inj h
      exact hn ▸ List.mem_cons_self
    next => exact List.mem_cons_of_mem _ (ih h)

/-- What a row makes is well formed, and its encoding is the row's opcode byte and the bytes it is made of. -/
def RowEncodes (row : Nat × Entry) : Prop :=
  ∀ i bs, row.2.Makes i bs → wellFormed i = true ∧ encode i = BitVec.ofNat 8 row.1 :: bs

theorem opTable_encodes : ∀ row ∈ opTable, RowEncodes row := by
  rw [← List.forall_iff_forall_mem]
  repeat' apply And.intro
  all_goals rintro _ _ ⟨⟩
  any_goals exact ⟨rfl, rfl⟩
  -- the rows with a condition byte
  all_goals exact ⟨‹_›, rfl⟩

/-- An instruction's encoding is the opcode byte of a row and the bytes the row makes the instruction of. -/
def EncodedByRow (i : Instr) : Prop :=
  ∃ op e bs, encode i = op :: bs ∧ findOp opTable op.toNat = some e ∧ e.Makes i bs

theorem encodedByRow {i : Instr} (h : wellFormed i = true) : EncodedByRow i := by
  cases i with
  | nop | hlt | ret | iret | pushPf | popPf | pushA | pushB | pushC | pushD | pushI | pushJ | pushK | pushL
  | popA | popB | popC | popD | popI | popJ | popK | popL | pushBp | pushSp | popBp | popSp =>
    exact ⟨_, _, _, rfl, rfl, .none _⟩
  | int v | jmpRel8 v => exact ⟨_, _, _, rfl, rfl, .i8 _ v⟩
  | movImmA v | movImmB v | movImmC v | movImmD v | movImmI v | movImmJ v | movImmK v | movImmL v | jmpRel16 v
  | callRel16 v => exact ⟨_, _, _, rfl, rfl, .i16 _ v⟩
  | jmpRel32 v | callRel32 v => exact ⟨_, _, _, rfl, rfl, .i32 _ v⟩
  | jccRel8 cc v => exact ⟨_, _, _, rfl, rfl, .ccI8 _ cc v h⟩
  | jccRel16 cc v => exact ⟨_, _, _, rfl, rfl, .ccI16 _ cc v h⟩
  | mov o | add o | adc o | sub o | sbb o | cmp o | mul o | div o | divs o | and o | or o | xor o | shl o | shr o
  | sar o | rol o | ror o | rcl o | rcr o => exact ⟨_, _, _, rfl, rfl, .rim2Sz _ o⟩
  | cmov o cc => exact ⟨_, _, _, rfl, rfl, .rim2SzCc _ o cc h⟩
  | movw o | addw o | adcw o | subw o | sbbw o | cmpw o => exact ⟨_, _, _, rfl, rfl, .rim2W32 _ o⟩
  | movs o | movz o | mulh o | mulsh o | divm o | divms o => exact ⟨_, _, _, rfl, rfl, .rim2Prom _ o⟩
  | padd l o | padc l o | psub l o | psbb l o | pcmp l o | pmul l o | pdiv l o | pdivs l o =>
    exact ⟨_, _, _, rfl, rfl, .rim2Pk _ l o⟩
  | pcmov l o cc => exact ⟨_, _, _, rfl, rfl, .rim2PkCc _ l o cc h⟩
  | pmulh l o | pmulsh l o | pdivm l o | pdivms l o => exact ⟨_, _, _, rfl, rfl, .rim2PkProm _ l o⟩
  | push o => exact ⟨_, _, _, rfl, rfl, .srcSz _ o⟩
  | movToIsp o | pushw o | jmpa o | calla o => exact ⟨_, _, _, rfl, rfl, .srcW32 _ o⟩
  | movToPf o => exact ⟨_, _, _, rfl, rfl, .srcW16 _ o⟩
  | pop o | not o | shl1 o | shr1 o | sar1 o | rol1 o | ror1 o | rcl1 o | rcr1 o =>
    exact ⟨_, _, _, rfl, rfl, .dstSz _ o⟩
  | cmpi o v => exact ⟨_, _, _, rfl, rfl, .dstSzImm _ o v⟩
  | movFromIsp o | popw o => exact ⟨_, _, _, rfl, rfl, .dstW32 _ o⟩
  | movFromPf o => exact ⟨_, _, _, rfl, rfl, .dstW16 _ o⟩

theorem encode_length (i : Instr) : (encode i).length = i.len := by
  cases i with
  | nop | hlt | ret | iret | pushPf | popPf | pushA | pushB | pushC | pushD | pushI | pushJ | pushK | pushL
  | popA | popB | popC | popD | popI | popJ | popK | popL | pushBp | pushSp | popBp | popSp | int | jmpRel8
  | movImmA | movImmB | movImmC | movImmD | movImmI | movImmJ | movImmK | movImmL | jmpRel16 | callRel16
  | jmpRel32 | callRel32 | jccRel8 | jccRel16 => rfl
  | mov o | add o | adc o | sub o | sbb o | cmp o | mul o | div o | divs o | and o | or o | xor o | shl o | shr o
  | sar o | rol o | ror o | rcl o | rcr o => exact Laws.opcode_length (Laws.encodeRim2Sz_length o)
  | movs o | movz o | mulh o | mulsh o | divm o | divms o => exact Laws.opcode_length (Laws.encodeRim2Prom_length o)
  | movw o | addw o | adcw o | subw o | sbbw o | cmpw o | padd l o | padc l o | psub l o | psbb l o | pcmp l o
  | pmul l o | pdiv l o | pdivs l o | pmulh l o | pmulsh l o | pdivm l o | pdivms l o =>
    exact Laws.opcode_length (Laws.encodeRim2_length _ o)
  | push o => exact Laws.opcode_length (Laws.encodeRimSrcSz_length o)
  | movToIsp o | pushw o | jmpa o | calla o | movToPf o => exact Laws.opcode_length (Laws.encodeRimSrc_length _ o)
  | pop o | not o | shl1 o | shr1 o | sar1 o | rol1 o | ror1 o | rcl1 o | rcr1 o =>
    exact Laws.opcode_length (Laws.encodeRimDstSz_length o)
  | movFromIsp o | popw o | movFromPf o => exact Laws.opcode_length (Laws.encodeRimDst_length _ o)
  | cmov o cc => exact Laws.opcode_ei8_length (Laws.encodeRim2Sz_length o)
  | pcmov l o cc => exact Laws.opcode_ei8_length (Laws.encodeRim2_length _ o)
  | cmpi o v => exact Laws.opcode_ei8_length (Laws.encodeRimDstSz_length o)

theorem encode_length_le {i : Instr} (h : wellFormed i = true) : (encode i).length ≤ 8 := by
  obtain ⟨op, e, bs, henc, -, hmake⟩ := encodedByRow h
  rw [henc, List.length_cons]
  exact Nat.succ_le_succ hmake.length_le

theorem encode_length_pos {i : Instr} (h : wellFormed i = true) : 1 ≤ (encode i).length := by
  obtain ⟨op, e, bs, henc, -, -⟩ := encodedByRow h
  rw [henc, List.length_cons]
  exact Nat.le_add_left 1 _

/-! ### The round trip -/

theorem decode_of_row {w : Window} {e : Entry} (h : findOp opTable (w.byte 0).toNat = some e) :
    decode w = decodeEntry w e := by
  rw [decode, h]

/-- Decoding and encoding agree: `decode` answers `i` exactly where the window begins with the encoding of `i`. -/
theorem decode_eq_ok_iff (w : Window) (i : Instr) :
    decode w = .ok i ↔ wellFormed i = true ∧ w.Holds 0 (encode i) := by
  constructor
  · intro h
    cases he : findOp opTable (w.byte 0).toNat with
    | none => simp [decode, he] at h
    | some e =>
      rw [decode_of_row he] at h
      obtain ⟨bs, hmake, hbs⟩ := decodeEntry_makes h
      obtain ⟨hwf, henc⟩ := opTable_encodes _ (mem_of_findOp he) i bs hmake
      rw [BitVec.ofNat_toNat, BitVec.setWidth_eq] at henc
      exact ⟨hwf, henc ▸ ⟨rfl, hbs⟩⟩
  · rintro ⟨hwf, hw⟩
    obtain ⟨op, e, bs, henc, he, hmake⟩ := encodedByRow hwf
    rw [henc] at hw
    obtain ⟨rfl, hbs⟩ := hw
    exact (decode_of_row he).trans (hmake.decodeEntry hbs)

/-- Settles O1: the window's first bytes are the encoding, and `decode` answers what they encode. -/
theorem decodeOfEncode : Obligations.DecodeOfEncode := fun i rest h =>
  (decode_eq_ok_iff _ i).2 ⟨h, Window.ofList_holds rest (encode_length_le h)⟩

/-- Settles O2: the window holds the encoding of what `decode` answers, at its length. -/
theorem decodeIsCanonical : Obligations.DecodeIsCanonical := by
  intro w i h
  obtain ⟨hwf, hw⟩ := (decode_eq_ok_iff w i).1 h
  rw [← encode_length]
  exact ⟨hwf, hw.eq_take (encode_length_le hwf), encode_length_pos hwf, encode_length_le hwf⟩

end Sys2Proof

/-! What decode refuses (spec/30_encoding.md R127, R129, R134, R135, R157, R161, R163): reserved opcode bytes and
reserved field values, each by its own cause. -/

namespace Sys2Proof

/-! ### Reserved opcode bytes (R161) -/

theorem decodeReg_ne_reserved (w : Width) (f : BitVec 3) : decodeReg w f ≠ .error .reservedOpcode := by
  unfold decodeReg
  split <;> simp

theorem decodeMem_ne_reserved (w : Window) (sh : BitVec 2) : decodeMem w sh ≠ .error .reservedOpcode := by
  cases h : decodeScale ((w.byte 2).extractLsb' 6 2) <;> simp [decodeMem, h, ite_eq_iff]

theorem decodeRim2_ne_reserved (w : Window) (wd ws : Width) : decodeRim2 w wd ws ≠ .error .reservedOpcode := by
  simp [decodeRim2, bind_eq_error_iff, decodeReg_ne_reserved, decodeMem_ne_reserved, ite_eq_iff]

theorem decodeRimSrc_ne_reserved (w : Window) (ws : Width) : decodeRimSrc w ws ≠ .error .reservedOpcode := by
  simp [decodeRimSrc, bind_eq_error_iff, decodeReg_ne_reserved, decodeMem_ne_reserved, ite_eq_iff]

theorem decodeRimDst_ne_reserved (w : Window) (wd : Width) : decodeRimDst w wd ≠ .error .reservedOpcode := by
  simp [decodeRimDst, bind_eq_error_iff, decodeReg_ne_reserved, decodeMem_ne_reserved, ite_eq_iff]

theorem decodeEntry_ne_reserved (w : Window) (e : Entry) : decodeEntry w e ≠ .error .reservedOpcode := by
  cases e <;> simp [decodeEntry, needCond, bind_eq_error_iff, decodeRim2Sz, decodeRim2Prom, decodeRimSrcSz,
    decodeRimDstSz, needSizeClear, ite_eq_iff, decodeRim2_ne_reserved, decodeRimSrc_ne_reserved,
    decodeRimDst_ne_reserved]

theorem findOp_isNone : ∀ b : Byte, (findOp opTable b.toNat).isNone = Machine.reservedByte b.toNat := by decide

theorem decode_eq_reserved_iff (w : Window) :
    decode w = .error .reservedOpcode ↔ Machine.reservedByte w.b0.toNat = true := by
  rw [← findOp_isNone, Option.isNone_iff_eq_none]
  show decode w = _ ↔ findOp opTable (w.byte 0).toNat = none
  cases he : findOp opTable (w.byte 0).toNat with
  | none => simp [decode, he]
  | some e => simp [decode_of_row he, decodeEntry_ne_reserved]

/-- Settles O4: a row's own routine never answers `reservedOpcode`, and exactly the reserved bytes have no row. -/
theorem reservedOpcodes : Obligations.ReservedOpcodes :=
  ⟨decode_eq_reserved_iff, fun _ t hs hr hb => Machine.step_refuses hs hr ((decode_eq_reserved_iff t.win).2 hb)⟩

/-! ### Operand forms of rows (R127, R151) -/

/-- The operand forms (R129, R134, R135), and `other` for a row without one. -/
inductive OperandForm where
  | other
  | two
  | source
  | destination
  deriving DecidableEq

/-- The operand form of a decoding family (R151). -/
def Entry.form : Entry → OperandForm
  | .rim2Sz _ | .rim2SzCc _ | .rim2W32 _ | .rim2Prom _ | .rim2Pk _ | .rim2PkCc _ | .rim2PkProm _ => .two
  | .srcSz _ | .srcW32 _ | .srcW16 _ => .source
  | .dstSz _ | .dstSzImm _ | .dstW32 _ | .dstW16 _ => .destination
  | .none _ | .i8 _ | .i16 _ | .i32 _ | .ccI8 _ | .ccI16 _ => .other

/-- Whether a decoding family needs the size bit clear (R127). -/
def Entry.wide : Entry → Bool
  | .rim2W32 _ | .srcW32 _ | .srcW16 _ | .dstW32 _ | .dstW16 _ => true
  | _ => false

/-- The form's own decode routine answers the refusal, at every width. -/
def FormRefuses (w : Window) (r : DecodeReject) : OperandForm → Prop
  | .other => False
  | .two => ∀ wd ws, decodeRim2 w wd ws = .error r
  | .source => ∀ ws, decodeRimSrc w ws = .error r
  | .destination => ∀ wd, decodeRimDst w wd = .error r

theorem bind_error {ε α β : Type} (e : ε) (f : α → Except ε β) :
    (Except.error e : Except ε α) >>= f = .error e := rfl

/-- A refusal of the operand form is the row's, once the size bit is accepted. -/
theorem decodeEntry_of_formRefuses {w : Window} {r : DecodeReject} {e : Entry} (h : FormRefuses w r e.form)
    (hs : e.wide = true → rimS (w.byte 1) = false) : decodeEntry w e = .error r := by
  cases e with simp only [Entry.form, FormRefuses, Entry.wide, forall_const, reduceCtorEq, false_imp_iff] at h hs
  | rim2Sz | rim2SzCc => simp [decodeEntry, decodeRim2Sz, h, bind_error]
  | rim2Prom => simp [decodeEntry, decodeRim2Prom, h, bind_error]
  | rim2Pk | rim2PkCc | rim2PkProm => simp [decodeEntry, h, bind_error]
  | srcSz => simp [decodeEntry, decodeRimSrcSz, h, bind_error]
  | dstSz | dstSzImm => simp [decodeEntry, decodeRimDstSz, h, bind_error]
  | rim2W32 | srcW32 | srcW16 | dstW32 | dstW16 => simp [decodeEntry, needSizeClear, hs, h, bind_error]

theorem decodeEntry_sizeBit {w : Window} {e : Entry} (h : e.wide = true) (hs : rimS (w.byte 1) = true) :
    decodeEntry w e = .error .sizeBitSet := by
  cases e with simp only [Entry.wide, reduceCtorEq] at h
  | rim2W32 | srcW32 | srcW16 | dstW32 | dstW16 => simp only [decodeEntry, needSizeClear, hs, if_true]

theorem wide_of_mem : ∀ n ∈ Machine.wideOpcodes, (findOp opTable n).map Entry.wide = some true := by decide

theorem mem_of_wide : ∀ row ∈ opTable, row.2.wide = true → row.1 ∈ Machine.wideOpcodes := by decide

theorem form_two : ∀ n ∈ Machine.twoOperandOpcodes, (findOp opTable n).map Entry.form = some .two := by decide

theorem form_source : ∀ n ∈ Machine.sourceOpcodes, (findOp opTable n).map Entry.form = some .source := by decide

theorem form_destination :
    ∀ n ∈ Machine.destinationOpcodes, (findOp opTable n).map Entry.form = some .destination := by decide

/-! ### Fields of the RIM byte as numbers (R125) -/

theorem rimS_eq_decide (b : Byte) : rimS b = decide (b.toNat / 128 = 1) := by
  have := b.isLt
  rw [rimS, BitVec.getLsbD, Nat.testBit_eq_decide_div_mod_eq, decide_eq_decide]
  omega

theorem rimM_eq_decide (b : Byte) : rimM b = decide (b.toNat / 64 % 2 = 1) := by
  rw [rimM, BitVec.getLsbD, Nat.testBit_eq_decide_div_mod_eq]

theorem rimDir_eq_decide (b : Byte) : rimDir b = decide (b.toNat / 4 % 2 = 1) := by
  rw [rimDir, BitVec.getLsbD, Nat.testBit_eq_decide_div_mod_eq]

theorem rimR_eq_zero_iff (b : Byte) : rimR b = 0#3 ↔ b.toNat / 8 % 8 = 0 := by
  rw [← rimR_toNat_eq_zero_iff, rimR, BitVec.extractLsb'_toNat, Nat.shiftRight_eq_div_pow]

theorem rimShape_eq_zero_iff (b : Byte) : rimShape b = 0#2 ↔ b.toNat % 4 = 0 := by
  rw [← rimShape_toNat_eq_zero_iff, rimShape, BitVec.extractLsb'_toNat, Nat.shiftRight_zero]

/-! ### Reserved field values -/

/-- A byte whose row has the form is refused for the form's cause. -/
theorem decode_of_formRefuses {w : Window} {r : DecodeReject} {f : OperandForm}
    (hf : (findOp opTable w.b0.toNat).map Entry.form = some f)
    (hs : w.b0.toNat ∈ Machine.wideOpcodes → w.b1.toNat / 128 = 0) (h : FormRefuses w r f) :
    decode w = .error r := by
  obtain ⟨e, he, rfl⟩ := Option.map_eq_some_iff.1 hf
  refine (decode_of_row he).trans (decodeEntry_of_formRefuses h fun hw => ?_)
  have hclear : (w.byte 1).toNat / 128 = 0 := hs (mem_of_wide _ (mem_of_findOp he) hw)
  rw [rimS_eq_decide, hclear]
  rfl

theorem decode_sizeBit {w : Window} (h : w.b0.toNat ∈ Machine.wideOpcodes) (hs : w.b1.toNat / 128 = 1) :
    decode w = .error .sizeBitSet := by
  obtain ⟨e, he, hw⟩ := Option.map_eq_some_iff.1 (wide_of_mem _ h)
  exact (decode_of_row he).trans (decodeEntry_sizeBit hw ((rimS_eq_decide _).trans (decide_eq_true hs)))

theorem needCond_eq_conditionByte_iff (cc : BitVec 8) (i : Instr) :
    needCond (condAccepted cc) i = .error .conditionByte ↔
      (128 ≤ cc.toNat ∨ 14 ≤ cc.toNat % 16 ∨ cc.toNat / 16 % 4 = 3 ∨
        (cc.toNat / 16 % 4 = 0 ∧ cc.toNat / 64 % 2 = 1)) := by
  have hbit : cc.getLsbD 7 = decide (cc.toNat / 128 = 1) := rimS_eq_decide cc
  have hlt := cc.isLt
  have hrefused : needCond (condAccepted cc) i = .error .conditionByte ↔ condWellFormed cc = false := by
    rw [condAccepted_eq_wellFormed]
    cases condWellFormed cc <;> simp [needCond]
  rw [hrefused]
  simp only [condWellFormed, condReservedBitClear, condBaseDefined, condLaneModeDefined, condCombineNeedsLanes, hbit,
    Bool.and_eq_false_iff, Bool.not_eq_false', decide_eq_true_eq, decide_eq_false_iff_not]
  omega

/-- Settles O5: each form's refusals through its own routine, those of JCC through `needCond`. -/
theorem refusedFields : Obligations.RefusedFields := by
  intro w
  refine ⟨decode_sizeBit, fun hn hs hm hx => ?_, fun hn hs hr => ?_, fun hn hs hr hx => ?_, fun hn hs hr hx => ?_,
    fun hn => ?_⟩
  -- an immediate as destination
  · refine decode_of_formRefuses (form_two _ hn) hs fun wd ws => decodeRim2_immediateDestination wd ws ?_ ?_ ?_
    · exact (rimM_eq_decide _).trans (decide_eq_true hm)
    · exact (rimDir_eq_decide _).trans (decide_eq_true (show w.b1.toNat / 4 % 2 = 1 by omega))
    · exact (rimShape_eq_zero_iff _).2 (show w.b1.toNat % 4 = 0 by omega)
  -- a register field in a one-sided form
  · have hfield : rimR (w.byte 1) ≠ 0#3 := mt (rimR_eq_zero_iff _).1 hr
    obtain hn | hn := List.mem_append.1 hn
    · exact decode_of_formRefuses (form_source _ hn) hs fun ws => decodeRimSrc_registerField ws hfield
    · exact decode_of_formRefuses (form_destination _ hn) hs fun wd => decodeRimDst_registerField wd hfield
  -- the direction of a source
  · refine decode_of_formRefuses (form_source _ hn) hs fun ws => decodeRimSrc_direction ws ?_ ?_ ?_
    · exact (rimR_eq_zero_iff _).2 (show w.b1.toNat / 8 % 8 = 0 by omega)
    · exact (rimM_eq_decide _).trans (decide_eq_true (show w.b1.toNat / 64 % 2 = 1 by omega))
    · exact (rimDir_eq_decide _).trans (decide_eq_true (show w.b1.toNat / 4 % 2 = 1 by omega))
  -- the direction or shape of a destination
  · refine decode_of_formRefuses (form_destination _ hn) hs fun wd => decodeRimDst_shape wd ?_ ?_ ?_
    · exact (rimR_eq_zero_iff _).2 (show w.b1.toNat / 8 % 8 = 0 by omega)
    · exact (rimM_eq_decide _).trans (decide_eq_true (show w.b1.toNat / 64 % 2 = 1 by omega))
    · rw [rimDir_eq_decide, rimShape_eq_zero_iff, decide_eq_false_iff_not]
      show ¬ w.b1.toNat / 4 % 2 = 1 ∨ w.b1.toNat % 4 = 0
      omega
  -- the condition bytes of JCC
  · obtain hn | hn := hn
    · have hrow : findOp opTable w.b0.toNat = some (.ccI8 .jccRel8) := hn ▸ rfl
      rw [decode_of_row hrow]
      exact needCond_eq_conditionByte_iff w.b1 _
    · have hrow : findOp opTable w.b0.toNat = some (.ccI16 .jccRel16) := hn ▸ rfl
      rw [decode_of_row hrow]
      exact needCond_eq_conditionByte_iff w.b1 _

end Sys2Proof

/-! Effective addresses as numbers (spec/30_encoding.md R131, R140 to R144). -/

namespace Sys2Proof.Machine

theorem baseValue_toNat (b : Base) (next : Word) (s : State) : (baseValue b next s).toNat = baseNumber b next s := by
  cases b with
  | da => exact reg32_toNat 0 s
  | bc => exact reg32_toNat 1 s
  | ji => exact reg32_toNat 2 s
  | lk => exact reg32_toNat 3 s
  | bp | sp | ip | zero => rfl

/-- No index overflows 32 bits: it is at most four times a 16-bit register. -/
theorem indexValue_toNat (ix : Index) (s : State) : (indexValue ix s).toNat = indexNumber ix s := by
  have hlt := (reg16 ix.reg s).isLt
  have hscale : (scaleFactor ix.scale).toNat = scaleNumber ix.scale ∧ scaleNumber ix.scale ≤ 4 := by
    cases ix.scale <;> decide
  obtain ⟨heq, hle⟩ := hscale
  have hmul : (reg16 ix.reg s).toNat * scaleNumber ix.scale ≤ 2 ^ 16 * 4 := Nat.mul_le_mul hlt.le hle
  rw [indexValue, BitVec.toNat_mul, heq, BitVec.toNat_setWidth,
    Nat.mod_eq_of_lt (a := (reg16 ix.reg s).toNat) (by omega)]
  exact Nat.mod_eq_of_lt (by omega)

/-- Adding an offset adds its signed number modulo 2^32. -/
theorem toNat_add_eq_emod (x o : Word) : ((x + o).toNat : Int) = (x.toNat + o.toInt) % 2 ^ 32 := by
  have hx := x.isLt
  have ho := o.isLt
  rw [BitVec.toNat_add, BitVec.toInt_eq_toNat_cond]
  split <;> omega

/-- Settles O26: base, index and offset each as its number; the sum wraps once. -/
theorem effectiveAddress : Obligations.EffectiveAddress := by
  intro b ix next s
  have hbase := baseValue_toNat b next s
  have hindexed :
      (baseValue b next s + indexValue ix s).toNat = (baseNumber b next s + indexNumber ix s) % 2 ^ 32 := by
    rw [BitVec.toNat_add, hbase, indexValue_toNat]
  refine ⟨fun a => rfl, hbase, hindexed, fun o => ?_, fun o => ?_, fun o => ?_, fun o => ?_⟩
  · rw [effectiveAddr, toNat_add_eq_emod, hbase, BitVec.toInt_signExtend_of_le (by decide)]
  · rw [effectiveAddr, toNat_add_eq_emod, hbase, BitVec.toInt_signExtend_of_le (by decide)]
  · rw [effectiveAddr, toNat_add_eq_emod, hbase]
  · rw [effectiveAddr, toNat_add_eq_emod, hindexed]
    omega

end Sys2Proof.Machine

/-! The rules of the operand templates, once per shape of instruction: what `rim2Write`, `rim2Read`, `rimSrcThen` and
`rimDstThen` do is what `Rim2RuleAt`, `RimSrcRule` and `WritesTo` say (spec/30_encoding.md R122, R150). -/

namespace Sys2Proof.Machine

/-- A two-operand form with a write-only destination obeys the rule of its own operation. -/
theorem rim2Write_rule {s : State} {wd ws : Width} {i : Instr} {o : Rim2 wd ws} {extra : Nat}
    {op : BitVec ws.bits → Option (BitVec wd.bits)} {rule : BitVec wd.bits → BitVec ws.bits → Option (AluOut wd.bits)}
    (hexec : exec i s = rim2Write extra o op s) (hnext : nextOf i s = nextIp s (2 + extra + o.tail))
    (hrule : ∀ a b, rule a b = some { result := op b, flags := none }) : Rim2RuleAt s i o false rule := by
  unfold Rim2RuleAt
  simp only [traps_iff, commits_iff, hexec, hnext, hrule, Bool.false_eq_true, if_false, List.append_nil]
  intro hi
  obtain ⟨hfault, hdone⟩ := rim2Write_spec hi extra o op
  refine ⟨hfault, fun _ h => h.elim, fun hsrc _ => ?_⟩
  obtain ⟨b, hb, hends⟩ := hdone hsrc
  exact ⟨0, b, fun h => h.elim, hb, hends⟩

/-- A two-operand form that reads its destination obeys the rule of its own operation. -/
theorem rim2Read_rule {s : State} {wd ws : Width} {i : Instr} {o : Rim2 wd ws} {extra : Nat}
    {op rule : BitVec wd.bits → BitVec ws.bits → Option (AluOut wd.bits)}
    (hexec : exec i s = rim2Read extra o op s) (hnext : nextOf i s = nextIp s (2 + extra + o.tail))
    (hrule : ∀ a b, rule a b = op a b) : Rim2RuleAt s i o true rule := by
  unfold Rim2RuleAt
  simp only [traps_iff, commits_iff, hexec, hnext, hrule, if_true]
  intro hi
  obtain ⟨hsrcFault, hdstFault, hdone⟩ := rim2Read_spec hi extra o op
  refine ⟨hsrcFault, fun hsrc _ => hdstFault hsrc, fun hsrc hdst => ?_⟩
  obtain ⟨a, b, ha, hb, hends⟩ := hdone hsrc (hdst trivial)
  exact ⟨a, b, fun _ => ha, hb, hends⟩

/-- A privileged source form that puts the source's value into registers. -/
theorem rimSrcThen_privileged_rule {w : Width} {i : RimSrc w → Instr} {put : BitVec w.bits → State → State}
    {regs : BitVec w.bits → Regs → Regs}
    (hexec : ∀ o s, exec (i o) s = rimSrcThen o (fun v t => needPrivilege t (.ok () (put v t))) s)
    (hnext : ∀ o s, nextOf (i o) s = nextIp s (2 + o.tail)) (hput : ∀ v t, SameButRegs t (put v t))
    (hregs : ∀ v t, regsOf (put v t) = regs v (regsOf t)) :
    RimSrcRule i fun i s reach v => s.pv = true →
      Completes i s (regs v { regsOf s with ip := nextOf i s }) reach 0 [] := by
  intro o s
  simp only [traps_iff, completes_iff, hexec, hnext]
  intro hi
  obtain ⟨hfault, hdone⟩ := rimSrcThen_spec hi o fun v t => needPrivilege t (.ok () (put v t))
  refine ⟨hfault, fun hsrc => ?_⟩
  obtain ⟨v, s1, hv, hpass, hrun⟩ := hdone hsrc
  refine ⟨v, hv, fun hp => ⟨put v { s1 with ip := nextIp s (2 + o.tail) }, ?_, ?_⟩⟩
  · rw [hrun, needPrivilege_of (s := { s1 with ip := nextIp s (2 + o.tail) }) (hpass.kept.pv.trans hp)]
    rfl
  · have hadvanced := hpass.leaves.set (u := { s1 with ip := nextIp s (2 + o.tail) })
      ⟨rfl, rfl, rfl, rfl, rfl, rfl, rfl, rfl, rfl, rfl, rfl⟩
    have hleft := hadvanced.set (hput v _)
    rw [hregs, show regsOf { s1 with ip := nextIp s (2 + o.tail) } =
      { regsOf s with ip := nextIp s (2 + o.tail) } by rw [← hpass.kept.regs]; rfl] at hleft
    exact hleft

/-- A move's outcome committed is the write alone. -/
theorem commit_moved {w : Width} (l : Loc w) (v : BitVec w.bits) (s : State) :
    commit l (moved v) s = writeLoc l v s := by
  simp only [commit, moved]
  cases writeLoc l v s <;> rfl

/-- A privileged destination form that writes a value IP has no part in. -/
theorem rimDstThen_privileged_writesTo {w : Width} {i : RimDst w → Instr} {image value : State → BitVec w.bits}
    (hexec : ∀ o s, exec (i o) s = rimDstThen o (fun l t => needPrivilege t (writeLoc l (image t) t)) s)
    (hnext : ∀ o s, nextOf (i o) s = nextIp s (2 + o.tail))
    (himage : ∀ s x, image { s with ip := x } = value s) : WritesTo i value := by
  intro o s
  simp only [commits_iff, hnext]
  intro hi hp
  have hrun : exec (i o) s = complete s (commit (rimDstLoc o (nextIp s (2 + o.tail)) s) (moved (value s))
      { s with ip := nextIp s (2 + o.tail) }) := by
    rw [hexec, rimDstThen, needPrivilege_of (s := { s with ip := nextIp s (2 + o.tail) }) hp, himage, commit_moved]
  rw [hrun]
  exact commit_ends (.refl hi []) _ _ _

end Sys2Proof.Machine

/-! Lanes as digits (spec/40_alu.md R187, R188): a lane read as a quotient, and lanes joined as a weighted sum. -/

namespace Sys2Proof.Machine

theorem laneAt_eq_laneOf {n : Nat} (L : Nat) (v : BitVec n) (i : Nat) : laneAt L v i = laneOf L v i := by
  apply BitVec.eq_of_toNat_eq
  rw [laneAt, laneOf, BitVec.extractLsb'_toNat, BitVec.toNat_ofNat, Nat.shiftRight_eq_div_pow]

theorem fromLanes_succ (L n : Nat) (lane : Nat → Nat) :
    fromLanes L (n + 1) lane = lane 0 + 2 ^ L * fromLanes L n fun i => lane (i + 1) := by
  have hshift : ∀ i, lane (i + 1) * 2 ^ (L * (i + 1)) = 2 ^ L * (lane (i + 1) * 2 ^ (L * i)) := fun i => by ring
  simp only [fromLanes, List.range_succ_eq_map, List.map_cons, List.map_map, List.sum_cons, Function.comp_def,
    Nat.succ_eq_add_one, hshift, List.sum_map_mul_left, Nat.mul_zero, Nat.pow_zero, Nat.mul_one]

theorem joinNat_eq_fromLanes (L : Nat) (n : Nat) : ∀ lane : Nat → Nat,
    joinNat L ((List.range n).map lane) = fromLanes L n lane := by
  induction n with
  | zero => intro lane; rfl
  | succ n ih =>
    intro lane
    rw [fromLanes_succ, ← ih, List.range_succ_eq_map, List.map_cons, List.map_map, joinNat]
    rfl

theorem joinLanes_eq_fromLanes {L : Nat} (W n : Nat) (lane : Nat → BitVec L) :
    joinLanes W ((List.range n).map lane) = BitVec.ofNat W (fromLanes L n fun i => (lane i).toNat) := by
  rw [joinLanes, List.map_map, joinNat_eq_fromLanes]
  rfl

theorem fromLanes_congr {L n : Nat} {f g : Nat → Nat} (h : ∀ i, i < n → f i = g i) :
    fromLanes L n f = fromLanes L n g := by
  unfold fromLanes
  rw [List.map_congr_left fun i hi => by rw [h i (List.mem_range.1 hi)]]

/-- Lanes of `laneBits` bits fill 16 bits. -/
theorem laneCount_eq_div (l : Lane) : laneCount l = 16 / laneBits l := by cases l <;> rfl

theorem laneCount_le_four (l : Lane) : laneCount l ≤ 4 := by cases l <;> decide

end Sys2Proof.Machine

/-! The moves (spec/41_move.md R220 to R239): each form is one of the shapes above, with the spec's own value. -/

namespace Sys2Proof.Machine

/-- Settles O28: both instructions are write-only two-operand forms of the identity. -/
theorem move : Obligations.Move :=
  ⟨fun _ _ => rim2Write_rule (extra := 0) rfl rfl fun _ _ => rfl,
    fun _ _ => rim2Write_rule (extra := 0) rfl rfl fun _ _ => rfl,
    fun _ _ => rim2Write_rule (extra := 0) rfl rfl fun _ _ => rfl⟩

/-- Sign extension is the signed number at the new width. -/
theorem moved_ofInt_toInt {w : Nat} (w2 : Nat) (v : BitVec w) :
    some (moved (BitVec.ofInt w2 v.toInt)) = some { result := some (v.signExtend w2), flags := none } := rfl

/-- Zero extension is the unsigned number at the new width. -/
theorem moved_ofNat_toNat {w : Nat} (w2 : Nat) (v : BitVec w) :
    some (moved (BitVec.ofNat w2 v.toNat)) = some { result := some (v.setWidth w2), flags := none } := by
  rw [BitVec.ofNat_toNat, moved]

/-- Settles O29: both instructions are write-only two-operand forms of an extension. -/
theorem moveExtended : Obligations.MoveExtended :=
  ⟨⟨fun _ _ => rim2Write_rule (extra := 0) rfl rfl fun _ b => moved_ofInt_toInt 32 b,
      fun _ _ => rim2Write_rule (extra := 0) rfl rfl fun _ b => moved_ofInt_toInt 16 b⟩,
    ⟨fun _ _ => rim2Write_rule (extra := 0) rfl rfl fun _ b => moved_ofNat_toNat 32 b,
      fun _ _ => rim2Write_rule (extra := 0) rfl rfl fun _ b => moved_ofNat_toNat 16 b⟩⟩

/-- CMOV at either width: the rule of an outcome that has the source as its result where the condition holds, and
none where it does not. -/
theorem cmov_rules (cc : BitVec 8) (s : State) {out : (w : Nat) → BitVec w → AluOut w}
    (hout : ∀ w (v : BitVec w), out w v = { result := if cond cc s.f then some v else none, flags := none }) :
    (∀ o : Rim2 .b16 .b16, Rim2RuleAt s (.cmov (.w16 o) cc) o false fun _ v => some (out 16 v)) ∧
      ∀ o : Rim2 .b8 .b8, Rim2RuleAt s (.cmov (.w8 o) cc) o false fun _ v => some (out 8 v) :=
  ⟨fun _ => rim2Write_rule (extra := 1) rfl rfl fun _ b => congrArg some (hout 16 b),
    fun _ => rim2Write_rule (extra := 1) rfl rfl fun _ b => congrArg some (hout 8 b)⟩

/-- Settles O30: the model's condition is the spec's, and it alone decides whether there is a result. -/
theorem conditionalMove : Obligations.ConditionalMove := by
  intro cc s _
  refine ⟨fun hc => ?_, fun hc => ?_⟩
  · have htrue : cond cc s.f = true := (cond_iff cc s.f).2 hc
    exact cmov_rules cc s (out := fun _ v => moved v) fun _ _ => by rw [if_pos htrue, moved]
  · have hfalse : ¬ cond cc s.f = true := mt (cond_iff cc s.f).1 hc
    exact cmov_rules cc s (out := fun _ _ => { result := none, flags := none }) fun _ _ => by rw [if_neg hfalse]

/-- The merge of PCMOV lane by lane, as the spec's weighted sum (R231, R187). -/
theorem mergeLanes_eq_fromLanes (l : Lane) {cc : BitVec 8} {f : Half} {take : Nat → Bool}
    (htake : ∀ i, i < 4 → condLane cc f i = take i) (a b : Half) :
    mergeLanes l cc f a b = BitVec.ofNat 16 (fromLanes (laneBits l) (16 / laneBits l) fun i =>
      if take i then (laneOf (laneBits l) b i).toNat else (laneOf (laneBits l) a i).toNat) := by
  rw [mergeLanes, joinLanes_eq_fromLanes, ← laneCount_eq_div]
  refine congrArg (BitVec.ofNat 16) (fromLanes_congr fun i hi => ?_)
  rw [htake i (hi.trans_le (laneCount_le_four l)), laneAt_eq_laneOf, laneAt_eq_laneOf, apply_ite BitVec.toNat]

/-- Settles O31: the lane's own condition is `take`, and the merged lanes are the weighted sum. -/
theorem packedConditionalMove : Obligations.PackedConditionalMove := by
  intro cc s take _ htake l o
  have hlane : ∀ i, i < 4 → condLane cc s.f i = take i := fun i hi =>
    Bool.eq_iff_iff.2 ((condLane_iff cc s.f i).trans (htake i hi).symm)
  exact rim2Read_rule (extra := 1) rfl rfl fun a b => by rw [mergeLanes_eq_fromLanes l hlane, moved]

/-- Settles O32: the loads put the source's value into ISP or PF, the stores write ISP or the image of PF. -/
theorem protectedMoves : Obligations.ProtectedMoves := by
  refine ⟨?_, ?_, ?_, ?_⟩
  · exact rimSrcThen_privileged_rule (w := .b32) (put := fun (v : Word) t => { t with isp := v })
      (regs := fun (v : Word) r => { r with isp := v }) (fun _ _ => rfl) (fun _ _ => rfl)
      (fun _ _ => ⟨rfl, rfl, rfl, rfl, rfl, rfl, rfl, rfl, rfl, rfl, rfl⟩) fun _ _ => rfl
  · exact rimSrcThen_privileged_rule (w := .b16) (put := setPf)
      (regs := fun (v : Half) r => { r with ie := v.getLsbD 0, pv := v.getLsbD 1, ii := v.getLsbD 2 })
      (fun _ _ => rfl) (fun _ _ => rfl)
      (fun _ _ => ⟨rfl, rfl, rfl, rfl, rfl, rfl, rfl, rfl, rfl, rfl, rfl⟩) fun _ _ => rfl
  · exact rimDstThen_privileged_writesTo (w := .b32) (image := State.isp) (fun _ _ => rfl) (fun _ _ => rfl)
      fun _ _ => rfl
  · exact rimDstThen_privileged_writesTo (w := .b16) (image := pfImage) (fun _ _ => rfl) (fun _ _ => rfl)
      fun s x => pfImage_eq { s with ip := x }

/-- A short move writes its register and IP, in any state. -/
theorem movImm_ends (n : Fin 8) (v : Half) (s : State) :
    Ends (movImm n v s) s (regsOf (setReg16 n v { s with ip := s.ip + 3 })) [] 0 [] := by
  refine ⟨setReg16 n v { s with ip := s.ip + 3 }, rfl, Leaves.of_ip (x := s.ip + 3) ?_⟩
  exact Leaves.of_set (writeReg_same { s with ip := s.ip + 3 } .b16 n v) []

/-- Settles O27: the eight registers by their numbers. -/
theorem moveImmediate : Obligations.MoveImmediate := fun v s =>
  ⟨movImm_ends 0 v s, movImm_ends 1 v s, movImm_ends 2 v s, movImm_ends 3 v s, movImm_ends 4 v s, movImm_ends 5 v s,
    movImm_ends 6 v s, movImm_ends 7 v s⟩

end Sys2Proof.Machine

/-! The stack (spec/42_stack.md R250 to R263): a push and a stack read as the end of an instruction, once for every form,
then the forms; and pushes undone by pops in reverse order. -/

namespace Sys2Proof.Machine

/-! ### A read at SP after IP was advanced (R250) -/

theorem sameButRegs_sp_ip (t : State) (sp ip : Word) : SameButRegs t { t with sp := sp, ip := ip } :=
  ⟨rfl, rfl, rfl, rfl, rfl, rfl, rfl, rfl, rfl, rfl, rfl⟩

/-- What passed after IP was advanced is what passed before it, with IP advanced afterwards. -/
theorem Passed.advance_last {s t : State} {next : Word} {r : Reach} (h : Passed { s with ip := next } r t) :
    ∃ u, t = { u with ip := next } ∧ Passed s r u := by
  have hip : t.ip = next := h.kept.ip
  have hback := (h.leaves.set (sameButRegs_sp_ip t t.sp s.ip)).of_ip
  have hregs : regsOf { t with ip := s.ip } = regsOf s := by
    change { regsOf t with ip := s.ip } = regsOf s
    rw [h.kept.regs]
    rfl
  refine ⟨{ t with ip := s.ip }, by rw [← hip], h.inv.with_ip s.ip, ⟨hregs, hback.rest⟩, fun x => ?_, hback.silent⟩
  rw [hback.ram x, putBytes_nil]

/-- An instruction that first reads the stack's top raises the read's fault, or goes on with the value. -/
theorem popsTo_of {s : State} (hi : StateInv s) {w : Width} {i : Instr} {next : Word}
    {act : BitVec w.bits → State → Res Unit} {claim : Reach → BitVec w.bits → Prop}
    (hexec : exec i s = complete s ((memRead w s.sp s.pv { s with ip := next }).bind act))
    (hclaim : ∀ v u, Passed s [(s.sp.toNat, w.bytes)] u →
      exec i s = complete s (act v { u with ip := next }) → claim [(s.sp.toNat, w.bytes)] v) :
    PopsTo w i s claim := by
  refine ⟨fun e he => ?_, fun hread => ?_⟩
  · obtain ⟨t, ht, hraise⟩ := memRead_raises hi he next
    rw [traps_iff, hexec, ht]
    exact hraise
  · obtain ⟨v, t, ht, hpass, hv⟩ := memRead_ok (hi.with_ip next) w s.sp s.pv hread
    obtain ⟨u, rfl, hu⟩ := hpass.advance_last
    exact ⟨v, hv, hclaim v u hu (by rw [hexec, ht, Res.bind_ok])⟩

/-- `Pop` is the read, and then SP moved (R250). -/
theorem pop_bind (w : Width) (s : State) (k : BitVec w.bits → State → Res Unit) :
    (pop w s).bind k =
      (memRead w s.sp s.pv s).bind fun v t => k v { t with sp := t.sp + BitVec.ofNat 32 w.bytes } := by
  rw [pop, Res.bind_assoc]
  rfl

/-- A pop whose value is put into registers: the registers after it are those of `put`, SP and IP moved before. -/
theorem popsTo_put {s : State} (hi : StateInv s) {w : Width} {i : Instr} {next : Word}
    {put : BitVec w.bits → State → State}
    (hexec : exec i s = complete s ((pop w { s with ip := next }).bind fun v t => .ok () (put v t)))
    (hput : ∀ v t, SameButRegs t (put v t))
    (hregs : ∀ v t u, regsOf t = regsOf u → regsOf (put v t) = regsOf (put v u)) :
    PopsTo w i s fun reach v => Completes i s
      (regsOf (put v { s with sp := s.sp + BitVec.ofNat 32 w.bytes, ip := next })) reach 0 [] := by
  rw [pop_bind] at hexec
  refine popsTo_of hi hexec fun v u hu hrun => ⟨_, hrun, ?_⟩
  have hmoved : regsOf { u with sp := u.sp + BitVec.ofNat 32 w.bytes, ip := next } =
      regsOf { s with sp := s.sp + BitVec.ofNat 32 w.bytes, ip := next } := by
    change { regsOf u with sp := u.sp + BitVec.ofNat 32 w.bytes, ip := next } = _
    rw [hu.kept.regs, hu.kept.sp]
    rfl
  have hleft := hu.leaves.set (sameButRegs_sp_ip u (u.sp + BitVec.ofNat 32 w.bytes) next)
  rw [← hregs v _ _ hmoved]
  exact hleft.set (hput v _)

/-! ### Pushes -/

/-- `Push` at the end of an instruction, after its operands were read and IP was advanced. -/
theorem pushesTo_of {s u : State} {reads : Reach} (hp : Passed s reads u) {w : Width} {i : Instr} {v : BitVec w.bits}
    {next : Word} (hexec : exec i s = complete s (push w v { u with ip := next })) : PushesTo i s reads v next := by
  have hi := hp.inv.with_ip next
  have hsp : ({ u with ip := next } : State).sp = s.sp := hp.kept.sp
  have hplan : ∀ a, locPlan true { u with ip := next } (Loc.mem a : Loc w) = locPlan true s (Loc.mem a : Loc w) :=
    fun a => locPlan_congr (t := { u with ip := next }) hp.kept.plat hp.kept.pv true _
  have hregs : regsOf { u with ip := next } = { regsOf s with ip := next } := by
    rw [← hp.kept.regs]
    rfl
  refine ⟨fun e he => ?_, fun hw => ?_⟩
  · obtain ⟨t, ht, hleft⟩ := push_fault hi v (r := e) (by rw [WriteFaults, hplan, hsp]; exact he)
    have hdone := hleft.after hp
    rw [hplan, hregs, hsp] at hdone
    rw [traps_iff, hexec, ht]
    exact raises_of hdone
  · obtain ⟨t, ht, hleft⟩ := push_ok hi v (by rw [Writable, hplan, hsp]; exact hw)
    have hdone := hleft.after hp
    rw [hregs, hsp] at hdone
    exact ⟨t, by rw [hexec, ht]; rfl, hdone⟩

/-- A push of a register: no operand is read. -/
theorem pushesTo_bare {s : State} (hi : StateInv s) {w : Width} {i : Instr} {v : BitVec w.bits} {next : Word}
    (hexec : exec i s = complete s (push w v { s with ip := next })) : PushesTo i s [] v next :=
  pushesTo_of (.refl hi []) hexec

/-- Settles O33: each form pushes its register as it was. -/
theorem pushRegister : Obligations.PushRegister := fun _ hi =>
  ⟨pushesTo_bare hi rfl, pushesTo_bare hi rfl, pushesTo_bare hi rfl, pushesTo_bare hi rfl, pushesTo_bare hi rfl,
    pushesTo_bare hi rfl, pushesTo_bare hi rfl, pushesTo_bare hi rfl, pushesTo_bare hi rfl, pushesTo_bare hi rfl⟩

/-- A source form that pushes its value. -/
theorem rimSrcThen_push_rule {w : Width} {i : RimSrc w → Instr}
    (hexec : ∀ o s, exec (i o) s = rimSrcThen o (push w) s) (hnext : ∀ o s, nextOf (i o) s = nextIp s (2 + o.tail)) :
    RimSrcRule i fun i s reach v => PushesTo i s reach v (nextOf i s) := by
  intro o s
  simp only [traps_iff, hnext, hexec]
  intro hi
  obtain ⟨hfault, hdone⟩ := rimSrcThen_spec hi o (push w)
  refine ⟨hfault, fun hsrc => ?_⟩
  obtain ⟨v, u, hv, hpass, hrun⟩ := hdone hsrc
  exact ⟨v, hv, pushesTo_of hpass ((hexec o s).trans hrun)⟩

/-- Settles O35: the three widths are one shape. -/
theorem pushOperand : Obligations.PushOperand :=
  ⟨rimSrcThen_push_rule (fun _ _ => rfl) fun _ _ => rfl, rimSrcThen_push_rule (fun _ _ => rfl) fun _ _ => rfl,
    rimSrcThen_push_rule (fun _ _ => rfl) fun _ _ => rfl⟩

/-! ### Pops to registers -/

/-- A pop to a register: the register is written after SP has moved, so that in POP SP the loaded value wins (R257). -/
theorem popsTo_register {s : State} (hi : StateInv s) {w : Width} {i : Instr} (n : Fin w.regs) {next : Word}
    (hexec : exec i s = complete s ((pop w { s with ip := next }).bind fun v t => .ok () (writeReg w n v t))) :
    PopsTo w i s fun reach v => Completes i s
      (regsOf (writeReg w n v { s with sp := s.sp + BitVec.ofNat 32 w.bytes, ip := next })) reach 0 [] :=
  popsTo_put hi hexec (fun v t => writeReg_same t w n v) fun v _ _ h => regsOf_writeReg_congr h w n v

/-- Settles O34: each form pops to its register. -/
theorem popRegister : Obligations.PopRegister := fun _ hi =>
  ⟨popsTo_register (w := .b16) hi 0 rfl, popsTo_register (w := .b16) hi 1 rfl, popsTo_register (w := .b16) hi 2 rfl,
    popsTo_register (w := .b16) hi 3 rfl, popsTo_register (w := .b16) hi 4 rfl, popsTo_register (w := .b16) hi 5 rfl,
    popsTo_register (w := .b16) hi 6 rfl, popsTo_register (w := .b16) hi 7 rfl, popsTo_register (w := .b32) hi 4 rfl,
    popsTo_register (w := .b32) hi 5 rfl⟩

/-- Settles O37: with PV = 1 the privilege check falls away, and PF is pushed and popped as its 16-bit image. -/
theorem pushPopFlags : Obligations.PushPopFlags := by
  intro s hi hp
  have hadvanced : ({ s with ip := nextIp s 1 } : State).pv = true := hp
  refine ⟨pushesTo_bare hi ?_, ?_⟩
  · rw [← pfImage_eq]
    exact congrArg (complete s) (needPrivilege_of hadvanced _)
  · exact popsTo_put (w := .b16) (put := setPf) (next := nextIp s 1) hi
      (congrArg (complete s) (needPrivilege_of hadvanced _))
      (fun _ _ => ⟨rfl, rfl, rfl, rfl, rfl, rfl, rfl, rfl, rfl, rfl, rfl⟩)
      fun v _ _ h => congrArg (fun r : Regs => { r with ie := v.getLsbD 0, pv := v.getLsbD 1, ii := v.getLsbD 2 }) h

/-! ### Pops to operands (R259, R261) -/

/-- A register destination other than SP leaves SP. -/
theorem writeReg_sp {w : Width} {n : Fin w.regs} (h : w = .b32 → n.val ≠ 5) (v : BitVec w.bits) (s : State) :
    (writeReg w n v s).sp = s.sp := by
  cases w with
  | b8 => exact setReg8_sp n v s
  | b16 => exact setReg16_sp n v s
  | b32 =>
    fin_cases n
    any_goals rfl
    exact absurd rfl (h rfl)

theorem regsAfter_moved_sp {w : Width} {l : Loc w} (h : ∀ n, l = .reg n → w = .b32 → n.val ≠ 5) (v : BitVec w.bits)
    (next : Word) (s : State) : (regsAfter l (moved v) next s).sp = s.sp := by
  cases l with
  | reg n => exact writeReg_sp (h n rfl) v s
  | imm c => rfl
  | mem a => rfl

/-- The generic pop to a destination other than SP: the stack's read, the destination's write, and SP last. -/
theorem popsTo_popTo {s : State} (hi : StateInv s) {w : Width} {i : Instr} {l : Loc w} {next : Word}
    (hexec : exec i s = complete s (popTo l { s with ip := next }))
    (hl : ∀ n, l = .reg n → w = .b32 → n.val ≠ 5) :
    PopsTo w i s fun reach v => Commits i s reach l (moved v)
      { regsAfter l (moved v) next s with sp := s.sp + BitVec.ofNat 32 w.bytes } := by
  refine popsTo_of hi hexec fun v u hu hrun => ?_
  rw [← commit_moved] at hrun
  rw [commits_iff, hrun]
  refine ⟨fun _ e he => ?_, fun hw => ?_⟩
  · obtain ⟨t, ht, hleft⟩ := commit_fault hu l (moved v) next rfl he
    rw [ht]
    exact raises_of hleft
  · obtain ⟨t, ht, hleft⟩ := commit_ok hu l (moved v) next hw
    have hsp : t.sp = s.sp := (congrArg Regs.sp hleft.regs).trans (regsAfter_moved_sp hl v next s)
    refine ⟨{ t with sp := t.sp + BitVec.ofNat 32 w.bytes }, by rw [ht]; rfl, ?_⟩
    have hregs : regsOf { t with sp := t.sp + BitVec.ofNat 32 w.bytes } =
        { regsAfter l (moved v) next s with sp := s.sp + BitVec.ofNat 32 w.bytes } := by
      rw [← hleft.regs, ← hsp]
      rfl
    rw [← hregs]
    exact hleft.set (sameButRegs_sp_ip t (t.sp + BitVec.ofNat 32 w.bytes) t.ip)

/-- POPW SP: the loaded value is committed to SP, which does not move again. -/
theorem popw_sp_popsTo {s : State} (hi : StateInv s) :
    PopsTo .b32 (.popw (.reg 5)) s fun reach v =>
      Commits (.popw (.reg 5)) s reach (.reg 5 : Loc .b32) (moved v)
        { regsAfter (.reg 5 : Loc .b32) (moved v) (nextOf (.popw (.reg 5)) s) s with sp := v } := by
  refine popsTo_of (next := nextOf (.popw (.reg 5)) s) (act := fun (v : Word) t => .ok () { t with sp := v }) hi rfl
    fun v u hu hrun => ?_
  rw [commits_iff, hrun]
  exact commit_ends hu (.reg 5 : Loc .b32) (moved v) _

/-- Settles O36: every destination but SP goes through the generic pop. -/
theorem popOperand : Obligations.PopOperand := by
  intro s hi
  refine ⟨fun o => popsTo_popTo (w := .b16) hi rfl fun _ _ => Width.noConfusion,
    fun o => popsTo_popTo (w := .b8) hi rfl fun _ _ => Width.noConfusion, fun o => ?_⟩
  by_cases ho : o = .reg 5
  · subst ho
    exact popw_sp_popsTo hi
  · simp only [if_neg ho]
    have hloc : rimDstLoc o (nextOf (.popw o) s) s ≠ .reg 5 := by
      cases o with
      | reg n => exact fun h => ho (congrArg RimDst.reg (Loc.reg.inj h))
      | mem m => exact fun h => by cases h
    refine popsTo_popTo (w := .b32) hi (congrArg (complete s) (if_neg hloc)) fun n hn _ h5 => hloc ?_
    rw [hn]
    exact congrArg Loc.reg (Fin.ext h5)

/-! ### Pushes undone by pops in reverse order (R251) -/

theorem exec_pushOf (n : Fin 8) (s : State) :
    exec (pushOf n) s = complete s (push .b16 (reg16 n s) { s with ip := nextIp s 1 }) := by
  fin_cases n <;> rfl

theorem exec_popOf (n : Fin 8) (s : State) :
    exec (popOf n) s =
      complete s ((pop .b16 { s with ip := nextIp s 1 }).bind fun v t => .ok () (setReg16 n v t)) := by
  fin_cases n <;> rfl

theorem setReg16_reg16 (n : Fin 8) (s : State) : setReg16 n (reg16 n s) s = s := by
  fin_cases n <;> rfl

theorem runAll_cons {i : Instr} {s t : State} (h : exec i s = .next t) (is : List Instr) :
    runAll (i :: is) s = runAll is t := by
  rw [runAll, h]

theorem runAll_append (is js : List Instr) : ∀ s, runAll (is ++ js) s = (runAll is s).bind (runAll js) := by
  induction is with
  | nil => intro s; rfl
  | cons i is ih =>
    intro s
    rw [List.cons_append, runAll, runAll]
    split
    · exact ih _
    · rfl

/-- The little-endian bytes of a number make it again (R66). -/
theorem leNat_leBytes (n : Nat) : ∀ v, v < 256 ^ n → leNat (leBytes n v) = v := by
  induction n with
  | zero => intro v hv; rw [leBytes, leNat]; omega
  | succ n ih =>
    intro v hv
    have hhigh : v / 256 < 256 ^ n := Nat.div_lt_of_lt_mul (by rwa [← pow_succ'])
    rw [leBytes, leNat, ih _ hhigh, BitVec.toNat_ofNat]
    omega

/-- Bytes in view at consecutive addresses make their number. -/
theorem viewNum_eq_leNat {v : Nat → Option Byte} (bs : List Byte) : ∀ a,
    (∀ k, k < bs.length → v (a + k) = some (bs.getD k 0)) → viewNum v a bs.length = some (leNat bs) := by
  induction bs with
  | nil => intro a _; rfl
  | cons b bs ih =>
    intro a h
    have hhead : v a = some b := h 0 (by simp)
    have htail : viewNum v (a + 1) bs.length = some (leNat bs) := ih (a + 1) fun k hk => by
      rw [Nat.add_right_comm a 1 k]
      exact h (k + 1) (Nat.succ_lt_succ hk)
    simp only [List.length_cons, viewNum, hhead, htail, leNat]

/-- Stored bytes are in view where RAM owns their addresses. -/
theorem putBytes_in {v : Nat → Option Byte} {a k : Nat} {bs : List Byte} (hk : k < bs.length)
    (h : (v (a + k)).isSome = true) : putBytes v a bs (a + k) = some (bs.getD k 0) := by
  obtain ⟨b, hb⟩ := Option.isSome_iff_exists.1 h
  rw [putBytes, if_pos (by omega), hb, Option.map_some, Nat.add_sub_cancel_left]

/-- The `n` words below SP are RAM and can be written and read. -/
structure StackServes (s : State) (n : Nat) : Prop where
  room : 2 * n ≤ s.sp.toNat
  writable : ∀ k, k < n → (accessPlan true s.plat (s.sp.toNat - 2 * (k + 1)) 2 s.pv).2 = none
  readable : ∀ k, k < n → (accessPlan false s.plat (s.sp.toNat - 2 * (k + 1)) 2 s.pv).2 = none
  ram : ∀ x, s.sp.toNat - 2 * n ≤ x → x < s.sp.toNat → (ramView s x).isSome = true

theorem StackServes.sp_sub {s : State} {n : Nat} (h : StackServes s (n + 1)) :
    (s.sp - BitVec.ofNat 32 2).toNat = s.sp.toNat - 2 := by
  have := h.room
  rw [BitVec.toNat_sub_of_le (by rw [BitVec.le_def, BitVec.toNat_ofNat]; omega), BitVec.toNat_ofNat]

/-- What a push of a word leaves on a stack that serves it. -/
structure Pushed (s : State) (v : Half) (t : State) : Prop where
  inv : StateInv t
  regs : regsOf t = { regsOf s with sp := s.sp - 2, ip := s.ip + 1 }
  plat : t.plat = s.plat
  ram : ∀ x, ramView t x = putBytes (ramView s) (s.sp.toNat - 2) (leBytes 2 v.toNat) x

theorem exec_pushOf_pushed {s : State} (hi : StateInv s) {k : Nat} (h : StackServes s (k + 1)) (n : Fin 8) :
    ∃ t, exec (pushOf n) s = .next t ∧ Pushed s (reg16 n s) t := by
  have hplan := h.writable 0 (by omega)
  obtain ⟨t, ht, hleft⟩ := (pushesTo_bare (w := .b16) hi (exec_pushOf n s)).2 (by
    simp only [Writable, locPlan, Width.bytes, h.sp_sub]
    exact hplan)
  refine ⟨t, ht, hleft.inv hi, hleft.regs, hleft.rest.plat, fun x => ?_⟩
  rw [hleft.ram x, h.sp_sub]

theorem Pushed.sp_toNat {s t : State} {v : Half} (hp : Pushed s v t) {n : Nat} (h : StackServes s (n + 1)) :
    t.sp.toNat = s.sp.toNat - 2 := (congrArg (fun r => r.sp.toNat) hp.regs).trans h.sp_sub

/-- After a push the stack serves one word less. -/
theorem Pushed.serves {s t : State} {v : Half} (hp : Pushed s v t) {n : Nat} (h : StackServes s (n + 1)) :
    StackServes t n := by
  have hsp := hp.sp_toNat h
  have hpv : t.pv = s.pv := congrArg Regs.pv hp.regs
  have hword : ∀ k, s.sp.toNat - 2 - 2 * (k + 1) = s.sp.toNat - 2 * (k + 1 + 1) := fun k => by omega
  have hroom := h.room
  refine ⟨by omega, fun k hk => ?_, fun k hk => ?_, fun x hlow hhigh => ?_⟩
  · rw [hp.plat, hpv, hsp, hword]
    exact h.writable (k + 1) (by omega)
  · rw [hp.plat, hpv, hsp, hword]
    exact h.readable (k + 1) (by omega)
  · rw [hp.ram, putBytes_out (.inl (by omega))]
    exact h.ram x (by omega) (by omega)

/-- The pushed word is the number in view at the new SP. -/
theorem Pushed.viewNum_sp {s t : State} {v : Half} (hp : Pushed s v t) {n : Nat} (h : StackServes s (n + 1)) :
    viewNum (ramView t) (s.sp.toNat - 2) 2 = some v.toNat := by
  have hroom := h.room
  have hbytes := viewNum_eq_leNat (v := ramView t) (leBytes 2 v.toNat) (s.sp.toNat - 2) fun k hk => by
    rw [leBytes_length] at hk
    rw [hp.ram, putBytes_in (by rw [leBytes_length]; exact hk) (h.ram _ (by omega) (by omega))]
  rwa [leBytes_length, leNat_leBytes 2 _ v.isLt] at hbytes

/-- Registers, platform and RAM from SP upwards are as before, IP apart, which is `k` bytes on. -/
structure Restored (s : State) (k : Nat) (t : State) : Prop where
  inv : StateInv t
  regs : regsOf t = { regsOf s with ip := s.ip + BitVec.ofNat 32 k }
  plat : t.plat = s.plat
  above : ∀ x, s.sp.toNat ≤ x → ramView t x = ramView s x

section
variable {s s1 t : State} {v : Half} {j k : Nat} (hp : Pushed s v s1) (hr : Restored s1 k t)
include hp hr

/-- After a run that restored the state a push left, moving SP and IP past the pop leaves the registers as before the
push. -/
theorem Pushed.regs_restored :
    regsOf { t with sp := t.sp + 2, ip := nextIp t 1 } = regsOf { s with ip := s.ip + BitVec.ofNat 32 (k + 2) } := by
  have hregs : regsOf t = { regsOf s with sp := s.sp - 2, ip := s.ip + 1 + BitVec.ofNat 32 k } := by
    rw [hr.regs, hp.regs, show s1.ip = s.ip + 1 from congrArg Regs.ip hp.regs]
  have hnext : s.ip + 1 + BitVec.ofNat 32 k + 1 = s.ip + BitVec.ofNat 32 (k + 2) := by
    rw [show k + 2 = 1 + k + 1 by omega, BitVec.ofNat_add, BitVec.ofNat_add, ← add_assoc, ← add_assoc]
    rfl
  change { regsOf t with sp := (regsOf t).sp + 2, ip := (regsOf t).ip + 1 } = _
  rw [hregs, hnext, sub_add_cancel]
  rfl

/-- Such a run leaves SP where the push did. -/
theorem Pushed.sp_restored : t.sp = s.sp - 2 :=
  (congrArg Regs.sp hr.regs).trans (congrArg Regs.sp hp.regs)

/-- Such a run leaves the pushed word in view at SP. -/
theorem Pushed.viewNum_restored (h : StackServes s (j + 1)) : viewNum (ramView t) t.sp.toNat 2 = some v.toNat := by
  rw [← hp.viewNum_sp h, hp.sp_restored hr, show (s.sp - 2).toNat = s.sp.toNat - 2 from h.sp_sub]
  have hsp := hp.sp_toNat h
  simp only [viewNum, hr.above _ hsp.le, hr.above _ (hsp.le.trans (Nat.le_succ _))]

end

/-- A register pushed, and popped after a run that restored the state the push left, is restored. -/
theorem exec_popOf_restored {s s1 t : State} {n : Fin 8} {k j : Nat} (h : StackServes s (j + 1))
    (hp : Pushed s (reg16 n s) s1) (hr : Restored s1 k t) :
    ∃ u, exec (popOf n) t = .next u ∧ Restored s (k + 2) u := by
  have hplat : t.plat = s.plat := hr.plat.trans hp.plat
  have hpv : t.pv = s.pv := (congrArg Regs.pv hr.regs).trans (congrArg Regs.pv hp.regs)
  have hsp : t.sp.toNat = s.sp.toNat - 2 := (congrArg BitVec.toNat (hp.sp_restored hr)).trans h.sp_sub
  have hread : Readable t (Loc.mem t.sp : Loc .b16) := by
    simp only [Readable, locPlan, hsp, hplat, hpv]
    exact h.readable 0 (Nat.succ_pos j)
  obtain ⟨v, hv, u, hu, hleft⟩ := (popsTo_register (w := .b16) hr.inv n (exec_popOf n t)).2 hread
  obtain rfl : v = reg16 n s := BitVec.eq_of_toNat_eq (hv _ (hp.viewNum_restored hr h))
  refine ⟨u, hu, hleft.inv hr.inv, ?_, hleft.rest.plat.trans hplat, fun x hx => ?_⟩
  · calc regsOf u
        = regsOf (writeReg .b16 n (reg16 n s) { t with sp := t.sp + 2, ip := nextIp t 1 }) := hleft.regs
      _ = regsOf (setReg16 n (reg16 n s) { s with ip := s.ip + BitVec.ofNat 32 (k + 2) }) :=
          regsOf_writeReg_congr (hp.regs_restored hr) .b16 n (reg16 n s)
      _ = regsOf { s with ip := s.ip + BitVec.ofNat 32 (k + 2) } :=
          congrArg regsOf (setReg16_reg16 n { s with ip := s.ip + BitVec.ofNat 32 (k + 2) })
  · have hroom := h.room
    have hword : s.sp.toNat - 2 + (leBytes 2 (reg16 n s).toNat).length ≤ x := by
      rw [leBytes_length]
      omega
    rw [hleft.ram, putBytes_nil, hr.above x ((hp.sp_toNat h).le.trans (by omega)), hp.ram, putBytes_out (.inr hword)]

/-- Registers pushed and popped in reverse order, by induction on the list: the first pushed is the last popped. -/
theorem runAll_push_pop (ns : List (Fin 8)) : ∀ s, StateInv s → StackServes s ns.length →
    ∃ t, runAll (ns.map pushOf ++ ns.reverse.map popOf) s = some t ∧ Restored s (2 * ns.length) t := by
  induction ns with
  | nil =>
    intro s hi _
    exact ⟨s, rfl, hi, congrArg (fun x => { regsOf s with ip := x }) (add_zero s.ip).symm, rfl, fun _ _ => rfl⟩
  | cons n ns ih =>
    intro s hi h
    obtain ⟨s1, hpush, hp⟩ := exec_pushOf_pushed hi h n
    obtain ⟨t, hrun, hr⟩ := ih s1 hp.inv (hp.serves h)
    obtain ⟨u, hpop, hu⟩ := exec_popOf_restored h hp hr
    refine ⟨u, ?_, hu⟩
    rw [List.map_cons, List.cons_append, runAll_cons hpush, List.reverse_cons, List.map_append, ← List.append_assoc,
      runAll_append, hrun]
    exact runAll_cons hpop []

/-- Settles O38: the stack the statement assumes is one that serves the words pushed. -/
theorem pushPopInverse : Obligations.PushPopInverse := by
  intro ns s hi hroom hplan hram
  obtain ⟨t, hrun, hr⟩ := runAll_push_pop ns s hi
    ⟨hroom, fun k hk => (hplan k hk).1, fun k hk => (hplan k hk).2, hram⟩
  exact ⟨t, hrun, hr.regs⟩

end Sys2Proof.Machine

/-! The ALU's addition and subtraction with the spec's formulas (spec/40_alu.md R181 to R185): a flag group as a
number, the one adder as sum, carry and signed overflow, and subtraction as the adder on the complement. -/

namespace Sys2Proof.Machine

/-! ### Flag groups (R181, R182) -/

theorem flagGroup_toNat (c s o z : Bool) : (flagGroup c s o z).toNat = groupNat c s o z := by
  simp only [flagGroup, groupNat, toNat_append_eq_add, BitVec.toNat_ofBool]
  ring

theorem groupOf_toNat {w : Nat} (c o : Bool) (r : BitVec w) :
    (groupOf c o r).toNat = groupNat c r.msb o (decide (r = 0)) := flagGroup_toNat c r.msb o _

theorem carryFlag_eq_laneC (f : Half) : carryFlag f = laneC f 0 := groupC_flagsAt f 0

theorem laneCarry_eq_laneC (f : Half) (i : Nat) : laneCarry f i = laneC f i := groupC_flagsAt f i

theorem scalarFlags_eq_ofNat (g : BitVec 4) : scalarFlags g = BitVec.ofNat 16 g.toNat := (BitVec.ofNat_toNat 16 g).symm

theorem scalar_eq_outcome {w : Nat} (r : BitVec w × BitVec 4) : AluOut.scalar r = outcome r.1 r.2.toNat := by
  rw [AluOut.scalar, outcome, scalarFlags_eq_ofNat]

theorem compare_eq_compared {w : Nat} (r : BitVec w × BitVec 4) : AluOut.compare r = compared r.2.toNat := by
  rw [AluOut.compare, compared, scalarFlags_eq_ofNat]

/-! ### The adder (R183, R184) -/

theorem addCore_sum {w : Nat} (a b : BitVec w) (cin : Bool) :
    (addCore a b cin).1 = a + b + BitVec.ofNat w cin.toNat := by
  simp [addCore, BitVec.ofNat_add]

/-- Two operands of one sign whose sum has the other: exactly then the signed sum leaves the range. -/
theorem addCore_overflow {w : Nat} (hw : 0 < w) (a b : BitVec w) (cin : Bool) :
    (addCore a b cin).2.2 = overSigned w (a.toInt + b.toInt + cin.toNat) := by
  obtain ⟨k, rfl⟩ : ∃ k, w = k + 1 := ⟨w - 1, by omega⟩
  have ha := a.isLt
  have hb := b.isLt
  have hc : cin.toNat ≤ 1 := Bool.toNat_le cin
  have hpow : 2 ^ (k + 1) = 2 * 2 ^ k := by rw [pow_succ, mul_comm]
  have hsum : (a.toNat + b.toNat + cin.toNat) % 2 ^ (k + 1) =
      if a.toNat + b.toNat + cin.toNat < 2 ^ (k + 1) then a.toNat + b.toNat + cin.toNat
      else a.toNat + b.toNat + cin.toNat - 2 ^ (k + 1) := by
    split
    · next h => exact Nat.mod_eq_of_lt h
    · next h => rw [Nat.mod_eq_sub_mod (by omega), Nat.mod_eq_of_lt (by omega)]
  have hrange : (2 : Int) ^ k = ((2 ^ k : Nat) : Int) := by norm_cast
  rw [Bool.eq_iff_iff]
  simp only [addCore, overSigned, BitVec.msb_eq_decide, BitVec.toInt_eq_toNat_cond, BitVec.toNat_ofNat, hsum,
    Nat.add_sub_cancel, hrange, Bool.and_eq_true, beq_iff_eq, bne_iff_ne, ne_eq, decide_eq_decide, decide_eq_true_eq]
  generalize 2 ^ (k + 1) = q at *
  generalize 2 ^ k = p at *
  subst hpow
  split <;> split <;> split <;> omega

theorem aluAdd_fst {w : Nat} (a b : BitVec w) (cin : Bool) :
    (aluAdd a b cin).1 = a + b + BitVec.ofNat w cin.toNat := addCore_sum a b cin

theorem aluAdd_snd_toNat {w : Nat} (hw : 0 < w) (a b : BitVec w) (cin : Bool) :
    (aluAdd a b cin).2.toNat = addGroup a b cin := by
  rw [aluAdd, groupOf_toNat, addCore_overflow hw, addCore_sum]
  rfl

/-! ### Subtraction (R185) -/

/-- The signed number of the complement. -/
theorem toInt_complement {w : Nat} (hw : 0 < w) (b : BitVec w) : (~~~b).toInt = -b.toInt - 1 := by
  have hb := b.isLt
  have heven : 2 ^ w = 2 * 2 ^ (w - 1) := (Nat.two_pow_pred_mul_two hw).symm.trans (mul_comm _ _)
  rw [BitVec.toInt_eq_toNat_cond, BitVec.toInt_eq_toNat_cond, BitVec.toNat_not]
  split <;> split <;> omega

/-- The carry-in of a subtraction is one less the borrow. -/
theorem toNat_not_add_toNat (bin : Bool) : (!bin).toNat + bin.toNat = 1 := by cases bin <;> rfl

theorem ofNat_not_toNat (w : Nat) (bin : Bool) :
    BitVec.ofNat w (!bin).toNat = 1 - BitVec.ofNat w bin.toNat := by
  cases bin <;> simp

theorem aluSub_fst {w : Nat} (a b : BitVec w) (bin : Bool) :
    (aluSub a b bin).1 = a - b - BitVec.ofNat w bin.toNat :=
  calc (aluSub a b bin).1
      = a + ~~~b + BitVec.ofNat w (!bin).toNat := addCore_sum a (~~~b) (!bin)
    _ = a + (-b - 1) + (1 - BitVec.ofNat w bin.toNat) := by rw [BitVec.not_eq_neg_add, ofNat_not_toNat]; rfl
    _ = a - b - BitVec.ofNat w bin.toNat := by ring

/-- The borrow is the inverted carry. -/
theorem addCore_borrow {w : Nat} (a b : BitVec w) (bin : Bool) :
    (!(addCore a (~~~b) (!bin)).2.1) = decide (a.toNat < b.toNat + bin.toNat) := by
  have hb := b.isLt
  have hbin := toNat_not_add_toNat bin
  rw [addCore, ← decide_not, BitVec.toNat_not]
  exact decide_eq_decide.2 (by omega)

theorem aluSub_snd_toNat {w : Nat} (hw : 0 < w) (a b : BitVec w) (bin : Bool) :
    (aluSub a b bin).2.toNat = subGroup a b bin := by
  have hsum := aluSub_fst a b bin
  have hint : a.toInt + (~~~b).toInt + (!bin).toNat = a.toInt - b.toInt - bin.toNat := by
    have := toNat_not_add_toNat bin
    rw [toInt_complement hw]
    omega
  rw [aluSub] at hsum ⊢
  rw [groupOf_toNat, addCore_borrow, addCore_overflow hw, hint]
  dsimp only at hsum
  rw [hsum]
  rfl
/-! ### Outcomes of the scalar forms (R182) -/

/-- A width of the machine's operands is not 0, which the sign bit needs. -/
theorem Width.bits_pos (w : Width) : 0 < w.bits := by cases w <;> decide

section
variable {w : Nat} (hw : 0 < w) (a b : BitVec w) (c : Bool)
include hw

theorem scalar_aluAdd :
    AluOut.scalar (aluAdd a b c) = outcome (a + b + BitVec.ofNat w c.toNat) (addGroup a b c) := by
  rw [scalar_eq_outcome, aluAdd_fst, aluAdd_snd_toNat hw]

theorem scalar_aluSub :
    AluOut.scalar (aluSub a b c) = outcome (a - b - BitVec.ofNat w c.toNat) (subGroup a b c) := by
  rw [scalar_eq_outcome, aluSub_fst, aluSub_snd_toNat hw]

theorem compare_aluSub : AluOut.compare (aluSub a b c) = compared (subGroup a b c) := by
  rw [compare_eq_compared, aluSub_snd_toNat hw]

theorem scalar_aluAdd_false : AluOut.scalar (aluAdd a b false) = outcome (a + b) (addGroup a b false) :=
  (scalar_aluAdd hw a b false).trans (congrArg (outcome · _) (add_zero (a + b)))

theorem scalar_aluSub_false : AluOut.scalar (aluSub a b false) = outcome (a - b) (subGroup a b false) :=
  (scalar_aluSub hw a b false).trans (congrArg (outcome · _) (sub_zero (a - b)))

end

end Sys2Proof.Machine

/-! The rules of the operand templates at the widths of the kind SZ (spec/30_encoding.md R127), and of the one-operand
form that reads its destination. -/

namespace Sys2Proof.Machine

/-- A one-operand form that reads its destination obeys the rule of its own operation. -/
theorem rimDstRead_rule {w : Width} {i : RimDst w → Instr} {extra : Nat}
    {op rule : State → BitVec w.bits → AluOut w.bits}
    (hexec : ∀ o s, exec (i o) s = rimDstRead extra o (op s) s)
    (hnext : ∀ o s, nextOf (i o) s = nextIp s (2 + extra + o.tail)) (hrule : ∀ s a, rule s a = op s a) :
    RimDstRule i rule := by
  intro o s
  simp only [traps_iff, commits_iff, hexec, hnext, hrule]
  exact fun hi => rimDstRead_spec hi extra o (op s)

/-- Both widths of SZ, the destination read. -/
theorem szRead_rule {i : Rim2Sz → Instr}
    {op rule : (w : Nat) → State → BitVec w → BitVec w → Option (AluOut w)}
    (hexec : ∀ o s, exec (i o) s = szRead o (fun w => op w s) s)
    (hnext : ∀ o s, nextOf (i o) s = nextIp s (2 + o.tail))
    (hrule : ∀ w, 0 < w → ∀ s a b, rule w s a b = op w s a b) : SzRule i rule :=
  ⟨fun o s => rim2Read_rule (extra := 0) (hexec (.w16 o) s) (hnext (.w16 o) s) (hrule 16 (by decide) s),
    fun o s => rim2Read_rule (extra := 0) (hexec (.w8 o) s) (hnext (.w8 o) s) (hrule 8 (by decide) s)⟩

/-- Both widths of SZ, one operand read and written. -/
theorem szDstRead_rule {i : RimDstSz → Instr} {extra : Nat} {op rule : (w : Nat) → State → BitVec w → AluOut w}
    (hexec : ∀ o s, exec (i o) s = szDstRead extra o (fun w => op w s) s)
    (hnext : ∀ o s, nextOf (i o) s = nextIp s (2 + extra + o.tail))
    (hrule : ∀ w, 0 < w → ∀ s a, rule w s a = op w s a) : SzDstRule i rule :=
  ⟨rimDstRead_rule (fun o => hexec (.w16 o)) (fun o => hnext (.w16 o)) (hrule 16 (by decide)),
    rimDstRead_rule (fun o => hexec (.w8 o)) (fun o => hnext (.w8 o)) (hrule 8 (by decide))⟩

end Sys2Proof.Machine

/-! The scalar additions, subtractions and compares (spec/43_arith.md R280 to R290): each form is one of the shapes
above, and its outcome is the spec's. -/

namespace Sys2Proof.Machine

/-- Settles O42: sum and difference at every width, with C of group 0 as the carry or the borrow. -/
theorem addSubtract : Obligations.AddSubtract := by
  refine ⟨?add, ?adc, ?sub, ?sbb, ?addw, ?adcw, ?subw, ?sbbw⟩
  case add =>
    exact szRead_rule (op := fun _ _ a b => some (.scalar (aluAdd a b false))) (fun _ _ => rfl) (fun _ _ => rfl)
      fun _ hw _ a b => by rw [scalar_aluAdd_false hw]
  case adc =>
    exact szRead_rule (op := fun _ s a b => some (.scalar (aluAdd a b (carryFlag s.f)))) (fun _ _ => rfl)
      (fun _ _ => rfl) fun _ hw _ a b => by rw [scalar_aluAdd hw, carryFlag_eq_laneC]
  case sub =>
    exact szRead_rule (op := fun _ _ a b => some (.scalar (aluSub a b false))) (fun _ _ => rfl) (fun _ _ => rfl)
      fun _ hw _ a b => by rw [scalar_aluSub_false hw]
  case sbb =>
    exact szRead_rule (op := fun _ s a b => some (.scalar (aluSub a b (carryFlag s.f)))) (fun _ _ => rfl)
      (fun _ _ => rfl) fun _ hw _ a b => by rw [scalar_aluSub hw, carryFlag_eq_laneC]
  case addw =>
    exact fun _ _ => rim2Read_rule (extra := 0) rfl rfl fun a b => by rw [scalar_aluAdd_false (Width.bits_pos .b32)]
  case adcw =>
    exact fun _ _ => rim2Read_rule (extra := 0) rfl rfl fun a b => by
      rw [scalar_aluAdd (Width.bits_pos .b32), carryFlag_eq_laneC]
  case subw =>
    exact fun _ _ => rim2Read_rule (extra := 0) rfl rfl fun a b => by rw [scalar_aluSub_false (Width.bits_pos .b32)]
  case sbbw =>
    exact fun _ _ => rim2Read_rule (extra := 0) rfl rfl fun a b => by
      rw [scalar_aluSub (Width.bits_pos .b32), carryFlag_eq_laneC]

/-- Settles O43: the group of the difference without a result; sign extension is the byte's signed number at the
width. -/
theorem compare : Obligations.Compare := by
  refine ⟨?cmp, fun v => ?cmpi, ?cmpw⟩
  case cmp =>
    exact szRead_rule (op := fun _ _ a b => some (.compare (aluSub a b false))) (fun _ _ => rfl) (fun _ _ => rfl)
      fun _ hw _ a b => by rw [compare_aluSub hw]
  case cmpi =>
    exact szDstRead_rule (extra := 1) (fun _ _ => rfl) (fun _ _ => rfl) fun w hw _ a =>
      (compare_aluSub hw a (v.signExtend w) false).symm
  case cmpw =>
    exact fun _ _ => rim2Read_rule (extra := 0) rfl rfl fun a b => by rw [compare_aluSub (Width.bits_pos .b32)]

end Sys2Proof.Machine

/-! Packed operations (spec/40_alu.md R187, R188): a lane function that always has a result gives the spec's weighted
sums of results and groups; and with it the packed additions, subtractions and compare (spec/43_arith.md R291 to R295). -/

namespace Sys2Proof.Machine

theorem laneBits_pos (l : Lane) : 0 < laneBits l := by cases l <;> decide

theorem allSome_map_some {α : Type} (xs : List α) : allSome (xs.map some) = some xs := by
  induction xs with
  | nil => rfl
  | cons x xs ih => rw [List.map_cons, allSome, ih, Option.map_some]

theorem packed_eq_packedOut {M : Nat} (n W : Nat) (lane : Nat → BitVec M × BitVec 4) :
    packed n W (fun i => some (lane i)) =
      some (packedOut W M n (fun i => (lane i).1.toNat) fun i => (lane i).2.toNat) := by
  have hlanes : (List.range n).map (fun i => some (lane i)) = ((List.range n).map lane).map some :=
    List.map_map.symm
  rw [packed, hlanes, allSome_map_some, Option.map_some, List.map_map, List.map_map, packedOut,
    ← joinLanes_eq_fromLanes W n fun i => (lane i).1, ← joinLanes_eq_fromLanes 16 n fun i => (lane i).2]
  rfl

/-- A packed operation with a result in every lane, over the spec's lanes. -/
theorem packedOp_eq_packedOut (l : Lane)
    (op : Nat → BitVec (laneBits l) → BitVec (laneBits l) → BitVec (laneBits l) × BitVec 4) (a b : Half) :
    packedOp l (fun i x y => some (op i x y)) a b = some (packedOut 16 (laneBits l) (16 / laneBits l)
      (fun i => (op i (laneOf (laneBits l) a i) (laneOf (laneBits l) b i)).1.toNat)
      fun i => (op i (laneOf (laneBits l) a i) (laneOf (laneBits l) b i)).2.toNat) := by
  rw [packedOp, packed_eq_packedOut, laneCount_eq_div]
  simp only [laneAt_eq_laneOf]

/-- The lanes' additions, each with the carry-in of its number. -/
theorem packedOp_aluAdd (l : Lane) (cin : Nat → Bool) (a b : Half) :
    packedOp l (fun i x y => some (aluAdd x y (cin i))) a b = some (packedOut 16 (laneBits l) (16 / laneBits l)
      (fun i => (laneOf (laneBits l) a i + laneOf (laneBits l) b i + BitVec.ofNat (laneBits l) (cin i).toNat).toNat)
      fun i => addGroup (laneOf (laneBits l) a i) (laneOf (laneBits l) b i) (cin i)) := by
  rw [packedOp_eq_packedOut l fun i x y => aluAdd x y (cin i)]
  simp only [aluAdd_fst, aluAdd_snd_toNat (laneBits_pos l)]

/-- The lanes' subtractions, each with the borrow-in of its number. -/
theorem packedOp_aluSub (l : Lane) (bin : Nat → Bool) (a b : Half) :
    packedOp l (fun i x y => some (aluSub x y (bin i))) a b = some (packedOut 16 (laneBits l) (16 / laneBits l)
      (fun i => (laneOf (laneBits l) a i - laneOf (laneBits l) b i - BitVec.ofNat (laneBits l) (bin i).toNat).toNat)
      fun i => subGroup (laneOf (laneBits l) a i) (laneOf (laneBits l) b i) (bin i)) := by
  rw [packedOp_eq_packedOut l fun i x y => aluSub x y (bin i)]
  simp only [aluSub_fst, aluSub_snd_toNat (laneBits_pos l)]

/-- Settles O44: the packed operation lane by lane, the carry of a lane being C of its own group. -/
theorem packedAddSubtract : Obligations.PackedAddSubtract := by
  intro l L n
  refine ⟨?padd, ?padc, ?psub, ?psbb, ?pcmp⟩
  case padd =>
    exact fun _ _ => rim2Read_rule (extra := 0) rfl rfl fun a b => by
      rw [packedOp_aluAdd l fun _ => false]
      simp [L, n]
  case padc =>
    exact fun _ s => rim2Read_rule (extra := 0) rfl rfl fun a b => by
      rw [packedOp_aluAdd l (laneCarry s.f), funext (laneCarry_eq_laneC s.f)]
  case psub =>
    exact fun _ _ => rim2Read_rule (extra := 0) rfl rfl fun a b => by
      rw [packedOp_aluSub l fun _ => false]
      simp [L, n]
  case psbb =>
    exact fun _ s => rim2Read_rule (extra := 0) rfl rfl fun a b => by
      rw [packedOp_aluSub l (laneCarry s.f), funext (laneCarry_eq_laneC s.f)]
  case pcmp =>
    exact fun _ _ => rim2Read_rule (extra := 0) rfl rfl fun a b => by
      rw [packedOp_aluSub l fun _ => false]
      rfl

end Sys2Proof.Machine

/-! The ALU's products and quotients with the spec's formulas (spec/40_alu.md R191 to R197): every operation of the
model with its group read as a number. -/

namespace Sys2Proof.Machine

/-- A result of the model with its flag group as the spec's number (R181). -/
def numbered {w : Nat} (r : BitVec w × BitVec 4) : BitVec w × Nat := (r.1, r.2.toNat)

theorem scalar_eq_outcomeOf {w : Nat} (r : BitVec w × BitVec 4) : AluOut.scalar r = outcomeOf (numbered r) :=
  scalar_eq_outcome r

theorem map_scalar_eq {w : Nat} (r : Option (BitVec w × BitVec 4)) :
    r.map AluOut.scalar = (r.map numbered).map outcomeOf := by
  rw [Option.map_map]
  exact congrArg (Option.map · r) (funext scalar_eq_outcomeOf)

theorem numbered_groupOf {w v : Nat} (r : BitVec w) (c o : Bool) (x : BitVec v) :
    numbered (r, groupOf c o x) = (r, groupNat c x.msb o (decide (x = 0))) := by
  rw [numbered, groupOf_toNat]

/-! ### Products (R191 to R193) -/

/-- The high half of a product is not 0 exactly where the product has more than `w` bits. -/
theorem decide_div_ne_zero (p w : Nat) : decide (p / 2 ^ w ≠ 0) = decide (2 ^ w ≤ p) :=
  decide_eq_decide.2 (Nat.div_ne_zero_iff.trans (and_iff_right (Nat.two_pow_pos w).ne'))

theorem numbered_aluMul {w : Nat} (a b : BitVec w) : numbered (aluMul a b) = lowProduct a b := by
  rw [aluMul, numbered_groupOf, decide_div_ne_zero, BitVec.ofNat_mul, BitVec.ofNat_toNat, BitVec.ofNat_toNat,
    BitVec.setWidth_eq, BitVec.setWidth_eq, lowProduct]

theorem numbered_aluMulWideU {w : Nat} (w2 : Nat) (a b : BitVec w) :
    numbered (aluMulWideU w2 a b) = wideProductU w2 a b := by
  rw [aluMulWideU, numbered_groupOf, decide_div_ne_zero, BitVec.ofNat_mul, BitVec.ofNat_toNat, BitVec.ofNat_toNat,
    wideProductU]

/-- An integer survives the way through `w` signed bits exactly where it lies in their range. -/
theorem toInt_ofInt_eq_self_iff {w : Nat} (hw : 0 < w) (x : Int) :
    (BitVec.ofInt w x).toInt = x ↔ overSigned w x = false := by
  rw [overSigned, decide_eq_false_iff_not, not_or, not_lt, not_le]
  refine ⟨fun h => ?_, fun ⟨hlo, hhi⟩ => BitVec.toInt_ofInt_eq_self hw hlo hhi⟩
  rw [← h]
  exact ⟨BitVec.le_toInt _, BitVec.toInt_lt⟩

/-- Fewer bits of an integer's bits. -/
theorem setWidth_ofInt {w w2 : Nat} (hle : w ≤ w2) (x : Int) : (BitVec.ofInt w2 x).setWidth w = BitVec.ofInt w x := by
  apply BitVec.eq_of_toInt_eq
  have hdvd : 2 ^ w ∣ 2 ^ w2 := Nat.pow_dvd_pow 2 hle
  rw [BitVec.toInt_setWidth, ← Int.bmod_bmod_of_dvd hdvd, ← BitVec.toInt_eq_toNat_bmod, BitVec.toInt_ofInt,
    BitVec.toInt_ofInt, Int.bmod_bmod_of_dvd hdvd]

/-- A signed product fits in the double width. -/
theorem toInt_ofInt_product {w : Nat} (hw : 0 < w) (a b : BitVec w) :
    (BitVec.ofInt (2 * w) (a.toInt * b.toInt)).toInt = a.toInt * b.toInt := by
  have hpow : (2 : Int) ^ (w * 2 - 2) < 2 ^ (2 * w - 1) := pow_lt_pow_right₀ (by decide) (by omega)
  have hlo := BitVec.le_toInt_mul_toInt (x := a) (y := b)
  have hhi := BitVec.toInt_mul_toInt_le (x := a) (y := b)
  exact BitVec.toInt_ofInt_eq_self (by omega) (by omega) (by omega)

/-- A signed product differs from its low half sign-extended exactly where it leaves that half's range. -/
theorem product_ne_signExtend {w : Nat} (hw : 0 < w) (a b : BitVec w) :
    decide (BitVec.ofInt (2 * w) (a.toInt * b.toInt) ≠
      ((BitVec.ofInt (2 * w) (a.toInt * b.toInt)).setWidth w).signExtend (2 * w)) =
      overSigned w (a.toInt * b.toInt) := by
  have hle : w ≤ 2 * w := by omega
  have hfits : BitVec.ofInt (2 * w) (a.toInt * b.toInt) =
      ((BitVec.ofInt (2 * w) (a.toInt * b.toInt)).setWidth w).signExtend (2 * w) ↔
      overSigned w (a.toInt * b.toInt) = false := by
    rw [← toInt_ofInt_eq_self_iff hw, ← BitVec.toInt_inj, toInt_ofInt_product hw, setWidth_ofInt hle,
      BitVec.toInt_signExtend_of_le hle, eq_comm]
  rw [Bool.eq_iff_iff, decide_eq_true_iff, Ne, hfits, Bool.not_eq_false]

theorem numbered_aluMulWideS {w w2 : Nat} (hw : 0 < w) (hw2 : w2 = 2 * w) (a b : BitVec w) :
    numbered (aluMulWideS w2 a b) = wideProductS w2 a b := by
  subst hw2
  rw [aluMulWideS, numbered_groupOf, product_ne_signExtend hw, BitVec.ofInt_mul]
  rfl

/-- The unsigned product of the destination's low half (R301, R308). -/
theorem numbered_aluMulWideU_low {w w2 : Nat} (a : BitVec w2) (b : BitVec w) :
    numbered (aluMulWideU w2 (a.setWidth w) b) = wideProductU w2 (BitVec.ofNat w a.toNat) b := by
  rw [numbered_aluMulWideU, BitVec.ofNat_toNat]

/-- The signed product of the destination's low half (R302, R309). -/
theorem numbered_aluMulWideS_low {w w2 : Nat} (hw : 0 < w) (hw2 : w2 = 2 * w) (a : BitVec w2) (b : BitVec w) :
    numbered (aluMulWideS w2 (a.setWidth w) b) = wideProductS w2 (BitVec.ofNat w a.toNat) b := by
  rw [numbered_aluMulWideS hw hw2, BitVec.ofNat_toNat]

/-! ### Quotients (R194 to R197) -/

theorem numbered_aluDivU {w : Nat} (a b : BitVec w) : (aluDivU a b).map numbered = quotientU a b := by
  rw [aluDivU, quotientU]
  split
  · rfl
  · rw [Option.map_some, numbered_groupOf, ← BitVec.udiv_def, plainGroup]

/-- The only signed quotient above the range is that of the least number by -1. -/
theorem tdiv_above_range_iff {w : Nat} (hw : 0 < w) (a b : BitVec w) :
    (2 : Int) ^ (w - 1) - 1 < a.toInt.tdiv b.toInt ↔ a = BitVec.intMin w ∧ b = BitVec.allOnes w := by
  constructor
  · intro habove
    by_contra hother
    rw [not_and_or, ← BitVec.neg_one_eq_allOnes] at hother
    have hquot := BitVec.toInt_sdiv_of_ne_or_ne a b hother
    have hlt := BitVec.toInt_lt (x := a.sdiv b)
    omega
  · rintro ⟨rfl, rfl⟩
    have hmod : 2 ^ (w - 1) % 2 ^ w = 2 ^ (w - 1) :=
      Nat.mod_eq_of_lt (Nat.pow_lt_pow_right (by decide) (by omega))
    rw [BitVec.toInt_intMin, BitVec.toInt_allOnes, if_pos hw, hmod, Int.tdiv_neg, Int.tdiv_one, neg_neg]
    push_cast
    omega

theorem ofInt_tdiv_eq_sdiv {w : Nat} (a b : BitVec w) : BitVec.ofInt w (a.toInt.tdiv b.toInt) = a.sdiv b := by
  apply BitVec.eq_of_toInt_eq
  rw [BitVec.toInt_ofInt, BitVec.toInt_sdiv]

theorem numbered_aluDivS {w : Nat} (hw : 0 < w) (a b : BitVec w) : (aluDivS a b).map numbered = quotientS a b := by
  rw [aluDivS, quotientS, ite_or]
  simp only [tdiv_above_range_iff hw, ofInt_tdiv_eq_sdiv]
  split
  · rfl
  · split
    · rfl
    · rw [Option.map_some, numbered_groupOf, plainGroup]

/-- A quotient has more than `w` bits exactly where the dividend's high half is not below the divisor. -/
theorem two_pow_le_div_iff {n d : Nat} (w : Nat) (hd : 0 < d) : 2 ^ w ≤ n / d ↔ d ≤ n / 2 ^ w := by
  rw [Nat.le_div_iff_mul_le hd, Nat.le_div_iff_mul_le (Nat.two_pow_pos w), mul_comm]

theorem numbered_aluDivModU {w w2 : Nat} (n : BitVec w2) (b : BitVec w) :
    (aluDivModU n b).map numbered = divModU n b := by
  rw [aluDivModU, divModU]
  by_cases hb : b = 0
  · rw [if_pos hb, if_pos (by rw [hb]; exact Nat.zero_le _)]
    rfl
  · have hpos : 0 < b.toNat := Nat.pos_of_ne_zero fun h => hb (BitVec.eq_of_toNat_eq h)
    simp only [if_neg hb, two_pow_le_div_iff w hpos]
    split
    · rfl
    · rw [Option.map_some, numbered_groupOf, plainGroup]

theorem overSigned_eq_true_iff (w : Nat) (x : Int) :
    overSigned w x = true ↔ x < -((2 : Int) ^ (w - 1)) ∨ (2 : Int) ^ (w - 1) - 1 < x := by
  rw [overSigned, decide_eq_true_iff, Int.sub_one_lt_iff]

theorem numbered_aluDivModS {w w2 : Nat} (n : BitVec w2) (b : BitVec w) :
    (aluDivModS n b).map numbered = divModS n b := by
  have hrem : n.toInt.tmod b.toInt = n.toInt - n.toInt.tdiv b.toInt * b.toInt := by rw [Int.tmod_def, mul_comm]
  rw [aluDivModS, divModS]
  simp only [← overSigned_eq_true_iff, hrem, ite_or]
  split
  · rfl
  · split
    · rfl
    · rw [Option.map_some, numbered_groupOf, plainGroup]

end Sys2Proof.Machine

/-! The multiplies and divides of scalar operands (spec/44_muldiv.md R300 to R306, R314): each form is one of the shapes
above, and its outcome is the spec's. -/

namespace Sys2Proof.Machine

/-- Both widths of PROM, the destination read; the destination has twice the source's width. -/
theorem promRead_rule {i : Rim2Prom → Instr} {op : (w w2 : Nat) → BitVec w2 → BitVec w → Option (AluOut w2)}
    {rule : (w w2 : Nat) → State → BitVec w2 → BitVec w → Option (AluOut w2)}
    (hexec : ∀ o s, exec (i o) s = promRead o op s) (hnext : ∀ o s, nextOf (i o) s = nextIp s (2 + o.tail))
    (hrule : ∀ w w2, 0 < w → w2 = 2 * w → ∀ s a b, rule w w2 s a b = op w w2 a b) : PromRule i true rule :=
  ⟨fun o s => rim2Read_rule (extra := 0) (hexec (.w16 o) s) (hnext (.w16 o) s) (hrule 16 32 (by decide) rfl s),
    fun o s => rim2Read_rule (extra := 0) (hexec (.w8 o) s) (hnext (.w8 o) s) (hrule 8 16 (by decide) rfl s)⟩

/-- Settles O45: the products, the multiplicand of the wide ones being the destination's low half. -/
theorem multiply : Obligations.Multiply := by
  refine ⟨?mul, ?mulh, ?mulsh⟩
  case mul =>
    exact szRead_rule (op := fun _ _ a b => some (.scalar (aluMul a b))) (fun _ _ => rfl) (fun _ _ => rfl)
      fun _ _ _ a b => by rw [scalar_eq_outcomeOf, numbered_aluMul]
  case mulh =>
    exact promRead_rule (op := fun w w2 a b => some (.scalar (aluMulWideU w2 (a.setWidth w) b))) (fun _ _ => rfl)
      (fun _ _ => rfl) fun _ _ _ _ _ a b => by rw [scalar_eq_outcomeOf, numbered_aluMulWideU_low]
  case mulsh =>
    exact promRead_rule (op := fun w w2 a b => some (.scalar (aluMulWideS w2 (a.setWidth w) b))) (fun _ _ => rfl)
      (fun _ _ => rfl) fun _ _ hw hw2 _ a b => by rw [scalar_eq_outcomeOf, numbered_aluMulWideS_low hw hw2]

/-- Settles O46: the quotients, and a fault exactly where the spec has none. -/
theorem divide : Obligations.Divide := by
  refine ⟨?div, ?divs, ?divm, ?divms⟩
  case div =>
    exact szRead_rule (op := fun _ _ a b => (aluDivU a b).map .scalar) (fun _ _ => rfl) (fun _ _ => rfl)
      fun _ _ _ a b => by rw [map_scalar_eq, numbered_aluDivU]
  case divs =>
    exact szRead_rule (op := fun _ _ a b => (aluDivS a b).map .scalar) (fun _ _ => rfl) (fun _ _ => rfl)
      fun _ hw _ a b => by rw [map_scalar_eq, numbered_aluDivS hw]
  case divm =>
    exact promRead_rule (op := fun _ _ a b => (aluDivModU a b).map .scalar) (fun _ _ => rfl) (fun _ _ => rfl)
      fun _ _ _ _ _ a b => by rw [map_scalar_eq, numbered_aluDivModU]
  case divms =>
    exact promRead_rule (op := fun _ _ a b => (aluDivModS a b).map .scalar) (fun _ _ => rfl) (fun _ _ => rfl)
      fun _ _ _ _ _ a b => by rw [map_scalar_eq, numbered_aluDivModS]

end Sys2Proof.Machine

/-! Packed operations whose lanes may have no result (spec/40_alu.md R198): all lanes, or none of them; and with it the
packed multiplies and divides (spec/44_muldiv.md R307 to R313). -/

namespace Sys2Proof.Machine

theorem allSome_of_none_mem {α : Type} : ∀ {xs : List (Option α)}, none ∈ xs → allSome xs = none
  | none :: _, _ => rfl
  | some _ :: xs, h => by
    rw [allSome, allSome_of_none_mem (xs := xs) (by simpa using h), Option.map_none]

theorem packed_congr {M n W : Nat} {f g : Nat → Option (BitVec M × BitVec 4)} (h : ∀ i < n, f i = g i) :
    packed n W f = packed n W g := by
  unfold packed
  rw [List.map_congr_left fun i hi => h i (List.mem_range.1 hi)]

theorem packedOut_congr {M n W : Nat} {r r' g g' : Nat → Nat} (hr : ∀ i < n, r i = r' i) (hg : ∀ i < n, g i = g' i) :
    packedOut W M n r g = packedOut W M n r' g' := by
  rw [packedOut, packedOut, fromLanes_congr hr, fromLanes_congr hg]

theorem packedMaybe_eq_none {M n W : Nat} {lane : Nat → Option (BitVec M × Nat)} (h : ∃ i, i < n ∧ lane i = none) :
    packedMaybe W n lane = none := by
  obtain ⟨i, hi, hnone⟩ := h
  exact if_neg fun hall => Option.isSome_iff_ne_none.1 (hall i hi) hnone

theorem packedMaybe_some {M : Nat} (W n : Nat) (lane : Nat → BitVec M × Nat) :
    packedMaybe W n (fun i => some (lane i)) =
      some (packedOut W M n (fun i => (lane i).1.toNat) fun i => (lane i).2) := by
  exact if_pos fun _ _ => rfl

/-- The lanes joined, or the fault that one lane's is. -/
theorem packed_eq_packedMaybe {M : Nat} (n W : Nat) (lane : Nat → Option (BitVec M × BitVec 4)) :
    packed n W lane = packedMaybe W n fun i => (lane i).map numbered := by
  by_cases hall : ∀ i < n, (lane i).isSome
  · have hget : ∀ i < n, lane i = some ((lane i).getD (0, 0)) := fun i hi => by
      obtain ⟨r, hr⟩ := Option.isSome_iff_exists.1 (hall i hi)
      rw [hr, Option.getD_some]
    rw [packed_congr hget, packed_eq_packedOut, packedMaybe,
      if_pos fun i hi => Option.isSome_map.trans (hall i hi)]
    refine congrArg some (packedOut_congr (fun i hi => ?result) fun i hi => ?group)
    case result => rw [hget i hi]; rfl
    case group => rw [hget i hi]; rfl
  · push Not at hall
    obtain ⟨i, hi, hnone⟩ := hall
    have hlane : lane i = none := Option.not_isSome_iff_eq_none.1 hnone
    have hmem : none ∈ (List.range n).map lane := List.mem_map.2 ⟨i, List.mem_range.2 hi, hlane⟩
    rw [packed, allSome_of_none_mem hmem, packedMaybe_eq_none ⟨i, hi, by rw [hlane, Option.map_none]⟩,
      Option.map_none]

section
variable (l : Lane)

/-- A packed operation on equal lanes by the spec's formula for one lane. -/
theorem packedSame_eq_packedMaybe
    {op : BitVec (laneBits l) → BitVec (laneBits l) → Option (BitVec (laneBits l) × BitVec 4)}
    {spec : BitVec (laneBits l) → BitVec (laneBits l) → Option (BitVec (laneBits l) × Nat)}
    (hop : ∀ x y, (op x y).map numbered = spec x y) (a b : Half) :
    packedSame l op a b = packedMaybe 16 (16 / laneBits l) fun i =>
      spec (laneOf (laneBits l) a i) (laneOf (laneBits l) b i) := by
  simp only [packedSame, packed_eq_packedMaybe, laneCount_eq_div, laneAt_eq_laneOf, hop]

/-- A packed promotion by the spec's formula for one lane. -/
theorem packedWide_eq_packedMaybe
    {op : BitVec (2 * laneBits l) → BitVec (laneBits l) → Option (BitVec (2 * laneBits l) × BitVec 4)}
    {spec : BitVec (2 * laneBits l) → BitVec (laneBits l) → Option (BitVec (2 * laneBits l) × Nat)}
    (hop : ∀ x y, (op x y).map numbered = spec x y) (a : Word) (b : Half) :
    packedWide l op a b = packedMaybe 32 (16 / laneBits l) fun i =>
      spec (laneOf (2 * laneBits l) a i) (laneOf (laneBits l) b i) := by
  simp only [packedWide, packed_eq_packedMaybe, laneCount_eq_div, laneAt_eq_laneOf, hop]

/-- A packed operation on equal lanes that always has a result. -/
theorem packedSame_eq_packedOut
    {op : BitVec (laneBits l) → BitVec (laneBits l) → BitVec (laneBits l) × BitVec 4}
    {spec : BitVec (laneBits l) → BitVec (laneBits l) → BitVec (laneBits l) × Nat}
    (hop : ∀ x y, numbered (op x y) = spec x y) (a b : Half) :
    packedSame l (fun x y => some (op x y)) a b = some (packedOut 16 (laneBits l) (16 / laneBits l)
      (fun i => (spec (laneOf (laneBits l) a i) (laneOf (laneBits l) b i)).1.toNat)
      fun i => (spec (laneOf (laneBits l) a i) (laneOf (laneBits l) b i)).2) := by
  have hlane : ∀ x y, (some (op x y)).map numbered = some (spec x y) := fun x y => congrArg some (hop x y)
  rw [packedSame_eq_packedMaybe l (op := fun x y => some (op x y)) hlane, packedMaybe_some]

/-- A packed promotion that always has a result. -/
theorem packedWide_eq_packedOut
    {op : BitVec (2 * laneBits l) → BitVec (laneBits l) → BitVec (2 * laneBits l) × BitVec 4}
    {spec : BitVec (2 * laneBits l) → BitVec (laneBits l) → BitVec (2 * laneBits l) × Nat}
    (hop : ∀ x y, numbered (op x y) = spec x y) (a : Word) (b : Half) :
    packedWide l (fun x y => some (op x y)) a b = some (packedOut 32 (2 * laneBits l) (16 / laneBits l)
      (fun i => (spec (laneOf (2 * laneBits l) a i) (laneOf (laneBits l) b i)).1.toNat)
      fun i => (spec (laneOf (2 * laneBits l) a i) (laneOf (laneBits l) b i)).2) := by
  have hlane : ∀ x y, (some (op x y)).map numbered = some (spec x y) := fun x y => congrArg some (hop x y)
  rw [packedWide_eq_packedMaybe l (op := fun x y => some (op x y)) hlane, packedMaybe_some]

end

/-- Settles O47: every lane has a product, whose multiplicand is the low half of a wide lane. -/
theorem packedMultiply : Obligations.PackedMultiply := by
  intro l L n
  refine ⟨?pmul, ?pmulh, ?pmulsh⟩
  case pmul =>
    exact fun _ _ => rim2Read_rule (extra := 0) rfl rfl fun a b =>
      (packedSame_eq_packedOut l numbered_aluMul a b).symm
  case pmulh =>
    exact fun _ _ => rim2Read_rule (extra := 0) rfl rfl fun a b =>
      (packedWide_eq_packedOut l numbered_aluMulWideU_low a b).symm
  case pmulsh =>
    exact fun _ _ => rim2Read_rule (extra := 0) rfl rfl fun a b =>
      (packedWide_eq_packedOut l (numbered_aluMulWideS_low (laneBits_pos l) rfl) a b).symm

/-- Settles O48: the lane operations are the spec's, and one lane without a quotient leaves the whole without one. -/
theorem packedDivide : Obligations.PackedDivide := by
  intro l L n
  refine ⟨?pdiv, ?pdivs, ?pdivm, ?pdivms⟩
  case pdiv =>
    exact fun _ _ => rim2Read_rule (extra := 0) rfl rfl fun a b =>
      (packedSame_eq_packedMaybe l numbered_aluDivU a b).symm
  case pdivs =>
    exact fun _ _ => rim2Read_rule (extra := 0) rfl rfl fun a b =>
      (packedSame_eq_packedMaybe l (numbered_aluDivS (laneBits_pos l)) a b).symm
  case pdivm =>
    exact fun _ _ => rim2Read_rule (extra := 0) rfl rfl fun a b =>
      (packedWide_eq_packedMaybe l numbered_aluDivModU a b).symm
  case pdivms =>
    exact fun _ _ => rim2Read_rule (extra := 0) rfl rfl fun a b =>
      (packedWide_eq_packedMaybe l numbered_aluDivModS a b).symm

end Sys2Proof.Machine

/-! Division by zero (spec/44_muldiv.md R303 to R306, R310 to R314): no rule of a divide has an outcome for a divisor that
is 0, and DivisionFault enters its handler (spec/60_exceptions.md R383, R392). -/

namespace Sys2Proof.Machine

/-! ### No quotient by zero (R194 to R197) -/

theorem quotientU_zero {w : Nat} (a : BitVec w) : quotientU a 0 = none := if_pos rfl

theorem quotientS_zero {w : Nat} (a : BitVec w) : quotientS a 0 = none := if_pos (.inl rfl)

theorem divModU_zero {w w2 : Nat} (n : BitVec w2) : divModU n (0 : BitVec w) = none := if_pos (Nat.zero_le _)

theorem divModS_zero {w w2 : Nat} (n : BitVec w2) : divModS n (0 : BitVec w) = none := by
  rw [divModS]
  exact if_pos (.inl rfl)

/-- A zero lane of the divisor leaves the packed operation without an outcome. -/
theorem packedMaybe_zero_lane {M L n : Nat} (W : Nat) {lane : Nat → BitVec L → Option (BitVec M × Nat)} {b : Half}
    (hlane : ∀ i, lane i 0 = none) (hzero : ∃ k, k < n ∧ laneOf L b k = 0) :
    packedMaybe W n (fun i => lane i (laneOf L b i)) = none := by
  obtain ⟨k, hk, hb⟩ := hzero
  exact packedMaybe_eq_none ⟨k, hk, by rw [hb, hlane]⟩

/-! ### The entry -/

/-- A DivisionFault raised after reads alone enters its handler, the instruction's own address saved. -/
theorem Traps.enters_division {i : Instr} {s : State} {reads : Reach} (hi : StateInv s)
    (hentry : EntryPermitted 0x0D s) (h : Traps i s .division reads 0 []) :
    ∃ t, exec i s = .next t ∧ Entered 0x0D s.ip reads s t := by
  obtain ⟨u, hexec, hleaves⟩ := h
  exact ⟨_, hexec, takeFault_after hi .division s.ip hleaves hentry⟩

/-- A two-operand instruction whose rule has no outcome for a zero divisor divides by zero as the spec says. -/
theorem dividesByZero_of_rule {wd ws : Width} {i : Rim2 wd ws → Instr} {zero : BitVec ws.bits → Prop}
    {rule : State → BitVec wd.bits → BitVec ws.bits → Option (AluOut wd.bits)} (hi : Rim2Rule i true rule)
    (hnone : ∀ s a b, zero b → rule s a b = none) : DividesByZero i zero := by
  intro o s src dst hinv hentry hsrc hdst hzero
  obtain ⟨_, _, hdone⟩ := hi o s hinv
  obtain ⟨a, b, _, hb, hend⟩ := hdone hsrc fun _ => hdst
  rw [hnone s a b (hzero b hb)] at hend
  exact Traps.enters_division hinv hentry hend

theorem SzRule.dividesByZero {i : Rim2Sz → Instr}
    {rule : (w : Nat) → State → BitVec w → BitVec w → Option (AluOut w)} (h : SzRule i rule)
    (hnone : ∀ w s a, rule w s a 0 = none) :
    DividesByZero (fun o : Rim2 .b16 .b16 => i (.w16 o)) (· = 0) ∧
      DividesByZero (fun o : Rim2 .b8 .b8 => i (.w8 o)) (· = 0) := by
  obtain ⟨h16, h8⟩ := h
  exact ⟨dividesByZero_of_rule h16 fun s a b hb => hb ▸ hnone 16 s a,
    dividesByZero_of_rule h8 fun s a b hb => hb ▸ hnone 8 s a⟩

theorem PromRule.dividesByZero {i : Rim2Prom → Instr}
    {rule : (w w2 : Nat) → State → BitVec w2 → BitVec w → Option (AluOut w2)} (h : PromRule i true rule)
    (hnone : ∀ w w2 s a, rule w w2 s a 0 = none) :
    DividesByZero (fun o : Rim2 .b32 .b16 => i (.w16 o)) (· = 0) ∧
      DividesByZero (fun o : Rim2 .b16 .b8 => i (.w8 o)) (· = 0) := by
  obtain ⟨h16, h8⟩ := h
  exact ⟨dividesByZero_of_rule h16 fun s a b hb => hb ▸ hnone 16 32 s a,
    dividesByZero_of_rule h8 fun s a b hb => hb ▸ hnone 8 16 s a⟩

theorem forall_mem_pair {α : Type} {p : α → Prop} {x y : α} (hx : p x) (hy : p y) : ∀ i ∈ [x, y], p i :=
  List.forall_mem_cons.2 ⟨hx, List.forall_mem_singleton.2 hy⟩

/-- Settles O17: by the rules of the eight divides, none of which has an outcome for a zero divisor. -/
theorem divisionByZeroHandled : Obligations.DivisionByZeroHandled := by
  obtain ⟨hdiv, hdivs, hdivm, hdivms⟩ := divide
  refine ⟨?scalar, ?wide, ?packed⟩
  case scalar =>
    refine forall_mem_pair (hdiv.dividesByZero fun w s a => ?_) (hdivs.dividesByZero fun w s a => ?_)
    · rw [quotientU_zero, Option.map_none]
    · rw [quotientS_zero, Option.map_none]
  case wide =>
    refine forall_mem_pair (hdivm.dividesByZero fun w w2 s a => ?_) (hdivms.dividesByZero fun w w2 s a => ?_)
    · rw [divModU_zero, Option.map_none]
    · rw [divModS_zero, Option.map_none]
  case packed =>
    intro l zeroLane
    obtain ⟨hpdiv, hpdivs, hpdivm, hpdivms⟩ := packedDivide l
    exact ⟨forall_mem_pair
        (dividesByZero_of_rule hpdiv fun _ _ _ => packedMaybe_zero_lane 16 fun _ => quotientU_zero _)
        (dividesByZero_of_rule hpdivs fun _ _ _ => packedMaybe_zero_lane 16 fun _ => quotientS_zero _),
      forall_mem_pair
        (dividesByZero_of_rule hpdivm fun _ _ _ => packedMaybe_zero_lane 32 fun _ => divModU_zero _)
        (dividesByZero_of_rule hpdivms fun _ _ _ => packedMaybe_zero_lane 32 fun _ => divModS_zero _)⟩

end Sys2Proof.Machine

/-! The logic family (spec/45_logic_shift.md R320 to R324): a bitwise result is given by its bits, and its group has no
carry and no overflow (spec/40_alu.md R199). -/

namespace Sys2Proof.Machine

/-- A value given bit by bit is the value that has these bits. -/
theorem ofFnLE_eq_of_getLsbD {w : Nat} {f : Fin w → Bool} {r : BitVec w} (h : ∀ i : Fin w, r.getLsbD i = f i) :
    BitVec.ofFnLE f = r :=
  BitVec.eq_of_getLsbD_eq fun i hi => by rw [BitVec.getLsbD_ofFnLE, dif_pos hi, h ⟨i, hi⟩]

theorem logicOut_eq_outcome {w : Nat} (r : BitVec w) : logicOut r = outcome r (plainGroup r) := by
  rw [logicOut, scalar_eq_outcome, logicGroup, groupOf_toNat, plainGroup]

/-- The outcome of a bitwise operation from what it does to a bit. -/
theorem outcome_ofFnLE {w : Nat} {f : Fin w → Bool} {r : BitVec w} (h : ∀ i : Fin w, r.getLsbD i = f i) :
    outcome (BitVec.ofFnLE f) (plainGroup (BitVec.ofFnLE f)) = logicOut r := by
  rw [ofFnLE_eq_of_getLsbD h, logicOut_eq_outcome]

/-- Settles O49: each operation is its Boolean function at every bit. -/
theorem logic : Obligations.Logic := by
  refine ⟨?and, ?or, ?xor, ?not⟩
  case and =>
    exact szRead_rule (op := fun _ _ a b => some (logicOut (a &&& b))) (fun _ _ => rfl) (fun _ _ => rfl)
      fun _ _ _ _ _ => congrArg some (outcome_ofFnLE fun _ => BitVec.getLsbD_and)
  case or =>
    exact szRead_rule (op := fun _ _ a b => some (logicOut (a ||| b))) (fun _ _ => rfl) (fun _ _ => rfl)
      fun _ _ _ _ _ => congrArg some (outcome_ofFnLE fun _ => BitVec.getLsbD_or)
  case xor =>
    exact szRead_rule (op := fun _ _ a b => some (logicOut (a ^^^ b))) (fun _ _ => rfl) (fun _ _ => rfl)
      fun _ _ _ _ _ => congrArg some (outcome_ofFnLE fun _ => BitVec.getLsbD_xor)
  case not =>
    exact szDstRead_rule (extra := 0) (fun _ _ => rfl) (fun _ _ => rfl) fun w _ _ a =>
      outcome_ofFnLE (r := ~~~a) fun i => by rw [BitVec.getLsbD_not, decide_eq_true i.isLt, Bool.true_and]

end Sys2Proof.Machine

/-! One place of a shift or rotate (spec/40_alu.md R201 to R207) as the library's shift or rotation by one. Bits are
numbered from the top for the steps to the left and from the bottom for the steps to the right, so that a step moves
every bit down by one number. -/

namespace Sys2Proof.Machine

section
variable {w : Nat}

/-! ### Bits of a step -/

theorem getLsbD_shiftInLow (v : BitVec w) (b : Bool) {i : Nat} (hi : i < w) :
    (shiftInLow v b).getLsbD i = if i = 0 then b else v.getLsbD (i - 1) := by
  rw [shiftInLow, BitVec.getLsbD_or, BitVec.getLsbD_shiftLeft, BitVec.getLsbD_setWidth, BitVec.getLsbD_ofBool]
  by_cases hzero : i = 0
  · simp [hzero, Nat.zero_lt_of_lt hi]
  · simp [hzero, hi]

theorem getMsbD_shiftInLow (v : BitVec w) (b : Bool) {i : Nat} (hi : i < w) :
    (shiftInLow v b).getMsbD i = if i + 1 = w then b else v.getMsbD (i + 1) := by
  rw [BitVec.getMsbD_eq_getLsbD, decide_eq_true hi, Bool.true_and, getLsbD_shiftInLow v b (by omega)]
  by_cases hlast : i + 1 = w
  · rw [if_pos hlast, if_pos (by omega)]
  · rw [if_neg hlast, if_neg (by omega), BitVec.getMsbD_eq_getLsbD, decide_eq_true (by omega), Bool.true_and,
      Nat.sub_sub, Nat.add_comm]

theorem getLsbD_shiftInHigh (v : BitVec w) (b : Bool) {i : Nat} (hi : i < w) :
    (shiftInHigh v b).getLsbD i = if i + 1 = w then b else v.getLsbD (i + 1) := by
  rw [shiftInHigh, BitVec.getLsbD_or, BitVec.getLsbD_ushiftRight, BitVec.getLsbD_shiftLeft, BitVec.getLsbD_setWidth,
    BitVec.getLsbD_ofBool, Nat.add_comm 1]
  by_cases hlast : i + 1 = w
  · subst hlast
    simp
  · have hbelow : i < w - 1 := by omega
    simp [hlast, hbelow]

theorem getLsbD_zero_shiftInLow (hw : 0 < w) (v : BitVec w) (b : Bool) : (shiftInLow v b).getLsbD 0 = b :=
  getLsbD_shiftInLow v b hw

theorem msb_shiftInHigh (hw : 0 < w) (v : BitVec w) (b : Bool) : (shiftInHigh v b).msb = b := by
  rw [BitVec.msb_eq_getLsbD_last, getLsbD_shiftInHigh v b (by omega), if_pos (by omega)]

/-! ### Shifts by one (R201 to R203) -/

theorem shiftInLow_false (v : BitVec w) : shiftInLow v false = v <<< 1 := by
  rw [shiftInLow, BitVec.ofBool_false, BitVec.ofNat_eq_ofNat, BitVec.setWidth_zero, BitVec.or_zero]

theorem shiftInHigh_false (v : BitVec w) : shiftInHigh v false = v >>> 1 := by
  rw [shiftInHigh, BitVec.ofBool_false, BitVec.ofNat_eq_ofNat, BitVec.setWidth_zero, BitVec.zero_shiftLeft,
    BitVec.or_zero]

theorem shiftInHigh_msb (v : BitVec w) : shiftInHigh v v.msb = v.sshiftRight 1 := by
  refine BitVec.eq_of_getLsbD_eq fun i hi => ?_
  rw [getLsbD_shiftInHigh v _ hi, BitVec.getLsbD_sshiftRight, decide_eq_false (by omega), Nat.add_comm 1]
  by_cases hlast : i + 1 = w
  · simp [hlast]
  · have hlt : i + 1 < w := by omega
    simp [hlast, hlt]

/-! ### Rotations (R204, R205) -/

theorem one_add_mod_of_lt {i : Nat} (hi : i < w) : (1 + i) % w = if i + 1 = w then 0 else i + 1 := by
  split
  · next h => rw [Nat.add_comm, h, Nat.mod_self]
  · next h => rw [Nat.add_comm, Nat.mod_eq_of_lt (by omega)]

theorem getLsbD_rotateRight_mod (x : BitVec w) (n : Nat) {i : Nat} (hi : i < w) :
    (x.rotateRight n).getLsbD i = x.getLsbD ((n + i) % w) := by
  have hlt : n % w < w := Nat.mod_lt _ (by omega)
  rw [BitVec.getLsbD_rotateRight, Nat.add_mod, Nat.mod_eq_of_lt hi]
  by_cases hwrap : i < w - n % w
  · rw [Nat.mod_eq_of_lt (a := n % w + i) (by omega), decide_eq_true hwrap, cond_true]
  · rw [Nat.mod_eq_sub_mod (a := n % w + i) (by omega), Nat.mod_eq_of_lt (a := n % w + i - w) (by omega),
      decide_eq_false hwrap, cond_false, decide_eq_true hi, Bool.true_and]
    exact congrArg x.getLsbD (by omega)

theorem rotateLeft_zero (x : BitVec w) : x.rotateLeft 0 = x :=
  BitVec.eq_of_getMsbD_eq fun i hi => by
    rw [BitVec.getMsbD_rotateLeft, decide_eq_true hi, Bool.true_and, Nat.zero_add, Nat.mod_eq_of_lt hi]

theorem rotateRight_zero (x : BitVec w) : x.rotateRight 0 = x :=
  BitVec.eq_of_getLsbD_eq fun i hi => by rw [getLsbD_rotateRight_mod x 0 hi, Nat.zero_add, Nat.mod_eq_of_lt hi]

theorem rotateLeft_add (x : BitVec w) (m n : Nat) : x.rotateLeft (m + n) = (x.rotateLeft m).rotateLeft n := by
  refine BitVec.eq_of_getMsbD_eq fun i hi => ?_
  have hlt : (n + i) % w < w := Nat.mod_lt _ (by omega)
  simp only [BitVec.getMsbD_rotateLeft, hi, hlt, decide_true, Bool.true_and, Nat.add_mod_mod, Nat.add_assoc]

theorem rotateRight_add (x : BitVec w) (m n : Nat) : x.rotateRight (m + n) = (x.rotateRight m).rotateRight n := by
  refine BitVec.eq_of_getLsbD_eq fun i hi => ?_
  have hlt : (n + i) % w < w := Nat.mod_lt _ (by omega)
  rw [getLsbD_rotateRight_mod x _ hi, getLsbD_rotateRight_mod _ n hi, getLsbD_rotateRight_mod x m hlt,
    Nat.add_mod_mod, Nat.add_assoc]

theorem shiftInLow_msb (v : BitVec w) : shiftInLow v v.msb = v.rotateLeft 1 := by
  refine BitVec.eq_of_getMsbD_eq fun i hi => ?_
  rw [getMsbD_shiftInLow v _ hi, BitVec.getMsbD_rotateLeft, decide_eq_true hi, Bool.true_and, one_add_mod_of_lt hi,
    apply_ite v.getMsbD, BitVec.msb_eq_getMsbD_zero]

theorem shiftInHigh_lsb (v : BitVec w) : shiftInHigh v (v.getLsbD 0) = v.rotateRight 1 := by
  refine BitVec.eq_of_getLsbD_eq fun i hi => ?_
  rw [getLsbD_shiftInHigh v _ hi, getLsbD_rotateRight_mod v 1 hi, one_add_mod_of_lt hi, apply_ite v.getLsbD]

/-! ### Rotations through the carry (R206, R207): the carry above the value -/

theorem cons_shiftInLow (hw : 0 < w) (v : BitVec w) (c : Bool) :
    BitVec.cons v.msb (shiftInLow v c) = (BitVec.cons c v).rotateLeft 1 := by
  rw [← shiftInLow_msb, BitVec.msb_cons]
  refine BitVec.eq_of_getMsbD_eq fun i hi => ?_
  rw [getMsbD_shiftInLow _ c hi, BitVec.getMsbD_cons_succ]
  cases i with
  | zero => rw [BitVec.getMsbD_cons_zero, BitVec.msb_eq_getMsbD_zero, if_neg (by omega)]
  | succ i =>
    rw [BitVec.getMsbD_cons_succ, getMsbD_shiftInLow v c (by omega)]
    simp only [Nat.add_left_inj]

theorem cons_shiftInHigh (hw : 0 < w) (v : BitVec w) (c : Bool) :
    BitVec.cons (v.getLsbD 0) (shiftInHigh v c) = (BitVec.cons c v).rotateRight 1 := by
  have hlow : (BitVec.cons c v).getLsbD 0 = v.getLsbD 0 := by rw [BitVec.getLsbD_cons, if_neg (by omega)]
  rw [← shiftInHigh_lsb, hlow]
  refine BitVec.eq_of_getLsbD_eq fun i hi => ?_
  rw [getLsbD_shiftInHigh _ _ hi, BitVec.getLsbD_cons, BitVec.getLsbD_cons]
  by_cases htop : i = w
  · rw [if_pos htop, if_pos (by omega)]
  · rw [if_neg htop, if_neg (by omega), getLsbD_shiftInHigh v c (by omega)]

end

end Sys2Proof.Machine

/-! The closed forms of the shifts and rotates (spec/40_alu.md R208) from their steps (R200): the closed form's value at
every count, 0 included, moved by one more place is the closed form's next value, and the bit moved out is its carry. -/

namespace Sys2Proof.Machine

/-! ### A step as a shift or rotation by one (R201 to R205) -/

section
variable {w : Nat} (v : BitVec w) (c : Bool)

theorem shiftStep_shl : shiftStep .shl v c = (v <<< 1, v.msb) := by rw [shiftStep, shiftInLow_false]

theorem shiftStep_shr : shiftStep .shr v c = (v >>> 1, v.getLsbD 0) := by rw [shiftStep, shiftInHigh_false]

theorem shiftStep_sar : shiftStep .sar v c = (v.sshiftRight 1, v.getLsbD 0) := by rw [shiftStep, shiftInHigh_msb]

/-- The bit moved around is bit 0 of the result. -/
theorem shiftStep_rol (hw : 0 < w) : shiftStep .rol v c = (v.rotateLeft 1, (v.rotateLeft 1).getLsbD 0) := by
  rw [shiftStep, ← shiftInLow_msb, getLsbD_zero_shiftInLow hw]

/-- The bit moved around is the top bit of the result. -/
theorem shiftStep_ror (hw : 0 < w) : shiftStep .ror v c = (v.rotateRight 1, (v.rotateRight 1).msb) := by
  rw [shiftStep, ← shiftInHigh_lsb, msb_shiftInHigh hw]

end

section
variable {w : Nat} (v : BitVec w) (n : Nat) (c : Bool)

/-! ### The closed form's value at every count -/

theorem shiftClosed_shl_fst : (shiftClosed .shl v n c).1 = v <<< n := by
  cases n with
  | zero => exact (BitVec.shiftLeft_zero v).symm
  | succ n => rfl

theorem shiftClosed_shr_fst : (shiftClosed .shr v n c).1 = v >>> n := by
  cases n with
  | zero => exact (BitVec.ushiftRight_zero v).symm
  | succ n => rfl

theorem shiftClosed_sar_fst : (shiftClosed .sar v n c).1 = v.sshiftRight n := by
  cases n with
  | zero => exact BitVec.sshiftRight_zero.symm
  | succ n => rfl

theorem shiftClosed_rol_fst : (shiftClosed .rol v n c).1 = v.rotateLeft n := by
  cases n with
  | zero => exact (rotateLeft_zero v).symm
  | succ n => exact BitVec.rotateLeft_mod_eq_rotateLeft

theorem shiftClosed_ror_fst : (shiftClosed .ror v n c).1 = v.rotateRight n := by
  cases n with
  | zero => exact (rotateRight_zero v).symm
  | succ n => exact BitVec.rotateRight_mod_eq_rotateRight

/-- Through the carry, value and carry are one rotated value. -/
theorem cons_shiftClosed_rcl :
    BitVec.cons (shiftClosed .rcl v n c).2 (shiftClosed .rcl v n c).1 = (BitVec.cons c v).rotateLeft n := by
  cases n with
  | zero => exact (rotateLeft_zero _).symm
  | succ n => exact (BitVec.cons_msb_setWidth _).trans BitVec.rotateLeft_mod_eq_rotateLeft

theorem cons_shiftClosed_rcr :
    BitVec.cons (shiftClosed .rcr v n c).2 (shiftClosed .rcr v n c).1 = (BitVec.cons c v).rotateRight n := by
  cases n with
  | zero => exact (rotateRight_zero _).symm
  | succ n => exact (BitVec.cons_msb_setWidth _).trans BitVec.rotateRight_mod_eq_rotateRight

/-! ### The carry of one place more -/

theorem msb_shiftLeft_eq : (v <<< n).msb = (decide (n + 1 ≤ w) && v.getLsbD (w - (n + 1))) := by
  rw [BitVec.msb_shiftLeft, BitVec.getMsbD_eq_getLsbD, Nat.sub_sub, Nat.add_comm 1]
  rfl

theorem getLsbD_zero_ushiftRight_eq : (v >>> n).getLsbD 0 = (decide (n + 1 ≤ w) && v.getLsbD n) := by
  rw [BitVec.getLsbD_ushiftRight, Nat.add_zero]
  by_cases hn : n + 1 ≤ w
  · rw [decide_eq_true hn, Bool.true_and]
  · rw [decide_eq_false hn, Bool.false_and, BitVec.getLsbD_of_ge v n (by omega)]

theorem getLsbD_zero_sshiftRight_eq (hw : 0 < w) :
    (v.sshiftRight n).getLsbD 0 = if n + 1 ≤ w then v.getLsbD n else v.msb := by
  rw [BitVec.getLsbD_sshiftRight, decide_eq_false (by omega)]
  rfl

/-- A value with a bit above it determines both. -/
theorem pair_eq_of_cons_eq {p q : BitVec w × Bool} (h : BitVec.cons p.2 p.1 = BitVec.cons q.2 q.1) : p = q :=
  Prod.ext (by simpa only [BitVec.setWidth_cons] using congrArg (BitVec.setWidth w) h)
    (by simpa only [BitVec.msb_cons] using congrArg BitVec.msb h)

/-! ### From step to closed form -/

/-- One step takes the closed form of `n` places to that of `n + 1`. -/
theorem shiftStep_shiftClosed (hw : 0 < w) (k : ShiftKind) :
    shiftStep k (shiftClosed k v n c).1 (shiftClosed k v n c).2 = shiftClosed k v (n + 1) c := by
  cases k with
  | shl =>
    rw [shiftStep_shl, shiftClosed_shl_fst, ← BitVec.shiftLeft_add, msb_shiftLeft_eq]
    rfl
  | shr =>
    rw [shiftStep_shr, shiftClosed_shr_fst, ← BitVec.shiftRight_add, getLsbD_zero_ushiftRight_eq]
    rfl
  | sar =>
    rw [shiftStep_sar, shiftClosed_sar_fst, ← BitVec.sshiftRight_add, getLsbD_zero_sshiftRight_eq v n hw]
    rfl
  | rol =>
    rw [shiftStep_rol _ _ hw, shiftClosed_rol_fst, ← rotateLeft_add, ← BitVec.rotateLeft_mod_eq_rotateLeft]
    rfl
  | ror =>
    rw [shiftStep_ror _ _ hw, shiftClosed_ror_fst, ← rotateRight_add, ← BitVec.rotateRight_mod_eq_rotateRight]
    rfl
  | rcl =>
    apply pair_eq_of_cons_eq
    rw [cons_shiftClosed_rcl, rotateLeft_add, ← cons_shiftClosed_rcl]
    exact cons_shiftInLow hw _ _
  | rcr =>
    apply pair_eq_of_cons_eq
    rw [cons_shiftClosed_rcr, rotateRight_add, ← cons_shiftClosed_rcr]
    exact cons_shiftInHigh hw _ _

/-- The repetition of R200 with its last step apart. -/
theorem shiftSteps_succ (k : ShiftKind) :
    shiftSteps k (n + 1) v c = shiftStep k (shiftSteps k n v c).1 (shiftSteps k n v c).2 := by
  induction n generalizing v c with
  | zero => rfl
  | succ n ih => exact ih _ _

theorem shiftSteps_eq_shiftClosed (hw : 0 < w) (k : ShiftKind) : shiftSteps k n v c = shiftClosed k v n c := by
  induction n with
  | zero => rfl
  | succ n ih => rw [shiftSteps_succ, ih, shiftStep_shiftClosed v n c hw k]

theorem scalar_aluShift (hw : 0 < w) (k : ShiftKind) : AluOut.scalar (aluShift k v n c) = shiftOut k v n c := by
  rw [scalar_eq_outcome, aluShift, groupOf_toNat, shiftSteps_eq_shiftClosed v n c hw, shiftOut]

end

end Sys2Proof.Machine

/-! The shifts and rotates (spec/45_logic_shift.md R330 to R344): every form of the family is one operation at one kind
of step. -/

namespace Sys2Proof.Machine

/-- A form with a count operand obeys the closed form of its kind. -/
theorem shiftBy_rule {i : Rim2Sz → Instr} (k : ShiftKind) (hexec : ∀ o s, exec (i o) s = shiftBy k o s)
    (hnext : ∀ o s, nextOf (i o) s = nextIp s (2 + o.tail)) :
    SzRule i (fun _ s a b => some (shiftOut k a (b.toNat % 32) (laneC s.f 0))) :=
  szRead_rule (op := fun _ s a b => some (.scalar (aluShift k a (shiftCount b) (carryFlag s.f)))) hexec hnext
    fun w hw s a b => by rw [scalar_aluShift a _ _ hw, carryFlag_eq_laneC, shiftCount]

/-- A form that shifts by one obeys the closed form of its kind. -/
theorem shiftOne_rule {i : RimDstSz → Instr} (k : ShiftKind) (hexec : ∀ o s, exec (i o) s = shiftOne k o s)
    (hnext : ∀ o s, nextOf (i o) s = nextIp s (2 + o.tail)) :
    SzDstRule i (fun _ s a => shiftOut k a 1 (laneC s.f 0)) :=
  szDstRead_rule (extra := 0) (op := fun _ s a => .scalar (aluShift k a 1 (carryFlag s.f))) hexec hnext
    fun w hw s a => by rw [scalar_aluShift a 1 _ hw, carryFlag_eq_laneC]

/-- Settles O50: the seven kinds of step, by a count operand. -/
theorem shifts : Obligations.Shifts :=
  ⟨shiftBy_rule .shl (fun _ _ => rfl) fun _ _ => rfl, shiftBy_rule .shr (fun _ _ => rfl) fun _ _ => rfl,
    shiftBy_rule .sar (fun _ _ => rfl) fun _ _ => rfl, shiftBy_rule .rol (fun _ _ => rfl) fun _ _ => rfl,
    shiftBy_rule .ror (fun _ _ => rfl) fun _ _ => rfl, shiftBy_rule .rcl (fun _ _ => rfl) fun _ _ => rfl,
    shiftBy_rule .rcr (fun _ _ => rfl) fun _ _ => rfl⟩

/-- Settles O51: the seven kinds of step, by one place. -/
theorem shiftsByOne : Obligations.ShiftsByOne :=
  ⟨shiftOne_rule .shl (fun _ _ => rfl) fun _ _ => rfl, shiftOne_rule .shr (fun _ _ => rfl) fun _ _ => rfl,
    shiftOne_rule .sar (fun _ _ => rfl) fun _ _ => rfl, shiftOne_rule .rol (fun _ _ => rfl) fun _ _ => rfl,
    shiftOne_rule .ror (fun _ _ => rfl) fun _ _ => rfl, shiftOne_rule .rcl (fun _ _ => rfl) fun _ _ => rfl,
    shiftOne_rule .rcr (fun _ _ => rfl) fun _ _ => rfl⟩

end Sys2Proof.Machine

/-! Control flow (spec/46_control.md R350 to R361): the displaced address as an integer, what the actions of the family
do once IP is past the instruction, and the forms. -/

namespace Sys2Proof.Machine

/-! ### The displaced address (R360) -/

/-- A displacement from the next instruction wraps once. -/
theorem ofInt_displacement (s : State) (len : Nat) {k : Nat} (d : BitVec k) :
    BitVec.ofInt 32 (s.ip.toNat + len + d.toInt) = nextIp s len + d.signExtend 32 := by
  rw [BitVec.ofInt_add, BitVec.ofInt_add, BitVec.ofInt_natCast, BitVec.ofInt_natCast, BitVec.ofNat_toNat,
    BitVec.setWidth_eq]
  rfl

/-- The same where the displacement is of the address's own width. -/
theorem ofInt_displacement_word (s : State) (len : Nat) (d : Word) :
    BitVec.ofInt 32 (s.ip.toNat + len + d.toInt) = nextIp s len + d := by
  rw [ofInt_displacement, BitVec.signExtend_eq]

/-! ### Jumps -/

/-- An answer with IP moved and nothing else. -/
theorem completes_of_ip {i : Instr} {s : State} {x : Word} (h : exec i s = .next { s with ip := x }) :
    Completes i s { regsOf s with ip := x } [] 0 [] :=
  ⟨{ s with ip := x }, h, .of_set (sameButRegs_sp_ip s s.sp x) []⟩

theorem bare_jumpBy (len : Nat) (d : Word) (s : State) :
    bare len (jumpBy d) s = .next { s with ip := nextIp s len + d } := rfl

/-- The condition is of F as it was before the instruction. -/
theorem bare_jumpIf_of_condHolds {cc : BitVec 8} {s : State} (h : condHolds cc s.f) (len : Nat) (d : Word) :
    bare len (jumpIf cc d) s = .next { s with ip := nextIp s len + d } :=
  congrArg (complete s) (if_pos ((cond_iff cc s.f).2 h))

theorem bare_jumpIf_of_not_condHolds {cc : BitVec 8} {s : State} (h : ¬ condHolds cc s.f) (len : Nat) (d : Word) :
    bare len (jumpIf cc d) s = .next { s with ip := nextIp s len } :=
  congrArg (complete s) (if_neg (mt (cond_iff cc s.f).1 h))

/-- A source form obeys the rule of what its action does after the read, from a state with IP past the instruction. -/
theorem rimSrcThen_rule {w : Width} {i : RimSrc w → Instr} {act : BitVec w.bits → State → Res Unit}
    {claim : Instr → State → Reach → BitVec w.bits → Prop}
    (hexec : ∀ o s, exec (i o) s = rimSrcThen o act s) (hnext : ∀ o s, nextOf (i o) s = nextIp s (2 + o.tail))
    (hclaim : ∀ o s reach v u, Passed s reach u →
      exec (i o) s = complete s (act v { u with ip := nextOf (i o) s }) → claim (i o) s reach v) :
    RimSrcRule i claim := by
  intro o s
  simp only [traps_iff, hexec, hnext]
  intro hi
  obtain ⟨hfault, hdone⟩ := rimSrcThen_spec hi o act
  refine ⟨hfault, fun hsrc => ?_⟩
  obtain ⟨v, u, hv, hpass, hrun⟩ := hdone hsrc
  exact ⟨v, hv, hclaim o s _ v u hpass (by rw [hexec, hnext, hrun])⟩

/-- Settles O52: the three displacements are added to the next address; JMPA puts its source into IP. -/
theorem jumps : Obligations.Jumps := by
  refine ⟨fun s => ⟨fun d => ?_, fun d => ?_, fun d => ?_⟩, ?_⟩
  · exact ofInt_displacement s 2 d ▸ completes_of_ip (bare_jumpBy 2 _ s)
  · exact ofInt_displacement s 3 d ▸ completes_of_ip (bare_jumpBy 3 _ s)
  · exact ofInt_displacement_word s 5 d ▸ completes_of_ip (bare_jumpBy 5 _ s)
  · refine rimSrcThen_rule (w := .b32) (act := fun (v : Word) t => .ok () { t with ip := v }) (fun _ _ => rfl)
      (fun _ _ => rfl) fun o s reach v u hpass hrun => ⟨{ u with ip := v }, hrun, ?_⟩
    rw [← hpass.kept.regs]
    exact hpass.leaves.set (sameButRegs_sp_ip u u.sp v)

/-- Settles O53: the model's condition is the spec's, and it alone decides whether IP moves on. -/
theorem conditionalJumps : Obligations.ConditionalJumps := by
  intro cc s _
  refine ⟨fun htaken => ⟨fun d => ?_, fun d => ?_⟩, fun hnot => ⟨fun d => ?_, fun d => ?_⟩⟩
  · exact ofInt_displacement s 3 d ▸ completes_of_ip (bare_jumpIf_of_condHolds htaken 3 _)
  · exact ofInt_displacement s 4 d ▸ completes_of_ip (bare_jumpIf_of_condHolds htaken 4 _)
  · exact completes_of_ip (bare_jumpIf_of_not_condHolds hnot 3 _)
  · exact completes_of_ip (bare_jumpIf_of_not_condHolds hnot 4 _)

/-! ### Calls and returns (R361) -/

/-- A push after the operands were read and IP was advanced. -/
theorem push_after_ok {s u : State} {reads : Reach} (hp : Passed s reads u) {w : Width} (v : BitVec w.bits)
    (next : Word) {a : Word} (ha : a = s.sp - BitVec.ofNat 32 w.bytes) (h : Writable s (Loc.mem a : Loc w)) :
    ∃ t, push w v { u with ip := next } = .ok () t ∧
      Leaves s { regsOf s with sp := a, ip := next } (reads ++ [(a.toNat, w.bytes)]) a.toNat
        (leBytes w.bytes v.toNat) t := by
  have hsp : ({ u with ip := next } : State).sp - BitVec.ofNat 32 w.bytes = a := by rw [ha, ← hp.kept.sp]
  have hw : Writable { u with ip := next } (Loc.mem a : Loc w) :=
    writable_congr (t := { u with ip := next }) hp.kept.plat hp.kept.pv h
  obtain ⟨t, ht, hleft⟩ := push_ok (hp.inv.with_ip next) v (hsp ▸ hw)
  rw [hsp] at hleft
  rw [← hp.kept.regs]
  exact ⟨t, ht, hleft.after hp⟩

/-- The same where the push is refused. -/
theorem push_after_fault {s u : State} {reads : Reach} (hp : Passed s reads u) {w : Width} (v : BitVec w.bits)
    (next : Word) {a : Word} (ha : a = s.sp - BitVec.ofNat 32 w.bytes) {e : Fault}
    (h : WriteFaults s (Loc.mem a : Loc w) e) :
    ∃ t, push w v { u with ip := next } = .raise e t ∧
      Leaves s { regsOf s with ip := next } (reads ++ [(a.toNat, w.bytes)]) a.toNat
        ((leBytes w.bytes v.toNat).take (locPlan true s (Loc.mem a : Loc w)).1) t := by
  have hsp : ({ u with ip := next } : State).sp - BitVec.ofNat 32 w.bytes = a := by rw [ha, ← hp.kept.sp]
  have hplan : locPlan true { u with ip := next } (Loc.mem a : Loc w) = locPlan true s (Loc.mem a) :=
    locPlan_congr (t := { u with ip := next }) hp.kept.plat hp.kept.pv true _
  obtain ⟨t, ht, hleft⟩ := push_fault (hp.inv.with_ip next) v (r := e) (by rw [WriteFaults, hsp, hplan]; exact h)
  rw [hsp, hplan] at hleft
  rw [← hp.kept.regs]
  exact ⟨t, ht, hleft.after hp⟩

/-- A call pushes the advanced IP and goes on at its target; a refused push leaves IP to be rolled back. -/
theorem pushesTo_callTo {s u : State} {reads : Reach} (hp : Passed s reads u) {i : Instr} {next target : Word}
    (hexec : exec i s = complete s (callTo target { u with ip := next })) :
    PushesTo i s reads (w := .b32) next target := by
  refine ⟨fun e he => ?_, fun hw => ?_⟩
  · obtain ⟨t, ht, hleft⟩ := push_after_fault hp (w := .b32) next next rfl he
    rw [traps_iff, hexec, callTo, ht, Res.bind_raise]
    exact raises_of hleft
  · obtain ⟨t, ht, hleft⟩ := push_after_ok hp (w := .b32) next next rfl hw
    refine ⟨{ t with ip := target }, by rw [hexec, callTo, ht, Res.bind_ok]; rfl, ?_⟩
    have hdone := hleft.set (sameButRegs_sp_ip t t.sp target)
    rwa [show regsOf { t with sp := t.sp, ip := target } = { regsOf t with ip := target } from rfl,
      hleft.regs] at hdone

/-- Settles O54: the calls are pushes that go on at their target, and RET a pop into IP. -/
theorem callsAndReturn : Obligations.CallsAndReturn := by
  refine ⟨fun s hi => ⟨fun d => ?_, fun d => ?_⟩, ?_, fun s hi => ?_⟩
  · exact ofInt_displacement s 3 d ▸ pushesTo_callTo (.refl hi []) rfl
  · exact ofInt_displacement_word s 5 d ▸ pushesTo_callTo (.refl hi []) rfl
  · exact rimSrcThen_rule (w := .b32) (act := callTo) (fun _ _ => rfl) (fun _ _ => rfl)
      fun _ _ _ _ _ hpass hrun => pushesTo_callTo hpass hrun
  · exact popsTo_put (w := .b32) (put := fun (v : Word) t => { t with ip := v }) hi rfl
      (fun v t => sameButRegs_sp_ip t t.sp v) fun v _ _ h => congrArg (fun r : Regs => { r with ip := v }) h

end Sys2Proof.Machine

/-! The system family (spec/47_system.md R370 to R373): NOP and HLT, INT as an entry, IRET as a return, and that a
return reads back the frame the entry wrote (spec/60_exceptions.md R389, R398). -/

namespace Sys2Proof.Machine

/-- Settles O55: neither has an operand, and HLT sets its flag after IP has moved. -/
theorem nopHlt : Obligations.NopHlt := fun s => ⟨completes_of_ip (x := s.ip + 1) rfl, rfl⟩

/-! ### INT (R372) -/

/-- An entry from a state with IP advanced is one from the state itself: the handler's address replaces IP. -/
theorem Entered.of_ip {v : BitVec 8} {ipSave x : Word} {before : Reach} {s t : State}
    (h : Entered v ipSave before { s with ip := x } t) : Entered v ipSave before s t := by
  refine ⟨fun hi => h.inv (hi.with_ip x), h.regs, h.winValid, h.plat, h.device, h.ram, fun hn => ?_⟩
  have hs := h.silent hn
  exact ⟨hs.devLog, hs.devCount, hs.halted, hs.pend, hs.pendVec, hs.lines⟩

/-- Where INT is allowed, it is the entry of its vector with the advanced IP saved. -/
theorem exec_int_of_allowed {s : State} {v : BitVec 8} (h : s.pv = true ∨ v = 0x20) :
    exec (.int v) s = .next (dispatch v (nextIp s 2) { s with ip := nextIp s 2 }) := by
  have hcheck : ¬ (!s.pv && decide (v ≠ Config.vecSyscall)) = true := by
    rcases h with hp | rfl
    · simp [hp]
    · simp [Config.vecSyscall]
  exact congrArg (complete s) (if_neg hcheck)

/-- Settles O18. -/
theorem intEnters : Obligations.IntEnters := fun s v hi hallowed hperm =>
  ⟨_, exec_int_of_allowed hallowed, (dispatch_ok (hi.with_ip (nextIp s 2)) v (nextIp s 2) hperm).of_ip⟩

/-! ### IRET (R373) -/

/-- With PV = 1, IRET is the return with IP advanced. -/
theorem exec_iret_of_privileged {s : State} (hp : s.pv = true) :
    exec .iret s = complete s (returnFromEntry { s with ip := nextIp s 1 }) :=
  congrArg (complete s) (needPrivilege_of (s := { s with ip := nextIp s 1 }) hp _)

theorem lowHalf_eq_ofNat (w : Word) : lowHalf w = BitVec.ofNat 16 w.toNat := by
  exact BitVec.eq_of_toNat_eq (by rw [lowHalf_toNat, BitVec.toNat_ofNat])

/-- Settles O20: the return replaces the advanced IP, and a fault rolls it back. -/
theorem iretRestores : Obligations.IretRestores := by
  intro s hi hp
  have hadvanced := hi.with_ip (nextIp s 1)
  refine ⟨fun e he => ?_, fun hread => ?_⟩
  · obtain ⟨t, ht, hpass⟩ := returnFromEntry_fault hadvanced he
    rw [traps_iff, exec_iret_of_privileged hp, ht]
    exact raises_of (x := nextIp s 1) hpass.leaves.of_ip
  · obtain ⟨w, sp, bp, ip, t, ht, hw, hsp, hbp, hip, hleft⟩ := returnFromEntry_ok hadvanced hread
    have hw' : ValueOf s (Loc.mem s.sp : Loc .b32) w := by
      rw [← BitVec.add_zero s.sp]
      exact hw
    refine ⟨w, sp, bp, ip, hw', hsp, hbp, hip, t, by rw [exec_iret_of_privileged hp, ht]; rfl, ?_⟩
    rw [← lowHalf_eq_ofNat]
    exact hleft.of_ip

/-! ### Numbers in view after bytes were stored (spec/20_memory.md R66) -/

theorem isSome_putBytes (v : Nat → Option Byte) (a : Nat) (bs : List Byte) (x : Nat) :
    (putBytes v a bs x).isSome = (v x).isSome := by
  unfold putBytes
  split
  · exact Option.isSome_map
  · rfl

/-- A number stored where RAM owns its addresses is in view. -/
theorem viewNum_putBytes_self {v : Nat → Option Byte} {a n x : Nat} (hx : x < 256 ^ n)
    (h : ∀ k, k < n → (v (a + k)).isSome = true) : viewNum (putBytes v a (leBytes n x)) a n = some x := by
  have hbytes := viewNum_eq_leNat (v := putBytes v a (leBytes n x)) (leBytes n x) a fun k hk =>
    putBytes_in hk (h k (by rwa [leBytes_length] at hk))
  rwa [leBytes_length, leNat_leBytes n x hx] at hbytes

/-- A number apart from the bytes stored stays in view. -/
theorem viewNum_putBytes_apart {v : Nat → Option Byte} {a : Nat} {bs : List Byte} (n : Nat) : ∀ b,
    b + n ≤ a ∨ a + bs.length ≤ b → viewNum (putBytes v a bs) b n = viewNum v b n := by
  induction n with
  | zero => intro b _; rfl
  | succ n ih =>
    intro b h
    have hhead : putBytes v a bs b = v b := putBytes_out (by omega)
    simp only [viewNum, hhead, ih (b + 1) (by omega)]

/-! ### The frame read back (spec/60_exceptions.md R389, R398) -/

/-- Words at two addresses share no byte. -/
def WordsApart (a b : Word) : Prop := a.toNat + 4 ≤ b.toNat ∨ b.toNat + 4 ≤ a.toNat

/-- Words at different multiples of 4 below one address are apart, also where the subtraction wraps: `4` divides
`2 ^ 32`. -/
theorem wordsApart_sub (top : Word) {i j : Nat} (hi : 4 ∣ i) (hj : 4 ∣ j) (hij : i < j) (hle : j ≤ 16) :
    WordsApart (top - BitVec.ofNat 32 i) (top - BitVec.ofNat 32 j) := by
  have htop := top.isLt
  simp only [WordsApart, BitVec.toNat_sub, BitVec.toNat_ofNat]
  omega

/-- The words of a list of offsets and values stand apart below the active stack pointer. -/
def FrameApart (s : State) (ws : List (Nat × Word)) : Prop :=
  ws.Pairwise fun e f => WordsApart (entryStack s - BitVec.ofNat 32 e.1) (entryStack s - BitVec.ofNat 32 f.1)

theorem frameWords_apart (s : State) (ipSave : Word) : FrameApart s (frameWords s ipSave) := by
  have hoffsets : (frameWords s ipSave).Pairwise fun e f => 4 ∣ e.1 ∧ 4 ∣ f.1 ∧ e.1 < f.1 ∧ f.1 ≤ 16 := by
    simp [frameWords]
  exact hoffsets.imp fun ⟨he, hf, hlt, hle⟩ => wordsApart_sub (entryStack s) he hf hlt hle

/-- Every word of the list may be written by an entry. -/
def FrameWritable (s : State) (ws : List (Nat × Word)) : Prop :=
  ∀ e ∈ ws, (accessPlan true s.plat (entryStack s - BitVec.ofNat 32 e.1).toNat 4 true).2 = none

theorem frameView_cons {s : State} {v : Nat → Option Byte} {k : Nat} {w : Word} {ws : List (Nat × Word)}
    (h : FrameWritable s ((k, w) :: ws)) :
    frameView s v ((k, w) :: ws) =
      frameView s (putBytes v (entryStack s - BitVec.ofNat 32 k).toNat (leBytes 4 w.toNat)) ws := by
  have hk := h (k, w) List.mem_cons_self
  simp only [frameView, hk]

/-- A number apart from every frame word is in view as before the frame was written. -/
theorem viewNum_frameView_apart {s : State} {b : Word} (ws : List (Nat × Word)) : ∀ v, FrameWritable s ws →
    (∀ e ∈ ws, WordsApart b (entryStack s - BitVec.ofNat 32 e.1)) →
    viewNum (frameView s v ws) b.toNat 4 = viewNum v b.toNat 4 := by
  induction ws with
  | nil => intro v _ _; rfl
  | cons e ws ih =>
    intro v hw hb
    have hhead : WordsApart b (entryStack s - BitVec.ofNat 32 e.1) := hb e List.mem_cons_self
    rw [frameView_cons hw, ih _ (fun f hf => hw f (List.mem_cons_of_mem e hf))
      (fun f hf => hb f (List.mem_cons_of_mem e hf))]
    exact viewNum_putBytes_apart 4 _ (by rwa [leBytes_length])

/-- Every frame word is in view once the frame is written, where RAM owns its addresses: no later word covers it. -/
theorem viewNum_frameView {s : State} (ws : List (Nat × Word)) : ∀ v, FrameWritable s ws → FrameApart s ws →
    ∀ e ∈ ws, (∀ j, j < 4 → (v ((entryStack s - BitVec.ofNat 32 e.1).toNat + j)).isSome = true) →
      viewNum (frameView s v ws) (entryStack s - BitVec.ofNat 32 e.1).toNat 4 = some e.2.toNat := by
  induction ws with
  | nil => intro v _ _ e he; cases he
  | cons f ws ih =>
    intro v hw hap e he hram
    obtain ⟨hfirst, hrest⟩ := List.pairwise_cons.1 hap
    have hwrest : FrameWritable s ws := fun f' hf => hw f' (List.mem_cons_of_mem f hf)
    rw [frameView_cons hw]
    rcases List.mem_cons.1 he with rfl | he
    · rw [viewNum_frameView_apart ws _ hwrest hfirst]
      exact viewNum_putBytes_self e.2.isLt hram
    · exact ih _ hwrest hrest e he fun j hj => by rw [isSome_putBytes]; exact hram j hj

theorem EntryPermitted.frameWritable {v : BitVec 8} {s : State} (h : EntryPermitted v s) (ipSave : Word) :
    FrameWritable s (frameWords s ipSave) := fun e he => h.1 e.1 (frameWords_offsets s ipSave e he)

/-- RAM owns the bytes of the four frame words. -/
def FrameInRam (s : State) : Prop :=
  ∀ k ∈ [4, 8, 12, 16], ∀ j < 4, (ramView s ((entryStack s - BitVec.ofNat 32 k).toNat + j)).isSome = true

section
variable {v : BitVec 8} {ipSave : Word} {before : Reach} {s t : State} (he : Entered v ipSave before s t)
include he

/-- After an entry SP stands at the lowest frame word, and the others above it. -/
theorem Entered.sp_add {k : Nat} (hk : k ≤ 16) :
    t.sp + BitVec.ofNat 32 k = entryStack s - BitVec.ofNat 32 (16 - k) := by
  obtain ⟨h, _, hregs⟩ := he.regs
  have hsp : t.sp = entryStack s - 16 := congrArg Regs.sp hregs
  have hsum : BitVec.ofNat 32 (16 - k) + BitVec.ofNat 32 k = 16 := by
    rw [← BitVec.ofNat_add, Nat.sub_add_cancel hk]
    rfl
  rw [hsp, ← hsum, sub_add_eq_sub_sub, sub_add_cancel]

/-- A word read `k` bytes above SP after the entry is the frame word written there. -/
theorem Entered.frame_value (hperm : EntryPermitted v s) (hram : FrameInRam s) {k : Nat} {w x : Word} (hk : k ≤ 16)
    (hword : (16 - k, w) ∈ frameWords s ipSave) (hx : ValueOf t (Loc.mem (t.sp + BitVec.ofNat 32 k) : Loc .b32) x) :
    x = w := by
  have hview : viewNum (ramView t) (entryStack s - BitVec.ofNat 32 (16 - k)).toNat 4 = some w.toNat := by
    rw [show ramView t = viewWithFrame s ipSave from funext he.ram, ← frameView_all hperm]
    exact viewNum_frameView (frameWords s ipSave) _ (hperm.frameWritable ipSave) (frameWords_apart s ipSave) _ hword
      (hram _ (frameWords_offsets s ipSave _ hword))
  rw [he.sp_add hk] at hx
  exact BitVec.eq_of_toNat_eq (hx _ hview)

/-- The reads of a return right after an entry are the entry's own frame words. -/
theorem Entered.returnReads_reach (x : Nat) (hx : Reaches (returnReads t) x) : Reaches (entryReach v s) x := by
  obtain ⟨e, hmem, hx⟩ := hx
  obtain ⟨k, hk, rfl⟩ := List.mem_map.1 hmem
  refine ⟨_, ?_, hx⟩
  simp only [List.mem_cons, List.not_mem_nil, or_false] at hk
  rw [he.sp_add (by omega)]
  exact frame_reach (by simp only [List.mem_cons, List.not_mem_nil, or_false]; omega)

end

/-! ### The flags word (R389) -/

theorem flagsWord_f (s : State) : BitVec.ofNat 16 (flagsWord s).toNat = s.f := by
  rw [← lowHalf_eq_ofNat, lowHalf, flagsWord, BitVec.extractLsb'_append_eq_right]

theorem flagsWord_pf (s : State) : (flagsWord s).getLsbD 16 = s.ie ∧ (flagsWord s).getLsbD 17 = s.pv ∧
    (flagsWord s).getLsbD 18 = s.ii := by
  simp only [flagsWord, pfImage, BitVec.getLsbD_append, BitVec.getLsbD_ofBool]
  simp

/-! ### An entry and the return from it -/

/-- Settles O21: the four words IRET reads are those INT wrote, at the addresses it wrote them to. -/
theorem entryThenReturn : Obligations.EntryThenReturn := by
  intro s v hi hallowed hperm hframe
  have hram : FrameInRam s := fun k hk => (hframe k hk).2
  obtain ⟨t, ht, he⟩ := intEnters s v hi hallowed hperm
  obtain ⟨h, _, hregs⟩ := he.regs
  have hpv : t.pv = true := congrArg Regs.pv hregs
  have hread : ∀ k ∈ [0, 4, 8, 12], Readable t (Loc.mem (t.sp + BitVec.ofNat 32 k) : Loc .b32) := fun k hk => by
    simp only [List.mem_cons, List.not_mem_nil, or_false] at hk
    simp only [Readable, locPlan, he.sp_add (show k ≤ 16 by omega), he.plat, hpv]
    exact (hframe (16 - k) (by simp only [List.mem_cons, List.not_mem_nil, or_false]; omega)).1
  obtain ⟨w, sp, bp, ip, hw, hsp, hbp, hip, u, hu, hleft⟩ := (iretRestores t (he.inv hi) hpv).2 hread
  rw [← BitVec.add_zero t.sp] at hw
  obtain rfl : w = flagsWord s := he.frame_value hperm hram (k := 0) (by decide) (by simp [frameWords]) hw
  obtain rfl : sp = s.sp := he.frame_value hperm hram (k := 4) (by decide) (by simp [frameWords]) hsp
  obtain rfl : bp = s.bp := he.frame_value hperm hram (k := 8) (by decide) (by simp [frameWords]) hbp
  obtain rfl : ip = s.ip + 2 := he.frame_value hperm hram (k := 12) (by decide) (by simp [frameWords]) hip
  obtain ⟨hie, hpvBit, hii⟩ := flagsWord_pf s
  refine ⟨t, u, ht, hu, ?_, fun x => ?_, fun hn => ?_⟩
  · rw [hleft.regs, hregs, flagsWord_f, hie, hpvBit, hii]
    rfl
  · rw [hleft.ram, putBytes_nil, he.ram]
  · have hsilent : Silent s t := he.silent hn
    exact hsilent.trans he.plat (hleft.silent (hsilent.noDevice he.plat (hn.mono he.returnReads_reach)))

end Sys2Proof.Machine

/-! Exceptions (spec/60_exceptions.md R380 to R401): which action a step takes, a fault and a pending request as
entries, an entry that fails as a double fault, the privilege check refused, and the pending latch. -/

namespace Sys2Proof.Machine

/-! ### A step's action (R380) -/

/-- Settles O6. -/
theorem stepRunsDecoded : Obligations.StepRunsDecoded := fun _ _ hrun hr =>
  ⟨fun _ => step_executes hrun hr, fun _ => step_refuses hrun hr⟩

/-- A pending request whose entry is permitted reaches its handler, the latch cleared before the entry. -/
theorem step_pending_enters {s : State} (hi : StateInv s) (hh : s.halted = false) (hp : s.pend = true)
    (hperm : EntryPermitted s.pendVec s) :
    ∃ t, step s = .next t ∧ Entered s.pendVec s.ip [] { s with pend := false } t :=
  ⟨_, step_pending (ne_true_of_eq_false hh) hp,
    dispatch_ok (s := { s with pend := false }) (hi.congr rfl rfl rfl) s.pendVec s.ip hperm⟩

/-- A pending request whose entry fails is a double fault, the latch cleared all the same. -/
theorem step_pending_double_faults {s : State} (hi : StateInv s) (hh : s.halted = false) (hp : s.pend = true)
    (hperm : ¬ EntryPermitted s.pendVec s) :
    ∃ t, step s = .next t ∧ DoubleFaulted s.pendVec s.ip { s with pend := false } t (regsOf s) :=
  ⟨_, step_pending (ne_true_of_eq_false hh) hp,
    dispatch_double_fault (s := { s with pend := false }) (hi.congr rfl rfl rfl) s.pendVec s.ip hperm⟩

/-- Settles O10. -/
theorem pendingRequestServed : Obligations.PendingRequestServed := fun _ => step_pending_enters

/-! ### Faults taken (R381, R383) -/

/-- Settles O15: the vectors of the spec's table are those a fault is taken with. -/
theorem faultEntersHandler : Obligations.FaultEntersHandler := by
  intro e ip0 s hi v hperm
  have hv : v = faultVector e := by cases e <;> rfl
  rw [hv] at hperm ⊢
  exact takeFault_ok hi e ip0 hperm

/-! ### Double faults (R395) -/

/-- An entry that fails after IP was written leaves IP as written: the frame depends on the saved address alone. -/
theorem dispatch_double_fault_with_ip {s : State} (hi : StateInv s) {v : BitVec 8} (ipSave x : Word)
    (h : ¬ EntryPermitted v s) :
    DoubleFaulted v ipSave s (dispatch v ipSave { s with ip := x }) { regsOf s with ip := x } := by
  obtain ⟨u, hu, hf⟩ := dispatch_double_fault (hi.with_ip x) v ipSave h
  refine ⟨u, hu, fun hi => hf.inv (hi.with_ip x), hf.regs, ?_, hf.ram, fun hn => ?_⟩
  · exact ⟨hf.rest.win, hf.rest.winBase, hf.rest.winValid, hf.rest.plat, hf.rest.device⟩
  · have hs := hf.silent hn
    exact ⟨hs.devLog, hs.devCount, hs.halted, hs.pend, hs.pendVec, hs.lines⟩

/-- Settles O16: INT has advanced IP before its entry, a request leaves it, a fault puts it back. -/
theorem doubleFaultHalts : Obligations.DoubleFaultHalts := by
  intro s v hi hperm
  refine ⟨fun hallowed => ?_, fun hh hp hv => ?_, fun e ip0 he => ?_⟩
  · exact ⟨_, exec_int_of_allowed hallowed, dispatch_double_fault_with_ip hi (nextIp s 2) (nextIp s 2) hperm⟩
  · subst hv
    exact step_pending_double_faults hi hh hp hperm
  · subst he
    exact dispatch_double_fault_with_ip hi ip0 ip0 hperm

/-! ### The privilege check refused (R401) -/

theorem needPrivilege_refused {α : Type} {s : State} (hp : s.pv = false) (k : Res α) :
    needPrivilege s k = .raise .generalProtection s := if_neg (by simp [hp])

/-- A fault raised when nothing but IP had moved reached no memory. -/
theorem traps_of_ip {i : Instr} {s : State} {e : Fault} {x : Word}
    (h : exec i s = complete s (.raise e { s with ip := x })) : Traps i s e [] 0 [] := by
  rw [traps_iff, h]
  exact raises_of (x := x) (Leaves.refl { s with ip := x } []).of_ip

/-- A form whose check of PV comes before any access traps in unprivileged code, none made. -/
theorem privileged_traps {i : Instr} {s : State} {x : Word} {k : Res Unit} (hp : s.pv = false)
    (hexec : exec i s = complete s (needPrivilege { s with ip := x } k)) : Traps i s .generalProtection [] 0 [] :=
  traps_of_ip (x := x) (by rw [hexec, needPrivilege_refused (s := { s with ip := x }) hp])

/-- A source form whose action checks PV first traps in unprivileged code once its source is read (R385). -/
theorem rimSrcThen_privileged_traps {i : Instr} {s : State} {w : Width} {o : RimSrc w}
    {act : BitVec w.bits → State → Res Unit} (hi : StateInv s) (hp : s.pv = false)
    (hexec : exec i s = rimSrcThen o (fun v t => needPrivilege t (act v t)) s)
    (hnext : nextOf i s = nextIp s (2 + o.tail)) (hread : Readable s (rimSrcLoc o (nextOf i s) s)) :
    Traps i s .generalProtection (locReach (rimSrcLoc o (nextOf i s) s)) 0 [] := by
  rw [hnext] at hread ⊢
  obtain ⟨v, s1, _, hpass, hrun⟩ := (rimSrcThen_spec hi o fun v t => needPrivilege t (act v t)).2 hread
  have hadvanced := hpass.leaves.set (u := { s1 with ip := nextIp s (2 + o.tail) })
    ⟨rfl, rfl, rfl, rfl, rfl, rfl, rfl, rfl, rfl, rfl, rfl⟩
  rw [show regsOf { s1 with ip := nextIp s (2 + o.tail) } = { regsOf s with ip := nextIp s (2 + o.tail) } by
    rw [← hpass.kept.regs]; rfl] at hadvanced
  have hpv : ({ s1 with ip := nextIp s (2 + o.tail) } : State).pv = false := hpass.kept.pv.trans hp
  rw [traps_iff, hexec, hrun, needPrivilege_refused hpv]
  exact raises_of hadvanced

/-- INT of another vector than the syscall's is refused in unprivileged code (spec/47_system.md R372). -/
theorem int_refused_traps {s : State} {v : BitVec 8} (hp : s.pv = false) (hv : v ≠ 0x20) :
    Traps (.int v) s .generalProtection [] 0 [] :=
  traps_of_ip (x := nextIp s 2) (congrArg (complete s) (if_pos (by simpa [hp] using hv)))

/-- Settles O19: every form's action is behind the check, and the two loads have read their source before it. -/
theorem privilegedRefused : Obligations.PrivilegedRefused := by
  intro s hp
  refine ⟨privileged_traps hp rfl, privileged_traps hp rfl, privileged_traps hp rfl,
    fun _ hv => int_refused_traps hp hv, fun _ => privileged_traps hp rfl, fun _ => privileged_traps hp rfl,
    fun o hi hread => ?_, fun o hi hread => ?_⟩
  · exact rimSrcThen_privileged_traps (w := .b32) (act := fun v t => .ok () { t with isp := v }) hi hp rfl rfl hread
  · exact rimSrcThen_privileged_traps (w := .b16) (act := fun v t => .ok () (setPf v t)) hi hp rfl rfl hread

/-! ### The pending latch (R386, R387) -/

theorem fireMaskable_refused {s : State} (h : s.ie = false) (v : BitVec 8) : fireMaskable v s = (false, s) :=
  if_neg (by simp [h])

theorem fireMaskable_accepted {s : State} (h : s.ie = true) (v : BitVec 8) :
    fireMaskable v s = (true, { s with pend := true, pendVec := v }) := if_pos h

/-- Settles O56: the step after an accepted request sees the latch and not IE. -/
theorem requestsLatched : Obligations.RequestsLatched := by
  intro s v
  refine ⟨fun h => fireMaskable_refused h v, fun h => ?_, rfl, fun hi h hh => ?_⟩
  · rw [fireMaskable_accepted h]
    exact ⟨rfl, rfl⟩
  · rw [fireMaskable_accepted h]
    have hlatched : StateInv { s with ie := false, pend := true, pendVec := v } := hi.congr rfl rfl rfl
    by_cases hperm : EntryPermitted v s
    · obtain ⟨t, ht, he⟩ := step_pending_enters hlatched hh rfl hperm
      exact ⟨t, ht, fun _ => he, fun hn => absurd hperm hn⟩
    · obtain ⟨t, ht, hd⟩ := step_pending_double_faults hlatched hh rfl hperm
      exact ⟨t, ht, fun h => absurd h hperm, fun _ => hd⟩

end Sys2Proof.Machine

/-! That every meaning and every step answers a next state (spec/60_exceptions.md R380, R383): a meaning is the
completion of its action, and `complete` takes the fault an action raises. -/

namespace Sys2Proof.Machine

/-! ### Completions (R383) -/

/-- The end of an instruction: a fault raised is a fault taken, so both results have a next state. -/
theorem complete_next (s : State) (r : Res Unit) : ∃ t, complete s r = .next t := by
  cases r with
  | ok _ t => exact ⟨t, rfl⟩
  | raise e t => exact ⟨takeFault e s.ip t, rfl⟩

/-- An outcome is the end of an instruction that began in `s`, whatever its action does. -/
def Completion (s : State) (o : Out) : Prop := ∃ r, o = complete s r

theorem Completion.next {s : State} {o : Out} (h : Completion s o) : ∃ t, o = .next t := by
  obtain ⟨r, rfl⟩ := h
  exact complete_next s r

/-! ### Shapes of instructions -/

theorem bare_completion (len : Nat) (act : State → Res Unit) (s : State) : Completion s (bare len act s) := ⟨_, rfl⟩

theorem rim2Read_completion {wd ws : Width} (extra : Nat) (o : Rim2 wd ws)
    (op : BitVec wd.bits → BitVec ws.bits → Option (AluOut wd.bits)) (s : State) :
    Completion s (rim2Read extra o op s) := ⟨_, rfl⟩

theorem rim2Write_completion {wd ws : Width} (extra : Nat) (o : Rim2 wd ws)
    (op : BitVec ws.bits → Option (BitVec wd.bits)) (s : State) : Completion s (rim2Write extra o op s) := ⟨_, rfl⟩

theorem rimSrcThen_completion {w : Width} (o : RimSrc w) (act : BitVec w.bits → State → Res Unit) (s : State) :
    Completion s (rimSrcThen o act s) := ⟨_, rfl⟩

theorem rimDstThen_completion {w : Width} (o : RimDst w) (act : Loc w → State → Res Unit) (s : State) :
    Completion s (rimDstThen o act s) := ⟨_, rfl⟩

theorem rimDstRead_completion {w : Width} (extra : Nat) (o : RimDst w) (op : BitVec w.bits → AluOut w.bits)
    (s : State) : Completion s (rimDstRead extra o op s) := ⟨_, rfl⟩

theorem szRead_completion (o : Rim2Sz) (op : (w : Nat) → BitVec w → BitVec w → Option (AluOut w)) (s : State) :
    Completion s (szRead o op s) := by
  cases o with
  | w16 o => exact rim2Read_completion 0 o (op 16) s
  | w8 o => exact rim2Read_completion 0 o (op 8) s

theorem szWrite_completion (extra : Nat) (o : Rim2Sz) (op : (w : Nat) → BitVec w → Option (BitVec w)) (s : State) :
    Completion s (szWrite extra o op s) := by
  cases o with
  | w16 o => exact rim2Write_completion extra o (op 16) s
  | w8 o => exact rim2Write_completion extra o (op 8) s

theorem szDstRead_completion (extra : Nat) (o : RimDstSz) (op : (w : Nat) → BitVec w → AluOut w) (s : State) :
    Completion s (szDstRead extra o op s) := by
  cases o with
  | w16 o => exact rimDstRead_completion extra o (op 16) s
  | w8 o => exact rimDstRead_completion extra o (op 8) s

theorem promRead_completion (o : Rim2Prom) (op : (w w2 : Nat) → BitVec w2 → BitVec w → Option (AluOut w2))
    (s : State) : Completion s (promRead o op s) := by
  cases o with
  | w16 o => exact rim2Read_completion 0 o (op 16 32) s
  | w8 o => exact rim2Read_completion 0 o (op 8 16) s

theorem promWrite_completion (o : Rim2Prom) (op : (w w2 : Nat) → BitVec w → BitVec w2) (s : State) :
    Completion s (promWrite o op s) := by
  cases o with
  | w16 o => exact rim2Write_completion 0 o (fun v => some (op 16 32 v)) s
  | w8 o => exact rim2Write_completion 0 o (fun v => some (op 8 16 v)) s

theorem shiftBy_completion (k : ShiftKind) (o : Rim2Sz) (s : State) : Completion s (shiftBy k o s) :=
  szRead_completion o _ s

theorem shiftOne_completion (k : ShiftKind) (o : RimDstSz) (s : State) : Completion s (shiftOne k o s) :=
  szDstRead_completion 0 o _ s

theorem movImm_completion (n : Fin 8) (imm : BitVec 16) (s : State) : Completion s (movImm n imm s) :=
  bare_completion 3 _ s

theorem pushReg16_completion (n : Fin 8) (s : State) : Completion s (pushReg16 n s) := bare_completion 1 _ s

theorem popReg16_completion (n : Fin 8) (s : State) : Completion s (popReg16 n s) := bare_completion 1 _ s

theorem execPush_completion (o : RimSrcSz) (s : State) : Completion s (execPush o s) := by
  cases o with
  | w16 o => exact rimSrcThen_completion o (push .b16) s
  | w8 o => exact rimSrcThen_completion o (push .b8) s

theorem execPop_completion (o : RimDstSz) (s : State) : Completion s (execPop o s) := by
  cases o with
  | w16 o => exact rimDstThen_completion o popTo s
  | w8 o => exact rimDstThen_completion o popTo s

/-! ### Every instruction and every step -/

/-- Every instruction has one of the shapes, and so is a completion: no arm stops the machine. -/
theorem exec_completion (i : Instr) (s : State) : Completion s (exec i s) := by
  cases i with dsimp only [exec]
  -- two operands
  | add o | adc o | sub o | sbb o | cmp o | mul o | div o | divs o | and o | or o | xor o =>
    exact szRead_completion o _ s
  | shl o | shr o | sar o | rol o | ror o | rcl o | rcr o => exact shiftBy_completion _ o s
  | addw o | adcw o | subw o | sbbw o | cmpw o | padd _ o | padc _ o | psub _ o | psbb _ o | pcmp _ o | pmul _ o
  | pmulh _ o | pmulsh _ o | pdiv _ o | pdivs _ o | pdivm _ o | pdivms _ o => exact rim2Read_completion 0 o _ s
  | pcmov _ o _ => exact rim2Read_completion 1 o _ s
  | mulh o | mulsh o | divm o | divms o => exact promRead_completion o _ s
  | mov o => exact szWrite_completion 0 o _ s
  | cmov o _ => exact szWrite_completion 1 o _ s
  | movw o => exact rim2Write_completion 0 o _ s
  | movs o | movz o => exact promWrite_completion o _ s
  -- one operand
  | cmpi o _ => exact szDstRead_completion 1 o _ s
  | not o => exact szDstRead_completion 0 o _ s
  | shl1 o | shr1 o | sar1 o | rol1 o | ror1 o | rcl1 o | rcr1 o => exact shiftOne_completion _ o s
  | push o => exact execPush_completion o s
  | pop o => exact execPop_completion o s
  | movToIsp o | movToPf o | pushw o | jmpa o | calla o => exact rimSrcThen_completion o _ s
  | movFromIsp o | movFromPf o | popw o => exact rimDstThen_completion o _ s
  -- no operand, or an immediate alone
  | movImmA imm | movImmB imm | movImmC imm | movImmD imm | movImmI imm | movImmJ imm | movImmK imm | movImmL imm =>
    exact movImm_completion _ imm s
  | pushA | pushB | pushC | pushD | pushI | pushJ | pushK | pushL => exact pushReg16_completion _ s
  | popA | popB | popC | popD | popI | popJ | popK | popL => exact popReg16_completion _ s
  | nop | hlt | ret | iret | int | pushPf | popPf | pushBp | pushSp | popBp | popSp | jmpRel8 | jmpRel16 | jmpRel32
  | callRel16 | callRel32 | jccRel8 | jccRel16 => exact bare_completion _ _ s

/-- Each branch of a step (R380) has a next state: what faults before an instruction is known is taken as well. -/
theorem step_next (s : State) : ∃ t, step s = .next t := by
  by_cases hh : s.halted = true
  · exact ⟨s, step_halted hh⟩
  by_cases hp : s.pend = true
  · exact ⟨_, step_pending hh hp⟩
  have hrun : Running s := ⟨Bool.eq_false_iff.2 hh, Bool.eq_false_iff.2 hp⟩
  cases hr : refill s with
  | raise r t => exact ⟨_, step_fetch_fault hrun hr⟩
  | ok _ t =>
    cases hd : decode t.win with
    | error e => exact ⟨_, step_refuses hrun hr hd⟩
    | ok i =>
      rw [step_executes hrun hr hd]
      exact (exec_completion i t).next

/-- Settles O11: a meaning is a completion, and every branch of a step ends in a completion or an entry. -/
theorem stepAnswersNext : Obligations.StepAnswersNext := ⟨fun i s => (exec_completion i s).next, step_next⟩

end Sys2Proof.Machine

/-! Reset (spec/10_state.md R43, spec/70_reset_and_hazards.md R430 to R433): what the kinds of reset have in common. -/

namespace Sys2Proof.Machine

/-- Every kind of reset leaves a state that a reset of the core leaves as it is: the core's own state is the reset
one, over whatever memory, cache and platform there is. -/
theorem resetCore_of_reset {s r : State} (h : r ∈ [State.reset, resetCore s, resetMachine s]) : resetCore r = r := by
  simp only [List.mem_cons, List.not_mem_nil, or_false] at h
  rcases h with rfl | rfl | rfl
  · rfl
  · rfl
  · rfl

/-- Settles O57: the reset core has IE clear, and with IE clear a maskable request is refused. -/
theorem resetMode : Obligations.ResetMode := by
  intro s r h
  rw [← resetCore_of_reset h]
  exact ⟨rfl, rfl, rfl, fun v => congrArg Prod.fst (fireMaskable_refused rfl v)⟩

/-- Settles O58: a reset state's own fields are those of a reset of the core, and what stays is copied. -/
theorem resetValues : Obligations.ResetValues := by
  intro s r h
  rw [← resetCore_of_reset h]
  exact ⟨rfl, rfl, rfl, rfl, rfl, rfl, rfl, rfl, rfl, rfl, rfl, rfl⟩

/-- Settles O12: the one segment is valid, and nothing is cached. -/
theorem resetInvariant : Obligations.ResetInvariant := ⟨by decide, reset_mem_wf, rfl, rfl, fun _ => rfl⟩

end Sys2Proof.Machine

/-! The spec's example words (spec/30_encoding.md R172): each is the encoding of the instruction the spec says it is. -/

namespace Sys2Proof

/-- The round trip for an encoding written out. -/
theorem decode_of_encode_eq {i : Instr} {bs : List Byte} (hwf : wellFormed i = true) (h : encode i = bs) :
    decode (Window.ofList bs) = .ok i := by
  have hround := decodeOfEncode i [] hwf
  rwa [h, List.append_nil] at hround

/-- Settles O3: the encoder gives the eight words, and `decode` reads back what was encoded. -/
theorem decodingWords : Obligations.DecodingWords :=
  ⟨decode_of_encode_eq rfl rfl, decode_of_encode_eq rfl rfl, decode_of_encode_eq rfl rfl, decode_of_encode_eq rfl rfl,
    decode_of_encode_eq rfl rfl, decode_of_encode_eq rfl rfl, decode_of_encode_eq rfl rfl, decode_of_encode_eq rfl rfl⟩

end Sys2Proof
